-- ==== Sys2Proof/Word.lean ====
section
/-! DEFINITION. The word types of the part: bytes, block payloads, chain values and the byte strings of
chapter 11. -/

namespace Sys2Proof

/-- One byte of a frame or record. -/
abbrev Byte := BitVec 8

/-- A block: 4,096 bytes of logical data (00_scope, Numbers and units). Byte i of the block is bits
8 i to 8 i + 7, so that a multi-byte field stored least significant byte first (chapter 11) is a run of
consecutive bits. -/
abbrev Block := BitVec 32768

/-- A payload check or a chain value: 32 bits, arithmetic mod 2^32 (R14, R16). -/
abbrev Chain := BitVec 32

/-- The block of 4,096 zero bytes. -/
def zeroBlock : Block := 0#32768

end Sys2Proof
end

