-- ==== Sys2Proof/Syntax.lean ====
section
/-! DEFINITION. The commands of the part: one constructor for each row of spec/opcode_table.json, and the
messages they carry (request frames, channel completions). -/

namespace Sys2Proof

/-- The two ports (00_scope, Names). -/
inductive Port where
  | A
  | B
deriving DecidableEq, Repr

/-- The other port (00_scope, Names). -/
def Port.other : Port → Port
  | .A => .B
  | .B => .A

/-- A request frame as it arrives: the fields of its header as section 11.1 lays them out, with their widths,
and its data blocks (R150). A field that the kind of the request does not use is carried and not examined (R176). -/
structure RequestFrame where
  tag : BitVec 16
  kind : BitVec 8
  custody : BitVec 16
  dataCount : BitVec 16
  stream : BitVec 8
  zoneOrder : BitVec 8
  coldPlacement : BitVec 8
  apply : BitVec 8
  band : BitVec 32
  lbn : BitVec 64
  length : BitVec 32
  param : BitVec 16
  value : BitVec 64
  data : List Block
deriving DecidableEq, Repr

/-- The 32-byte trailer of a sector, by its fields (R7, R177). The bytes the layout shows as zero are written
zero and not examined (R176), so they are no fields here. -/
structure Trailer where
  kind : BitVec 8
  stamp : BitVec 16
  band : BitVec 32
  logical : BitVec 64
  sequence : BitVec 48
  chain : Chain
deriving DecidableEq, Repr, Inhabited

/-- A sector: one block of payload and its trailer (section 1.4). -/
structure Sector where
  payload : Block
  trailer : Trailer
deriving DecidableEq, Repr, Inhabited

/-- A zone record of the geometry record (R1). -/
structure ZoneRecord where
  firstBand : Nat
  bandCount : Nat
  tpb : Nat
  spt : Nat
  firstTrack : Nat
deriving DecidableEq, Repr, Inhabited

/-- The geometry record: a logical capacity and a list of zone records (R1). -/
structure GeometryRecord where
  capacity : Nat
  zones : List ZoneRecord
deriving DecidableEq, Repr

/-- The outcomes a completion reports (R103). -/
inductive MediaOutcome where
  | complete
  | offTrack
  | writeFault
  | unreadable
  | notReady
deriving DecidableEq, Repr

/-- What a completion delivers with its outcome (R103): the sectors read, the geometry record, the settings record
or nothing. -/
inductive Delivery where
  | nothing
  | sectors (l : List Sector)
  | geometry (g : GeometryRecord)
  | record (b : Block)
deriving DecidableEq, Repr

/-- A completion of the channel: the issue it answers, its outcome, its count k and what it delivers (R103). -/
structure Completion where
  issue : BitVec 8
  outcome : MediaOutcome
  k : Nat
  delivery : Delivery
deriving DecidableEq, Repr

/-- The commands of the part, one for each row of the table. The take of a request names the port whose head request
is taken: the request's own fields came with its REQUEST_ARRIVAL. -/
inductive Instr where
  -- power and links
  | powerOn
  | linkUp (p : Port)
  | linkDown (p : Port)
  | requestArrival (p : Port) (f : RequestFrame)
  -- takes of the request at the head of a port's queue
  | takeUnknownKind (p : Port)
  | place (p : Port)
  | fetch (p : Port)
  | release (p : Port)
  | locate (p : Port)
  | drain (p : Port)
  | streamSetBoundary (p : Port)
  | streamSetNow (p : Port)
  | fence (p : Port)
  | admitPort (p : Port)
  | halt (p : Port)
  | run (p : Port)
  | restart (p : Port)
  | set (p : Port)
  | get (p : Port)
  | saveSettings (p : Port)
  | loadDefaults (p : Port)
  | status (p : Port)
  | bandQuery (p : Port)
  | verifyBand (p : Port)
  | noticeFetch (p : Port)
  -- messages of the channel
  | channelCompletion (c : Completion)
  | temperatureReport (cls : Fin 4)
  -- timers
  | channelTimerExpiry
  | notReadyWaitExpiry
  | stalenessTimerExpiry
  | slotWaitTimerExpiry (p : Port)
  | idleTimerExpiry
  | geometryRetryExpiry
  -- follow-on steps
  | heldRequestHanded
  | fetchRetake
  | verifyBandRetake
  | drainAnswered
  | haltedEntered
  | fetchResponse
  | heldResetLastPin (b : Nat)
  | chooseNextWork
  | parcelAgeLimitReached (t : Fin 8)
deriving DecidableEq, Repr

end Sys2Proof
end

