-- ==== Sys2Proof/Decode.lean ====
section
/-! DEFINITION. The command that a word spells by the table's bits. -/

namespace Sys2Proof

/-- No row of spec/opcode_table.json gives bits (every row's fields are empty), so no word spells a command (assumption 13). -/
def decodeTableWord (_nbits _w : Nat) : Option Instr :=
  none

end Sys2Proof
end

