-- ==== Sys2Proof/Config.lean ====
section
/-! DEFINITION. What the part fixes (capacities, periods, the tabulated constants of the rules) and the FREE VALUES: opaque constants
that stand for what the spec leaves unstated. Nothing can be proved of a free value's own content. -/

namespace Sys2Proof.Config

/-- Slot pool, in blocks (R67). -/
abbrev poolBlocks : Nat := 16384
/-- Note entries (R70). -/
abbrev noteEntries : Nat := 64
/-- Extent records the map can hold (R49). -/
abbrev mapCapacity : Nat := 1048576
/-- The relocation reserve of extent records (R50). -/
abbrev mapReserve : Nat := 64
/-- Extent records kept from MEDIA records at a map build (R174). -/
abbrev rebuildReserve : Nat := 4096
/-- The largest LOST record (R45). -/
abbrev lostLimit : Nat := 2 ^ 24
/-- The reserve of EMPTY bands that host streams leave (R42). -/
abbrev bandReserve : Nat := 2
/-- The most sectors a run holds (R6). -/
abbrev runLimit : Nat := 1024
/-- The most read runs a FETCH serves, and the entries of the read-run queue (R63, R115). -/
abbrev readQueueEntries : Nat := 64
/-- Blocks of the read buffer (R115). -/
abbrev readBufferBlocks : Nat := 2048
/-- Entries of a summary builder (R99). -/
abbrev summaryEntries : Nat := 1024
/-- Entries of the VERIFY_BAND queue (R133). -/
abbrev verifyEntries : Nat := 4
/-- Records of a notice list (R164). -/
abbrev noticeRecords : Nat := 16
/-- Frame positions of an inbound store, and the outstanding tags of a port (R152, R153). -/
abbrev inboundFrames : Nat := 32
/-- Data blocks of an inbound store (R152). -/
abbrev inboundBlocks : Nat := 2048
/-- The free data blocks the store needs before a frame is received, and the largest data count (R152). -/
abbrev frameBlocks : Nat := 1024
/-- The largest RELEASE unit (R54). -/
abbrev releaseUnit : Nat := 65536
/-- LOCATE descriptors in one response (R66). -/
abbrev locateDescriptors : Nat := 64
/-- The value at which the sequence counter stops accepting (R73). -/
abbrev sequenceLimit : Nat := 2 ^ 48 - 1
/-- The channel timeout, in ms (R106). -/
abbrev channelTimeout : Nat := 30000
/-- The wait after NOT_READY, in ms (R108). -/
abbrev notReadyWait : Nat := 1000
/-- The delay before GEOMETRY is issued again, in ms (R2). -/
abbrev geometryRetry : Nat := 1000
/-- The staleness period, in ms (R118). -/
abbrev stalenessPeriod : Nat := 4000
/-- The largest N_log (R170). -/
abbrev logicalLimit : Nat := 2 ^ 36

/-- FREE VALUE (assumption 7): the trailer chain of a rebuilt band's last written offset when that sector could not be read.
R173 step 5 takes it as the band's chain and does not say what it is then. Applied to the counter `freeCount`. -/
opaque unreadChain : Nat → BitVec 32

/-- FREE VALUE (assumption 7): the trailer that accompanies the settings record in a SYSTEM_WRITE. R103 gives the operation a trailer
and no rule states its content. -/
opaque systemTrailer : Block → Trailer

/-- FREE VALUE (assumption 7): the sequence counter after a rebuild whose highest sequence is the last 48-bit value: R175 adds 1 to it, and
the counter has no room for the sum. Applied to the counter `freeCount`. -/
opaque wrappedCounter : Nat → BitVec 48

/-- FREE VALUE (assumption 8): the number that stands in an 8-byte response field for a value of an enumeration that chapter 11
does not code. The first argument numbers the enumeration, the second its value. -/
opaque enumCode : Nat → Nat → BitVec 64

end Sys2Proof.Config
end

