-- ==== Sys2Proof/Machine/State.lean ====
section
/-! DEFINITION. The state of the part: every register, table, list, buffer, flag and timer the spec gives it, as plain data, and its
value at power-on (INVENTORY.md lists each with its rule). -/

namespace Sys2Proof.Machine

/-- One value for each port. -/
structure Both (α : Type) where
  a : α
  b : α
deriving DecidableEq, Repr

/-- The value of port p. -/
def Both.get {α : Type} (x : Both α) : Port → α
  | .A => x.a
  | .B => x.b

/-- The pair with the value of port p replaced. -/
def Both.set {α : Type} (x : Both α) (p : Port) (v : α) : Both α :=
  match p with
  | .A => { x with a := v }
  | .B => { x with b := v }

/-! ### Request links, custody and notices (chapter 9) -/

/-- The request kinds (R155 and the code table of section 11.1). -/
inductive Kind where
  | place | fetch | release | locate | drain | streamSet | fence | admitPort | halt | run | restart | set | get
  | saveSettings | loadDefaults | status | bandQuery | verifyBand | noticeFetch
deriving DecidableEq, Repr

/-- The response statuses (R156, Statuses). -/
inductive Status where
  | done | partially | clamped | ignored | unknownKind | badRange | tooLong | tagInUse | queueFull | notRunning | notQuiesced
  | fenced | staleCustody | mapFull | conflict | noSlot
deriving DecidableEq, Repr

/-- The notice kinds (section 9.7). -/
inductive NoticeKind where
  | bandDue | neglected | breakFound | blocksLost | retired | mapFull | freeLow | temperatureStale | custodyChanged
  | settingsDefaulted | geometryClamped | rebuildAnomaly | rebuildDone | several
deriving DecidableEq, Repr

/-- A notice record (R164). -/
structure Notice where
  kind : NoticeKind
  band : Option Nat
  count : Nat
deriving DecidableEq, Repr

/-- Who waits for the answer of a request already taken: its port, its tag and kind, and whether a link reset has orphaned
it (R163). -/
structure Requester where
  port : Port
  tag : BitVec 16
  kind : BitVec 8
  orphaned : Bool
deriving DecidableEq, Repr

/-- The admission states of a port (R160). -/
inductive Admission where
  | active
  | fenced
deriving DecidableEq, Repr

/-- The custody unit (R160). -/
structure CustodyUnit where
  number : Nat
  admission : Both Admission
deriving DecidableEq, Repr

/-! ### Bands (chapters 1, 2 and 7) -/

/-- The states of a band (section 2.2); OPEN is `opened`. -/
inductive BandState where
  | empty | opened | closing | filled | draining | retired
deriving DecidableEq, Repr

/-- The causes for a band to be due (section 2.7). -/
inductive Cause where
  | exposure | brk | media | retire
deriving DecidableEq, Repr

/-- A set of due causes (R20). -/
structure Causes where
  exposure : Bool
  brk : Bool
  media : Bool
  retire : Bool
deriving DecidableEq, Repr

/-- The writers of bands: the eight host streams and the relocation stream (R87). -/
inductive StreamId where
  | host (t : Fin 8)
  | relocation
deriving DecidableEq, Repr

/-- A band record (R20); the dead count is derived (R28). -/
structure Band where
  number : Nat
  zone : Nat
  state : BandState
  stamp : Nat
  wp : Nat
  live : Nat
  notes : Nat
  chain : Option Chain
  openSeq : Option Nat
  minSeq : Option Nat
  exposure : Nat
  causes : Causes
  neglected : Bool
  breakOffset : Option Nat
  summaryPresent : Bool
  pins : Nat
  owner : Option StreamId
deriving DecidableEq, Repr

/-- The band table with the zone table, the due list and the critical flag (R1, R20, R37, R44). -/
structure BandTable where
  zones : List ZoneRecord
  bands : List Band
  due : List Nat
  critical : Bool
deriving DecidableEq, Repr

/-! ### The extent map (chapter 3) -/

/-- Where the blocks of an extent record are (R45). -/
inductive Location where
  | media (band offset : Nat)
  | staged (parcel index : Nat)
  | lost
deriving DecidableEq, Repr

/-- An extent record (R45). -/
structure Extent where
  start : Nat
  len : Nat
  loc : Location
deriving DecidableEq, Repr

/-- The extent map: its records in ascending order, and whether a record position is held for a write run in flight (R49, R51). -/
structure ExtentMap where
  records : List Extent
  held : Bool
deriving DecidableEq, Repr

/-! ### Staging (chapter 4) -/

/-- What a parcel carries (R71). -/
inductive ParcelKind where
  | data
  | note
deriving DecidableEq, Repr

/-- The states of a parcel (R71). -/
inductive ParcelState where
  | queued
  | flushing
deriving DecidableEq, Repr

/-- A parcel record (R71), with the time of its acceptance (R86). Its slot is its id for DATA; its note entry is its id less
S for NOTE. -/
structure Parcel where
  id : Nat
  kind : ParcelKind
  port : Port
  stream : Fin 8
  start : Nat
  length : Nat
  seq : Nat
  live : Nat
  written : Nat
  state : ParcelState
  acceptedAt : Nat
deriving DecidableEq, Repr

/-- A request on a wait list: its port and the end of its slot-wait timer (R81). -/
structure Waiter where
  port : Port
  deadline : Nat
deriving DecidableEq, Repr

/-- A DRAIN record (R84); `stream` is absent for "all". -/
structure DrainRecord where
  requester : Requester
  stream : Option (Fin 8)
  mark : Nat
  count : Nat
deriving DecidableEq, Repr

/-- A staging resource: a slot or a note entry, by number (R69, R70). -/
inductive Resource where
  | slot (n : Nat)
  | note (n : Nat)
deriving DecidableEq, Repr

/-- Staging (R67 to R86). The slot pool is the list of its blocks that are not zero, by pool block number, rising. -/
structure Staging where
  pool : List (Nat × Block)
  freeSlots : List Nat
  freeNotes : List Nat
  parcels : List Parcel
  seqCounter : Nat
  slotWait : List Waiter
  noteWait : List Waiter
  drains : List DrainRecord
deriving DecidableEq, Repr

/-! ### Streams (chapter 5) -/

/-- The zone orders (R88). -/
inductive ZoneOrder where
  | outer
  | inner
  | spread
deriving DecidableEq, Repr

/-- A stream setting (R87). -/
structure StreamSetting where
  order : ZoneOrder
  cold : Bool
deriving DecidableEq, Repr

/-- A summary entry (R13). -/
structure SummaryEntry where
  kind : ParcelKind
  offset : Nat
  start : Nat
  length : Nat
  seq : Nat
deriving DecidableEq, Repr

/-- A stream record (R87); `queue` holds parcel ids and stays empty for the relocation stream. -/
structure Stream where
  openBand : Option Nat
  queue : List Nat
  setting : StreamSetting
  pendingSetting : Option StreamSetting
  finish : Bool
  entries : List SummaryEntry
  overflow : Bool
deriving DecidableEq, Repr

/-- The stream allocator: the eight host streams and the relocation stream (R87). -/
structure Allocator where
  hosts : Vector Stream 8
  reloc : Stream
deriving DecidableEq, Repr

/-! ### The media scheduler (chapter 6) -/

/-- The kinds of media operation (R103). -/
inductive OpKind where
  | writeRun | readRun | summary | systemRead | systemWrite | geometry
deriving DecidableEq, Repr

/-- The block an operation belongs to (R104). A FETCH read run is named by its FETCH and the position of its first block in
the request. -/
inductive Owner where
  | startUp
  | fetch (id pos : Nat)
  | summaryRun
  | hostWrite (t : Fin 8)
  | relocWrite
  | relocRead
deriving DecidableEq, Repr

/-- What a sector of a write run is made from (R96): the header, an index of a parcel, the note of a parcel, or a copy of the
relocation engine's list, by its offset in the victim. -/
inductive RunItem where
  | header
  | data (parcel index lbn seq : Nat)
  | note (parcel first length seq : Nat)
  | copy (victimOffset lbn seq : Nat)
  | noteCopy (victimOffset first length seq : Nat)
deriving DecidableEq, Repr

/-- The current operation (R104). `zone` holds the zone values its positions are computed from; `issuedFrom` is the completed
count at its latest issue; `wait` is the end of a NOT_READY wait; `items` and `sectors` are what a write carries, fixed at its
first issue (R7). -/
structure Operation where
  kind : OpKind
  owner : Owner
  band : Nat
  zone : ZoneRecord
  first : Nat
  count : Nat
  issue : BitVec 8
  completed : Nat
  retries : Nat
  issuedFrom : Nat
  awaiting : Bool
  wait : Option Nat
  items : List RunItem
  sectors : List Sector
deriving DecidableEq, Repr

/-- An operation message on the channel link (R103). -/
structure OpMessage where
  issue : BitVec 8
  kind : OpKind
  track : Option Nat
  sector : Option Nat
  count : Option Nat
  spt : Option Nat
  sectors : List Sector
deriving DecidableEq, Repr

/-- The reasons a block of a FETCH is excepted (R64). -/
inductive Reason where
  | mediaError
  | mismatch
  | lost
deriving DecidableEq, Repr

/-- The answer of a FETCH for one block (R62, R117): unmapped, excepted, its data, or still to be read. -/
inductive Answer where
  | unmapped
  | excepted (r : Reason)
  | data (b : Block)
  | waiting
deriving DecidableEq, Repr

/-- A FETCH taken and not yet answered (R62 to R64, R115). -/
structure FetchRecord where
  id : Nat
  requester : Requester
  answers : List Answer
  resume : Option Nat
  runsLeft : Nat
  reserved : Nat
deriving DecidableEq, Repr

/-- An entry of the read-run queue (R63, R115, R117): `pos` is the position of its first block in the request, `completed`
counts the sectors read or excepted, `pinned` is clear when its pin was discarded at a RESTART (R112). -/
structure ReadRun where
  fetch : Nat
  pos : Nat
  lbn : Nat
  band : Nat
  stamp : Nat
  zone : ZoneRecord
  first : Nat
  count : Nat
  completed : Nat
  pinned : Bool
deriving DecidableEq, Repr

/-- The media scheduler (R104, R112, R115, R118). -/
structure Scheduler where
  current : Option Operation
  nextIssue : BitVec 8
  channelTimer : Option Nat
  readQueue : List ReadRun
  fetches : List FetchRecord
  nextFetch : Nat
  readWait : List Port
  summaries : List Nat
  pointer : Fin 8
  tempClass : Option (Fin 4)
  stale : Bool
  staleTimer : Option Nat
  sent : List OpMessage
deriving DecidableEq, Repr

/-! ### The relocation engine (chapter 8) -/

/-- What the engine is doing (R133). -/
inductive Activity where
  | idle | drain | patrol | verify
deriving DecidableEq, Repr

/-- How a victim was chosen (R133). -/
inductive VictimReason where
  | due
  | cleaning
  | pullIn
deriving DecidableEq, Repr

/-- A scan (R17 to R19). `next` is the victim's next offset; `reads` are the read runs a patrol or VERIFY_BAND scan has still
to make, as first offset and count; `readDone` counts the sectors of the read in hand; `begun` is set once the first read has
been issued; `unreadable` lists the offsets that could not be read (R19), and `runUnreadable` those of the read in hand, which are not
yet handed. -/
structure Scan where
  band : Nat
  stamp : Nat
  state : BandState
  next : Nat
  reads : List (Nat × Nat)
  readDone : Nat
  begun : Bool
  pred : Option Chain
  firstBreak : Option Nat
  unreadable : List Nat
  runUnreadable : List Nat
deriving DecidableEq, Repr

/-- The stages of a chunk (R136). -/
inductive ChunkStage where
  | reading
  | writing
  | settled
deriving DecidableEq, Repr

/-- The conditions of a copy (R136). -/
inductive CopyState where
  | unwritten
  | inFlight
  | committed
  | dead
deriving DecidableEq, Repr

/-- A copy of the copy list (R136); `length` is 1 for DATA. -/
structure Copy where
  kind : ParcelKind
  victimOffset : Nat
  lbn : Nat
  length : Nat
  seq : Nat
  payload : Block
  check : Chain
  state : CopyState
deriving DecidableEq, Repr

/-- A chunk (R136). `buffer` holds the sectors its read has delivered, absent where the sector could not be read. -/
structure Chunk where
  first : Nat
  last : Nat
  stage : ChunkStage
  buffer : List (Option Sector)
  copies : List Copy
deriving DecidableEq, Repr

/-- An entry of the VERIFY_BAND queue (R133). -/
structure VerifyEntry where
  requester : Requester
  band : Nat
deriving DecidableEq, Repr

/-- The relocation engine's record (R133). -/
structure Engine where
  activity : Activity
  victim : Option Nat
  reason : Option VictimReason
  scan : Option Scan
  chunk : Option Chunk
  patrolPointer : Nat
  idleTimer : Option Nat
  idleFlag : Bool
  recoveryWait : Bool
  verifyQueue : List VerifyEntry
  verifyHeld : List Port
  lowWater : Option Nat
deriving DecidableEq, Repr

/-! ### The start-up unit (chapter 10) -/

/-- The engine states (R167, R168). -/
inductive EngineState where
  | starting
  | running
  | halting
  | halted
deriving DecidableEq, Repr

/-- The settings image: the 14 writable settings (R178). -/
structure Settings where
  slotCode : Nat
  flushThreshold : Nat
  ageLimit : Nat
  slotWait : Nat
  threshold : Nat
  forwardWeight : Nat
  backwardWeight : Nat
  backlogLimit : Nat
  lowMark : Nat
  criticalMark : Nat
  retryLimit : Nat
  idleDelay : Nat
  coldMask : BitVec 64
  collisionRefusal : Bool
deriving DecidableEq, Repr

/-- The defaults of the settings table (R178). -/
def Settings.default : Settings where
  slotCode := 3
  flushThreshold := 512
  ageLimit := 2000
  slotWait := 2000
  threshold := 40000
  forwardWeight := 4
  backwardWeight := 1
  backlogLimit := 8
  lowMark := 16
  criticalMark := 6
  retryLimit := 3
  idleDelay := 500
  coldMask := 0
  collisionRefusal := false

/-- What the rebuild of one band reads next (R173). -/
inductive RebuildPhase where
  | header
  | anomaly
  | summary
  | scan
deriving DecidableEq, Repr

/-- The rebuild of one band (R173): the read run in hand (`first`, `count`, the sectors read or absent), what the header gave,
and the rebuild scan's state, with the offsets it could not read (R19). `lastChain` is the trailer chain of the last offset scanned, absent when it could not be read. -/
structure BandRebuild where
  band : Nat
  phase : RebuildPhase
  first : Nat
  count : Nat
  buffer : List (Option Sector)
  stamp : Nat
  openSeq : Nat
  lastChain : Option Chain
  pred : Option Chain
  firstBreak : Option Nat
  unreadable : List Nat
deriving DecidableEq, Repr

/-- A copy of an LBN that the rebuild has found (R174). -/
structure FoundCopy where
  lbn : Nat
  seq : Nat
  band : Nat
  offset : Nat
  openSeq : Nat
deriving DecidableEq, Repr

/-- A note that the rebuild has found (R174). -/
structure FoundNote where
  first : Nat
  length : Nat
  seq : Nat
deriving DecidableEq, Repr

/-- What a rebuild scan of a band found: its first break offset and the offsets it could not read (R173, R175). -/
structure Finding where
  band : Nat
  firstBreak : Option Nat
  unreadable : List Nat
deriving DecidableEq, Repr

/-- What the rebuild has found so far: the winning copy of each LBN in ascending LBN, the notes, the findings, and the highest
sequence (R174, R175). -/
structure Found where
  winners : List FoundCopy
  notes : List FoundNote
  findings : List Finding
  highest : Option Nat
deriving DecidableEq, Repr

/-- Where the start-up sequence of R167 stands. -/
inductive StartStage where
  | geometry
  | geometryWait (deadline : Nat)
  | settings
  | rebuild (r : BandRebuild)
  | finished
deriving DecidableEq, Repr

/-- The start-up unit (R167 to R175). -/
structure StartUp where
  engine : EngineState
  image : Settings
  nLog : Nat
  stage : StartStage
  found : Found
  bandsRebuilt : Nat
  haltWaiters : List Requester
  savesQueued : List Requester
  savesInFlight : List Requester
deriving DecidableEq, Repr

/-! ### Responses (R150 and section 11.1) -/

/-- A run descriptor of LOCATE (R66). -/
structure Descriptor where
  start : Nat
  len : Nat
  loc : Location
deriving DecidableEq, Repr

/-- What STATUS reports for one stream (R158). -/
structure StreamReport where
  openBand : Option Nat
  bandState : Option BandState
  queued : Option Nat
deriving DecidableEq, Repr

/-- The values of STATUS (R158), in that table's order. -/
structure StatusReport where
  engine : EngineState
  zoneCount : Nat
  bandsRebuilt : Nat
  custody : Nat
  admission : Both Admission
  linkUp : Both Bool
  outstanding : Both Nat
  notices : Nat
  freeBands : Nat
  dueLength : Nat
  recordsInUse : Nat
  recordsFree : Nat
  parcels : Nat
  freeSlots : Nat
  freeNotes : Nat
  slotWait : Nat
  noteWait : Nat
  drains : Nat
  seqCounter : Nat
  streams : List StreamReport
  current : Option OpKind
  readEntries : Nat
  readBufferFree : Nat
  readWait : Nat
  tempClass : Option (Fin 4)
  classInForce : Fin 4
  stale : Bool
  activity : Activity
  victim : Option Nat
  reason : Option VictimReason
  victimNext : Option Nat
  copiesHeld : Nat
  patrolPointer : Nat
  verifyLength : Nat
  lowWater : Option Nat
deriving DecidableEq, Repr

/-- The outcomes of VERIFY_BAND (R149). -/
inductive VerifyOutcome where
  | scanned
  | cutShort
  | notScanned
deriving DecidableEq, Repr

/-- The fields of a response, by the kind of the request it answers (section 11.1). -/
inductive Body where
  | none
  | place (seq superseded : Nat)
  | fetch (exceptions : Nat) (firstOffset : Option Nat) (firstReason : Option Reason) (unmapped : Nat) (resume : Option Nat)
  | release (seq : Option Nat) (resume : Option Nat)
  | locate (descriptors : List Descriptor) (resume : Option Nat)
  | streamSet (replaced : Bool)
  | setting (id value : Nat)
  | save (written : Bool)
  | status (r : StatusReport)
  | bandQuery (b : Band) (dead : Nat) (position : Option Nat)
  | verify (outcome : VerifyOutcome) (stamp : Nat) (firstBreak : Option Nat) (unreadable : Nat)
  | notices (l : List Notice)
deriving DecidableEq, Repr

/-- A response frame (R150). `kind` is the kind code of the request answered, 0 for a refusal at arrival. -/
structure Response where
  tag : BitVec 16
  status : Status
  kind : BitVec 8
  custody : Nat
  body : Body
  data : List Block
deriving DecidableEq, Repr

/-- A request link (R151 to R154, R164). `queue` holds the untaken requests, which are the frames of the inbound store. `sent`
is the model's record of the responses sent. -/
structure Link where
  up : Bool
  queue : List RequestFrame
  holding : Bool
  outstanding : List (BitVec 16)
  notices : List Notice
  sent : List Response
deriving DecidableEq, Repr

/-! ### The model's own fields, and the whole state -/

/-- What the present step has still to do before it ends (assumption 2): resources freed and not yet handed out, an arbitration to
make (R104), a choice of the relocation engine to make (R134). -/
structure Agenda where
  freed : List Resource
  offered : Bool
  choice : Bool
deriving DecidableEq, Repr

/-- The state of the part, the command queue and the model's own fields. -/
structure State where
  pending : List Instr
  now : Nat
  links : Both Link
  custody : CustodyUnit
  staging : Staging
  map : ExtentMap
  table : BandTable
  alloc : Allocator
  sched : Scheduler
  engine : Engine
  startup : StartUp
  agenda : Agenda
  freeCount : Nat
deriving DecidableEq, Repr

/-- The part stops with no fault: no rule of the spec gives one (INVENTORY.md, Faults). No meaning raises any, so the type has no
constructor. -/
inductive Fault where
deriving DecidableEq, Repr

/-- The reasons of a refusal. -/
inductive Refusal where
  /-- Raised by an arm of `exec` whose command has no meaning in the model yet; no arm is left so. Safe: the model stops where
  the part goes on. -/
  | notModelled (mnemonic : String)
deriving DecidableEq, Repr

/-- A link at power-on (R151, R175). -/
def Link.reset : Link where
  up := false
  queue := []
  holding := false
  outstanding := []
  notices := []
  sent := []

/-- A stream record at power-on (R87). -/
def Stream.reset : Stream where
  openBand := none
  queue := []
  setting := { order := .outer, cold := false }
  pendingSetting := none
  finish := false
  entries := []
  overflow := false

/-- Staging with slot division code 3 and nothing staged (R67, R69, R70, R71, R81), with the sequence counter given. -/
def Staging.cleared (pool : List (Nat × Block)) (seqCounter : Nat) : Staging where
  pool := pool
  freeSlots := List.range 128
  freeNotes := List.range 64
  parcels := []
  seqCounter := seqCounter
  slotWait := []
  noteWait := []
  drains := []

/-- The relocation engine at the entry to STARTING (R133). -/
def Engine.reset : Engine where
  activity := .idle
  victim := none
  reason := none
  scan := none
  chunk := none
  patrolPointer := 0
  idleTimer := none
  idleFlag := false
  recoveryWait := false
  verifyQueue := []
  verifyHeld := []
  lowWater := none

/-- No band table stands (R20). -/
def BandTable.absent : BandTable where
  zones := []
  bands := []
  due := []
  critical := false

/-- The media scheduler at power-on (R104, R118). -/
def Scheduler.reset : Scheduler where
  current := none
  nextIssue := 0
  channelTimer := none
  readQueue := []
  fetches := []
  nextFetch := 0
  readWait := []
  summaries := []
  pointer := 7
  tempClass := none
  stale := false
  staleTimer := some Config.stalenessPeriod
  sent := []

/-- Nothing found by the rebuild yet. -/
def Found.nothing : Found where
  winners := []
  notes := []
  findings := []
  highest := none

/-- The start-up unit at power-on (R167, R175). -/
def StartUp.reset : StartUp where
  engine := .starting
  image := Settings.default
  nLog := 0
  stage := .geometry
  found := Found.nothing
  bandsRebuilt := 0
  haltWaiters := []
  savesQueued := []
  savesInFlight := []

/-- The part right after power-on reset, before step 1 of R167: the values of the table after R175 and of the rules it
cites. -/
def State.reset : State where
  pending := []
  now := 0
  links := { a := Link.reset, b := Link.reset }
  custody := { number := 1, admission := { a := .active, b := .active } }
  staging := Staging.cleared [] 1
  map := { records := [], held := false }
  table := BandTable.absent
  alloc := { hosts := Vector.replicate 8 Stream.reset, reloc := Stream.reset }
  sched := Scheduler.reset
  engine := Engine.reset
  startup := StartUp.reset
  agenda := { freed := [], offered := false, choice := false }
  freeCount := 0

end Sys2Proof.Machine
end

