-- ==== Sys2Proof/Machine/Ops.lean ====
section
/-! DEFINITION. The named operations that the blocks share: time, the agenda of a step, notices, responses, the inbound queues,
the slot pool, and access to band and parcel records. -/

namespace Sys2Proof.Machine

/-! ### Time and the agenda of a step (assumptions 2 and 3) -/

/-- Time has reached t: `now` moves on to t when it stands before it. -/
def advanceTo (t : Nat) (s : State) : State :=
  { s with now := max s.now t }

/-- Work has been offered to the media scheduler, or the channel has become free: an arbitration is due (R104). -/
def offer (s : State) : State :=
  { s with agenda := { s.agenda with offered := true } }

/-- An event of R134 has been taken: the relocation engine's choice is due. -/
def choiceDue (s : State) : State :=
  { s with agenda := { s.agenda with choice := true } }

/-- A staging resource has been freed and is to be handed out (R79). -/
def pushFreed (r : Resource) (s : State) : State :=
  { s with agenda := { s.agenda with freed := s.agenda.freed ++ [r] } }

/-! ### Links -/

/-- The link of port p. -/
def State.link (s : State) (p : Port) : Link :=
  s.links.get p

/-- The state with the link of port p replaced. -/
def State.setLink (s : State) (p : Port) (l : Link) : State :=
  { s with links := s.links.set p l }

/-! ### Notices (section 9.7) -/

/-- A count of a notice record grows by 1 and saturates at 65,535 (R164). -/
def bumpCount (n : Nat) : Nat :=
  min (n + 1) 65535

/-- Case 1 of R164: the record of the notice's kind and band grows, when there is one. -/
def noticeSame (k : NoticeKind) (b : Option Nat) : List Notice → Option (List Notice)
  | [] => none
  | n :: ns =>
    if n.kind = k ∧ n.band = b then some ({ n with count := bumpCount n.count } :: ns)
    else (noticeSame k b ns).map (n :: ·)

/-- Case 3 of R164: the oldest record of the notice's kind grows and loses its band, when there is one. -/
def noticeKindOnly (k : NoticeKind) : List Notice → Option (List Notice)
  | [] => none
  | n :: ns =>
    if n.kind = k then some ({ n with band := none, count := bumpCount n.count } :: ns)
    else (noticeKindOnly k ns).map (n :: ·)

/-- Case 4 of R164: the last record becomes SEVERAL. -/
def noticeSeveral : List Notice → List Notice
  | [] => []
  | [n] => [{ kind := .several, band := none, count := bumpCount n.count }]
  | n :: m :: ns => n :: noticeSeveral (m :: ns)

/-- A list takes a notice by the first case of R164 that applies. -/
def takeNotice (k : NoticeKind) (b : Option Nat) (l : List Notice) : List Notice :=
  match noticeSame k b l with
  | some l' => l'
  | none =>
    if l.length < Config.noticeRecords then l ++ [{ kind := k, band := b, count := 1 }]
    else
      match noticeKindOnly k l with
      | some l' => l'
      | none => noticeSeveral l

/-- A notice is placed on both ports' lists (R164). -/
def placeNotice (k : NoticeKind) (b : Option Nat) (s : State) : State :=
  { s with
    links :=
      { a := { s.links.a with notices := takeNotice k b s.links.a.notices }
        b := { s.links.b with notices := takeNotice k b s.links.b.notices } } }

/-! ### Responses and the request queue -/

/-- The requester of a frame taken on port p. -/
def requesterOf (p : Port) (f : RequestFrame) : Requester :=
  { port := p, tag := f.tag, kind := f.kind, orphaned := false }

/-- A response is produced (R150, R151, R153, R163): it carries the custody number now standing and ends the outstanding tag. The
response of an orphaned request, or one produced while the link is DOWN, is discarded. -/
def respond (r : Requester) (st : Status) (b : Body) (data : List Block) (s : State) : State :=
  let l := s.link r.port
  if r.orphaned || !l.up then s
  else
    s.setLink r.port
      { l with
        outstanding := l.outstanding.erase r.tag
        sent := l.sent ++
          [{ tag := r.tag, status := st, kind := r.kind, custody := s.custody.number, body := b, data := data }] }

/-- The request at the head of port p's queue leaves it, with its frame and data; the port holds no request (R152, R154). -/
def popRequest (p : Port) (s : State) : State :=
  let l := s.link p
  s.setLink p { l with queue := l.queue.tail, holding := false }

/-- The request at the head is held there (R154). -/
def holdRequest (p : Port) (s : State) : State :=
  let l := s.link p
  s.setLink p { l with holding := true }

/-- The head request of port p leaves the queue with a response (R152, R155). -/
def answerHead (p : Port) (f : RequestFrame) (st : Status) (b : Body) (data : List Block) (s : State) : State :=
  respond (requesterOf p f) st b data (popRequest p s)

/-- The head request is refused: a response with no fields (R155, section 11.1). -/
def refuseHead (p : Port) (f : RequestFrame) (st : Status) (s : State) : State :=
  answerHead p f st .none [] s

/-- The head request of a port that holds none, which is what its next take takes (R154). -/
def headRequest (p : Port) (s : State) : Option RequestFrame :=
  let l := s.link p
  if l.holding then none else l.queue.head?

/-! ### The slot pool (R67) -/

/-- The block at pool block number a; a block not listed reads as zeros (assumption 4). -/
def poolRead : List (Nat × Block) → Nat → Block
  | [], _ => zeroBlock
  | (k, v) :: rest, a => if k = a then v else poolRead rest a

/-- The pool with block a written, in the canonical form: numbers strictly rising, no zero block listed. -/
def poolWrite (a : Nat) (v : Block) : List (Nat × Block) → List (Nat × Block)
  | [] => if v = zeroBlock then [] else [(a, v)]
  | (k, w) :: rest =>
    if a < k then (if v = zeroBlock then (k, w) :: rest else (a, v) :: (k, w) :: rest)
    else if a = k then (if v = zeroBlock then rest else (a, v) :: rest)
    else (k, w) :: poolWrite a v rest

/-- The canonical form of the pool: numbers at least `lo`, strictly rising, and no zero block. -/
def poolWfFrom (lo : Nat) : List (Nat × Block) → Bool
  | [] => true
  | (k, v) :: rest => lo ≤ k && v != zeroBlock && poolWfFrom (k + 1) rest

/-- The canonical form of the pool. -/
def poolWf (l : List (Nat × Block)) : Bool :=
  poolWfFrom 0 l

/-- The first n blocks of a list are copied to pool blocks a, a + 1, … (R74 step 3). A block the list lacks is written as zeros. -/
def poolWriteRun (a : Nat) : Nat → List Block → List (Nat × Block) → List (Nat × Block)
  | 0, _, pool => pool
  | n + 1, bs, pool => poolWriteRun (a + 1) n bs.tail (poolWrite a (bs.headD zeroBlock) pool)

/-- S, the number of slots: 16 × 2^d (R67). -/
def slotCountOf (d : Nat) : Nat :=
  16 * 2 ^ d

/-- Z, the blocks of a slot: 1,024 / 2^d (R67). -/
def slotSizeOf (d : Nat) : Nat :=
  1024 / 2 ^ d

/-- S under the code in force. -/
def slotCount (s : State) : Nat :=
  slotCountOf s.startup.image.slotCode

/-- Z under the code in force. -/
def slotSize (s : State) : Nat :=
  slotSizeOf s.startup.image.slotCode

/-- The block at index j of slot i: pool block i × Z + j (R67). -/
def slotBlock (s : State) (i j : Nat) : Block :=
  poolRead s.staging.pool (i * slotSize s + j)

/-! ### Free sets -/

/-- A number joins a set kept as a rising list, once (R69, R70). -/
def insertSorted (n : Nat) : List Nat → List Nat
  | [] => [n]
  | m :: ms => if n < m then n :: m :: ms else if n = m then m :: ms else m :: insertSorted n ms

/-! ### Band and parcel records -/

/-- The record of band b, when the band exists. -/
def band? (s : State) (b : Nat) : Option Band :=
  s.table.bands[b]?

/-- The record of band b changed by f. -/
def updBand (b : Nat) (f : Band → Band) (s : State) : State :=
  { s with table := { s.table with bands := s.table.bands.modify b f } }

/-- B, the number of bands (R1). -/
def bandCount (s : State) : Nat :=
  s.table.bands.length

/-- F, the number of EMPTY bands (R42). -/
def freeBands (s : State) : Nat :=
  s.table.bands.countP fun b => b.state = .empty

/-- The parcel record with the id given. -/
def parcel? (s : State) (id : Nat) : Option Parcel :=
  s.staging.parcels.find? fun p => p.id = id

/-- The parcel records with the id given changed by f. -/
def updParcel (id : Nat) (f : Parcel → Parcel) (s : State) : State :=
  { s with
    staging := { s.staging with parcels := s.staging.parcels.map fun p => if p.id = id then f p else p } }

/-- Staging is empty: the parcel table holds no record (R71). -/
def stagingEmpty (s : State) : Bool :=
  s.staging.parcels.isEmpty

/-- The record of host stream t changed by f. -/
def updHost (t : Fin 8) (f : Stream → Stream) (s : State) : State :=
  { s with alloc := { s.alloc with hosts := s.alloc.hosts.set t (f s.alloc.hosts[t]) } }

/-- The record of the relocation stream changed by f. -/
def updReloc (f : Stream → Stream) (s : State) : State :=
  { s with alloc := { s.alloc with reloc := f s.alloc.reloc } }

/-- The record of a stream. -/
def stream (s : State) : StreamId → Stream
  | .host t => s.alloc.hosts[t]
  | .relocation => s.alloc.reloc

/-- The record of a stream changed by f. -/
def updStream (i : StreamId) (f : Stream → Stream) (s : State) : State :=
  match i with
  | .host t => updHost t f s
  | .relocation => updReloc f s

/-- The least of the values present. -/
def leastOf : List (Option Nat) → Option Nat
  | [] => none
  | none :: xs => leastOf xs
  | some x :: xs =>
    match leastOf xs with
    | none => some x
    | some y => some (min x y)

end Sys2Proof.Machine
end

