-- ==== Sys2Proof/WellFormed.lean ====
section
/-! DEFINITION. Which commands are well formed: the shapes that the spec gives to the messages they carry. The meanings are
total on ill-formed commands as well. -/

namespace Sys2Proof

/-- A request frame carries as many data blocks as its data count says (R150); a data count above 1,024 marks the frame oversize,
and the data of an oversize frame is not kept (R152, R176). -/
def RequestFrame.wf (f : RequestFrame) : Bool :=
  1024 < f.dataCount.toNat || f.data.length == f.dataCount.toNat

/-- A zone record's fields lie in the ranges that R1 gives them, those that R2 checks apart: the first band is 0 to 131,071, the band
count 1 to 131,072, the first physical track 0 to 2^32 − 1. -/
def ZoneRecord.wf (z : ZoneRecord) : Bool :=
  z.firstBand ≤ 131071 && 1 ≤ z.bandCount && z.bandCount ≤ 131072 && z.firstTrack < 2 ^ 32

/-- A completion's count is at most 1,024, and the sectors it delivers are as many as its count (R103). -/
def Completion.wf (c : Completion) : Bool :=
  c.k ≤ 1024 &&
    match c.delivery with
    | .sectors l => l.length == c.k
    | .geometry g => g.zones.all ZoneRecord.wf
    | .nothing => true
    | .record _ => true

/-- Which commands are well formed. -/
def Instr.wf : Instr → Bool
  | .requestArrival _ f => f.wf
  | .channelCompletion c => c.wf
  | .heldResetLastPin b => b < 131072
  | _ => true

end Sys2Proof
end

