-- ==== Sys2Proof/Machine/Geometry.lean ====
section
/-! DEFINITION. Zones, band capacity and physical positions (sections 1.1 to 1.3), the checks of the geometry record and the cold
groups (R128). -/

namespace Sys2Proof.Machine

/-- C, the sectors of a band of a zone (R3). -/
def zoneC (z : ZoneRecord) : Nat :=
  z.tpb * z.spt

/-- D, the data capacity of a band of a zone (R3). -/
def zoneD (z : ZoneRecord) : Nat :=
  zoneC z - 5

/-- The number of the zone that band b belongs to (R3). -/
def zoneIndex (zones : List ZoneRecord) (b : Nat) : Nat :=
  zones.findIdx fun z => z.firstBand ≤ b && b < z.firstBand + z.bandCount

/-- The zone record with a number. -/
def zoneAt (zones : List ZoneRecord) (i : Nat) : ZoneRecord :=
  zones.getD i default

/-- The zone record of a band (R3). -/
def bandZone (s : State) (b : Band) : ZoneRecord :=
  zoneAt s.table.zones b.zone

/-- C of a band. -/
def bandC (s : State) (b : Band) : Nat :=
  zoneC (bandZone s b)

/-- D of a band. -/
def bandD (s : State) (b : Band) : Nat :=
  zoneD (bandZone s b)

/-- The physical track of offset o of band b in zone z (R5). -/
def physicalTrack (z : ZoneRecord) (b o : Nat) : Nat :=
  z.firstTrack + (b - z.firstBand) * (z.tpb + 1) + o / z.spt

/-- The sector in track of offset o in zone z (R5). -/
def sectorInTrack (z : ZoneRecord) (o : Nat) : Nat :=
  o % z.spt

/-- The sum of the band counts (R1). -/
def totalBands (zones : List ZoneRecord) : Nat :=
  (zones.map fun z => z.bandCount).sum

/-- The total data sectors of the drive (R3). -/
def totalDataSectors (zones : List ZoneRecord) : Nat :=
  (zones.map fun z => z.bandCount * zoneD z).sum

/-- Check 2 of R2, from the first band expected of the first zone of the list. -/
def zonesContiguous : Nat → List ZoneRecord → Bool
  | _, [] => true
  | b, z :: zs => z.firstBand == b && zonesContiguous (b + z.bandCount) zs

/-- Check 5 of R2: no zone begins before the track at which the zone before it ends. -/
def zonesApart : List ZoneRecord → Bool
  | [] => true
  | [_] => true
  | y :: z :: zs => decide (y.firstTrack + y.bandCount * (y.tpb + 1) ≤ z.firstTrack) && zonesApart (z :: zs)

/-- A geometry record's zones lie in the field ranges of R1 (assumption 30), and it passes the checks of R2. -/
def geometryAccepted (g : GeometryRecord) : Bool :=
  g.zones.all ZoneRecord.wf &&
  decide (1 ≤ g.zones.length ∧ g.zones.length ≤ 32) &&
  zonesContiguous 0 g.zones &&
  decide (64 ≤ totalBands g.zones ∧ totalBands g.zones ≤ 131072) &&
  (g.zones.all fun z => decide (8 ≤ z.tpb ∧ z.tpb ≤ 128 ∧ 128 ≤ z.spt ∧ z.spt ≤ 1024)) &&
  zonesApart g.zones &&
  decide (1 ≤ g.capacity)

/-- N_log of an accepted geometry record (R170). -/
def logicalCapacity (g : GeometryRecord) : Nat :=
  let most := min (7 * totalDataSectors g.zones / 8) Config.logicalLimit
  if g.capacity ≤ most then g.capacity else most

/-- Whether N_log had to be brought down, which GEOMETRY_CLAMPED notices (R170). -/
def geometryClamped (g : GeometryRecord) : Bool :=
  logicalCapacity g != g.capacity

/-- No due cause. -/
def Causes.none : Causes :=
  { exposure := false, brk := false, media := false, retire := false }

/-- A band record as the table build makes it: EMPTY, stamp 0, the reset contents of R32 (R20). -/
def freshBand (zones : List ZoneRecord) (b : Nat) : Band where
  number := b
  zone := zoneIndex zones b
  state := .empty
  stamp := 0
  wp := 0
  live := 0
  notes := 0
  chain := none
  openSeq := none
  minSeq := none
  exposure := 0
  causes := Causes.none
  neglected := false
  breakOffset := none
  summaryPresent := false
  pins := 0
  owner := none

/-- The band table of an accepted zone list (R1, R20); the due list is empty and the critical flag clear (R44). -/
def buildTable (zones : List ZoneRecord) : BandTable where
  zones := zones
  bands := (List.range (totalBands zones)).map (freshBand zones)
  due := []
  critical := false

/-- The cold group of band b of a drive of B bands (R128). -/
def coldGroup (bands b : Nat) : Nat :=
  b * 64 / bands

/-- Whether the cold group of band b is masked (R128). -/
def coldMasked (s : State) (b : Nat) : Bool :=
  s.startup.image.coldMask.getLsbD (coldGroup (bandCount s) b)

end Sys2Proof.Machine
end

