-- ==== Sys2Proof/Machine/Flags.lean ====
section
/-! DEFINITION. The flags and conditions that blocks read from the state: attention lines, the class in force, the urgency condition,
free extent records, the FREE_LOW test. -/

namespace Sys2Proof.Machine

/-- The attention line of port p: high while its link is UP and its notice list is not empty (R165). -/
def attention (s : State) (p : Port) : Bool :=
  (s.link p).up && !(s.link p).notices.isEmpty

/-- The temperature class in force (R118). -/
def classInForce (s : State) : Fin 4 :=
  if s.sched.stale then 3
  else
    match s.sched.tempClass with
    | none => 3
    | some c => c

/-- The multiplier M of a class (R123). -/
def multiplier (c : Fin 4) : Nat :=
  match c with
  | 0 => 4
  | 1 => 5
  | 2 => 6
  | 3 => 8

/-- The extent records in use (R49). -/
def recordsInUse (s : State) : Nat :=
  s.map.records.length

/-- The free extent records: those neither in use nor held (R49). -/
def freeRecords (s : State) : Nat :=
  Config.mapCapacity - (recordsInUse s + if s.map.held then 1 else 0)

/-- The urgency condition (R113). -/
def urgent (s : State) : Bool :=
  decide (s.startup.image.backlogLimit ≤ s.table.due.length) || decide (freeBands s ≤ s.startup.image.criticalMark)

/-- The free blocks of the read buffer (R115). -/
def readBufferFree (s : State) : Nat :=
  Config.readBufferBlocks - (s.sched.fetches.map fun f => f.reserved).sum

/-- The pull-in mark: floor(3 × T / 4) (R132). -/
def pullInMark (s : State) : Nat :=
  3 * s.startup.image.threshold / 4

/-- The channel is free: no current operation (R104). -/
def channelFree (s : State) : Bool :=
  s.sched.current.isNone

/-- The FREE_LOW test (R44). -/
def freeLowTest (s : State) : State :=
  if freeBands s ≤ s.startup.image.criticalMark then
    if s.table.critical then s
    else placeNotice .freeLow none { s with table := { s.table with critical := true } }
  else { s with table := { s.table with critical := false } }

/-- F has changed: the FREE_LOW test is made (R44), the relocation engine's choice is due (R134), and streams that wait for a band
may be given one (R91, R140). -/
def freeChanged (s : State) : State :=
  offer (choiceDue (freeLowTest s))

/-- The extent map has changed: the recovery wait is cleared when 64 or more records are free (R144), and flushes that wait for a free
record become issuable (R51). -/
def mapChanged (s : State) : State :=
  let s := if 0 < freeRecords s then offer s else s
  if s.engine.recoveryWait && decide (Config.mapReserve ≤ freeRecords s) then
    choiceDue { s with engine := { s.engine with recoveryWait := false } }
  else s

end Sys2Proof.Machine
end

