-- ==== Sys2Proof/Machine/Sectors.lean ====
section
/-! DEFINITION. Sector records, the payload check, the band chain and the chain check of a scan (sections 1.4 to 1.8), with the sector
layouts of R177. -/

namespace Sys2Proof.Machine

/-! ### Kind codes and classification -/

/-- The trailer kind codes of R177. -/
def codeHeader : BitVec 8 := 1
/-- DATA. -/
def codeData : BitVec 8 := 2
/-- NOTE. -/
def codeNote : BitVec 8 := 3
/-- SUMMARY. -/
def codeSummary : BitVec 8 := 4

/-- An unwritten trailer: kind code zero (R9). -/
def trailerUnwritten (t : Trailer) : Bool :=
  t.kind == 0

/-- A trailer valid for band b: one of the four kinds, and the band's number (R9). -/
def trailerValidFor (t : Trailer) (b : Nat) : Bool :=
  (t.kind == codeHeader || t.kind == codeData || t.kind == codeNote || t.kind == codeSummary) && t.band.toNat == b

/-! ### The payload check and the chain -/

/-- The sum of the n low 32-bit words of v; it stops where only zeros remain. -/
def wordSum : Nat → Nat → Nat
  | 0, _ => 0
  | n + 1, v => if v = 0 then 0 else v % 2 ^ 32 + wordSum n (v / 2 ^ 32)

/-- The payload check p: the sum mod 2^32 of the 1,024 little-endian words of the payload (R14). -/
def payloadCheck (b : Block) : Chain :=
  BitVec.ofNat 32 (wordSum 1024 b.toNat)

/-- The band seed (R15). -/
def bandSeed (b stamp : Nat) : Chain :=
  BitVec.ofNat 32 (65537 * stamp + b)

/-- The chain of a sector, from its predecessor's chain c and its own payload check (R16). -/
def chainNext (c : Chain) (payload : Block) : Chain :=
  33#32 * c + payloadCheck payload

/-! ### Payload records (R10, R12, R13, R177) -/

/-- The band header's payload (R10). -/
def headerPayload (b stamp openSeq : Nat) : Block :=
  BitVec.ofNat 32768 (b % 2 ^ 32 + stamp % 2 ^ 16 * 2 ^ 32 + openSeq % 2 ^ 48 * 2 ^ 64)

/-- A NOTE sector's payload: first LBN, released length, note sequence (R12). -/
def notePayload (first length seq : Nat) : Block :=
  BitVec.ofNat 32768 (first % 2 ^ 64 + length % 2 ^ 32 * 2 ^ 64 + seq % 2 ^ 48 * 2 ^ 128)

/-- The first LBN of a NOTE payload. -/
def noteFirst (b : Block) : Nat :=
  b.toNat % 2 ^ 64

/-- The released length of a NOTE payload. -/
def noteLength (b : Block) : Nat :=
  b.toNat / 2 ^ 64 % 2 ^ 32

/-- The note sequence of a NOTE payload. -/
def noteSeq (b : Block) : Nat :=
  b.toNat / 2 ^ 128 % 2 ^ 48

/-- A summary entry as its 16 bytes (R177). The entry of a relocated note whose payload as read holds a first LBN of 2^36 or more, or a
length of 2^17 or more, keeps the low 36 and 17 bits of them (assumption 50). -/
def encodeEntry (e : SummaryEntry) : Nat :=
  e.seq % 2 ^ 48 + (e.start % 2 ^ 36 + (if e.kind = .note then 2 ^ 39 else 0)) * 2 ^ 48 +
    (e.offset % 2 ^ 17 + e.length % 2 ^ 17 * 2 ^ 17) * 2 ^ 88

/-- The summary entry that 16 bytes hold (R177). -/
def decodeEntry (v : Nat) : SummaryEntry where
  kind := if v / 2 ^ 87 % 2 = 1 then .note else .data
  offset := v / 2 ^ 88 % 2 ^ 17
  start := v / 2 ^ 48 % 2 ^ 36
  length := v / 2 ^ 105 % 2 ^ 17
  seq := v % 2 ^ 48

/-- Entries in consecutive 16-byte positions, the rest zero. -/
def packEntries : List SummaryEntry → Nat
  | [] => 0
  | e :: es => encodeEntry e + packEntries es * 2 ^ 128

/-- The first n entry positions of a payload. -/
def unpackEntries : Nat → Nat → List SummaryEntry
  | 0, _ => []
  | n + 1, v => decodeEntry (v % 2 ^ 128) :: unpackEntries n (v / 2 ^ 128)

/-- The entries of summary part n (R13). -/
def partEntries (n : Nat) (es : List SummaryEntry) : List SummaryEntry :=
  (es.drop (256 * n)).take 256

/-- The payload of summary part n (R13, R100). -/
def summaryPayload (n : Nat) (es : List SummaryEntry) : Block :=
  BitVec.ofNat 32768 (packEntries (partEntries n es))

/-- The logical field of a summary part's trailer: part number, overflow mark, entry count (R177). -/
def summaryLogical (n : Nat) (overflow : Bool) (count : Nat) : BitVec 64 :=
  BitVec.ofNat 64 (n % 2 ^ 8 + (if overflow then 2 ^ 8 else 0) + count % 2 ^ 16 * 2 ^ 16)

/-- The part number in a summary trailer. -/
def summaryPart (t : Trailer) : Nat :=
  t.logical.toNat % 2 ^ 8

/-- The overflow mark in a summary trailer: 0 is clear. -/
def summaryOverflow (t : Trailer) : Bool :=
  t.logical.toNat / 2 ^ 8 % 2 ^ 8 != 0

/-- The entry count in a summary trailer. -/
def summaryCount (t : Trailer) : Nat :=
  t.logical.toNat / 2 ^ 16 % 2 ^ 16

/-! ### Trailers of the sectors the part writes (R7, R8) -/

/-- A trailer of band b in its present life. -/
def bandTrailer (b : Band) (kind : BitVec 8) (logical seq : Nat) (c : Chain) : Trailer where
  kind := kind
  stamp := BitVec.ofNat 16 b.stamp
  band := BitVec.ofNat 32 b.number
  logical := BitVec.ofNat 64 logical
  sequence := BitVec.ofNat 48 seq
  chain := c

/-- The header sector of a band (R10). Its chain is the band seed and folds no payload check. -/
def headerSector (b : Band) : Sector :=
  { payload := headerPayload b.number b.stamp (b.openSeq.getD 0)
    trailer := bandTrailer b codeHeader 0 (b.openSeq.getD 0) (bandSeed b.number b.stamp) }

/-- A DATA sector after a sector of chain c (R11, R16). -/
def dataSector (b : Band) (c : Chain) (payload : Block) (lbn seq : Nat) : Sector :=
  { payload := payload
    trailer := bandTrailer b codeData lbn seq (chainNext c payload) }

/-- A NOTE sector after a sector of chain c, with the payload given (R12, R16). -/
def noteSector (b : Band) (c : Chain) (payload : Block) (first seq : Nat) : Sector :=
  { payload := payload
    trailer := bandTrailer b codeNote first seq (chainNext c payload) }

/-- Summary part n after a sector of chain c (R8, R13, R16, R100). -/
def summarySector (b : Band) (c : Chain) (n : Nat) (entries : List SummaryEntry) (overflow : Bool) : Sector :=
  let payload := summaryPayload n entries
  { payload := payload
    trailer :=
      { bandTrailer b codeSummary 0 (b.openSeq.getD 0) (chainNext c payload) with
        logical := summaryLogical n overflow entries.length } }

/-- The four parts of a band's summary, in offset order, chained from the band record's chain (R13, R100). -/
def summarySectors (b : Band) (entries : List SummaryEntry) (overflow : Bool) : List Sector :=
  let p0 := summarySector b (b.chain.getD 0) 0 entries overflow
  let p1 := summarySector b p0.trailer.chain 1 entries overflow
  let p2 := summarySector b p1.trailer.chain 2 entries overflow
  let p3 := summarySector b p2.trailer.chain 3 entries overflow
  [p0, p1, p2, p3]

/-! ### The chain check of a scan (R18, R19) -/

/-- One sector of a scan of a band with seed `seed`, at offset o: the predecessor and the first break offset after it. An absent
sector is one that could not be read. -/
def checkSector (seed : Chain) (o : Nat) (x : Option Sector) (pred : Option Chain) (brk : Option Nat) :
    Option Chain × Option Nat :=
  match x with
  | none => (none, brk)
  | some sec =>
    let expected := if o = 0 then some seed else pred.map fun c => chainNext c sec.payload
    let broken :=
      match expected with
      | none => false
      | some e => e != sec.trailer.chain
    (some sec.trailer.chain, if broken then some (brk.getD o) else brk)

/-- The offsets, from o on, of the sectors that could not be read, which a scan lists (R19). -/
def unreadableOffsets : Nat → List (Option Sector) → List Nat
  | _, [] => []
  | o, none :: xs => o :: unreadableOffsets (o + 1) xs
  | o, some _ :: xs => unreadableOffsets (o + 1) xs

/-- A run of sectors of a scan, from offset o on. -/
def checkSectors (seed : Chain) : Nat → List (Option Sector) → Option Chain → Option Nat → Option Chain × Option Nat
  | _, [], pred, brk => (pred, brk)
  | o, x :: xs, pred, brk =>
    let r := checkSector seed o x pred brk
    checkSectors seed (o + 1) xs r.1 r.2

end Sys2Proof.Machine
end

