-- ==== Sys2Proof/Machine/Bands.lean ====
section
/-! DEFINITION. The band table: band life, counts, read pins, victims, due causes and the due list (chapter 2). -/

namespace Sys2Proof.Machine

/-! ### Due causes and the due list (section 2.7) -/

/-- The set has the cause. -/
def Causes.has (x : Causes) : Cause → Bool
  | .exposure => x.exposure
  | .brk => x.brk
  | .media => x.media
  | .retire => x.retire

/-- The set with the cause added. -/
def Causes.add (x : Causes) : Cause → Causes
  | .exposure => { x with exposure := true }
  | .brk => { x with brk := true }
  | .media => { x with media := true }
  | .retire => { x with retire := true }

/-- Some cause is in the set. -/
def Causes.any (x : Causes) : Bool :=
  x.exposure || x.brk || x.media || x.retire

/-- Band b joins the due list at its tail, with its BAND_DUE notice, unless it is on the list already (R37). -/
def joinDue (b : Nat) (s : State) : State :=
  if b ∈ s.table.due then s
  else choiceDue (placeNotice .bandDue (some b) { s with table := { s.table with due := s.table.due ++ [b] } })

/-- Band b leaves the due list; the others keep their order (R39). -/
def leaveDue (b : Nat) (s : State) : State :=
  { s with table := { s.table with due := s.table.due.erase b } }

/-- The position of band b on the due list, counting the oldest as 1 (R159). -/
def duePosition (b : Nat) (s : State) : Option Nat :=
  if b ∈ s.table.due then some (s.table.due.idxOf b + 1) else none

/-! ### Closing and finishing (R24, R101) -/

/-- A band goes to CLOSING and its SUMMARY run is queued (R24, R100). -/
def closeBand (b : Nat) (s : State) : State :=
  let s := updBand b (fun x => { x with state := .closing }) s
  offer { s with sched := { s.sched with summaries := s.sched.summaries ++ [b] } }

/-- A write run on band b is in flight (R101, R104). -/
def writeInFlight (b : Nat) (s : State) : Bool :=
  match s.sched.current with
  | none => false
  | some op => op.kind == .writeRun && op.band == b

/-- An OPEN band is to be finished: at once, or when the write run in flight on it ends (R101). -/
def finishBand (b : Nat) (s : State) : State :=
  if writeInFlight b s then
    match (band? s b).bind (·.owner) with
    | none => s
    | some i => updStream i (fun x => { x with finish := true }) s
  else closeBand b s

/-- A cause is raised for band b and acts by the band's state (R38). -/
def raiseCause (b : Nat) (c : Cause) (s : State) : State :=
  match band? s b with
  | none => s
  | some r =>
    let add := updBand b fun x => { x with causes := x.causes.add c }
    match r.state with
    | .empty => s
    | .retired => s
    | .opened => finishBand b (joinDue b (add s))
    | .closing => joinDue b (add s)
    | .filled => joinDue b (add s)
    | .draining => add s

/-! ### Reset and retirement (R31 to R33) -/

/-- A band record after reset to EMPTY (R32). -/
def Band.resetRecord (x : Band) : Band :=
  { x with
    state := .empty, wp := 0, live := 0, notes := 0, exposure := 0, chain := none, openSeq := none, minSeq := none
    breakOffset := none, causes := Causes.none, neglected := false, summaryPresent := false, owner := none, pins := 0 }

/-- A band record after retirement (R33). -/
def Band.retireRecord (x : Band) : Band :=
  { x with
    state := .retired, live := 0, notes := 0, exposure := 0, minSeq := none, causes := Causes.none, neglected := false
    owner := none }

/-- Band b is reset to EMPTY, and F grows by 1 (R32). -/
def resetBand (b : Nat) (s : State) : State :=
  freeChanged (leaveDue b (updBand b Band.resetRecord s))

/-- Band b is retired, with its RETIRED notice (R33). -/
def retireBand (b : Nat) (s : State) : State :=
  placeNotice .retired (some b) (leaveDue b (updBand b Band.retireRecord s))

/-- Band b is retired when RETIRE is among its causes, and otherwise reset (R31, R36). -/
def resetOrRetire (b : Nat) (s : State) : State :=
  match band? s b with
  | none => s
  | some r => if r.causes.retire then retireBand b s else resetBand b s

/-- A FILLED band with no live blocks, no notes and no read pins leaves FILLED (R31). -/
def emptiedTest (b : Nat) (s : State) : State :=
  match band? s b with
  | none => s
  | some r =>
    if r.state = .filled ∧ r.live = 0 ∧ r.notes = 0 ∧ r.pins = 0 then resetOrRetire b s else s

/-! ### Counts (section 2.3) -/

/-- Band b's live count grows by m (R27). -/
def raiseLive (b m : Nat) (s : State) : State :=
  updBand b (fun x => { x with live := x.live + m }) s

/-- Band b's live count falls by m, and a fall to 0 in a FILLED band is tested at once (R27). -/
def lowerLive (b m : Nat) (s : State) : State :=
  emptiedTest b (updBand b (fun x => { x with live := x.live - m }) s)

/-- The data sectors written in the band's present life (R28). -/
def Band.written (x : Band) : Nat :=
  x.wp - 1

/-- The dead count (R28). -/
def Band.dead (x : Band) : Nat :=
  x.written - x.live - x.notes

/-! ### Read pins (R30) -/

/-- A read run outstanding against band b adds a pin. -/
def addPin (b : Nat) (s : State) : State :=
  updBand b (fun x => { x with pins := x.pins + 1 }) s

/-- The reset or retirement that band b's pins held back is made once it has none: of a DRAINING band that is not the current
victim (R36), or of a FILLED band under R31. -/
def heldReset (b : Nat) (s : State) : State :=
  match band? s b with
  | none => s
  | some r =>
    if r.pins = 0 then
      if r.state = .draining ∧ s.engine.victim ≠ some b then resetOrRetire b s else emptiedTest b s
    else s

/-- A read run against band b has ended: its pin is removed, and the removal of the last pin completes a reset held back (R30). -/
def removePin (b : Nat) (s : State) : State :=
  heldReset b (updBand b (fun x => { x with pins := x.pins - 1 }) s)

/-! ### Band life (R21 to R26) -/

/-- The stamp of a band's next life (R21). -/
def nextStamp (n : Nat) : Nat :=
  if n = 65535 then 1 else n + 1

/-- A stream takes the EMPTY band b (R21). -/
def takeBand (b : Nat) (i : StreamId) (s : State) : State :=
  freeChanged <|
    updBand b
      (fun x =>
        { x with
          state := .opened
          stamp := nextStamp x.stamp
          openSeq := some s.staging.seqCounter
          wp := 0
          chain := some (bandSeed x.number (nextStamp x.stamp))
          owner := some i
          summaryPresent := false })
      s

/-- The sequence that a written item adds to its band's min data sequence (R22, R29): DATA and NOTE sectors have one, the header
has none. -/
def itemSeq : RunItem → Option Nat
  | .header => none
  | .data _ _ _ q => some q
  | .note _ _ _ q => some q
  | .copy _ _ q => some q
  | .noteCopy _ _ _ q => some q

/-- Whether a written item is a NOTE sector. -/
def isNoteItem : RunItem → Bool
  | .note _ _ _ _ => true
  | .noteCopy _ _ _ _ => true
  | _ => false

/-- A write completion has added sectors to band b: wp, chain, notes and min data sequence advance over them (R22). -/
def writeProgress (b : Nat) (items : List RunItem) (sectors : List Sector) (s : State) : State :=
  match sectors.getLast? with
  | none => s
  | some last =>
    updBand b
      (fun x =>
        { x with
          wp := x.wp + sectors.length
          chain := some last.trailer.chain
          notes := x.notes + items.countP isNoteItem
          minSeq := leastOf (x.minSeq :: items.map itemSeq) })
      s

/-- A band enters FILLED: its owning stream becomes absent (R25, R26), and the relocation engine's choice is due (R134). -/
def fillBand (b : Nat) (s : State) : State :=
  choiceDue (updBand b (fun x => { x with state := .filled, owner := none }) s)

/-- A write run into band b has failed hard: FILLED, then RETIRE is raised, then the test of R31 (R25). -/
def failBand (b : Nat) (s : State) : State :=
  emptiedTest b (raiseCause b .retire (fillBand b s))

/-- A SUMMARY run has ended with the parts given completed: FILLED, with summary present set, or with RETIRE raised after a hard
failure, then the test of R31 (R26). -/
def endSummary (b : Nat) (ok : Bool) (parts : List Sector) (s : State) : State :=
  let s := updBand b (fun x => { x with chain := (parts.getLast?.map (·.trailer.chain)).or x.chain }) (fillBand b s)
  emptiedTest b <|
    if ok then updBand b (fun x => { x with summaryPresent := true }) s else raiseCause b .retire s

/-! ### Victims (section 2.6) -/

/-- Band b becomes the victim: DRAINING, off the due list, its causes kept (R34). -/
def drainBand (b : Nat) (s : State) : State :=
  leaveDue b (updBand b (fun x => { x with state := .draining }) s)

/-- The abandoned victim goes back to FILLED, and joins the due list when it has causes (R35). -/
def abandonBand (b : Nat) (s : State) : State :=
  let s := choiceDue (updBand b (fun x => { x with state := .filled }) s)
  match band? s b with
  | none => s
  | some r => if r.causes.any then joinDue b s else s

/-- The drain of band b has ended and the engine no longer holds it: min data sequence becomes absent, and the band is reset or
retired unless pins hold that back (R36). -/
def endDrain (b : Nat) (s : State) : State :=
  heldReset b (updBand b (fun x => { x with minSeq := none }) s)

/-! ### Scan findings (R40) -/

/-- A finding of a scan that began with the stamp given is taken by f when it is still of the band's present life, and is otherwise
discarded (R40). -/
def withFinding (b stamp : Nat) (f : State → State) (s : State) : State :=
  match band? s b with
  | none => s
  | some r => if r.state ≠ .empty ∧ r.state ≠ .retired ∧ r.stamp = stamp then f s else s

/-- The first break offset of a band's life is recorded once (R40). -/
def recordBreak (b o : Nat) (s : State) : State :=
  updBand b (fun x => { x with breakOffset := some (x.breakOffset.getD o) }) s

/-- A first break offset is handed: BREAK is raised, the offset recorded and a BREAK notice placed, when R40 takes the
finding (R143, R148). -/
def handBreak (b stamp : Nat) (o : Option Nat) (s : State) : State :=
  match o with
  | none => s
  | some o =>
    withFinding b stamp (fun s => placeNotice .breakFound (some b) (recordBreak b o (raiseCause b .brk s))) s

/-- Unreadable offsets are handed: where there is one, MEDIA is raised, when R40 takes the finding (R143, R148). -/
def handMedia (b stamp : Nat) (offsets : List Nat) (s : State) : State :=
  if offsets.isEmpty then s else withFinding b stamp (raiseCause b .media) s

end Sys2Proof.Machine
end

