-- ==== Sys2Proof/Machine/ExtentMap.lean ====
section
/-! DEFINITION. The extent map as an ordered list of records: resolution, cutting, merging, and the changes over a range (chapter 3). -/

namespace Sys2Proof.Machine

/-- The location d blocks further on (R48, R52). -/
def Location.shift (d : Nat) : Location → Location
  | .media b o => .media b (o + d)
  | .staged p i => .staged p (i + d)
  | .lost => .lost

/-- The record covers logical block L. -/
def Extent.covers (r : Extent) (L : Nat) : Bool :=
  decide (r.start ≤ L) && decide (L < r.start + r.len)

/-- The location the map gives for logical block L, absent when L is unmapped (R48). -/
def resolve (m : List Extent) (L : Nat) : Option Location :=
  (m.find? fun r => r.covers L).map fun r => r.loc.shift (L - r.start)

/-- The search by location: the LBN placed at (band b, offset o), when there is one (R48). -/
def searchLocation (m : List Extent) (b o : Nat) : Option Nat :=
  m.findSome? fun r =>
    match r.loc with
    | .media b' o' => if b' = b ∧ o' ≤ o ∧ o < o' + r.len then some (r.start + (o - o')) else none
    | _ => none

/-- The record cut at block L: its left and right parts when it starts before L and ends at or after it (R52). -/
def cutRecord (L : Nat) (r : Extent) : List Extent :=
  if r.start < L ∧ L < r.start + r.len then
    [{ start := r.start, len := L - r.start, loc := r.loc },
      { start := L, len := r.start + r.len - L, loc := r.loc.shift (L - r.start) }]
  else [r]

/-- The map with the record that crosses into block L cut there (R52). -/
def cutAt (L : Nat) (m : List Extent) : List Extent :=
  m.flatMap (cutRecord L)

/-- The map with both edges of the range [a, e) cut (R52). -/
def cutRange (a e : Nat) (m : List Extent) : List Extent :=
  cutAt e (cutAt a m)

/-- The records, or parts of records, inside the range [a, e). -/
def recordsInside (a e : Nat) (m : List Extent) : List Extent :=
  (cutRange a e m).filter fun r => decide (a ≤ r.start) && decide (r.start < e)

/-- Two records are adjacent and continue one another (R47). -/
def mergeable (x y : Extent) : Bool :=
  decide (x.start + x.len = y.start) &&
    match x.loc, y.loc with
    | .media b o, .media b' o' => decide (b' = b) && decide (o' = o + x.len)
    | .staged p i, .staged p' i' => decide (p' = p) && decide (i' = i + x.len)
    | .lost, .lost => decide (x.len + y.len ≤ Config.lostLimit)
    | _, _ => false

/-- Two runs of records joined, with the pair at the seam merged where it is mergeable (R47). -/
def glue (xs ys : List Extent) : List Extent :=
  match xs.getLast?, ys with
  | some x, y :: ys' =>
    if mergeable x y then xs.dropLast ++ { x with len := x.len + y.len } :: ys' else xs ++ ys
  | _, _ => xs ++ ys

/-- The records before a range: the last one, which a cut may have shortened, joins a LOST record before it when the two now fit into
one (R46; assumption 14). -/
def sealBefore (xs : List Extent) : List Extent :=
  match xs.getLast? with
  | none => []
  | some x => glue xs.dropLast [x]

/-- The records after a range: the first one, which a cut may have shortened, joins a LOST record after it when the two now fit into
one (R46; assumption 14). -/
def sealAfter : List Extent → List Extent
  | [] => []
  | y :: ys => glue [y] ys

/-- The change of the map that puts the records `new` in place of everything in the range [a, e): cut, remove, insert, and the merge step at
both edges (R46, R47, R52), the edge before first where only one of two LOST neighbours fits into one record with the new block (assumption
45). A range of no block changes nothing. -/
def changeRange (a e : Nat) (new m : List Extent) : List Extent :=
  if e ≤ a then m
  else
    let cut := cutRange a e m
    let before := sealBefore (cut.filter fun r => decide (r.start < a))
    let after := sealAfter (cut.filter fun r => decide (e ≤ r.start))
    glue (glue before new) after

/-- Block L becomes MEDIA at (band b, offset o) (R56, R59). -/
def commitBlock (L b o : Nat) (m : List Extent) : List Extent :=
  changeRange L (L + 1) [{ start := L, len := 1, loc := .media b o }] m

/-- Block L becomes LOST (R61). -/
def lostBlock (L : Nat) (m : List Extent) : List Extent :=
  changeRange L (L + 1) [{ start := L, len := 1, loc := .lost }] m

/-- The records that meet the range [a, e), each clipped to it, in ascending order (R63, R66). -/
def clippedRecords (a e : Nat) (m : List Extent) : List Extent :=
  m.filterMap fun r =>
    let lo := max r.start a
    let hi := min (r.start + r.len) e
    if lo < hi then some { start := lo, len := hi - lo, loc := r.loc.shift (lo - r.start) } else none

/-- The order law of R46: records from block `lo` on, each at least one block long, not overlapping, in ascending order, with no two
adjacent ones mergeable. -/
def mapOrderedFrom (lo : Nat) : List Extent → Bool
  | [] => true
  | [x] => decide (lo ≤ x.start) && decide (1 ≤ x.len)
  | x :: y :: rest =>
    decide (lo ≤ x.start) && decide (1 ≤ x.len) && !mergeable x y && mapOrderedFrom (x.start + x.len) (y :: rest)

/-- The order law of R46 over the whole map. -/
def mapOrdered (m : List Extent) : Bool :=
  mapOrderedFrom 0 m

/-- The map's records become m, and the events that follow a change of the map are made due (R51, R144). -/
def setRecords (m : List Extent) (s : State) : State :=
  mapChanged { s with map := { s.map with records := m } }

end Sys2Proof.Machine
end

