-- ==== Sys2Proof/Machine/Operands.lean ====
section
/-! DEFINITION. The fields of requests and the ordered checks of a take (sections 9.3 and 11.1). -/

namespace Sys2Proof.Machine

/-- The request kind of a kind code (code table of section 11.1); an unlisted code has none. -/
def Kind.ofCode (c : BitVec 8) : Option Kind :=
  match c.toNat with
  | 1 => some .place
  | 2 => some .fetch
  | 3 => some .release
  | 4 => some .locate
  | 5 => some .drain
  | 6 => some .streamSet
  | 7 => some .fence
  | 8 => some .admitPort
  | 9 => some .halt
  | 10 => some .run
  | 11 => some .restart
  | 12 => some .set
  | 13 => some .get
  | 14 => some .saveSettings
  | 15 => some .loadDefaults
  | 16 => some .status
  | 17 => some .bandQuery
  | 18 => some .verifyBand
  | 19 => some .noticeFetch
  | _ => none

/-- The mutating kinds (R155). -/
def Kind.mutating : Kind → Bool
  | .place | .release | .streamSet | .fence | .admitPort | .halt | .run | .restart | .set | .saveSettings | .loadDefaults => true
  | .fetch | .locate | .drain | .get | .status | .bandQuery | .verifyBand | .noticeFetch => false

/-- The kind of a request. -/
def requestKind (f : RequestFrame) : Option Kind :=
  Kind.ofCode f.kind

/-- The frame's data count exceeds 1,024 (R152, R176). -/
def oversize (f : RequestFrame) : Bool :=
  decide (Config.frameBlocks < f.dataCount.toNat)

/-- The stream a request names. -/
def requestStream (f : RequestFrame) : Fin 8 :=
  Fin.ofNat 8 f.stream.toNat

/-- The first LBN of a request. -/
abbrev requestStart (f : RequestFrame) : Nat :=
  f.lbn.toNat

/-- The length of a request. -/
abbrev requestLength (f : RequestFrame) : Nat :=
  f.length.toNat

/-- The block after the last block of a request's range. -/
abbrev requestEnd (f : RequestFrame) : Nat :=
  requestStart f + requestLength f

/-- The zone order of a code (section 11.1). -/
def zoneOrderOf (c : BitVec 8) : Option ZoneOrder :=
  match c.toNat with
  | 0 => some .outer
  | 1 => some .inner
  | 2 => some .spread
  | _ => none

/-- The stream setting that a STREAM_SET carries. -/
def requestSetting (f : RequestFrame) : StreamSetting :=
  { order := (zoneOrderOf f.zoneOrder).getD .outer, cold := f.coldPlacement == 1 }

/-- The apply code NOW (section 11.1). -/
def applyNow (f : RequestFrame) : Bool :=
  f.apply == 1

/-- A parameter identifier of the writable settings (R178). -/
def writableParam (id : Nat) : Bool :=
  decide (1 ≤ id ∧ id ≤ 14)

/-- A parameter identifier of the read-only parameters, 20h to 27h (R178). -/
def readOnlyParam (id : Nat) : Bool :=
  decide (32 ≤ id ∧ id ≤ 39)

/-- A refusal with the status given when the condition fails. -/
def need (ok : Bool) (st : Status) : Option Status :=
  if ok then none else some st

/-- The first check that fails decides the status (R155, R156). -/
def firstFailure : List (Option Status) → Option Status
  | [] => none
  | some st :: _ => some st
  | none :: rest => firstFailure rest

/-- The range check: length at least 1 and LBN + length ≤ N_log (R156). -/
def rangeInside (s : State) (f : RequestFrame) : Bool :=
  decide (1 ≤ requestLength f) && decide (requestEnd f ≤ s.startup.nLog)

/-- Check 2: the engine state (R155). -/
def engineCheck (s : State) (k : Kind) : Option Status :=
  match s.startup.engine with
  | .starting => need (k == .status || k == .noticeFetch) .notRunning
  | .running => none
  | .halting => need (!(k == .place || k == .release || k == .streamSet)) .notRunning
  | .halted => need (!(k == .place || k == .release || k == .streamSet)) .notRunning

/-- The field checks of one kind, in order (R156); the oversize check of the kinds other than PLACE stands apart. -/
def kindFields (s : State) (f : RequestFrame) : Kind → List (Option Status)
  | .place =>
    [need (decide (f.stream.toNat < 8)) .badRange, need (rangeInside s f) .badRange,
      need (!oversize f && decide (requestLength f ≤ slotSize s)) .tooLong,
      need (f.dataCount.toNat == requestLength f) .badRange]
  | .fetch => [need (rangeInside s f) .badRange, need (decide (requestLength f ≤ 1024)) .tooLong]
  | .release => [need (decide (f.stream.toNat < 8)) .badRange, need (rangeInside s f) .badRange]
  | .locate => [need (rangeInside s f) .badRange]
  | .drain => [need (decide (f.stream.toNat < 8) || f.stream == 255) .badRange]
  | .streamSet =>
    [need (decide (f.stream.toNat < 8)) .badRange, need (zoneOrderOf f.zoneOrder).isSome .badRange,
      need (decide (f.coldPlacement.toNat ≤ 1)) .badRange, need (decide (f.apply.toNat ≤ 1)) .badRange]
  | .set | .get => [need (writableParam f.param.toNat || readOnlyParam f.param.toNat) .badRange]
  | .bandQuery | .verifyBand => [need (decide (f.band.toNat < bandCount s)) .badRange]
  | .fence | .admitPort | .halt | .run | .restart | .saveSettings | .loadDefaults | .status | .noticeFetch => []

/-- Check 3: the field checks (R156). An oversize frame of a kind other than PLACE is refused with TOO_LONG first (assumption 9). -/
def fieldCheck (s : State) (k : Kind) (f : RequestFrame) : Option Status :=
  firstFailure (need (k == .place || !oversize f) .tooLong :: kindFields s f k)

/-- Check 4: a mutating request of a FENCED port (R155). -/
def admissionCheck (s : State) (p : Port) (k : Kind) : Option Status :=
  need (!k.mutating || s.custody.admission.get p == .active) .fenced

/-- Check 5: a mutating request whose custody number is not the custody number (R155). -/
def custodyCheck (s : State) (k : Kind) (f : RequestFrame) : Option Status :=
  need (!k.mutating || f.custody.toNat == s.custody.number) .staleCustody

/-- Check 6: the map headroom of PLACE and RELEASE (R50). -/
def headroomCheck (s : State) (k : Kind) : Option Status :=
  need (!(k == .place || k == .release) || decide (Config.mapReserve ≤ freeRecords s)) .mapFull

/-- The number of blocks of the range [a, e) that are STAGED in parcels of the port given (R75, R76). -/
def stagedOf (s : State) (p : Port) (a e : Nat) : Nat :=
  ((clippedRecords a e s.map.records).map fun r =>
    match r.loc with
    | .staged q _ => if (parcel? s q).any fun x => x.port == p then r.len else 0
    | _ => 0).sum

/-- Check 7: collision refusal (R76). -/
def conflictCheck (s : State) (p : Port) (k : Kind) (f : RequestFrame) : Option Status :=
  need (!(k == .place && s.startup.image.collisionRefusal && decide (0 < stagedOf s p.other (requestStart f) (requestEnd f))))
    .conflict

/-- Checks 2 to 7 of a take, in order: the status of the first that fails (R155). -/
def takeCheck (s : State) (p : Port) (k : Kind) (f : RequestFrame) : Option Status :=
  firstFailure
    [engineCheck s k, fieldCheck s k f, admissionCheck s p k, custodyCheck s k f, headroomCheck s k, conflictCheck s p k f]

/-- The checks made again when a resource is handed to a held request (R83). -/
def retakeCheck (s : State) (p : Port) (k : Kind) (f : RequestFrame) : Option Status :=
  firstFailure
    [engineCheck s k, admissionCheck s p k, custodyCheck s k f, headroomCheck s k, conflictCheck s p k f]

/-- The take of the head request of port p when its kind satisfies `want`: refused by the first check that fails, or executed by
`act`. A take for which no such request stands at the head changes nothing (assumption 1). -/
def takeHead (p : Port) (k : Kind) (want : RequestFrame → Bool) (act : RequestFrame → State → State) (s : State) : State :=
  match headRequest p s with
  | none => s
  | some f =>
    if requestKind f = some k ∧ want f = true then
      match takeCheck s p k f with
      | some st => refuseHead p f st s
      | none => act f s
    else s

end Sys2Proof.Machine
end

