-- ==== Sys2Proof/Machine/Staging.lean ====
section
/-! DEFINITION. Staging: parcels, notes, acceptance, removal, the wait lists, handing and DRAIN (chapter 4), with the map changes that a
take makes (section 3.3). -/

namespace Sys2Proof.Machine

/-! ### DRAIN records (section 4.8) -/

/-- The DRAIN counts the parcel (R84). -/
def drainCounts (d : DrainRecord) (x : Parcel) : Bool :=
  x.port == d.requester.port && (d.stream == none || d.stream == some x.stream) && decide (x.seq < d.mark)

/-- Every DRAIN whose count is 0 is answered DONE (R84), the earliest taken first where there are several (assumption 33). -/
def answerDrains (s : State) : State :=
  let ready := s.staging.drains.filter fun d => d.count = 0
  let s := { s with staging := { s.staging with drains := s.staging.drains.filter fun d => d.count ≠ 0 } }
  ready.foldl (fun s d => respond d.requester .done .none [] s) s

/-- A parcel has been removed: every DRAIN that counts it has its count lowered by 1, and is answered at 0 (R79 step 4). -/
def lowerDrains (x : Parcel) (s : State) : State :=
  answerDrains
    { s with
      staging :=
        { s.staging with
          drains := s.staging.drains.map fun d => if drainCounts d x then { d with count := d.count - 1 } else d } }

/-! ### Removal (R77, R79) -/

/-- The resource a parcel holds (R71). -/
def parcelResource (s : State) (x : Parcel) : Resource :=
  match x.kind with
  | .data => .slot x.id
  | .note => .note (x.id - slotCount s)

/-- The parcel leaves its stream's queue and the table, and its resource is freed (R79 steps 1 to 3, less the handing). -/
def takeOut (x : Parcel) (s : State) : State :=
  let s := updHost x.stream (fun y => { y with queue := y.queue.erase x.id }) s
  let s := { s with staging := { s.staging with parcels := s.staging.parcels.filter fun y => y.id ≠ x.id } }
  pushFreed (parcelResource s x) s

/-- A parcel is dropped within a take: the DRAINs that count it are lowered, and answered at 0, at once, and its resource is handed out once
the take is whole (R74, R77, R79, R83; assumption 11). -/
def dropParcel (id : Nat) (s : State) : State :=
  match parcel? s id with
  | none => s
  | some x => lowerDrains x (takeOut x s)

/-- A DATA parcel with nothing that is still to be written, by the first two cases of R77. -/
def unwanted (x : Parcel) : Bool :=
  x.kind == .data && x.state == .queued && x.written == 0 && x.live == 0

/-- Parcel q's live blocks fall by m, and it is dropped when nothing of it is still wanted (R53, R72, R77). -/
def lowerParcelLive (q m : Nat) (s : State) : State :=
  let s := updParcel q (fun x => { x with live := x.live - m }) s
  if (parcel? s q).any unwanted then dropParcel q s else s

/-! ### Map changes made at a take (section 3.3) -/

/-- The effect of removing a record on the counts of other blocks (table of R53). -/
def removalEffect (s : State) (r : Extent) : State :=
  match r.loc with
  | .media b _ => lowerLive b r.len s
  | .staged q _ => lowerParcelLive q r.len s
  | .lost => s

/-- The records of the range [a, e) are replaced by `new`, with the effects of what was removed (R53, R54). The rules give the removals no
order; they are made in ascending LBN, so that parcels are dropped and bands reset or retired in that order (assumption 32). -/
def takeChange (a e : Nat) (new : List Extent) (s : State) : State :=
  let inside := recordsInside a e s.map.records
  inside.foldl removalEffect (setRecords (changeRange a e new s.map.records) s)

/-! ### Acceptance (R74, R80) -/

/-- A parcel record joins the table and the tail of its stream's queue, and takes the sequence counter's value (R73, R74, R80). -/
def addParcel (x : Parcel) (s : State) : State :=
  { s with
    staging := { s.staging with parcels := s.staging.parcels ++ [x], seqCounter := s.staging.seqCounter + 1 } }

/-- The parcel joins the tail of its stream's queue. -/
def joinQueue (x : Parcel) (s : State) : State :=
  updHost x.stream (fun y => { y with queue := y.queue ++ [x.id] }) s

/-- The DATA parcel that the PLACE f of port p makes in a slot (R74 steps 1, 2 and 4). -/
def placeParcel (p : Port) (f : RequestFrame) (slot : Nat) (s : State) : Parcel where
  id := slot
  kind := .data
  port := p
  stream := requestStream f
  start := requestStart f
  length := requestLength f
  seq := s.staging.seqCounter
  live := requestLength f
  written := 0
  state := .queued
  acceptedAt := s.now

/-- A PLACE is accepted in a slot (R74). -/
def acceptPlace (p : Port) (f : RequestFrame) (slot : Nat) (s : State) : State :=
  let x := placeParcel p f slot s
  let superseded := stagedOf s p.other (requestStart f) (requestEnd f)
  let s := addParcel x s
  let s :=
    { s with staging := { s.staging with pool := poolWriteRun (slot * slotSize s) x.length f.data s.staging.pool } }
  let s := takeChange (requestStart f) (requestEnd f) [{ start := x.start, len := x.length, loc := .staged slot 0 }] s
  let s := joinQueue x s
  offer (answerHead p f .done (.place x.seq superseded) [] s)

/-- The length u of the unit a RELEASE releases (R54). -/
def unitLength (f : RequestFrame) : Nat :=
  min (requestLength f) Config.releaseUnit

/-- The block after the unit. -/
def unitEnd (f : RequestFrame) : Nat :=
  requestStart f + unitLength f

/-- The resume LBN of a RELEASE, present when blocks beyond the unit remain (R54). -/
def releaseResume (f : RequestFrame) : Option Nat :=
  if Config.releaseUnit < requestLength f then some (unitEnd f) else none

/-- DONE, or PARTIAL when the unit is not the whole range (R54). -/
def releaseStatus (f : RequestFrame) : Status :=
  if Config.releaseUnit < requestLength f then .partially else .done

/-- The unit is mapped: at least one of its blocks has a record (R54). -/
def unitMapped (s : State) (f : RequestFrame) : Bool :=
  !(clippedRecords (requestStart f) (unitEnd f) s.map.records).isEmpty

/-- A RELEASE of an unmapped unit is answered; nothing else changes (R54, R80). -/
def releaseUnmapped (p : Port) (f : RequestFrame) (s : State) : State :=
  answerHead p f (releaseStatus f) (.release none (releaseResume f)) [] s

/-- The NOTE parcel that the RELEASE f of port p makes with a note entry (R80 steps 2 and 3). -/
def noteParcel (p : Port) (f : RequestFrame) (entry : Nat) (s : State) : Parcel where
  id := slotCount s + entry
  kind := .note
  port := p
  stream := requestStream f
  start := requestStart f
  length := unitLength f
  seq := s.staging.seqCounter
  live := 0
  written := 0
  state := .queued
  acceptedAt := s.now

/-- A RELEASE of a mapped unit is accepted with a note entry (R80). -/
def acceptRelease (p : Port) (f : RequestFrame) (entry : Nat) (s : State) : State :=
  let s := takeChange (requestStart f) (unitEnd f) [] s
  let x := noteParcel p f entry s
  let s := joinQueue x (addParcel x s)
  offer (answerHead p f (releaseStatus f) (.release (some x.seq) (releaseResume f)) [] s)

/-- The sequence counter stands at its limit, so that no parcel is accepted (R73). -/
def sequenceSpent (s : State) : Bool :=
  decide (Config.sequenceLimit ≤ s.staging.seqCounter)

/-! ### Wait lists and handing (section 4.7) -/

/-- A slot returns to the free-slot set (R69). -/
def freeSlot (n : Nat) (s : State) : State :=
  { s with staging := { s.staging with freeSlots := insertSorted n s.staging.freeSlots } }

/-- A note entry returns to the free note set (R70). -/
def freeNote (n : Nat) (s : State) : State :=
  { s with staging := { s.staging with freeNotes := insertSorted n s.staging.freeNotes } }

/-- The waiter for a request that begins to wait now (R81). -/
def newWaiter (p : Port) (s : State) : Waiter :=
  { port := p, deadline := s.now + s.startup.image.slotWait }

/-- A slot is handed to the PLACEs that wait, oldest first: each is taken again, and accepted or refused, until one is accepted or the
slot joins the free-slot set (R83). -/
def handSlot (n : Nat) : List Waiter → State → State
  | [], s => freeSlot n s
  | w :: ws, s =>
    let s := { s with staging := { s.staging with slotWait := ws } }
    match (s.link w.port).queue.head? with
    | none => handSlot n ws s
    | some f =>
      match retakeCheck s w.port .place f with
      | some st => handSlot n ws (refuseHead w.port f st s)
      | none =>
        if sequenceSpent s then handSlot n ws (refuseHead w.port f .notRunning s) else acceptPlace w.port f n s

/-- A note entry is handed to the RELEASEs that wait, oldest first; a RELEASE whose unit is no longer mapped is taken without it
(R83). -/
def handNote (n : Nat) : List Waiter → State → State
  | [], s => freeNote n s
  | w :: ws, s =>
    let s := { s with staging := { s.staging with noteWait := ws } }
    match (s.link w.port).queue.head? with
    | none => handNote n ws s
    | some f =>
      match retakeCheck s w.port .release f with
      | some st => handNote n ws (refuseHead w.port f st s)
      | none =>
        if !unitMapped s f then handNote n ws (releaseUnmapped w.port f s)
        else if sequenceSpent s then handNote n ws (refuseHead w.port f .notRunning s)
        else acceptRelease w.port f n s

/-- A freed resource is handed out (R79, R83). -/
def handResource (r : Resource) (s : State) : State :=
  match r with
  | .slot n => handSlot n s.staging.slotWait s
  | .note n => handNote n s.staging.noteWait s

/-- The freed resources are handed out in the order they were freed; `fuel` bounds the handings. -/
def handOut : Nat → State → State
  | 0, s => s
  | fuel + 1, s =>
    match s.agenda.freed with
    | [] => s
    | r :: rs => handOut fuel (handResource r { s with agenda := { s.agenda with freed := rs } })

/-- All freed resources are handed out. Each handing uses up one freed resource, each parcel frees one at most, and each of the two
ports can have one more parcel accepted. -/
def handAll (s : State) : State :=
  handOut (s.agenda.freed.length + s.staging.parcels.length + 3) s

/-- A parcel is removed by a completion or by the composer: its resource is handed out at once, and then the DRAINs that count it are
lowered (R79). -/
def removeParcel (id : Nat) (s : State) : State :=
  match parcel? s id with
  | none => s
  | some x => lowerDrains x (handAll (takeOut x s))

/-- The staging step of a PLACE that has passed checks 1 to 7: held for a slot (check 8 of R155, R81); with a slot free, refused at the
sequence limit (R73) or accepted in the lowest free slot (R69, R74). -/
def placeTake (p : Port) (f : RequestFrame) (s : State) : State :=
  match s.staging.freeSlots with
  | [] => holdRequest p { s with staging := { s.staging with slotWait := s.staging.slotWait ++ [newWaiter p s] } }
  | n :: rest =>
    if sequenceSpent s then refuseHead p f .notRunning s
    else acceptPlace p f n { s with staging := { s.staging with freeSlots := rest } }

/-- The staging step of a RELEASE that has passed checks 1 to 6: answered when its unit is unmapped (R54); held for a note entry (check 8 of
R155, R81); with an entry free, refused at the sequence limit (R73) or accepted (R70, R80). -/
def releaseTake (p : Port) (f : RequestFrame) (s : State) : State :=
  if !unitMapped s f then releaseUnmapped p f s
  else
    match s.staging.freeNotes with
    | [] => holdRequest p { s with staging := { s.staging with noteWait := s.staging.noteWait ++ [newWaiter p s] } }
    | n :: rest =>
      if sequenceSpent s then refuseHead p f .notRunning s
      else acceptRelease p f n { s with staging := { s.staging with freeNotes := rest } }

/-- The slot-wait timer of port p's waiting request expires: it is refused with NO_SLOT (R82). Where no request of the port waits, the
expiry does not happen. -/
def slotWaitExpires (p : Port) (s : State) : State :=
  match (s.staging.slotWait ++ s.staging.noteWait).find? (fun w => w.port = p), (s.link p).queue.head? with
  | some w, some f =>
    refuseHead p f .noSlot <|
      advanceTo w.deadline
        { s with
          staging :=
            { s.staging with
              slotWait := s.staging.slotWait.filter fun w => w.port ≠ p
              noteWait := s.staging.noteWait.filter fun w => w.port ≠ p } }
  | _, _ => s

/-- The step HELD_REQUEST_HANDED by itself: while a request waits and a resource it waits for stands free, the lowest-numbered one is
handed to it (R81, R83; assumption 2). -/
def handWaiting (s : State) : State :=
  match s.staging.slotWait, s.staging.freeSlots with
  | _ :: _, n :: rest =>
    handResource (.slot n) { s with staging := { s.staging with freeSlots := rest } }
  | _, _ =>
    match s.staging.noteWait, s.staging.freeNotes with
    | _ :: _, n :: rest =>
      handResource (.note n) { s with staging := { s.staging with freeNotes := rest } }
    | _, _ => s

/-! ### DRAIN at its take (R84) -/

/-- The DRAIN record of a take: the mark is the sequence counter, the count the port's earlier parcels in the stream or in all. -/
def newDrain (p : Port) (f : RequestFrame) (s : State) : DrainRecord :=
  let d : DrainRecord :=
    { requester := requesterOf p f
      stream := if f.stream = 255 then none else some (requestStream f)
      mark := s.staging.seqCounter
      count := 0 }
  { d with count := s.staging.parcels.countP (drainCounts d) }

/-- A DRAIN is answered at once when it counts no parcel, and is otherwise recorded (R84). -/
def drainTake (p : Port) (f : RequestFrame) (s : State) : State :=
  let d := newDrain p f s
  if d.count = 0 then answerHead p f .done .none [] s
  else
    offer (popRequest p { s with staging := { s.staging with drains := s.staging.drains ++ [d] } })

/-! ### Values given to other blocks (R86) -/

/-- The parcel records of stream t's queue, in queue order. -/
def queueParcels (s : State) (t : Fin 8) : List Parcel :=
  s.alloc.hosts[t].queue.filterMap (parcel? s)

/-- The sectors of a parcel not yet written (R86, R95). -/
def Parcel.remaining (x : Parcel) : Nat :=
  match x.kind with
  | .data => x.length - x.written
  | .note => 1 - x.written

/-- The stream queued total (R86). -/
def queuedTotal (s : State) (t : Fin 8) : Nat :=
  ((queueParcels s t).map Parcel.remaining).sum

/-- The oldest parcel age, absent when the queue is empty (R86). -/
def oldestAge (s : State) (t : Fin 8) : Option Nat :=
  (queueParcels s t).head?.map fun x => s.now - x.acceptedAt

/-- DRAIN interest: some DRAIN record counts a parcel of the stream (R86). -/
def drainInterest (s : State) (t : Fin 8) : Bool :=
  (queueParcels s t).any fun x => s.staging.drains.any fun d => drainCounts d x

/-- The staging minimum (R86). -/
def stagingMinimum (s : State) : Option Nat :=
  leastOf (s.staging.parcels.map fun x => some x.seq)

end Sys2Proof.Machine
end

