-- ==== Sys2Proof/Machine/Channel.lean ====
section
/-! DEFINITION. The operations on the channel link: their messages, issue and reissue (sections 6.1 to 6.3). -/

namespace Sys2Proof.Machine

/-- The operation addresses a run of sectors of a band (R103). -/
def OpKind.isRun : OpKind → Bool
  | .writeRun | .readRun | .summary => true
  | .systemRead | .systemWrite | .geometry => false

/-- The operation writes (R109, R111). -/
def OpKind.isWrite : OpKind → Bool
  | .writeRun | .summary | .systemWrite => true
  | .readRun | .systemRead | .geometry => false

/-- The message of an operation's issue from its completed count on: the remaining sectors at their physical position (R5, R103,
R107). -/
def opMessage (id : BitVec 8) (op : Operation) : OpMessage :=
  if op.kind.isRun then
    { issue := id
      kind := op.kind
      track := some (physicalTrack op.zone op.band (op.first + op.completed))
      sector := some (sectorInTrack op.zone (op.first + op.completed))
      count := some (op.count - op.completed)
      spt := some op.zone.spt
      sectors := op.sectors.drop op.completed }
  else
    { issue := id, kind := op.kind, track := none, sector := none, count := none, spt := none, sectors := op.sectors }

/-- An issue or reissue of an operation, which is then current and awaited: the issue identifier advances (R104), the channel timer
starts (R106), the idle timer is stopped and the idle flag cleared (R135). -/
def sendIssue (op : Operation) (s : State) : State :=
  let id := s.sched.nextIssue
  { s with
    sched :=
      { s.sched with
        current := some { op with issue := id, issuedFrom := op.completed, awaiting := true, wait := none }
        nextIssue := id + 1
        channelTimer := some (s.now + Config.channelTimeout)
        sent := s.sched.sent ++ [opMessage id op] }
    engine := { s.engine with idleTimer := none, idleFlag := false } }

/-- A new operation: retry count 0, completed count as given, which is 0 but for the continuation of a read (R104, R110). -/
def newOperation (kind : OpKind) (owner : Owner) (band : Nat) (zone : ZoneRecord) (first count completed : Nat)
    (items : List RunItem) (sectors : List Sector) : Operation where
  kind := kind
  owner := owner
  band := band
  zone := zone
  first := first
  count := count
  issue := 0
  completed := completed
  retries := 0
  issuedFrom := completed
  awaiting := false
  wait := none
  items := items
  sectors := sectors

/-- An operation of the start-up unit that addresses no band (R5, R103). -/
def systemOperation (kind : OpKind) (sectors : List Sector) : Operation :=
  newOperation kind .startUp 0 default 0 1 0 [] sectors

/-- A read run over a band's offsets, with its zone's values as they stand. -/
def readOperation (owner : Owner) (zone : ZoneRecord) (band first count completed : Nat) : Operation :=
  newOperation .readRun owner band zone first count completed [] []

/-! ### Building the sectors of a write run (R7, R16) -/

/-- The sector made from an item after a sector of chain c, with the item's payload. -/
def itemSector (b : Band) (c : Chain) (payload : Block) : RunItem → Sector
  | .header => headerSector b
  | .data _ _ lbn q => dataSector b c payload lbn q
  | .note _ first _ q => noteSector b c payload first q
  | .copy _ lbn q => dataSector b c payload lbn q
  | .noteCopy _ first _ q => noteSector b c payload first q

/-- The sectors of a run, each chained from the one before it (R7, R16). -/
def buildSectors (b : Band) (payload : RunItem → Block) : Chain → List RunItem → List Sector
  | _, [] => []
  | c, i :: is =>
    let sec := itemSector b c (payload i) i
    sec :: buildSectors b payload sec.trailer.chain is

/-- The room for data of band b from wp: D when the header is still to be written, else C − 4 − wp (R95 step 3). -/
def bandRoom (s : State) (b : Band) : Nat :=
  if b.wp = 0 then bandD s b else bandC s b - 4 - b.wp

/-- The limit of a run into band b, in data and note sectors (R95 step 3). -/
def runRoom (s : State) (b : Band) : Nat :=
  min (bandRoom s b) (if b.wp = 0 then Config.runLimit - 1 else Config.runLimit)

/-- The items of a run with the header first when wp is 0 (R10, R95). -/
def withHeader (b : Band) (items : List RunItem) : List RunItem :=
  if b.wp = 0 then .header :: items else items

/-- A WRITE_RUN into band b of the items given, issued at once: payloads and trailers are fixed from the band record as it stands
(R7, R96). -/
def issueWrite (owner : Owner) (b : Band) (items : List RunItem) (payload : RunItem → Block) (s : State) : State :=
  let sectors := buildSectors b payload (b.chain.getD 0) items
  sendIssue (newOperation .writeRun owner b.number (bandZone s b) b.wp items.length 0 items sectors) s

end Sys2Proof.Machine
end

