-- ==== Sys2Proof/Machine/Streams.lean ====
section
/-! DEFINITION. Streams and band placement: eligibility, band choice, composition of write runs, the summary builder, and a stream's
part in a completion (chapter 5). -/

namespace Sys2Proof.Machine

/-! ### Taking a band (section 5.3) -/

/-- The EMPTY bands, in ascending number. -/
def emptyBands (s : State) : List Band :=
  s.table.bands.filter fun b => b.state = .empty

/-- The candidates of a host stream's choice: the EMPTY bands whose cold group agrees with the cold placement, or every EMPTY band when
none agrees (R92 step 1). -/
def bandCandidates (s : State) (x : StreamSetting) : List Band :=
  match (emptyBands s).filter fun b => coldMasked s b.number == x.cold with
  | [] => emptyBands s
  | b :: bs => b :: bs

/-- The number of candidates in a zone (R92 step 2). -/
def zoneCandidates (bs : List Band) (z : Nat) : Nat :=
  bs.countP fun b => b.zone = z

/-- The zone a zone order draws from, among the zones of the candidates (R88, R92 step 2). -/
def chosenZone (order : ZoneOrder) (all : List Band) : List Band → Option Nat
  | [] => none
  | b :: bs =>
    match chosenZone order all bs with
    | none => some b.zone
    | some z =>
      match order with
      | .outer => some (min b.zone z)
      | .inner => some (max b.zone z)
      | .spread =>
        if zoneCandidates all z < zoneCandidates all b.zone then some b.zone
        else if zoneCandidates all z = zoneCandidates all b.zone then some (min b.zone z)
        else some z

/-- The band chosen for a host stream with a setting (R92). -/
def chooseHostBand (s : State) (x : StreamSetting) : Option Nat :=
  let cands := bandCandidates s x
  match chosenZone x.order cands cands with
  | none => none
  | some z => (cands.find? fun b => b.zone = z).map (·.number)

/-- The band chosen for the relocation stream: the lowest-numbered EMPTY band (R93). -/
def chooseRelocBand (s : State) : Option Nat :=
  (emptyBands s).head?.map (·.number)

/-- The stream's record when it has taken band b: builder emptied, finish clear (R91). -/
def Stream.withBand (x : Stream) (b : Nat) : Stream :=
  { x with openBand := some b, entries := [], overflow := false, finish := false }

/-- A host stream asks for a band: none is given unless F > 2 (R42). A pending setting becomes its setting, and the band is chosen under
it and taken (R91, R92). -/
def takeHostBand (t : Fin 8) (s : State) : Option State :=
  if Config.bandReserve < freeBands s then
    let x := s.alloc.hosts[t]
    let setting := x.pendingSetting.getD x.setting
    match chooseHostBand s setting with
    | none => none
    | some b =>
      some <|
        updHost t (fun x => { x.withBand b with setting := setting, pendingSetting := none }) (takeBand b (.host t) s)
  else none

/-- The relocation stream asks for a band: one is given when F ≥ 1 (R42, R93). -/
def takeRelocBand (s : State) : Option State :=
  match chooseRelocBand s with
  | none => none
  | some b => some (updReloc (·.withBand b) (takeBand b .relocation s))

/-- The record of a stream's band when it is OPEN. -/
def openBandOf (s : State) (i : StreamId) : Option Band :=
  match (stream s i).openBand with
  | none => none
  | some n => (band? s n).filter fun b => b.state = .opened

/-! ### Flush eligibility (R94) -/

/-- The stream has, or may take, a band (R94). -/
def mayWrite (s : State) (t : Fin 8) : Bool :=
  match s.alloc.hosts[t].openBand with
  | none => decide (Config.bandReserve < freeBands s)
  | some n => (band? s n).any fun b => b.state = .opened

/-- A host stream is flush-eligible (R94). -/
def flushEligible (s : State) (t : Fin 8) : Bool :=
  !(queueParcels s t).isEmpty && mayWrite s t &&
    (decide (s.startup.image.flushThreshold ≤ queuedTotal s t) ||
      (oldestAge s t).any (fun a => decide (s.startup.image.ageLimit ≤ a)) ||
      drainInterest s t || s.startup.engine == .halting)

/-! ### Composing a write run (R95, R96) -/

/-- A DATA parcel with live blocks 0, which the composer drops (R77, R95). -/
def composerDrops (x : Parcel) : Bool :=
  x.kind == .data && x.live == 0

/-- Step 1: the dead DATA parcels at the head of the queue of stream t are dropped, each slot being handed out before the next is considered
(R79, R95); `fuel` bounds the drops. -/
def dropAtHead (t : Fin 8) : Nat → State → State
  | 0, s => s
  | fuel + 1, s =>
    match s.alloc.hosts[t].queue.head? with
    | none => s
    | some id => if (parcel? s id).any composerDrops then dropAtHead t fuel (removeParcel id s) else s

/-- The items of a parcel's remaining sectors: its indices from the written count on, or its note (R95 step 4). -/
def parcelItems (x : Parcel) : List RunItem :=
  match x.kind with
  | .data => (List.range (x.length - x.written)).map fun j =>
      .data x.id (x.written + j) (x.start + x.written + j) x.seq
  | .note => [.note x.id x.start x.length x.seq]

/-- A parcel is placed in the run being composed, and is FLUSHING from then on (R78, R96). -/
def carryParcel (id : Nat) (s : State) : State :=
  updParcel id (fun x => { x with state := .flushing }) s

/-- Steps 4 and 5: the parcels of the queue of stream t from position k on, in order, within the limit: the dead ones are dropped, each slot
being handed out before the next parcel is considered (R79), and the first DATA parcel that does not fit is split (R95). The k parcels
before are those placed, which stay in the queue; `fuel` bounds the parcels considered. -/
def composeParcels (t : Fin 8) : Nat → Nat → Nat → List RunItem → State → List RunItem × State
  | 0, _, _, items, s => (items, s)
  | fuel + 1, k, limit, items, s =>
    match s.alloc.hosts[t].queue[k]?.bind (parcel? s) with
    | none => (items, s)
    | some x =>
      if composerDrops x then composeParcels t fuel k limit items (removeParcel x.id s)
      else if x.remaining ≤ limit then
        composeParcels t fuel (k + 1) (limit - x.remaining) (items ++ parcelItems x) (carryParcel x.id s)
      else
        match x.kind with
        | .data => (items ++ (parcelItems x).take limit, if limit = 0 then s else carryParcel x.id s)
        | .note => (items, s)

/-- The parcels that a composition may consider in the queue of stream t: those there, and one more for each port, whose waiting PLACE a
dropped parcel's slot may let in. -/
def composerFuel (t : Fin 8) (s : State) : Nat :=
  s.alloc.hosts[t].queue.length + 3

/-- The parcel an item of a run carries. -/
def itemParcel : RunItem → Option Nat
  | .data p _ _ _ => some p
  | .note p _ _ _ => some p
  | _ => none

/-- The parcels a run carries, in the run's order (R78). -/
def carriedParcels (items : List RunItem) : List Nat :=
  (items.filterMap itemParcel).eraseDups

/-- The payload of an item of a host run: a block of a slot, or a note's record (R11, R12). -/
def hostPayload (s : State) : RunItem → Block
  | .data p i _ _ => slotBlock s p i
  | .note _ first length q => notePayload first length q
  | _ => zeroBlock

/-- A run of host stream t into its OPEN band is composed and issued: its parcels are FLUSHING and a free extent record is held
(R95, R96, R51). -/
def issueHostRun (t : Fin 8) (b : Band) (s : State) : State :=
  let r := composeParcels t (composerFuel t s) 0 (runRoom s b) [] s
  let s := issueWrite (.hostWrite t) b (withHeader b r.1) (hostPayload r.2) r.2
  { s with map := { s.map with held := true } }

/-- Host stream t is selected (R91, R95): the state after it, and whether a run was issued. -/
def selectHost (t : Fin 8) (s : State) : State × Bool :=
  let s := dropAtHead t (composerFuel t s) s
  if s.alloc.hosts[t].queue.isEmpty then (s, false)
  else
    match openBandOf s (.host t) with
    | some b => (issueHostRun t b s, true)
    | none =>
      match takeHostBand t s with
      | none => (s, false)
      | some s' =>
        match openBandOf s' (.host t) with
        | none => (s', false)
        | some b => (issueHostRun t b s', true)

/-! ### The summary builder (R98, R99) -/

/-- The summary entry that an item at offset o would begin (R98). -/
def itemEntry (o : Nat) : RunItem → Option SummaryEntry
  | .header => none
  | .data _ _ lbn q => some { kind := .data, offset := o, start := lbn, length := 1, seq := q }
  | .copy _ lbn q => some { kind := .data, offset := o, start := lbn, length := 1, seq := q }
  | .note _ first length q => some { kind := .note, offset := o, start := first, length := length, seq := q }
  | .noteCopy _ first length q => some { kind := .note, offset := o, start := first, length := length, seq := q }

/-- A DATA sector's entry extends the last entry (R98). -/
def entryExtends (last e : SummaryEntry) : Bool :=
  e.kind == .data && last.kind == .data && last.offset + last.length == e.offset && last.start + last.length == e.start &&
    last.seq == e.seq

/-- The builder takes one sector: nothing while it has overflowed, else an extension of the last entry, a new entry, or the overflow
mark (R98, R99). -/
def builderTake (e : SummaryEntry) (x : Stream) : Stream :=
  if x.overflow then x
  else
    match x.entries.getLast? with
    | some last =>
      if entryExtends last e then
        { x with entries := x.entries.dropLast ++ [{ last with length := last.length + 1 }] }
      else if x.entries.length < Config.summaryEntries then { x with entries := x.entries ++ [e] }
      else { x with overflow := true }
    | none => { x with entries := [e] }

/-- The builder takes the completed items of a run, from offset o on (R97 step 1). -/
def builderRun : Nat → List RunItem → Stream → Stream
  | _, [], x => x
  | o, i :: is, x =>
    builderRun (o + 1) is
      (match itemEntry o i with
      | none => x
      | some e => builderTake e x)

/-- The stream has lost its band: open band absent, builder emptied, finish clear (R97, R100). -/
def Stream.withoutBand (x : Stream) : Stream :=
  { x with openBand := none, entries := [], overflow := false, finish := false }

/-- The stream's part in the final completion of its run with the items given completed, from offset `first` on (R97). -/
def streamCompletion (i : StreamId) (b first : Nat) (items : List RunItem) (ok : Bool) (s : State) : State :=
  let s := updStream i (builderRun first items) s
  if ok then
    match band? s b with
    | none => s
    | some r =>
      if r.wp = bandC s r - 4 ∨ (stream s i).finish = true then
        closeBand b (updStream i (fun x => { x with finish := false }) s)
      else s
  else updStream i Stream.withoutBand (failBand b s)

/-- The stream that owns band b. -/
def ownerOf (s : State) (b : Nat) : Option StreamId :=
  (band? s b).bind (·.owner)

/-- The SUMMARY run at the head of the summary list is issued (R100, R112). -/
def issueSummary (b : Nat) (s : State) : State :=
  let s := { s with sched := { s.sched with summaries := s.sched.summaries.erase b } }
  match band? s b with
  | none => s
  | some r =>
    let x : Stream :=
      match r.owner with
      | none => Stream.reset
      | some i => stream s i
    sendIssue
      (newOperation .summary .summaryRun b (bandZone s r) (bandC s r - 4) 4 0 [] (summarySectors r x.entries x.overflow)) s

/-- A SUMMARY run has ended: the band goes to FILLED (R26) and its stream loses it (R100). -/
def finishSummary (b : Nat) (ok : Bool) (parts : List Sector) (s : State) : State :=
  let owner := ownerOf s b
  let s := endSummary b ok parts s
  match owner with
  | none => s
  | some i => updStream i Stream.withoutBand s

end Sys2Proof.Machine
end

