-- ==== Sys2Proof/Machine/Exposure.lean ====
section
/-! DEFINITION. Interference exposure: gains of neighbours, threshold crossings, the re-evaluation after a change of T, and the pull-in
test (chapter 7). -/

namespace Sys2Proof.Machine

/-- The states in which a band has exposure (R124, R129). -/
def exposable (x : BandState) : Bool :=
  match x with
  | .opened | .closing | .filled | .draining => true
  | .empty | .retired => false

/-- Band n crosses the threshold: EXPOSURE is raised when its cold group is not masked and the cause is new; in a masked group the
neglected flag is set once, with a NEGLECTED notice (R126, R41). -/
def crossThreshold (n : Nat) (s : State) : State :=
  match band? s n with
  | none => s
  | some r =>
    if coldMasked s n then
      if r.neglected then s
      else placeNotice .neglected (some n) (updBand n (fun x => { x with neglected := true }) s)
    else if r.causes.exposure then s
    else raiseCause n .exposure s

/-- The exposure after a gain (R125). -/
def exposureAfter (e g : Nat) : Nat :=
  min (e + g) 65535

/-- Band n, a neighbour of a band of zone z, gains g (R124 to R126). -/
def gainExposure (n z g : Nat) (s : State) : State :=
  match band? s n with
  | none => s
  | some r =>
    if r.zone = z ∧ exposable r.state = true then
      let after := exposureAfter r.exposure g
      let s := updBand n (fun x => { x with exposure := after }) s
      if r.exposure < s.startup.image.threshold ∧ s.startup.image.threshold ≤ after then crossThreshold n s else s
    else s

/-- Sectors 0 to k − 1 of an operation from offset `first` touch track 0 (R122). -/
def touchesFirst (z : ZoneRecord) (first k : Nat) : Bool :=
  decide (0 < k) && decide (first < z.spt)

/-- Sectors 0 to k − 1 of an operation from offset `first` touch track TPB − 1 (R122). -/
def touchesLast (z : ZoneRecord) (first k : Nat) : Bool :=
  decide (0 < k) && decide ((z.tpb - 1) * z.spt ≤ first + k - 1)

/-- The exposure of the final completion of a write operation in band b: band b − 1 is dealt with first (R121 to R124). -/
def accountExposure (b first k : Nat) (s : State) : State :=
  match band? s b with
  | none => s
  | some r =>
    let z := bandZone s r
    let m := multiplier (classInForce s)
    let back := s.startup.image.backwardWeight * m
    let forward := s.startup.image.forwardWeight * m
    let s := if touchesFirst z first k && decide (0 < b) then gainExposure (b - 1) r.zone back s else s
    if touchesLast z first k then gainExposure (b + 1) r.zone forward s else s

/-- The re-evaluation that follows a SET of T: every exposable band at or above T without EXPOSURE is treated as crossing, in ascending
number (R129). -/
def reevaluate (s : State) : State :=
  (List.range (bandCount s)).foldl
    (fun s n =>
      match band? s n with
      | none => s
      | some r =>
        if exposable r.state = true ∧ s.startup.image.threshold ≤ r.exposure ∧ r.causes.exposure = false then
          crossThreshold n s
        else s)
    s

/-- A candidate of the pull-in test (R132). -/
def pullInCandidate (s : State) (r : Band) : Bool :=
  r.state == .filled && !coldMasked s r.number && decide (pullInMark s ≤ r.exposure) && !r.causes.any

/-- The record with the highest exposure, and of equals the first (R132). -/
def mostExposed : List Band → Option Band
  | [] => none
  | r :: rs =>
    match mostExposed rs with
    | none => some r
    | some x => if r.exposure < x.exposure then some x else some r

/-- The pull-in test (R132). -/
def pullInTest (s : State) : Option Nat :=
  (mostExposed (s.table.bands.filter (pullInCandidate s))).map (·.number)

end Sys2Proof.Machine
end

