-- ==== Sys2Proof/Machine/FetchPath.lean ====
section
/-! DEFINITION. FETCH: the snapshot, read runs, the read wait list, the checks of the sectors read, and the response; LOCATE (sections
3.5, 3.6 and 6.5). -/

namespace Sys2Proof.Machine

/-! ### The snapshot (R62, R63) -/

/-- The record is MEDIA. -/
def Extent.isMedia (r : Extent) : Bool :=
  match r.loc with
  | .media _ _ => true
  | _ => false

/-- The MEDIA records that meet the range [a, e), clipped to it: one read run each (R63). -/
def mediaRuns (s : State) (a e : Nat) : List Extent :=
  (clippedRecords a e s.map.records).filter Extent.isMedia

/-- The resume LBN of a FETCH whose snapshot would form more than 64 read runs: the first block of the 65th (R63). -/
def fetchResume (s : State) (f : RequestFrame) : Option Nat :=
  (mediaRuns s (requestStart f) (requestEnd f))[Config.readQueueEntries]?.map (·.start)

/-- The end of the part of a FETCH that is served (R63). -/
def servedEnd (s : State) (f : RequestFrame) : Nat :=
  (fetchResume s f).getD (requestEnd f)

/-- The class of one block of a snapshot (R62): a staged block is copied at once. -/
def snapshotBlock (s : State) (L : Nat) : Answer :=
  match resolve s.map.records L with
  | none => .unmapped
  | some .lost => .excepted .lost
  | some (.staged p i) => .data (slotBlock s p i)
  | some (.media _ _) => .waiting

/-- The answers of a FETCH at its take, in LBN order (R62). -/
def snapshotAnswers (s : State) (f : RequestFrame) : List Answer :=
  (List.range (servedEnd s f - requestStart f)).map fun i => snapshotBlock s (requestStart f + i)

/-- The read run of a MEDIA record of the snapshot, with the stamp and the zone values of its band (R62, R63, R115). -/
def readRunOf (s : State) (id start : Nat) (r : Extent) : Option ReadRun :=
  match r.loc with
  | .media b o =>
    (band? s b).map fun x =>
      { fetch := id, pos := r.start - start, lbn := r.start, band := b, stamp := x.stamp, zone := bandZone s x, first := o
        count := r.len, completed := 0, pinned := true }
  | _ => none

/-- The read runs of a FETCH (R63). -/
def fetchRuns (s : State) (f : RequestFrame) : List ReadRun :=
  (mediaRuns s (requestStart f) (servedEnd s f)).filterMap (readRunOf s s.sched.nextFetch (requestStart f))

/-- The media blocks of a FETCH (R115). -/
def runBlocks (runs : List ReadRun) : Nat :=
  (runs.map fun r => r.count).sum

/-! ### The response (R64) -/

/-- The reason a block is excepted, absent when it is not. -/
def Answer.reason : Answer → Option Reason
  | .excepted r => some r
  | _ => none

/-- The data of a block in the response: zeros where it has none (R62, R64). -/
def Answer.block : Answer → Block
  | .data b => b
  | _ => zeroBlock

/-- The fields of a FETCH response (R64). -/
def fetchBody (answers : List Answer) (resume : Option Nat) : Body :=
  .fetch (answers.countP fun a => a.reason.isSome) (answers.findIdx? fun a => a.reason.isSome)
    (answers.findSome? Answer.reason) (answers.countP fun a => a == .unmapped) resume

/-- DONE, or PARTIAL when a resume LBN is given (R64). -/
def fetchStatus (resume : Option Nat) : Status :=
  if resume.isSome then .partially else .done

/-! ### The take (R115) -/

/-- The read-run queue and the read buffer have room for the runs (R115). -/
def hasRoom (s : State) (runs : List ReadRun) : Bool :=
  decide (s.sched.readQueue.length + runs.length ≤ Config.readQueueEntries) && decide (runBlocks runs ≤ readBufferFree s)

/-- A FETCH is taken: answered at once when it forms no read run, else its runs are queued, its pins added and its room reserved
(R64, R115). -/
def admitFetch (p : Port) (f : RequestFrame) (s : State) : State :=
  let runs := fetchRuns s f
  let answers := snapshotAnswers s f
  let resume := fetchResume s f
  if runs.isEmpty then answerHead p f (fetchStatus resume) (fetchBody answers resume) (answers.map Answer.block) s
  else
    let record : FetchRecord :=
      { id := s.sched.nextFetch, requester := requesterOf p f, answers := answers, resume := resume
        runsLeft := runs.length, reserved := runBlocks runs }
    let s := popRequest p s
    let s := runs.foldl (fun s r => addPin r.band s) s
    offer
      { s with
        sched :=
          { s.sched with
            readQueue := s.sched.readQueue ++ runs
            fetches := s.sched.fetches ++ [record]
            nextFetch := s.sched.nextFetch + 1 } }

/-- The take of a FETCH that has passed its checks: taken, or held for room (R115). -/
def fetchTake (p : Port) (f : RequestFrame) (s : State) : State :=
  let runs := fetchRuns s f
  if runs.isEmpty || (hasRoom s runs && s.sched.readWait.isEmpty) then admitFetch p f s
  else holdRequest p { s with sched := { s.sched with readWait := s.sched.readWait ++ [p] } }

/-- The held FETCHes are taken again in order, each in full, until one has no room (R116). -/
def retakeFetches : List Port → State → State
  | [], s => s
  | p :: ps, s =>
    match (s.link p).queue.head? with
    | none => s
    | some f =>
      let runs := fetchRuns s f
      if runs.isEmpty || hasRoom s runs then
        retakeFetches ps (admitFetch p f { s with sched := { s.sched with readWait := ps } })
      else s

/-- Room has returned: the FETCH at the head of the read wait list is taken again (R116). -/
def roomReturned (s : State) : State :=
  retakeFetches s.sched.readWait s

/-! ### The sectors read (R117) -/

/-- The answer for the sector delivered for block i of a read run (R117). -/
def checkFetched (r : ReadRun) (i : Nat) (x : Sector) : Answer :=
  if trailerValidFor x.trailer r.band && x.trailer.kind == codeData && x.trailer.logical.toNat == r.lbn + i &&
      x.trailer.stamp.toNat == r.stamp then .data x.payload
  else .excepted .mismatch

/-- The answers for sectors delivered from block i of a read run on. -/
def fetchedAnswers (r : ReadRun) : Nat → List Sector → List Answer
  | _, [] => []
  | i, x :: xs => checkFetched r i x :: fetchedAnswers r (i + 1) xs

/-- Answers put in place from position i on. -/
def setAnswers : Nat → List Answer → List Answer → List Answer
  | _, [], l => l
  | i, a :: as, l => setAnswers (i + 1) as (l.set i a)

/-- The read run of a FETCH at a position. -/
def readRun? (s : State) (id pos : Nat) : Option ReadRun :=
  s.sched.readQueue.find? fun r => r.fetch = id ∧ r.pos = pos

/-- A read run's record is changed by f. -/
def updReadRun (id pos : Nat) (f : ReadRun → ReadRun) (s : State) : State :=
  { s with
    sched :=
      { s.sched with
        readQueue := s.sched.readQueue.map fun r => if r.fetch = id ∧ r.pos = pos then f r else r } }

/-- A FETCH's record is changed by f. -/
def updFetch (id : Nat) (f : FetchRecord → FetchRecord) (s : State) : State :=
  { s with
    sched := { s.sched with fetches := s.sched.fetches.map fun x => if x.id = id then f x else x } }

/-- Sectors of a read run, from its sector `start` on, are checked and kept (R117). -/
def deliverFetch (id pos start : Nat) (sectors : List Sector) (s : State) : State :=
  match readRun? s id pos with
  | none => s
  | some r =>
    updFetch id (fun x => { x with answers := setAnswers (pos + start) (fetchedAnswers r start sectors) x.answers }) s

/-- Sector j of a read run could not be read: its block is excepted with MEDIA_ERROR (R110, R117). -/
def exceptFetch (id pos j : Nat) (s : State) : State :=
  updFetch id (fun x => { x with answers := setAnswers (pos + j) [.excepted .mediaError] x.answers }) s

/-- The response of a FETCH with no run left is sent, or discarded for an orphan, and its read-buffer room is freed (R64, R117). -/
def answerFetch (x : FetchRecord) (s : State) : State :=
  let s := { s with sched := { s.sched with fetches := s.sched.fetches.filter fun y => y.id ≠ x.id } }
  roomReturned (respond x.requester (fetchStatus x.resume) (fetchBody x.answers x.resume) (x.answers.map Answer.block) s)

/-- The FETCH with the id given is answered when its runs have all ended (R64). -/
def answerIfEnded (id : Nat) (s : State) : State :=
  match s.sched.fetches.find? fun x => x.id = id with
  | none => s
  | some x => if x.runsLeft = 0 then answerFetch x s else s

/-- A read run ends: its queue entry is freed, its pin removed, and its FETCH has one run fewer left (R117). A held FETCH is taken again as
soon as the entry is freed, before the pin is removed and before the FETCH that has ended is answered (R116; assumption 46). -/
def endReadRun (id pos : Nat) (s : State) : State :=
  match readRun? s id pos with
  | none => s
  | some r =>
    let s :=
      roomReturned
        { s with
          sched := { s.sched with readQueue := s.sched.readQueue.filter fun y => ¬(y.fetch = id ∧ y.pos = pos) } }
    let s := if r.pinned then removePin r.band s else s
    answerIfEnded id (updFetch id (fun x => { x with runsLeft := x.runsLeft - 1 }) s)

/-- The step FETCH_RESPONSE by itself: every FETCH whose runs have all ended is answered (assumption 2). -/
def answerEnded (s : State) : State :=
  s.sched.fetches.foldl (fun s x => if x.runsLeft = 0 then answerFetch x s else s) s

/-! ### LOCATE (R66) -/

/-- The run descriptors of a range, one for each record that meets it (R66). -/
def locateAll (s : State) (f : RequestFrame) : List Descriptor :=
  (clippedRecords (requestStart f) (requestEnd f) s.map.records).map fun r =>
    { start := r.start, len := r.len, loc := r.loc }

/-- A LOCATE is answered with at most 64 descriptors (R66). -/
def locateTake (p : Port) (f : RequestFrame) (s : State) : State :=
  let all := locateAll s f
  let resume := all[Config.locateDescriptors]?.map (·.start)
  answerHead p f (if resume.isSome then .partially else .done) (.locate (all.take Config.locateDescriptors) resume) [] s

end Sys2Proof.Machine
end

