-- ==== Sys2Proof/Machine/Relocation.lean ====
section
/-! DEFINITION. The relocation engine: the choice of work, chunks, copies, findings, abandonment, patrol and VERIFY_BAND (chapter 8). -/

namespace Sys2Proof.Machine

/-! ### The record -/

/-- The engine's record changed by f. -/
def updEngine (f : Engine → Engine) (s : State) : State :=
  { s with engine := f s.engine }

/-- The engine becomes IDLE, with no victim, scan or chunk (R144, R145, R147, R149), and its choice is due (R134). -/
def engineIdle (s : State) : State :=
  choiceDue
    (updEngine
      (fun x => { x with activity := .idle, victim := none, reason := none, scan := none, chunk := none }) s)

/-- The engine's scan changed by f. -/
def updScan (f : Scan → Scan) (s : State) : State :=
  updEngine (fun x => { x with scan := x.scan.map f }) s

/-- The engine's chunk changed by f. -/
def updChunk (f : Chunk → Chunk) (s : State) : State :=
  updEngine (fun x => { x with chunk := x.chunk.map f }) s

/-- The engine state is RUNNING. -/
def running (s : State) : Bool :=
  s.startup.engine == .running

/-! ### Scans (R17 to R19) -/

/-- The read runs, of at most 1,024 sectors, over `count` offsets from `first` on (R6, R17). R17 leaves the cut open; every run but the last
is of 1,024 sectors (assumption 31). -/
def splitReads (first count : Nat) : List (Nat × Nat) :=
  (List.range ((count + (Config.runLimit - 1)) / Config.runLimit)).map fun i =>
    (first + Config.runLimit * i, min Config.runLimit (count - Config.runLimit * i))

/-- The reads of a patrol or VERIFY_BAND scan of a band: 0 to wp − 1, then the summary when it is present (R17). -/
def patrolReads (s : State) (r : Band) : List (Nat × Nat) :=
  splitReads 0 r.wp ++ if r.summaryPresent then splitReads (bandC s r - 4) 4 else []

/-- A scan of a band as it begins, with its predecessor and reads given. -/
def newScan (r : Band) (pred : Option Chain) (reads : List (Nat × Nat)) : Scan where
  band := r.number
  stamp := r.stamp
  state := r.state
  next := 1
  reads := reads
  readDone := 0
  begun := false
  pred := pred
  firstBreak := none
  unreadable := []
  runUnreadable := []

/-- The scan takes sectors from offset o on, absent where they could not be read (R18, R19). -/
def Scan.feed (o : Nat) (xs : List (Option Sector)) (c : Scan) : Scan :=
  let r := checkSectors (bandSeed c.band c.stamp) o xs c.pred c.firstBreak
  let bad := unreadableOffsets o xs
  { c with pred := r.1, firstBreak := r.2, unreadable := c.unreadable ++ bad, runUnreadable := c.runUnreadable ++ bad }

/-! ### Draining a victim (section 8.3) -/

/-- The next chunk of the victim, of up to 1,024 sectors, is made and its read offered (R137). -/
def makeChunk (next wp : Nat) (s : State) : State :=
  offer <|
    updEngine
      (fun x =>
        { x with
          chunk := some
            { first := next, last := min (next + (Config.runLimit - 1)) (wp - 1), stage := .reading, buffer := [], copies := [] } })
      s

/-- The drain ends: the first break is handed, the engine becomes IDLE, and the band table takes the end of the drain (R36, R143,
R145). -/
def finishDrain (b : Nat) (c : Scan) (s : State) : State :=
  endDrain b (engineIdle (handBreak b c.stamp c.firstBreak s))

/-- The engine goes on with a victim that has no chunk in hand: the drain ends when the next offset has reached wp, and otherwise the
next chunk is made while the engine state is RUNNING (R137, R145, R146). -/
def advanceDrain (s : State) : State :=
  match s.engine.victim, s.engine.scan with
  | some b, some c =>
    match band? s b with
    | none => s
    | some r => if r.wp ≤ c.next then finishDrain b c s else if running s then makeChunk c.next r.wp s else s
  | _, _ => s

/-- Band b becomes the victim, and its scan begins at offset 1 (R34, R134, R137). -/
def beginVictim (b : Nat) (reason : VictimReason) (s : State) : State :=
  match band? s b with
  | none => s
  | some r =>
    let s := drainBand b s
    advanceDrain
      (updEngine
        (fun x =>
          { x with
            activity := .drain, victim := some b, reason := some reason, chunk := none
            scan := some (newScan { r with state := .draining } (some (bandSeed r.number r.stamp)) []) })
        s)

/-- The low-water of a chunk of victim v (R139). -/
def lowWaterOf (v : Nat) (s : State) : Nat :=
  (leastOf
      ((s.table.bands.map fun r => if r.state ≠ .empty ∧ r.number ≠ v then r.minSeq else none) ++ [stagingMinimum s])).getD
    s.staging.seqCounter

/-- A sector of the victim passes the tests that a DATA copy of LBN L needs (R138). -/
def dataCopyable (v stamp L : Nat) (x : Sector) : Bool :=
  trailerValidFor x.trailer v && x.trailer.kind == codeData && x.trailer.stamp.toNat == stamp &&
    x.trailer.logical.toNat == L

/-- A sector of the victim is a note that is still needed (R138). -/
def noteCopyable (v stamp lowWater : Nat) (x : Sector) : Bool :=
  trailerValidFor x.trailer v && x.trailer.kind == codeNote && x.trailer.stamp.toNat == stamp &&
    decide (lowWater ≤ x.trailer.sequence.toNat)

/-- A sector of the victim is a note whose trailer fails: it says NOTE, and names another band or another stamp (R138; assumption 44). -/
def noteFails (v stamp : Nat) (x : Sector) : Bool :=
  x.trailer.kind == codeNote && !(trailerValidFor x.trailer v && x.trailer.stamp.toNat == stamp)

/-- Offset o joins the unreadable offsets of the engine's scan, those of the read in hand included (R138, R143). -/
def listUnreadable (o : Nat) (s : State) : State :=
  updScan (fun c => { c with unreadable := c.unreadable ++ [o], runUnreadable := c.runUnreadable ++ [o] }) s

/-- The DATA copy of a sector (R136, R138). -/
def dataCopy (o L : Nat) (x : Sector) : Copy where
  kind := .data
  victimOffset := o
  lbn := L
  length := 1
  seq := x.trailer.sequence.toNat
  payload := x.payload
  check := payloadCheck x.payload
  state := .unwritten

/-- The NOTE copy of a sector: first LBN, length and note sequence from its payload (R136, R138). The payload is kept as it was read, also
in the bytes that the layout of a note shows as zero (R12; assumption 47). -/
def noteCopyOf (o : Nat) (x : Sector) : Copy where
  kind := .note
  victimOffset := o
  lbn := noteFirst x.payload
  length := noteLength x.payload
  seq := noteSeq x.payload
  payload := x.payload
  check := payloadCheck x.payload
  state := .unwritten

/-- Block L of victim v is marked LOST, with its BLOCKS_LOST notice; not made when it needs more records than are free (R61,
R143). -/
def markLost (v L : Nat) (s : State) : Option State :=
  let m := lostBlock L s.map.records
  if m.length ≤ recordsInUse s + freeRecords s then
    some (placeNotice .blocksLost (some v) (lowerLive v 1 (setRecords m s)))
  else none

/-- The decisions of a chunk from offset o on, in ascending order (R138): the copies made, and whether a LOST marking could not be made. The
offset of a note whose trailer fails is listed as unreadable. -/
def decideChunk (v stamp lowWater : Nat) : Nat → List (Option Sector) → List Copy → State → List Copy × Bool × State
  | _, [], copies, s => (copies, false, s)
  | o, x :: xs, copies, s =>
    match searchLocation s.map.records v o with
    | some L =>
      match x.filter (dataCopyable v stamp L) with
      | some sec => decideChunk v stamp lowWater (o + 1) xs (copies ++ [dataCopy o L sec]) s
      | none =>
        match markLost v L s with
        | some s' => decideChunk v stamp lowWater (o + 1) xs copies s'
        | none => (copies, true, s)
    | none =>
      match x.filter (noteCopyable v stamp lowWater) with
      | some sec => decideChunk v stamp lowWater (o + 1) xs (copies ++ [noteCopyOf o sec]) s
      | none => decideChunk v stamp lowWater (o + 1) xs copies (if x.any (noteFails v stamp) then listUnreadable o s else s)

/-- The victim is abandoned for want of extent records (R144). -/
def abandonVictim (s : State) : State :=
  match s.engine.victim, s.engine.scan with
  | some b, some c =>
    let s := handBreak b c.stamp c.firstBreak (handMedia b c.stamp c.runUnreadable s)
    let s := placeNotice .mapFull none (abandonBand b s)
    updEngine (fun x => { x with recoveryWait := true }) (engineIdle s)
  | _, _ => s

/-- The chunk's read has ended: low-water, decisions, unreadable offsets with those of failing notes, and the next stage (R137 to R139,
R143). -/
def endChunkRead (s : State) : State :=
  match s.engine.victim, s.engine.scan, s.engine.chunk with
  | some v, some c, some k =>
    let lw := lowWaterOf v s
    let s := updEngine (fun x => { x with lowWater := some lw }) s
    let r := decideChunk v c.stamp lw k.first k.buffer [] s
    if r.2.1 then abandonVictim r.2.2
    else
      let s := handMedia v c.stamp ((r.2.2.engine.scan.map (·.runUnreadable)).getD []) r.2.2
      let s := updScan (fun y => { y with next := k.last + 1, runUnreadable := [] }) s
      if r.1.isEmpty then advanceDrain (updEngine (fun x => { x with chunk := none }) s)
      else offer (updChunk (fun y => { y with stage := .writing, buffer := [], copies := r.1 }) s)
  | _, _, _ => s

/-- The item of a relocation run that writes a copy. -/
def copyItem (c : Copy) : RunItem :=
  match c.kind with
  | .data => .copy c.victimOffset c.lbn c.seq
  | .note => .noteCopy c.victimOffset c.lbn c.length c.seq

/-- The victim offset of the copy an item writes. -/
def itemCopy : RunItem → Option Nat
  | .copy o _ _ => some o
  | .noteCopy o _ _ _ => some o
  | _ => none

/-- The copies that are still to be written, in list order (R140). -/
def unwrittenCopies (s : State) : List Copy :=
  match s.engine.chunk with
  | none => []
  | some k => k.copies.filter fun c => c.state == .unwritten

/-- The copies at the victim offsets given take a condition. -/
def setCopies (offsets : List Nat) (st : CopyState) (s : State) : State :=
  updChunk
    (fun k => { k with copies := k.copies.map fun c => if c.victimOffset ∈ offsets then { c with state := st } else c }) s

/-- The payload of a copy's item, from the relocation buffer (R11, R12). -/
def copyPayload (copies : List Copy) (i : RunItem) : Block :=
  match itemCopy i with
  | none => zeroBlock
  | some o =>
    match copies.find? fun c => c.victimOffset = o with
    | none => zeroBlock
    | some c => c.payload

/-- The engine's write run into the relocation band: UNWRITTEN copies from the front, as many as fit, become IN_FLIGHT (R102, R140). -/
def issueRelocWrite (b : Band) (s : State) : State :=
  let copies := (unwrittenCopies s).take (runRoom s b)
  let items := withHeader b (copies.map copyItem)
  issueWrite .relocWrite b items (copyPayload copies) (setCopies (copies.map (·.victimOffset)) .inFlight s)

/-- The completed copies of a relocation run are committed or settled dead, from destination offset o on (R59, R60, R141); the flag says
that a commit could not be made for want of a record. -/
def commitCopies (v d : Nat) : Nat → List RunItem → State → Bool × State
  | _, [], s => (false, s)
  | o, i :: is, s =>
    match i with
    | .copy vo L _ =>
      if resolve s.map.records L = some (.media v vo) then
        let m := commitBlock L d o s.map.records
        if m.length ≤ recordsInUse s + freeRecords s then
          commitCopies v d (o + 1) is
            (setCopies [vo] .committed (setRecords m (lowerLive v 1 (raiseLive d 1 s))))
        else (true, s)
      else commitCopies v d (o + 1) is (setCopies [vo] .dead s)
    | .noteCopy vo _ _ _ => commitCopies v d (o + 1) is (setCopies [vo] .committed s)
    | _ => commitCopies v d (o + 1) is s

/-- Some copy of the chunk is still UNWRITTEN or IN_FLIGHT (R136). -/
def chunkUnsettled (s : State) : Bool :=
  match s.engine.chunk with
  | none => false
  | some k => k.copies.any fun c => c.state == .unwritten || c.state == .inFlight

/-- The engine's part in the final completion of a relocation run into band d, from offset `first` on, with the items of its first k
sectors completed: commits, then the copies, then the next chunk or the end of the drain (R59, R60, R140, R141). -/
def relocCompletion (d first : Nat) (items : List RunItem) (k : Nat) (s : State) : State :=
  match s.engine.victim with
  | none => s
  | some v =>
    let r := commitCopies v d first (items.take k) s
    if r.1 then abandonVictim r.2
    else
      let s := setCopies ((items.drop k).filterMap itemCopy) .unwritten r.2
      if chunkUnsettled s then offer s else advanceDrain (updEngine (fun x => { x with chunk := none }) s)

/-! ### Patrol and VERIFY_BAND (sections 8.6 and 8.7) -/

/-- The oldest held VERIFY_BAND is taken again and joins the queue, when the queue has a free entry (R149). -/
def retakeVerify (s : State) : State :=
  match s.engine.verifyHeld with
  | [] => s
  | p :: ps =>
    if s.engine.verifyQueue.length < Config.verifyEntries then
      match (s.link p).queue.head? with
      | none => s
      | some f =>
        choiceDue
          (updEngine
            (fun x =>
              { x with
                verifyQueue := x.verifyQueue ++ [{ requester := requesterOf p f, band := f.band.toNat }]
                verifyHeld := ps })
            (popRequest p s))
    else s

/-- The entry at the head of the VERIFY_BAND queue leaves it, the engine becomes IDLE, the response is sent, and a held VERIFY_BAND joins
the queue (R149). -/
def answerVerify (outcome : VerifyOutcome) (stamp : Nat) (brk : Option Nat) (unreadable : Nat) (s : State) : State :=
  match s.engine.verifyQueue with
  | [] => engineIdle s
  | e :: es =>
    let s := engineIdle (updEngine (fun x => { x with verifyQueue := es }) s)
    retakeVerify (respond e.requester .done (.verify outcome stamp brk unreadable) [] s)

/-- A scan ends or is abandoned: its first break is handed (R147, R148); a patrol leaves its pointer or moves it on, a VERIFY_BAND is
answered (R149). -/
def endScan (whole : Bool) (s : State) : State :=
  match s.engine.scan with
  | none => s
  | some c =>
    let s := handBreak c.band c.stamp c.firstBreak s
    match s.engine.activity with
    | .verify => answerVerify (if whole then .scanned else .cutShort) c.stamp c.firstBreak c.unreadable.length s
    | _ =>
      let next := if c.band + 1 = bandCount s then 0 else c.band + 1
      engineIdle (if whole then updEngine (fun x => { x with patrolPointer := next }) s else s)

/-- A scan of band b begins for an activity; with no offset to read it ends at once (R147, R149). -/
def beginScan (b : Nat) (a : Activity) (s : State) : State :=
  match band? s b with
  | none => s
  | some r =>
    let reads := patrolReads s r
    let s := updEngine (fun x => { x with activity := a, scan := some (newScan r none reads) }) s
    if reads.isEmpty then endScan true s else offer s

/-- The entry at the head of the VERIFY_BAND queue is examined: answered at once for an EMPTY or RETIRED band, else scanned (R149). -/
def beginVerify (s : State) : State :=
  match s.engine.verifyQueue with
  | [] => engineIdle s
  | e :: _ =>
    match band? s e.band with
    | none => answerVerify .notScanned 0 none 0 s
    | some r =>
      if r.state = .empty ∨ r.state = .retired then answerVerify .notScanned r.stamp none 0 s
      else beginScan e.band .verify s

/-- The scan stops, with no read in hand, because the engine is no longer RUNNING: a patrol is abandoned, a VERIFY_BAND is to be scanned
afresh (R146, R147). -/
def stopScan (s : State) : State :=
  match s.engine.activity with
  | .patrol => endScan false s
  | .verify => updEngine (fun x => { x with scan := none }) s
  | _ => s

/-- The read run of a patrol or VERIFY_BAND scan has ended: its unreadable offsets are handed, and the scan goes on, ends or, when the
engine is not RUNNING, stops (R146 to R149; assumption 40). -/
def endScanRead (s : State) : State :=
  match s.engine.scan with
  | none => s
  | some c =>
    let s := handMedia c.band c.stamp c.runUnreadable s
    let s := updScan (fun y => { y with reads := y.reads.tail, readDone := 0, runUnreadable := [] }) s
    if !running s then stopScan s
    else if c.reads.tail.isEmpty then endScan true s
    else offer s

/-! ### Choosing the next work (R134) -/

/-- The due choice: the first FILLED band on the due list, while the recovery wait is clear. -/
def dueVictim (s : State) : Option Nat :=
  if s.engine.recoveryWait then none
  else s.table.due.find? fun b => (band? s b).any fun r => r.state == .filled

/-- The record with the smallest live + notes, and of equals the first (R134). -/
def leastLive : List Band → Option Band
  | [] => none
  | r :: rs =>
    match leastLive rs with
    | none => some r
    | some x => if x.live + x.notes < r.live + r.notes then some x else some r

/-- The cleaning choice (R134). -/
def cleaningVictim (s : State) : Option Nat :=
  if s.engine.recoveryWait || decide (s.startup.image.lowMark < freeBands s) then none
  else
    (leastLive
        (s.table.bands.filter fun r => r.state == .filled && (decide (0 < r.dead) || r.live == 0))).map
      (·.number)

/-- The band of state OPEN, CLOSING or FILLED at or after the patrol pointer, wrapping (R147). -/
def patrolBand (s : State) : Option Nat :=
  let n := bandCount s
  let start := if n ≤ s.engine.patrolPointer then 0 else s.engine.patrolPointer
  ((List.range n).map fun i => (start + i) % n).find? fun b =>
    (band? s b).any fun r => r.state == .opened || r.state == .closing || r.state == .filled

/-- The choice of R134: due, cleaning, verify, pull-in, patrol; made while the activity is IDLE and the engine state RUNNING. -/
def chooseWork (s : State) : State :=
  if s.engine.activity == .idle && running s then
    match dueVictim s with
    | some b => beginVictim b .due s
    | none =>
      match cleaningVictim s with
      | some b => beginVictim b .cleaning s
      | none =>
        if !s.engine.verifyQueue.isEmpty then beginVerify s
        else if s.engine.idleFlag && s.table.due.isEmpty then
          match (if s.engine.recoveryWait then none else pullInTest s) with
          | some b => beginVictim b .pullIn s
          | none =>
            match patrolBand s with
            | some b => beginScan b .patrol s
            | none => s
        else s
  else s

/-- The tests before each read after the first of a patrol or VERIFY_BAND scan (R147, R149): a patrol is abandoned for a due or cleaning
victim or when its band has changed, a VERIFY_BAND ends when the life scanned has ended, by a retirement too (assumption 38). -/
def testBeforeRead (s : State) : State :=
  match s.engine.scan with
  | none => s
  | some c =>
    if c.begun && c.readDone == 0 && channelFree s && running s then
      match s.engine.activity with
      | .patrol =>
        if (dueVictim s).isSome || (cleaningVictim s).isSome ||
            !((band? s c.band).any fun r => r.state == c.state && r.stamp == c.stamp) then endScan false s
        else s
      | .verify =>
        if (band? s c.band).any fun r => r.state != .empty && r.state != .retired && r.stamp == c.stamp then s
        else endScan false s
      | _ => s
    else s

/-! ### The pending operation (R112, R137, R140, R147) -/

/-- The operation the engine offers: a read run of its chunk or scan, or a write run of its copies. -/
inductive RelocOp where
  | read (band first count completed : Nat)
  | write
deriving DecidableEq, Repr

/-- The relocation stream has, or is given, a band to write into (R42, R93, R102). -/
def relocMayWrite (s : State) : Bool :=
  match s.alloc.reloc.openBand with
  | none => decide (1 ≤ freeBands s)
  | some n => (band? s n).any fun b => b.state == .opened

/-- The next read of a scan, while the engine is RUNNING, or the rest of a read that has begun and not ended (R110, R146). -/
def scanPending (s : State) : Option RelocOp :=
  match s.engine.scan with
  | none => none
  | some c =>
    match c.reads with
    | [] => none
    | (first, count) :: _ => if running s || decide (0 < c.readDone) then some (.read c.band first count c.readDone) else none

/-- The engine's pending operation; none in HALTED (R112, R146). -/
def relocPending (s : State) : Option RelocOp :=
  if s.startup.engine = .halted then none
  else
    match s.engine.activity with
    | .idle => none
    | .patrol => scanPending s
    | .verify => scanPending s
    | .drain =>
      match s.engine.victim, s.engine.chunk with
      | some v, some k =>
        match k.stage with
        | .reading => some (.read v k.first (k.last + 1 - k.first) k.buffer.length)
        | .writing => if (unwrittenCopies s).isEmpty then none else if relocMayWrite s then some .write else none
        | .settled => none
      | _, _ => none

/-- The engine's pending operation is issued; a write takes a band first when the relocation stream has none (R91, R112). -/
def issueReloc (op : RelocOp) (s : State) : State :=
  match op with
  | .read b first count completed =>
    match band? s b with
    | none => s
    | some r =>
      sendIssue (readOperation .relocRead (bandZone s r) b first count completed) (updScan (fun c => { c with begun := true }) s)
  | .write =>
    match openBandOf s .relocation with
    | some b => issueRelocWrite b s
    | none =>
      match takeRelocBand s with
      | none => s
      | some s' =>
        match openBandOf s' .relocation with
        | none => s'
        | some b => issueRelocWrite b s'

/-! ### The sectors of the engine's reads -/

/-- The index in the current relocation read of the next sector to come. -/
def relocReadDone (s : State) : Nat :=
  match s.engine.chunk with
  | some k => k.buffer.length
  | none => (s.engine.scan.map (·.readDone)).getD 0

/-- Sectors of the engine's read, from the offset given on, reach the scan and, in a drain, the relocation buffer (R18, R137). -/
def deliverReloc (offset : Nat) (xs : List (Option Sector)) (s : State) : State :=
  let s := updScan (Scan.feed offset xs) s
  match s.engine.activity with
  | .drain => updChunk (fun k => { k with buffer := k.buffer ++ xs }) s
  | _ => updScan (fun c => { c with readDone := c.readDone + xs.length }) s

/-- The engine's read run has ended (R137, R147). -/
def endRelocRead (s : State) : State :=
  match s.engine.activity with
  | .drain => endChunkRead s
  | _ => endScanRead s

/-! ### HALT, RUN (section 8.5) -/

/-- A read of a patrol or VERIFY_BAND scan has begun and not ended: it is the current operation, or the rest of it waits to be issued
(R110). -/
def scanReading (s : State) : Bool :=
  (s.sched.current.any fun op => op.owner == .relocRead) || s.engine.scan.any fun c => decide (0 < c.readDone)

/-- What a HALT in RUNNING does to the engine: a scan with no read in hand stops; work in hand goes on otherwise (R146). -/
def haltEngine (s : State) : State :=
  if scanReading s then s else stopScan s

/-- At RUN the engine goes on with whatever it holds (R146), also with a patrol or VERIFY_BAND scan whose read the HALT has met and that has
not yet ended (assumption 40). -/
def resumeEngine (s : State) : State :=
  match s.engine.activity with
  | .idle => choiceDue s
  | .drain => offer (if s.engine.chunk.isNone then advanceDrain s else s)
  | .verify => if s.engine.scan.isNone then beginVerify s else offer s
  | .patrol => offer s

end Sys2Proof.Machine
end

