-- ==== Sys2Proof/Machine/Settings.lean ====
section
/-! DEFINITION. The settings image: values, ranges, clamping, the settings record, and the effects of a SET on the owners (R43, R68,
R129, R157, R171, R178). -/

namespace Sys2Proof.Machine

/-! ### Values and ranges -/

/-- The value of a writable setting, by its identifier (R178). -/
def settingOf (x : Settings) (id : Nat) : Nat :=
  match id with
  | 1 => x.slotCode
  | 2 => x.flushThreshold
  | 3 => x.ageLimit
  | 4 => x.slotWait
  | 5 => x.threshold
  | 6 => x.forwardWeight
  | 7 => x.backwardWeight
  | 8 => x.backlogLimit
  | 9 => x.lowMark
  | 10 => x.criticalMark
  | 11 => x.retryLimit
  | 12 => x.idleDelay
  | 13 => x.coldMask.toNat
  | 14 => if x.collisionRefusal then 1 else 0
  | _ => 0

/-- The range of a writable setting (R178); that of the critical mark ends below the low mark given. -/
def settingRange (lowMark id : Nat) : Nat × Nat :=
  match id with
  | 1 => (0, 6)
  | 2 => (1, 4096)
  | 3 => (10, 60000)
  | 4 => (100, 30000)
  | 5 => (1000, 65000)
  | 6 => (1, 15)
  | 7 => (0, 15)
  | 8 => (1, 16)
  | 9 => (4, 4096)
  | 10 => (3, lowMark - 1)
  | 11 => (0, 7)
  | 12 => (100, 60000)
  | 13 => (0, 2 ^ 64 - 1)
  | _ => (0, 1)

/-- The nearest value in a range (R157). -/
def clampTo (r : Nat × Nat) (v : Nat) : Nat :=
  if v < r.1 then r.1 else if r.2 < v then r.2 else v

/-- The image with a writable setting replaced; a new low mark lowers a critical mark at or above it (R43). -/
def putSetting (x : Settings) (id v : Nat) : Settings :=
  match id with
  | 1 => { x with slotCode := v }
  | 2 => { x with flushThreshold := v }
  | 3 => { x with ageLimit := v }
  | 4 => { x with slotWait := v }
  | 5 => { x with threshold := v }
  | 6 => { x with forwardWeight := v }
  | 7 => { x with backwardWeight := v }
  | 8 => { x with backlogLimit := v }
  | 9 => { x with lowMark := v, criticalMark := if v ≤ x.criticalMark then v - 1 else x.criticalMark }
  | 10 => { x with criticalMark := v }
  | 11 => { x with retryLimit := v }
  | 12 => { x with idleDelay := v }
  | 13 => { x with coldMask := BitVec.ofNat 64 v }
  | 14 => { x with collisionRefusal := v != 0 }
  | _ => x

/-- The value in force of a parameter, writable or read-only (R157, R178). -/
def paramValue (s : State) (id : Nat) : Nat :=
  match id with
  | 32 => slotCount s
  | 33 => slotSize s
  | 34 => Config.mapCapacity
  | 35 => s.startup.nLog
  | 36 => bandCount s
  | 37 => s.table.zones.length
  | 38 => Config.channelTimeout
  | 39 => Config.stalenessPeriod
  | _ => settingOf s.startup.image id

/-! ### The settings record (R178) -/

/-- The 14 writable settings in ascending identifier. -/
def settingValues (x : Settings) : List Nat :=
  (List.range 14).map fun i => settingOf x (i + 1)

/-- Values as consecutive 8-byte fields. -/
def packWords : List Nat → Nat
  | [] => 0
  | v :: vs => v % 2 ^ 64 + packWords vs * 2 ^ 64

/-- The settings record with its check field zero: marker 0000A660h, format number 1, and the settings from 10h. -/
def recordBody (x : Settings) : Nat :=
  42592 + 2 ^ 32 + packWords (settingValues x) * 2 ^ 128

/-- The settings record of an image (R178). -/
def settingsRecord (x : Settings) : Block :=
  BitVec.ofNat 32768 (recordBody x + (payloadCheck (BitVec.ofNat 32768 (recordBody x))).toNat * 2 ^ 64)

/-- The check field of a record. -/
def recordCheck (b : Block) : Nat :=
  b.toNat / 2 ^ 64 % 2 ^ 32

/-- The block taken with the check field as zero. -/
def recordUnchecked (b : Block) : Block :=
  BitVec.ofNat 32768 (b.toNat - recordCheck b * 2 ^ 64)

/-- The value of writable setting id in a record. -/
def recordValue (b : Block) (id : Nat) : Nat :=
  b.toNat / 2 ^ (128 + 64 * (id - 1)) % 2 ^ 64

/-- The image that a record's values make. -/
def recordImage (b : Block) : Settings where
  slotCode := recordValue b 1
  flushThreshold := recordValue b 2
  ageLimit := recordValue b 3
  slotWait := recordValue b 4
  threshold := recordValue b 5
  forwardWeight := recordValue b 6
  backwardWeight := recordValue b 7
  backlogLimit := recordValue b 8
  lowMark := recordValue b 9
  criticalMark := recordValue b 10
  retryLimit := recordValue b 11
  idleDelay := recordValue b 12
  coldMask := BitVec.ofNat 64 (recordValue b 13)
  collisionRefusal := recordValue b 14 != 0

/-- Every value of a record lies within its range, with the critical mark below the low mark (R171). -/
def recordInRange (b : Block) : Bool :=
  (List.range 14).all fun i =>
    let r := settingRange (recordValue b 9) (i + 1)
    decide (r.1 ≤ recordValue b (i + 1) ∧ recordValue b (i + 1) ≤ r.2)

/-- A valid settings record (R171, R178). -/
def recordValid (b : Block) : Bool :=
  b.toNat % 2 ^ 32 == 42592 && b.toNat / 2 ^ 32 % 2 ^ 16 == 1 &&
    (payloadCheck (recordUnchecked b)).toNat == recordCheck b && recordInRange b

/-- Every value of an image lies within its range (R178). -/
def Settings.inRange (x : Settings) : Bool :=
  (List.range 14).all fun i =>
    let r := settingRange x.lowMark (i + 1)
    decide (r.1 ≤ settingOf x (i + 1) ∧ settingOf x (i + 1) ≤ r.2)

/-! ### The effects of a SET -/

/-- The image becomes x. -/
def setImage (x : Settings) (s : State) : State :=
  { s with startup := { s.startup with image := x } }

/-- The slot pool is divided anew by the code in force: every slot is free (R68, R69). -/
def redivide (s : State) : State :=
  { s with staging := { s.staging with freeSlots := List.range (slotCount s) } }

/-- The further effects of a SET of a parameter, at the same take (R157): the FREE_LOW test for the marks, the re-evaluation for the
threshold, the slot division; and the choice of R134 for the low mark, the threshold and the mask. -/
def settingEffects (id : Nat) (s : State) : State :=
  match id with
  | 1 => redivide s
  | 5 => choiceDue (reevaluate s)
  | 9 => choiceDue (freeLowTest s)
  | 10 => freeLowTest s
  | 13 => choiceDue s
  | _ => s

/-- The part is quiescent for a change of the slot division code: HALTED, and no parcel in the table (R68). -/
def slotQuiescent (s : State) : Bool :=
  s.startup.engine == .halted && stagingEmpty s

/-- A SET that has passed its checks (R157, R68). -/
def setTake (p : Port) (f : RequestFrame) (s : State) : State :=
  let id := f.param.toNat
  let v := f.value.toNat
  if readOnlyParam id then answerHead p f .ignored (.setting id (paramValue s id)) [] s
  else if id = 1 ∧ slotQuiescent s = false then refuseHead p f .notQuiesced s
  else
    let r := settingRange s.startup.image.lowMark id
    let s := settingEffects id (setImage (putSetting s.startup.image id (clampTo r v)) s)
    answerHead p f (if r.1 ≤ v ∧ v ≤ r.2 then .done else .clamped) (.setting id (paramValue s id)) [] s

/-- A LOAD_DEFAULTS that has passed its checks: every writable setting takes its default, with the owners' effects (R172, R68). -/
def loadDefaultsTake (p : Port) (f : RequestFrame) (s : State) : State :=
  if slotQuiescent s then
    answerHead p f .done .none [] (reevaluate (freeLowTest (redivide (setImage Settings.default s))))
  else refuseHead p f .notQuiesced s

end Sys2Proof.Machine
end

