-- ==== Sys2Proof/Machine/StartUp.lean ====
section
/-! DEFINITION. The start-up unit: geometry, the settings record, the rebuild of bands and map, and quiescence (chapter 10). -/

namespace Sys2Proof.Machine

/-! ### The record -/

/-- The start-up unit's record changed by f. -/
def updStart (f : StartUp → StartUp) (s : State) : State :=
  { s with startup := f s.startup }

/-- The start-up sequence goes on to a stage, whose operation is offered (R112, R167). -/
def setStage (x : StartStage) (s : State) : State :=
  offer (updStart (fun y => { y with stage := x }) s)

/-- What the rebuild has found, changed by f. -/
def updFound (f : Found → Found) (s : State) : State :=
  updStart (fun y => { y with found := f y.found }) s

/-! ### Geometry (R2, R170) -/

/-- A geometry record is accepted: the zone table and the band table are built, N_log is set, and the settings are read next (R1, R20,
R170). -/
def acceptGeometry (g : GeometryRecord) (s : State) : State :=
  let s := { s with table := buildTable g.zones }
  let s := updStart (fun y => { y with nLog := logicalCapacity g }) s
  setStage .settings (if geometryClamped g then placeNotice .geometryClamped none s else s)

/-- A geometry record has failed or was not delivered: GEOMETRY is issued again 1,000 ms later (R2, R111). -/
def failGeometry (s : State) : State :=
  updStart (fun y => { y with stage := .geometryWait (s.now + Config.geometryRetry) }) s

/-- A GEOMETRY has ended with the record delivered, if any. -/
def endGeometry (g : Option GeometryRecord) (s : State) : State :=
  match g with
  | none => failGeometry s
  | some g => if geometryAccepted g then acceptGeometry g s else failGeometry s

/-! ### The settings record (R171) -/

/-- The rebuild of band b begins with its header (R173 step 1). -/
def beginBand (b : Nat) (s : State) : State :=
  setStage
    (.rebuild
      { band := b, phase := .header, first := 0, count := 1, buffer := [], stamp := 0, openSeq := 0, lastChain := none
        pred := none, firstBreak := none, unreadable := [] })
    s

/-- A SYSTEM_READ has ended with the record delivered, if any: a valid one becomes the image, and otherwise every setting takes its default
with a notice; the slot division follows (R67, R69, R171). -/
def endSettings (b : Option Block) (s : State) : State :=
  let s :=
    match b.filter recordValid with
    | some b => setImage (recordImage b) s
    | none => placeNotice .settingsDefaulted none (setImage Settings.default s)
  beginBand 0 (redivide s)

/-! ### What a band's sectors hand to the map build (R173, R174) -/

/-- The copy x wins over the copy y of the same LBN (R174). -/
def copyWins (x y : FoundCopy) : Bool :=
  decide (y.seq < x.seq) ||
    (x.seq == y.seq &&
      (decide (y.openSeq < x.openSeq) ||
        (x.openSeq == y.openSeq && (decide (y.band < x.band) || (x.band == y.band && decide (y.offset < x.offset))))))

/-- A copy joins the winners, which stand in ascending LBN, one for each LBN. -/
def addCopy (x : FoundCopy) : List FoundCopy → List FoundCopy
  | [] => [x]
  | y :: ys =>
    if x.lbn < y.lbn then x :: y :: ys
    else if x.lbn = y.lbn then (if copyWins x y then x else y) :: ys
    else y :: addCopy x ys

/-- A sequence has been found (R175). -/
def seenSeq (q : Nat) (x : Found) : Found :=
  { x with highest := some (max q (x.highest.getD 0)) }

/-- A DATA sector of the band being rebuilt: a copy of its LBN, when that lies below N_log (R170, R174), and a sequence for the band's min
data sequence (R175). -/
def foundData (b openSeq offset lbn seq : Nat) (s : State) : State :=
  let s := updBand b (fun r => { r with minSeq := leastOf [r.minSeq, some seq] }) s
  updFound
    (fun x =>
      if lbn < s.startup.nLog then
        { x with winners := addCopy { lbn := lbn, seq := seq, band := b, offset := offset, openSeq := openSeq } x.winners }
      else x)
    s

/-- A NOTE sector of the band being rebuilt, with the values that R173 hands on: it counts as a note, and its note sequence for the band's
min data sequence (R174, R175; assumption 24). -/
def foundNote (b first length seq : Nat) (s : State) : State :=
  let s := updBand b (fun r => { r with notes := r.notes + 1, minSeq := leastOf [r.minSeq, some seq] }) s
  updFound (fun x => { x with notes := x.notes ++ [{ first := first, length := length, seq := seq }] }) s

/-- The sectors that a summary entry describes (R173 step 4); the entry's sequence counts for the sequence counter (R175). -/
def foundEntry (b openSeq : Nat) (e : SummaryEntry) (s : State) : State :=
  updFound (seenSeq e.seq)
    (match e.kind with
    | .data =>
      (List.range e.length).foldl (fun s i => foundData b openSeq (e.offset + i) (e.start + i) e.seq s) s
    | .note => foundNote b e.start e.length e.seq s)

/-- The sectors that a summary entry counts (R173 step 4). -/
def entrySectors (e : SummaryEntry) : Nat :=
  match e.kind with
  | .data => e.length
  | .note => 1

/-! ### Rebuilding a band (R173) -/

/-- The band being rebuilt is done: its wp and chain are set and its findings kept, and it is counted (R173, R158). -/
def closeRebuild (b wp : Nat) (chain : Option Chain) (found : Option Finding) (s : State) : State :=
  let s := updBand b (fun r => { r with wp := wp, chain := chain }) s
  updStart
    (fun y =>
      { y with
        bandsRebuilt := y.bandsRebuilt + 1
        found := { y.found with findings := y.found.findings ++ found.toList } })
    s

/-- The header of band b is valid (R173 step 1). -/
def headerValid (b : Nat) (x : Sector) : Bool :=
  trailerValidFor x.trailer b && x.trailer.kind == codeHeader && decide (1 ≤ x.trailer.stamp.toNat)

/-- A summary part is of the life of the header (R173 step 3). -/
def partValid (r : BandRebuild) (n : Nat) (x : Sector) : Bool :=
  trailerValidFor x.trailer r.band && x.trailer.kind == codeSummary && x.trailer.stamp.toNat == r.stamp &&
    x.trailer.sequence.toNat == r.openSeq && summaryPart x.trailer == n && !summaryOverflow x.trailer

/-- The summary is usable (R173 step 3): its entries and chain. Where the parts agree on a count above the 1,024 of R13, which no test of
R173 excludes, its entries are its 1,024 entry positions (assumption 36). -/
def usableSummary (r : BandRebuild) : Option (List SummaryEntry × Chain) :=
  match r.buffer with
  | [some p0, some p1, some p2, some p3] =>
    let n := summaryCount p0.trailer
    if partValid r 0 p0 && partValid r 1 p1 && partValid r 2 p2 && partValid r 3 p3 &&
        summaryCount p1.trailer == n && summaryCount p2.trailer == n && summaryCount p3.trailer == n &&
        p1.trailer.chain == chainNext p0.trailer.chain p1.payload &&
        p2.trailer.chain == chainNext p1.trailer.chain p2.payload &&
        p3.trailer.chain == chainNext p2.trailer.chain p3.payload then
      some
        (([p0, p1, p2, p3].flatMap fun p => unpackEntries 256 p.payload.toNat).take n, p3.trailer.chain)
    else none
  | _ => none

/-- A sector stops the rebuild scan (R173 step 5). -/
def stopsScan (r : BandRebuild) (x : Sector) : Bool :=
  trailerUnwritten x.trailer || !trailerValidFor x.trailer r.band || x.trailer.stamp.toNat != r.stamp ||
    !(x.trailer.kind == codeData || x.trailer.kind == codeNote)

/-- A DATA or NOTE sector that the rebuild scan has read at offset o: what it gives the map build (R173), a note with the values of its
payload; of either kind the trailer's sequence counts for the sequence counter (R175). -/
def foundSector (b openSeq o : Nat) (x : Sector) (s : State) : State :=
  updFound (seenSeq x.trailer.sequence.toNat)
    (if x.trailer.kind = codeData then foundData b openSeq o x.trailer.logical.toNat x.trailer.sequence.toNat s
    else foundNote b (noteFirst x.payload) (noteLength x.payload) (noteSeq x.payload) s)

/-- The scan's sectors from offset o on: each one before the stop is checked by the chain (R18, R19) and handed on. What the same read has
delivered at and behind the stop is neither handed on nor counted for the sequence counter (assumption 37). The record after them, and the
offset at which the scan stopped, if it has. -/
def scanSectors : Nat → List (Option Sector) → BandRebuild → State → (BandRebuild × Option Nat) × State
  | _, [], r, s => ((r, none), s)
  | o, x :: xs, r, s =>
    if x.any (stopsScan r) then ((r, some o), s)
    else
      let c := checkSector (bandSeed r.band r.stamp) o x r.pred r.firstBreak
      let r' :=
        { r with
          pred := c.1, firstBreak := c.2, lastChain := x.map (·.trailer.chain), unreadable := r.unreadable ++ unreadableOffsets o [x] }
      let s' :=
        match x with
        | none => s
        | some y => foundSector r.band r.openSeq o y s
      scanSectors (o + 1) xs r' s'

/-- The next read of the rebuild scan, of up to 1,024 sectors from offset o of a band of capacity c (R17), every one but the last of 1,024
(assumption 31). -/
def nextScan (o c : Nat) (r : BandRebuild) : BandRebuild :=
  { r with phase := .scan, first := o, count := min Config.runLimit (c - 4 - o), buffer := [] }

/-- The rebuild scan has stopped at offset wp. The band's chain is the trailer chain of offset wp − 1, a free value when that sector could
not be read (R173 step 5; assumption 7). -/
def endBandScan (r : BandRebuild) (wp : Nat) (s : State) : State :=
  let f : Finding := { band := r.band, firstBreak := r.firstBreak, unreadable := r.unreadable }
  match r.lastChain with
  | some c => closeRebuild r.band wp (some c) (some f) s
  | none =>
    closeRebuild r.band wp (some (Config.unreadChain s.freeCount)) (some f) { s with freeCount := s.freeCount + 1 }

/-- A DATA or NOTE trailer found in a band with no valid header has been seen (R175; assumption 12). -/
def seenAnomaly (b : Nat) (x : Option Sector) (f : Found) : Found :=
  match x with
  | none => f
  | some sec =>
    if trailerValidFor sec.trailer b && (sec.trailer.kind == codeData || sec.trailer.kind == codeNote) then
      seenSeq sec.trailer.sequence.toNat f
    else f

/-! ### Building the map (R174) -/

/-- A note hides the copy (R174). -/
def noteHides (notes : List FoundNote) (x : FoundCopy) : Bool :=
  notes.any fun n => decide (n.first ≤ x.lbn) && decide (x.lbn < n.first + n.length) && decide (x.seq < n.seq)

/-- The MEDIA records of the winners in ascending LBN, merged as they are made, with the last record first; and the first LBN still to be
recorded when the records have run out (R174). They have run out when a further record is wanted, not when the last one has been made
(assumption 35). -/
def mediaRecords (notes : List FoundNote) : List FoundCopy → List Extent → Nat → List Extent × Option Nat
  | [], done, _ => (done, none)
  | x :: xs, done, n =>
    if noteHides notes x then mediaRecords notes xs done n
    else
      let r : Extent := { start := x.lbn, len := 1, loc := .media x.band x.offset }
      match done with
      | last :: rest =>
        if mergeable last r then mediaRecords notes xs ({ last with len := last.len + 1 } :: rest) n
        else if n < Config.mapCapacity - Config.rebuildReserve then mediaRecords notes xs (r :: done) (n + 1)
        else (done, some x.lbn)
      | [] => mediaRecords notes xs [r] (n + 1)

/-- LOST records of up to 2^24 blocks over the range [a, e) (R174). -/
def lostRecords (a e : Nat) : List Extent :=
  (List.range ((e - a + (Config.lostLimit - 1)) / Config.lostLimit)).map fun i =>
    { start := a + Config.lostLimit * i, len := min Config.lostLimit (e - a - Config.lostLimit * i), loc := .lost }

/-- The map is built from what the bands handed on (R174). -/
def buildMap (s : State) : State :=
  let r := mediaRecords s.startup.found.notes s.startup.found.winners [] 0
  match r.2 with
  | none => { s with map := { s.map with records := r.1.reverse } }
  | some a =>
    placeNotice .rebuildAnomaly none
      { s with map := { s.map with records := r.1.reverse ++ lostRecords a s.startup.nLog } }

/-! ### The end of the rebuild (R175) -/

/-- The number of blocks that the map's MEDIA records place in band b (R27). -/
def mediaBlocks (m : List Extent) (b : Nat) : Nat :=
  (m.map fun r => match r.loc with | .media b' _ => if b' = b then r.len else 0 | _ => 0).sum

/-- The counts and the exposure of a band record at the end of the rebuild (R175). -/
def finishBandRecord (m : List Extent) (threshold : Nat) (r : Band) : Band :=
  if r.state = .filled then
    let r := { r with live := mediaBlocks m r.number, pins := 0, neglected := false }
    if r.live = 0 ∧ r.notes = 0 then r.resetRecord else { r with exposure := threshold / 2 }
  else { r with exposure := if r.state = .empty then 0 else threshold / 2 }

/-- The findings of one band's scan are applied when the band is still FILLED (R175). -/
def applyFinding (f : Finding) (s : State) : State :=
  if (band? s f.band).any fun r => r.state == .filled then
    let s :=
      match f.firstBreak with
      | none => s
      | some o => placeNotice .breakFound (some f.band) (recordBreak f.band o (raiseCause f.band .brk s))
    if f.unreadable.isEmpty then s else raiseCause f.band .media s
  else s

/-- The sequence counter becomes the highest sequence found plus 1, or 1; a free value when the sum does not fit the counter (R175;
assumption 7). -/
def resetCounter (s : State) : State :=
  match s.startup.found.highest with
  | none => { s with staging := { s.staging with seqCounter := 1 } }
  | some q =>
    if q < Config.sequenceLimit then { s with staging := { s.staging with seqCounter := q + 1 } }
    else
      { s with
        staging := { s.staging with seqCounter := (Config.wrappedCounter s.freeCount).toNat }
        freeCount := s.freeCount + 1 }

/-- The map is built, every band is set, and the engine enters RUNNING (R167 steps 4 to 6, R174, R175). -/
def finishRebuild (s : State) : State :=
  let s := buildMap s
  let s :=
    { s with
      table :=
        { s.table with
          bands := s.table.bands.map (finishBandRecord s.map.records s.startup.image.threshold) } }
  let s := resetCounter (freeLowTest (s.startup.found.findings.foldl (fun s f => applyFinding f s) s))
  let s := updStart (fun y => { y with engine := .running, stage := .finished, found := Found.nothing }) s
  offer (choiceDue (placeNotice .rebuildDone none s))

/-- The rebuild goes on with the band after b, or ends when there is none (R167). -/
def nextBand (b : Nat) (s : State) : State :=
  if b + 1 < bandCount s then beginBand (b + 1) s else finishRebuild s

/-- Sectors of the rebuild's read reach it, absent where they could not be read. -/
def deliverStart (xs : List (Option Sector)) (s : State) : State :=
  match s.startup.stage with
  | .rebuild r => updStart (fun y => { y with stage := .rebuild { r with buffer := r.buffer ++ xs } }) s
  | _ => s

/-- The rebuild's read of band r.band has ended (R173). The stamp and open sequence are those of the header's trailer (assumption 24). A
usable summary's wp is 1 plus the sum of its entries' sectors, also where that is more than the C − 4 of R23 (assumption 43). Of a summary
that is not usable no entry counts for the sequence counter of R175, though some of its parts could be read (assumption 49). -/
def endRebuildRead (r : BandRebuild) (s : State) : State :=
  match band? s r.band with
  | none => s
  | some x =>
    let c := bandC s x
    match r.phase with
    | .header =>
      match r.buffer.head?.join.filter (headerValid r.band) with
      | some h =>
        let q := h.trailer.sequence.toNat
        let s := updBand r.band (fun y => { y with state := .filled, stamp := h.trailer.stamp.toNat, openSeq := some q }) s
        setStage
          (.rebuild
            { r with
              phase := .summary, first := c - 4, count := 4, buffer := [], stamp := h.trailer.stamp.toNat, openSeq := q
              lastChain := some h.trailer.chain })
          (updFound (seenSeq q) s)
      | none => setStage (.rebuild { r with phase := .anomaly, first := 1, count := min 1023 (c - 5), buffer := [] }) s
    | .anomaly =>
      let s := updFound (fun f => r.buffer.foldl (fun f x => seenAnomaly r.band x f) f) s
      let s :=
        if r.buffer.any (fun x => x.any fun sec => trailerValidFor sec.trailer r.band) then
          placeNotice .rebuildAnomaly (some r.band) s
        else s
      nextBand r.band (closeRebuild r.band 0 none none s)
    | .summary =>
      match usableSummary r with
      | some (entries, chain) =>
        let s := entries.foldl (fun s e => foundEntry r.band r.openSeq e s) s
        let s := updBand r.band (fun y => { y with summaryPresent := true }) s
        nextBand r.band (closeRebuild r.band (1 + (entries.map entrySectors).sum) (some chain) none s)
      | none => setStage (.rebuild (nextScan 1 c { r with pred := some (bandSeed r.band r.stamp) })) s
    | .scan =>
      let t := scanSectors r.first r.buffer r s
      let next := r.first + r.count
      match t.1.2 with
      | some o => nextBand r.band (endBandScan t.1.1 o t.2)
      | none =>
        if c - 4 ≤ next then nextBand r.band (endBandScan t.1.1 next t.2)
        else setStage (.rebuild (nextScan next c t.1.1)) t.2

/-- The read in hand of the rebuild has ended. -/
def endStartRead (s : State) : State :=
  match s.startup.stage with
  | .rebuild r => endRebuildRead r s
  | _ => s

/-! ### The start-up unit's pending operation (R112) -/

/-- The start-up unit has an operation pending. -/
def startPending (s : State) : Bool :=
  match s.startup.stage with
  | .geometry => true
  | .geometryWait _ => false
  | .settings => true
  | .rebuild _ => true
  | .finished => !s.startup.savesQueued.isEmpty

/-- The sector that a SYSTEM_WRITE carries: the settings record of the image as it stands (R172, R178), with a trailer that is free but for
its kind code, which is one of 1 to 4 as in every sector the part writes (R9, R177; assumption 7). -/
def settingsSector (x : Settings) : Sector :=
  let t := Config.systemTrailer (settingsRecord x)
  { payload := settingsRecord x, trailer := { t with kind := BitVec.ofNat 8 (1 + t.kind.toNat % 4) } }

/-- The start-up unit's pending operation is issued; a SYSTEM_WRITE carries every save that waits (R167, R172). -/
def issueStart (s : State) : State :=
  match s.startup.stage with
  | .geometry => sendIssue (systemOperation .geometry []) s
  | .geometryWait _ => s
  | .settings => sendIssue (systemOperation .systemRead []) s
  | .rebuild r =>
    match band? s r.band with
    | none => s
    | some x => sendIssue (readOperation .startUp (bandZone s x) r.band r.first r.count r.buffer.length) s
  | .finished =>
    sendIssue (systemOperation .systemWrite [settingsSector s.startup.image])
      (updStart (fun y => { y with savesInFlight := y.savesQueued, savesQueued := [] }) s)

/-- A SYSTEM_WRITE has ended: every save it carried is answered (R172), the earliest taken first (assumption 41). -/
def endSave (ok : Bool) (s : State) : State :=
  let saves := s.startup.savesInFlight
  saves.foldl (fun s r => respond r .done (.save ok) [] s) (updStart (fun y => { y with savesInFlight := [] }) s)

/-! ### Quiescence (R168, R169) -/

/-- The relocation engine is at rest: no chunk READING or WRITING, other than one whose copies wait for a band that F = 0 cannot give
(R168). -/
def chunkAtRest (s : State) : Bool :=
  match s.engine.chunk with
  | none => true
  | some k =>
    match k.stage with
    | .settled => true
    | .reading => false
    | .writing => s.alloc.reloc.openBand.isNone && decide (freeBands s = 0)

/-- The conditions under which HALTING becomes HALTED (R168), and no scan read that R110 has split and that has still to end (R146;
assumption 18). -/
def quiescent (s : State) : Bool :=
  stagingEmpty s && s.sched.summaries.isEmpty && s.sched.current.isNone && chunkAtRest s && !scanReading s

/-- Every waiting HALT is answered with a status (R168), the earliest taken first (assumption 41). -/
def answerHalts (st : Status) (s : State) : State :=
  let waiters := s.startup.haltWaiters
  waiters.foldl (fun s r => respond r st .none [] s) (updStart (fun y => { y with haltWaiters := [] }) s)

/-- HALTING becomes HALTED when the part is quiescent, and every waiting HALT is answered DONE (R168). -/
def haltedTest (s : State) : State :=
  if s.startup.engine = .halting ∧ quiescent s = true then
    answerHalts .done (updStart (fun y => { y with engine := .halted }) s)
  else s

/-- A HALT that has passed its checks (R168). -/
def haltTake (p : Port) (f : RequestFrame) (s : State) : State :=
  match s.startup.engine with
  | .halted => answerHead p f .done .none [] s
  | .halting => popRequest p (updStart (fun y => { y with haltWaiters := y.haltWaiters ++ [requesterOf p f] }) s)
  | .running =>
    offer
      (popRequest p
        (haltEngine
          (updStart (fun y => { y with engine := .halting, haltWaiters := y.haltWaiters ++ [requesterOf p f] }) s)))
  | .starting => s

/-- A RUN that has passed its checks (R146, R168); in RUNNING too it is an event of R134 (assumption 15). -/
def runTake (p : Port) (f : RequestFrame) (s : State) : State :=
  match s.startup.engine with
  | .running => choiceDue (answerHead p f .done .none [] s)
  | .starting => s
  | _ =>
    let s := answerHalts .notQuiesced (updStart (fun y => { y with engine := .running }) s)
    offer (resumeEngine (answerHead p f .done .none [] s))

/-- No SAVE_SETTINGS waits (R169). -/
def noSaveWaits (s : State) : Bool :=
  s.startup.savesQueued.isEmpty && s.startup.savesInFlight.isEmpty

/-- A RESTART is taken: HALTED, no SAVE_SETTINGS waiting, no band CLOSING (R169). -/
def restartAdmitted (s : State) : Bool :=
  s.startup.engine == .halted && noSaveWaits s && s.table.bands.all fun r => r.state != .closing

/-- The request held at the head of a port's queue is refused with NOT_RUNNING (R116, R149). -/
def refuseHeld (p : Port) (s : State) : State :=
  match (s.link p).queue.head? with
  | none => s
  | some f => refuseHead p f .notRunning s

/-- The entry to STARTING at a RESTART: tables, streams' bands, relocation engine and settings image are discarded; the read-run queue, the
temperature class, the links and the custody unit are kept (R169, R104, R112, R133). -/
def enterStarting (s : State) : State :=
  { s with
    staging := Staging.cleared s.staging.pool s.staging.seqCounter
    map := { records := [], held := false }
    table := BandTable.absent
    alloc := { hosts := s.alloc.hosts.map Stream.withoutBand, reloc := s.alloc.reloc.withoutBand }
    sched :=
      { s.sched with
        readQueue := s.sched.readQueue.map fun r => { r with pinned := false }
        readWait := []
        summaries := [] }
    engine := Engine.reset
    startup :=
      { s.startup with
        engine := .starting, image := Settings.default, nLog := 0, stage := .geometry, found := Found.nothing
        bandsRebuilt := 0 } }

/-- A RESTART that has passed its checks (R169). The VERIFY_BAND entries are answered in the order of their queue (assumption 41). -/
def restartTake (p : Port) (f : RequestFrame) (s : State) : State :=
  if restartAdmitted s then
    let entries := s.engine.verifyQueue
    let held := s.sched.readWait ++ s.engine.verifyHeld
    let s := enterStarting (answerHead p f .done .none [] s)
    let s := entries.foldl (fun s e => respond e.requester .notRunning .none [] s) s
    offer (held.foldl (fun s q => refuseHeld q s) s)
  else refuseHead p f .notQuiesced s

/-- A SAVE_SETTINGS that has passed its checks joins the saves that the next SYSTEM_WRITE carries (R172). -/
def saveTake (p : Port) (f : RequestFrame) (s : State) : State :=
  offer (popRequest p (updStart (fun y => { y with savesQueued := y.savesQueued ++ [requesterOf p f] }) s))

/-! ### STATUS and BAND_QUERY (R158, R159) -/

/-- What STATUS reports for a host stream; the relocation stream has no queue, so its queued total is absent. -/
def streamReport (s : State) (i : StreamId) : StreamReport where
  openBand := (stream s i).openBand
  bandState := ((stream s i).openBand.bind (band? s)).map (·.state)
  queued :=
    match i with
    | .host t => some (queuedTotal s t)
    | .relocation => none

/-- The values of STATUS taken on port p (R158). The streams stand in the order host streams 0 to 7, relocation stream (assumption 42). -/
def statusReport (p : Port) (s : State) : StatusReport where
  engine := s.startup.engine
  zoneCount := s.table.zones.length
  bandsRebuilt := s.startup.bandsRebuilt
  custody := s.custody.number
  admission := s.custody.admission
  linkUp := { a := s.links.a.up, b := s.links.b.up }
  outstanding := { a := s.links.a.outstanding.length, b := s.links.b.outstanding.length }
  notices := (s.link p).notices.length
  freeBands := freeBands s
  dueLength := s.table.due.length
  recordsInUse := recordsInUse s
  recordsFree := freeRecords s
  parcels := s.staging.parcels.length
  freeSlots := s.staging.freeSlots.length
  freeNotes := s.staging.freeNotes.length
  slotWait := s.staging.slotWait.length
  noteWait := s.staging.noteWait.length
  drains := s.staging.drains.length
  seqCounter := s.staging.seqCounter
  streams := (List.finRange 8).map (fun t => streamReport s (.host t)) ++ [streamReport s .relocation]
  current := s.sched.current.map (·.kind)
  readEntries := s.sched.readQueue.length
  readBufferFree := readBufferFree s
  readWait := s.sched.readWait.length
  tempClass := s.sched.tempClass
  classInForce := classInForce s
  stale := s.sched.stale
  activity := s.engine.activity
  victim := s.engine.victim
  reason := s.engine.reason
  victimNext := if s.engine.victim.isSome then s.engine.scan.map (·.next) else none
  copiesHeld := (s.engine.chunk.map fun k => k.copies.length).getD 0
  patrolPointer := s.engine.patrolPointer
  verifyLength := s.engine.verifyQueue.length
  lowWater := s.engine.lowWater

end Sys2Proof.Machine
end

