-- ==== Sys2Proof/Machine/Scheduler.lean ====
section
/-! DEFINITION. The media scheduler: arbitration, completions, retries, and the final completion of each kind of operation (sections 6.2 to
6.4). -/

namespace Sys2Proof.Machine

/-! ### Choosing the next operation (R112 to R114) -/

/-- The read run that rank 3 issues: the one that goes on under R110, and otherwise the first of the queue (R112). -/
def nextReadRun (s : State) : Option ReadRun :=
  match s.sched.readQueue.find? fun r => decide (0 < r.completed) with
  | some r => some r
  | none => s.sched.readQueue.head?

/-- A FETCH read run is issued (R112, R115). -/
def issueFetch (r : ReadRun) (s : State) : State :=
  sendIssue (readOperation (.fetch r.fetch r.pos) r.zone r.band r.first r.count r.completed) s

/-- The host streams in the order that starts after the pointer (R114). -/
def streamOrder (pointer : Fin 8) : List (Fin 8) :=
  (List.finRange 8).map fun i => pointer + i + 1

/-- The host streams are considered in order until one issues a run, and the pointer moves to it (R114); the flag says whether one did. -/
def selectHosts : List (Fin 8) → State → State × Bool
  | [], s => (s, false)
  | t :: ts, s =>
    if flushEligible s t && decide (0 < freeRecords s) then
      let r := selectHost t s
      if r.2 then ({ r.1 with sched := { r.1.sched with pointer := t } }, true) else selectHosts ts r.1
    else selectHosts ts s

/-- The channel is idle: the idle timer is started unless it runs or the idle flag is set (R112, R135). -/
def tellIdle (s : State) : State :=
  if s.engine.idleTimer.isSome || s.engine.idleFlag then s
  else updEngine (fun x => { x with idleTimer := some (s.now + s.startup.image.idleDelay) }) s

/-- Ranks 5 and 6 of the arbitration, and an idle channel (R112). -/
def arbitrateWrites (s : State) : State :=
  let r := selectHosts (streamOrder s.sched.pointer) s
  if r.2 then r.1
  else
    match relocPending r.1 with
    | some op => issueReloc op r.1
    | none => tellIdle r.1

/-- The arbitration: while the channel is free the first operation available is issued (R112). -/
def arbitrate (s : State) : State :=
  if !channelFree s then s
  else if startPending s then issueStart s
  else
    match (if urgent s then relocPending s else none) with
    | some op => issueReloc op s
    | none =>
      match nextReadRun s with
      | some r => issueFetch r s
      | none =>
        match s.sched.summaries with
        | b :: _ => issueSummary b s
        | [] => arbitrateWrites s

/-! ### Completions as they are taken (R103, R105) -/

/-- The sector count of an operation's latest issue; an operation without sectors counts one (R103). -/
def issueCount (op : Operation) : Nat :=
  op.count - op.issuedFrom

/-- The count of a completion that delivers sectors is at most their number (assumption 10). -/
def deliveredCount (op : Operation) (d : Delivery) (k : Nat) : Nat :=
  match op.kind, d with
  | .readRun, .sectors l => min k l.length
  | .readRun, _ => 0
  | _, _ => k

/-- How a completion of an operation without a run is taken: it has one sector to complete, and UNREADABLE of a write is a WRITE_FAULT (R103). -/
def takenWhole (op : Operation) : MediaOutcome → MediaOutcome × Nat
  | .complete => (.complete, 1)
  | .offTrack => (.offTrack, 0)
  | .writeFault => (.writeFault, 0)
  | .unreadable => (if op.kind.isWrite then .writeFault else .unreadable, 0)
  | .notReady => (.notReady, 0)

/-- How a completion of a run is taken that reports k sectors of n: with more than n it counts as OFF_TRACK with none; WRITE_FAULT of a read and
UNREADABLE of a write are taken as one another; COMPLETE with too few is OFF_TRACK (R103). A retryable outcome or NOT_READY with all n, which
leaves nothing to issue again, is COMPLETE, but for the OFF_TRACK of a write whose retries are `spent`, which R109 makes final
(assumption 10). -/
def takenRun (op : Operation) (spent : Bool) (n k : Nat) : MediaOutcome → MediaOutcome × Nat
  | .complete => if n < k then (.offTrack, 0) else (if k < n then .offTrack else .complete, k)
  | .writeFault =>
    if n < k then (.offTrack, 0)
    else (if op.kind.isWrite then .writeFault else if k < n then .unreadable else .complete, k)
  | .unreadable =>
    if n < k then (.offTrack, 0)
    else (if op.kind.isWrite then .writeFault else if k < n then .unreadable else .complete, k)
  | .offTrack =>
    if n < k then (.offTrack, 0) else (if decide (k < n) || (op.kind.isWrite && spent) then .offTrack else .complete, k)
  | .notReady => if n < k then (.offTrack, 0) else (if k < n then .notReady else .complete, k)

/-- The outcome and the count that a completion is taken with, under the retry limit given (R103, R107). -/
def takenAs (op : Operation) (limit : Nat) (outcome : MediaOutcome) (k : Nat) : MediaOutcome × Nat :=
  if op.kind.isRun then takenRun op (decide (limit ≤ op.retries)) (issueCount op) k outcome else takenWhole op outcome

/-- The sectors delivered by a completion. -/
def deliveredSectors (d : Delivery) : List Sector :=
  match d with
  | .sectors l => l
  | _ => []

/-- Sectors of a read reach its owner, absent where they could not be read, from the read's sector `start` on (R17, R117, R173). -/
def deliverRead (op : Operation) (start : Nat) (xs : List (Option Sector)) (s : State) : State :=
  match op.owner with
  | .fetch id pos =>
    xs.zipIdx.foldl
      (fun s x =>
        match x.1 with
        | some sec => deliverFetch id pos (start + x.2) [sec] s
        | none => exceptFetch id pos (start + x.2) s)
      s
  | .relocRead => deliverReloc (op.first + start) xs s
  | .startUp => deliverStart xs s
  | _ => s

/-- A read run has ended and hands its results to its owner (R110). -/
def endRead (op : Operation) (s : State) : State :=
  match op.owner with
  | .fetch id pos => endReadRun id pos s
  | .relocRead => endRelocRead s
  | .startUp => endStartRead s
  | _ => s

/-- The rest of a read, from its sector j + 1 on, is offered as a new operation (R110). -/
def continueRead (op : Operation) (j : Nat) (s : State) : State :=
  match op.owner with
  | .fetch id pos => offer (updReadRun id pos (fun r => { r with completed := j + 1 }) s)
  | _ => offer s

/-! ### The final completion of a host stream's write run (R109) -/

/-- The commits of a host run's completed sectors, from offset o of band b on (R56): committed where the map still names the parcel's index, else
written dead. -/
def commitItems (b : Nat) : Nat → List RunItem → State → State
  | _, [], s => s
  | o, i :: is, s =>
    match i with
    | .data p j L _ =>
      if resolve s.map.records L = some (.staged p j) then
        commitItems b (o + 1) is
          (updParcel p (fun x => { x with live := x.live - 1 })
            (raiseLive b 1 { s with map := { s.map with records := commitBlock L b o s.map.records } }))
      else commitItems b (o + 1) is s
    | _ => commitItems b (o + 1) is s

/-- The commits of one completion, taken together as one change of the map, at which the held record is used or freed (R51, R57). -/
def commitRun (b first : Nat) (items : List RunItem) (s : State) : State :=
  let s := commitItems b first items s
  mapChanged { s with map := { s.map with held := false } }

/-- The parcel's kind is written whole by its written count (R78). -/
def fullyWritten (x : Parcel) : Bool :=
  match x.kind with
  | .data => x.written == x.length
  | .note => x.written == 1

/-- Staging acts on one parcel that the run carried, of which `n` sectors were completed: removed when fully written, and otherwise QUEUED and
tested under R77 (R78). -/
def settleParcel (id n : Nat) (s : State) : State :=
  let s := updParcel id (fun x => { x with written := x.written + n }) s
  if (parcel? s id).any fullyWritten then removeParcel id s
  else
    let s := updParcel id (fun x => { x with state := .queued }) s
    if (parcel? s id).any unwanted then removeParcel id s else s

/-- Staging acts on the parcels that a run carried, in the run's order, with the items completed (R78). -/
def settleParcels (parcels : List Nat) (items : List RunItem) (s : State) : State :=
  parcels.foldl (fun s p => settleParcel p (items.countP fun i => itemParcel i == some p) s) s

/-- The final completion of host stream t's run with k sectors completed, in the order of R109. -/
def finishHostWrite (op : Operation) (t : Fin 8) (k : Nat) (ok : Bool) (s : State) : State :=
  let items := op.items.take k
  let s := commitRun op.band op.first items s
  let s := settleParcels (carriedParcels op.items) items s
  let s := streamCompletion (.host t) op.band op.first items ok s
  offer (accountExposure op.band op.first k s)

/-- The final completion of a relocation run with k sectors completed, in the order of R109. -/
def finishRelocWrite (op : Operation) (k : Nat) (ok : Bool) (s : State) : State :=
  let s := relocCompletion op.band op.first op.items k s
  let s := streamCompletion .relocation op.band op.first (op.items.take k) ok s
  offer (accountExposure op.band op.first k s)

/-- The final completion of a SUMMARY run: R26, R100, then the exposure (R109, R121). -/
def finishSummaryRun (op : Operation) (k : Nat) (ok : Bool) (s : State) : State :=
  offer (accountExposure op.band op.first k (finishSummary op.band ok (op.sectors.take k) s))

/-- The record that a COMPLETE GEOMETRY delivers. -/
def deliveredGeometry (d : Delivery) : Option GeometryRecord :=
  match d with
  | .geometry g => some g
  | _ => none

/-- The record that a COMPLETE SYSTEM_READ delivers. -/
def deliveredRecord (d : Delivery) : Option Block :=
  match d with
  | .record b => some b
  | _ => none

/-- The final completion of an operation with k sectors completed and success or failure; the channel becomes free (R104, R109 to R111). -/
def finishOperation (op : Operation) (k : Nat) (ok : Bool) (d : Delivery) (s : State) : State :=
  let s := offer { s with sched := { s.sched with current := none } }
  match op.kind with
  | .writeRun =>
    match op.owner with
    | .hostWrite t => finishHostWrite op t k ok s
    | .relocWrite => finishRelocWrite op k ok s
    | _ => s
  | .summary => finishSummaryRun op k ok s
  | .readRun => endRead op s
  | .geometry => endGeometry (if ok then deliveredGeometry d else none) s
  | .systemRead => endSettings (if ok then deliveredRecord d else none) s
  | .systemWrite => endSave ok s

/-- A read's retries are spent at its sector j: that sector is excepted, and the run ends there or goes on after it as a new operation (R110). -/
def exceptSector (op : Operation) (j : Nat) (s : State) : State :=
  let s := offer { s with sched := { s.sched with current := none } }
  let s := deliverRead op j [none] s
  if j + 1 < op.count then continueRead op j s else endRead op s

/-- A retryable completion with the retries spent is final (R107, R109 to R111). -/
def spentOperation (op : Operation) (k : Nat) (s : State) : State :=
  match op.kind with
  | .readRun => exceptSector op k s
  | _ => finishOperation op k false .nothing s

/-- A retryable completion: the operation is reissued from its completed count while retries are left (R107). -/
def retryOperation (op : Operation) (k : Nat) (s : State) : State :=
  if op.retries < s.startup.image.retryLimit then sendIssue { op with retries := op.retries + 1 } s
  else spentOperation op k s

/-- The operation waits 1,000 ms after NOT_READY (R108). -/
def waitNotReady (op : Operation) (s : State) : State :=
  { s with sched := { s.sched with current := some { op with wait := some (s.now + Config.notReadyWait) } } }

/-- The sectors a completion of a write run has added reach the band table at once, also where the run stays in flight (R22, R109; R96 holds wp
and chain till its end, assumption 34). -/
def addProgress (op : Operation) (k : Nat) (s : State) : State :=
  match op.kind with
  | .writeRun =>
    writeProgress op.band ((op.items.drop op.issuedFrom).take k) ((op.sectors.drop op.issuedFrom).take k) s
  | _ => s

/-- A completion of the awaited issue is taken: the timer is stopped, the count grows, the added sectors are handed on, and the outcome decides
(R105, R107 to R111). -/
def takeOutcome (op : Operation) (r : MediaOutcome × Nat) (d : Delivery) (s : State) : State :=
  let k := op.issuedFrom + r.2
  let op' := { op with completed := k, awaiting := false }
  let s := { s with sched := { s.sched with current := some op', channelTimer := none } }
  let s := addProgress op r.2 s
  let s :=
    if op.kind = .readRun then deliverRead op op.issuedFrom (((deliveredSectors d).take r.2).map some) s else s
  match r.1 with
  | .complete => finishOperation op' k true d s
  | .notReady => waitNotReady op' s
  | .writeFault => finishOperation op' k false .nothing s
  | .offTrack => retryOperation op' k s
  | .unreadable => retryOperation op' k s

/-- The current operation, when its issue is awaited. -/
def awaited (s : State) : Option Operation :=
  s.sched.current.filter fun op => op.awaiting

/-- A completion from the channel: taken when it answers the awaited issue, and discarded otherwise (R105). -/
def takeCompletion (c : Completion) (s : State) : State :=
  match awaited s with
  | none => s
  | some op =>
    if op.issue = c.issue then
      takeOutcome op
        (takenAs op s.startup.image.retryLimit c.outcome (if issueCount op < c.k then c.k else deliveredCount op c.delivery c.k)) c.delivery s
    else s

/-- The channel timer of the awaited issue expires: OFF_TRACK with k = 0 (R106). -/
def timerExpires (s : State) : State :=
  match awaited s, s.sched.channelTimer with
  | some op, some t => takeOutcome op (.offTrack, 0) .nothing (advanceTo t s)
  | _, _ => s

/-- The wait after NOT_READY expires: the operation is reissued from its completed count (R108). -/
def notReadyExpires (s : State) : State :=
  match s.sched.current with
  | none => s
  | some op =>
    match op.wait with
    | none => s
    | some t => sendIssue op (advanceTo t s)

end Sys2Proof.Machine
end

