-- ==== Sys2Proof/Machine/Settle.lean ====
section
/-! DEFINITION. The end of a step: the follow-on work that the step has made due is done before the next step is taken (assumption 2). -/

namespace Sys2Proof.Machine

/-- The agenda's choice is taken up (R134). -/
def settleChoice (s : State) : State :=
  chooseWork { s with agenda := { s.agenda with choice := false } }

/-- The agenda's arbitration is taken up (R104): the tests that R147 and R149 make before a scan's next read come first; when they end the scan, the
choice that this makes due comes before the arbitration. -/
def settleOffer (s : State) : State :=
  let s := testBeforeRead { s with agenda := { s.agenda with offered := false } }
  if s.agenda.choice then offer s else arbitrate s

/-- The follow-on work of a step, in order: freed resources are handed out (R79, R83), the relocation engine makes its choice (R134), HALTED is entered
(R168), the channel is arbitrated (R104); `fuel` bounds the rounds. -/
def settleRounds : Nat → State → State
  | 0, s => s
  | fuel + 1, s =>
    if !s.agenda.freed.isEmpty then settleRounds fuel (handAll s)
    else if s.agenda.choice then settleRounds fuel (settleChoice s)
    else
      let s := haltedTest s
      if s.agenda.offered then settleRounds fuel (settleOffer s) else s

/-- The most rounds a step can need: each choice that ends at once empties a band or answers a VERIFY_BAND. -/
def settleFuel (s : State) : Nat :=
  4 * bandCount s + 64

/-- The step's follow-on work is done. -/
def settle (s : State) : State :=
  settleRounds (settleFuel s) s

end Sys2Proof.Machine
end

