-- ==== Sys2Proof/Machine/ChannelSteps.lean ====
section
/-! DEFINITION. Meanings: the channel's messages and the expiries of timers (R2, R82, R94, R105, R106, R108, R118, R119, R135). -/

namespace Sys2Proof.Machine

/-- A temperature report (R118). -/
def takeReport (c : Fin 4) (s : State) : State :=
  { s with
    sched :=
      { s.sched with tempClass := some c, stale := false, staleTimer := some (s.now + Config.stalenessPeriod) } }

/-- The staleness timer expires (R119). -/
def staleExpires (s : State) : State :=
  match s.sched.staleTimer with
  | none => s
  | some t =>
    placeNotice .temperatureStale none
      (advanceTo t { s with sched := { s.sched with stale := true, staleTimer := none } })

/-- The idle timer expires: the idle flag is set, and the choice of R134 is due (R135). -/
def idleExpires (s : State) : State :=
  match s.engine.idleTimer with
  | none => s
  | some t => choiceDue (advanceTo t (updEngine (fun x => { x with idleTimer := none, idleFlag := true }) s))

/-- The delay after a failed geometry record expires: GEOMETRY is pending again (R2). -/
def geometryRetryExpires (s : State) : State :=
  match s.startup.stage with
  | .geometryWait t => setStage .geometry (advanceTo t s)
  | _ => s

/-- The oldest parcel of stream t reaches the age limit, and the stream is offered for arbitration (R94). -/
def ageReached (t : Fin 8) (s : State) : State :=
  match (queueParcels s t).head? with
  | none => s
  | some x => offer (advanceTo (x.acceptedAt + s.startup.image.ageLimit) s)

/-- CHANNEL_COMPLETION (R105). -/
def execChannelCompletion (c : Completion) (s : State) : Host.Outcome State Fault Refusal :=
  .next (settle (takeCompletion c s))

/-- TEMPERATURE_REPORT (R118). -/
def execTemperatureReport (c : Fin 4) (s : State) : Host.Outcome State Fault Refusal :=
  .next (takeReport c s)

/-- CHANNEL_TIMER_EXPIRY (R106). -/
def execChannelTimerExpiry (s : State) : Host.Outcome State Fault Refusal :=
  .next (settle (timerExpires s))

/-- NOT_READY_WAIT_EXPIRY (R108). -/
def execNotReadyWaitExpiry (s : State) : Host.Outcome State Fault Refusal :=
  .next (notReadyExpires s)

/-- STALENESS_TIMER_EXPIRY (R119). -/
def execStalenessTimerExpiry (s : State) : Host.Outcome State Fault Refusal :=
  .next (staleExpires s)

/-- SLOT_WAIT_TIMER_EXPIRY (R82). -/
def execSlotWaitTimerExpiry (p : Port) (s : State) : Host.Outcome State Fault Refusal :=
  .next (slotWaitExpires p s)

/-- IDLE_TIMER_EXPIRY (R135). -/
def execIdleTimerExpiry (s : State) : Host.Outcome State Fault Refusal :=
  .next (settle (idleExpires s))

/-- GEOMETRY_RETRY_EXPIRY (R2). -/
def execGeometryRetryExpiry (s : State) : Host.Outcome State Fault Refusal :=
  .next (settle (geometryRetryExpires s))

/-- PARCEL_AGE_LIMIT_REACHED (R94). -/
def execParcelAgeLimitReached (t : Fin 8) (s : State) : Host.Outcome State Fault Refusal :=
  .next (settle (ageReached t s))

end Sys2Proof.Machine
end

