-- ==== Sys2Proof/Machine/ControlTakes.lean ====
section
/-! DEFINITION. Meanings: the takes of FENCE, ADMIT, HALT, RUN, RESTART, SET, GET, SAVE_SETTINGS, LOAD_DEFAULTS (R157, R161, R168, R169, R172). -/

namespace Sys2Proof.Machine

/-- The custody number after it advances: 65,535 advances to 1 (R160). -/
def nextCustody (n : Nat) : Nat :=
  if n = 65535 then 1 else n + 1

/-- A FENCE or ADMIT from port p is executed: the other port takes the admission state given, the number advances, CUSTODY_CHANGED is placed on both
lists, and the response carries the new number (R161). -/
def changeCustody (p : Port) (x : Admission) (f : RequestFrame) (s : State) : State :=
  let c : CustodyUnit :=
    { number := nextCustody s.custody.number, admission := s.custody.admission.set p.other x }
  answerHead p f .done .none [] (placeNotice .custodyChanged none { s with custody := c })

/-- A GET is answered with the value in force (R157). -/
def getTake (p : Port) (f : RequestFrame) (s : State) : State :=
  answerHead p f .done (.setting f.param.toNat (paramValue s f.param.toNat)) [] s

/-- FENCE (R161). -/
def execFence (p : Port) (s : State) : Host.Outcome State Fault Refusal :=
  .next (takeHead p .fence (fun _ => true) (changeCustody p .fenced) s)

/-- ADMIT (R161). -/
def execAdmit (p : Port) (s : State) : Host.Outcome State Fault Refusal :=
  .next (takeHead p .admitPort (fun _ => true) (changeCustody p .active) s)

/-- HALT (R168). -/
def execHalt (p : Port) (s : State) : Host.Outcome State Fault Refusal :=
  .next (settle (takeHead p .halt (fun _ => true) (haltTake p) s))

/-- RUN (R168). -/
def execRun (p : Port) (s : State) : Host.Outcome State Fault Refusal :=
  .next (settle (takeHead p .run (fun _ => true) (runTake p) s))

/-- RESTART (R169). -/
def execRestart (p : Port) (s : State) : Host.Outcome State Fault Refusal :=
  .next (settle (takeHead p .restart (fun _ => true) (restartTake p) s))

/-- SET (R157). -/
def execSet (p : Port) (s : State) : Host.Outcome State Fault Refusal :=
  .next (settle (takeHead p .set (fun _ => true) (setTake p) s))

/-- GET (R157). -/
def execGet (p : Port) (s : State) : Host.Outcome State Fault Refusal :=
  .next (takeHead p .get (fun _ => true) (getTake p) s)

/-- SAVE_SETTINGS (R172). -/
def execSaveSettings (p : Port) (s : State) : Host.Outcome State Fault Refusal :=
  .next (settle (takeHead p .saveSettings (fun _ => true) (saveTake p) s))

/-- LOAD_DEFAULTS (R172). -/
def execLoadDefaults (p : Port) (s : State) : Host.Outcome State Fault Refusal :=
  .next (settle (takeHead p .loadDefaults (fun _ => true) (loadDefaultsTake p) s))

end Sys2Proof.Machine
end

