-- ==== Sys2Proof/Machine/DataTakes.lean ====
section
/-! DEFINITION. Meanings: the takes of PLACE, FETCH, RELEASE, LOCATE, DRAIN, and of STREAM_SET with either apply (R54, R62, R66, R74, R84, R89, R90). -/

namespace Sys2Proof.Machine

/-! ### STREAM_SET (section 5.2) -/

/-- A STREAM_SET with apply BOUNDARY stores a pending setting (R89). -/
def streamSetBoundary (p : Port) (f : RequestFrame) (s : State) : State :=
  let t := requestStream f
  let replaced := s.alloc.hosts[t].pendingSetting.isSome
  answerHead p f .done (.streamSet replaced) [] (updHost t (fun x => { x with pendingSetting := some (requestSetting f) }) s)

/-- The OPEN band of stream t is finished (R90, R101). -/
def finishStream (t : Fin 8) (s : State) : State :=
  match openBandOf s (.host t) with
  | none => s
  | some b => finishBand b.number s

/-- A STREAM_SET with apply NOW replaces the setting, discards a pending one, and finishes the OPEN band (R90). -/
def streamSetNow (p : Port) (f : RequestFrame) (s : State) : State :=
  let t := requestStream f
  let replaced := s.alloc.hosts[t].pendingSetting.isSome
  let s := updHost t (fun x => { x with setting := requestSetting f, pendingSetting := none }) s
  finishStream t (answerHead p f .done (.streamSet replaced) [] s)

/-! ### Meanings -/

/-- PLACE (R74). -/
def execPlace (p : Port) (s : State) : Host.Outcome State Fault Refusal :=
  .next (settle (takeHead p .place (fun _ => true) (placeTake p) s))

/-- FETCH (R62, R115). -/
def execFetch (p : Port) (s : State) : Host.Outcome State Fault Refusal :=
  .next (settle (takeHead p .fetch (fun _ => true) (fetchTake p) s))

/-- RELEASE (R54). -/
def execRelease (p : Port) (s : State) : Host.Outcome State Fault Refusal :=
  .next (settle (takeHead p .release (fun _ => true) (releaseTake p) s))

/-- LOCATE (R66). -/
def execLocate (p : Port) (s : State) : Host.Outcome State Fault Refusal :=
  .next (takeHead p .locate (fun _ => true) (locateTake p) s)

/-- DRAIN (R84). -/
def execDrain (p : Port) (s : State) : Host.Outcome State Fault Refusal :=
  .next (settle (takeHead p .drain (fun _ => true) (drainTake p) s))

/-- STREAM_SET_BOUNDARY (R89). -/
def execStreamSetBoundary (p : Port) (s : State) : Host.Outcome State Fault Refusal :=
  .next (takeHead p .streamSet (fun f => !applyNow f) (streamSetBoundary p) s)

/-- STREAM_SET_NOW (R90). -/
def execStreamSetNow (p : Port) (s : State) : Host.Outcome State Fault Refusal :=
  .next (settle (takeHead p .streamSet applyNow (streamSetNow p) s))

end Sys2Proof.Machine
end

