-- ==== Sys2Proof/Machine/FollowOn.lean ====
section
/-! DEFINITION. Meanings: the follow-on steps of the table (R36, R64, R83, R84, R116, R134, R149, R168). The rules make each of them within the step that
makes it due; sent by itself, each does what is due and nothing else (assumption 2). -/

namespace Sys2Proof.Machine

/-- HELD_REQUEST_HANDED (R83). -/
def execHeldRequestHanded (s : State) : Host.Outcome State Fault Refusal :=
  .next (settle (handWaiting s))

/-- FETCH_RETAKE (R116). -/
def execFetchRetake (s : State) : Host.Outcome State Fault Refusal :=
  .next (settle (roomReturned s))

/-- VERIFY_BAND_RETAKE (R149). -/
def execVerifyBandRetake (s : State) : Host.Outcome State Fault Refusal :=
  .next (settle (retakeVerify s))

/-- DRAIN_ANSWERED (R84). -/
def execDrainAnswered (s : State) : Host.Outcome State Fault Refusal :=
  .next (answerDrains s)

/-- HALTED_ENTERED (R168). -/
def execHaltedEntered (s : State) : Host.Outcome State Fault Refusal :=
  .next (haltedTest s)

/-- FETCH_RESPONSE (R64). -/
def execFetchResponse (s : State) : Host.Outcome State Fault Refusal :=
  .next (settle (answerEnded s))

/-- HELD_RESET_LAST_PIN (R30, R31, R36). In STARTING no pin holds a reset back: a band that the rebuild has found FILLED has no counts
before R175, and the step changes nothing (R30, R31; assumption 48). -/
def execHeldResetLastPin (b : Nat) (s : State) : Host.Outcome State Fault Refusal :=
  .next (settle (if s.startup.engine = .starting then s else heldReset b s))

/-- CHOOSE_NEXT_WORK (R134). -/
def execChooseNextWork (s : State) : Host.Outcome State Fault Refusal :=
  .next (settle (chooseWork s))

end Sys2Proof.Machine
end

