-- ==== Sys2Proof/Machine/LinkSteps.lean ====
section
/-! DEFINITION. Meanings: POWER_ON, LINK_UP, LINK_DOWN, REQUEST_ARRIVAL, TAKE_UNKNOWN_KIND (R151 to R155, R163, R167). -/

namespace Sys2Proof.Machine

/-! ### Arrival (R152, R153) -/

/-- The data blocks that an inbound store holds (R152). -/
def inboundBlocks (l : Link) : Nat :=
  (l.queue.map fun f => f.data.length).sum

/-- The link can receive a frame: a free position and 1,024 free data blocks (R152). -/
def inboundRoom (l : Link) : Bool :=
  decide (l.queue.length < Config.inboundFrames) &&
    decide (inboundBlocks l + Config.frameBlocks ≤ Config.inboundBlocks)

/-- The frame as the store keeps it: data only with a PLACE that is not oversize (R152). -/
def keptFrame (f : RequestFrame) : RequestFrame :=
  if requestKind f = some .place ∧ oversize f = false then f else { f with data := [] }

/-- A frame is refused at arrival: a response with kind code 0, which ends no outstanding tag (R153, section 11.1). -/
def refuseArrival (p : Port) (f : RequestFrame) (st : Status) (s : State) : State :=
  let l := s.link p
  s.setLink p
    { l with
      sent := l.sent ++
        [{ tag := f.tag, status := st, kind := 0, custody := s.custody.number, body := .none, data := [] }] }

/-- A whole frame arrives on port p: it is refused for its tag or a full queue, or joins the queue (R153). No frame arrives on a link that is DOWN
or has no room (R151, R152). -/
def arrive (p : Port) (f : RequestFrame) (s : State) : State :=
  let l := s.link p
  if l.up && inboundRoom l then
    if f.tag ∈ l.outstanding then refuseArrival p f .tagInUse s
    else if Config.inboundFrames ≤ l.outstanding.length then refuseArrival p f .queueFull s
    else s.setLink p { l with queue := l.queue ++ [keptFrame f], outstanding := l.outstanding ++ [f.tag] }
  else s

/-! ### Link reset (R163) -/

/-- The requester becomes orphaned when it is of port p. -/
def orphan (p : Port) (r : Requester) : Requester :=
  if r.port = p then { r with orphaned := true } else r

/-- The link of port p as a DOWN leaves it: no request, tag or notice (R163). -/
def downLink (l : Link) : Link :=
  { l with up := false, queue := [], holding := false, outstanding := [], notices := [] }

/-- What a DOWN of port p discards at staging: its waiting requests and its DRAIN records (R82, R85). -/
def downStaging (p : Port) (x : Staging) : Staging :=
  { x with
    slotWait := x.slotWait.filter fun w => w.port ≠ p
    noteWait := x.noteWait.filter fun w => w.port ≠ p
    drains := x.drains.filter fun d => d.requester.port ≠ p }

/-- The VERIFY_BAND queue after a DOWN of port p: the head entry is kept, orphaned, and the port's other entries are discarded (R149). -/
def downVerify (p : Port) (l : List VerifyEntry) : List VerifyEntry :=
  match l with
  | [] => []
  | e :: es => { e with requester := orphan p e.requester } :: es.filter fun x => x.requester.port ≠ p

/-- The DOWN of a link reset on port p (R163): then, where the port's FETCH stood at the head of the read wait list, the FETCH behind it is
tested (R116), and a held VERIFY_BAND of the other
port joins the queue where an entry has left it (R149). -/
def linkDown (p : Port) (s : State) : State :=
  if (s.link p).up then
    let waited := decide (s.sched.readWait.head? = some p)
    let s := s.setLink p (downLink (s.link p))
    let s := { s with staging := downStaging p s.staging }
    let s :=
      { s with
        sched :=
          { s.sched with
            readWait := s.sched.readWait.filter fun q => q ≠ p
            fetches := s.sched.fetches.map fun x => { x with requester := orphan p x.requester } } }
    let s :=
      updEngine
        (fun x =>
          { x with verifyQueue := downVerify p x.verifyQueue, verifyHeld := x.verifyHeld.filter fun q => q ≠ p }) s
    let s :=
      updStart
        (fun y =>
          { y with
            haltWaiters := y.haltWaiters.map (orphan p)
            savesQueued := y.savesQueued.map (orphan p)
            savesInFlight := y.savesInFlight.map (orphan p) }) s
    retakeVerify (if waited then roomReturned s else s)
  else s

/-- The link of port p goes UP (R151). -/
def linkUp (p : Port) (s : State) : State :=
  s.setLink p { s.link p with up := true }

/-- The head request of port p has a kind code that is not listed: UNKNOWN_KIND (check 1 of R155). -/
def takeUnknown (p : Port) (s : State) : State :=
  match headRequest p s with
  | none => s
  | some f => if requestKind f = none then refuseHead p f .unknownKind s else s

/-! ### Meanings -/

/-- POWER_ON: every block takes its power-on value, and the start-up sequence begins with GEOMETRY (R167). -/
def execPowerOn (s : State) : Host.Outcome State Fault Refusal :=
  .next (settle (offer { State.reset with pending := s.pending, freeCount := s.freeCount }))

/-- LINK_UP (R151, R165). -/
def execLinkUp (p : Port) (s : State) : Host.Outcome State Fault Refusal :=
  .next (linkUp p s)

/-- LINK_DOWN (R151, R163). -/
def execLinkDown (p : Port) (s : State) : Host.Outcome State Fault Refusal :=
  .next (settle (linkDown p s))

/-- REQUEST_ARRIVAL (R153). -/
def execRequestArrival (p : Port) (f : RequestFrame) (s : State) : Host.Outcome State Fault Refusal :=
  .next (arrive p f s)

/-- TAKE_UNKNOWN_KIND (R155). -/
def execTakeUnknownKind (p : Port) (s : State) : Host.Outcome State Fault Refusal :=
  .next (takeUnknown p s)

end Sys2Proof.Machine
end

