-- ==== Sys2Proof/Machine/QueryTakes.lean ====
section
/-! DEFINITION. Meanings: the takes of STATUS, BAND_QUERY, VERIFY_BAND, NOTICE_FETCH (R149, R158, R159, R166). -/

namespace Sys2Proof.Machine

/-- A STATUS is answered (R158). -/
def statusTake (p : Port) (f : RequestFrame) (s : State) : State :=
  answerHead p f .done (.status (statusReport p s)) [] s

/-- A BAND_QUERY is answered with the band's record, its dead count and its due list position (R159). -/
def bandQueryTake (p : Port) (f : RequestFrame) (s : State) : State :=
  match band? s f.band.toNat with
  | none => s
  | some b => answerHead p f .done (.bandQuery b b.dead (duePosition f.band.toNat s)) [] s

/-- A VERIFY_BAND joins the queue, or is held while the queue is full (R149). -/
def verifyTake (p : Port) (f : RequestFrame) (s : State) : State :=
  if s.engine.verifyQueue.length < Config.verifyEntries then
    choiceDue
      (popRequest p
        (updEngine
          (fun x => { x with verifyQueue := x.verifyQueue ++ [{ requester := requesterOf p f, band := f.band.toNat }] }) s))
  else holdRequest p (updEngine (fun x => { x with verifyHeld := x.verifyHeld ++ [p] }) s)

/-- A NOTICE_FETCH takes every record of the port's list (R166). -/
def noticeTake (p : Port) (f : RequestFrame) (s : State) : State :=
  let l := s.link p
  answerHead p f .done (.notices l.notices) [] (s.setLink p { l with notices := [] })

/-- STATUS (R158). -/
def execStatus (p : Port) (s : State) : Host.Outcome State Fault Refusal :=
  .next (takeHead p .status (fun _ => true) (statusTake p) s)

/-- BAND_QUERY (R159). -/
def execBandQuery (p : Port) (s : State) : Host.Outcome State Fault Refusal :=
  .next (takeHead p .bandQuery (fun _ => true) (bandQueryTake p) s)

/-- VERIFY_BAND (R149). -/
def execVerifyBand (p : Port) (s : State) : Host.Outcome State Fault Refusal :=
  .next (settle (takeHead p .verifyBand (fun _ => true) (verifyTake p) s))

/-- NOTICE_FETCH (R166). -/
def execNoticeFetch (p : Port) (s : State) : Host.Outcome State Fault Refusal :=
  .next (takeHead p .noticeFetch (fun _ => true) (noticeTake p) s)

end Sys2Proof.Machine
end

