-- ==== Sys2Proof/Machine/Dispatch.lean ====
section
/-! DEFINITION. The meaning of every command: one arm for each constructor of Instr. -/

namespace Sys2Proof.Machine

/-- The effect of a command on everything but the command queue. -/
def exec (i : Instr) (s : State) : Host.Outcome State Fault Refusal :=
  match i with
  | .powerOn => Sys2Proof.Machine.execPowerOn s
  | .linkUp p => Sys2Proof.Machine.execLinkUp p s
  | .linkDown p => Sys2Proof.Machine.execLinkDown p s
  | .requestArrival p f => Sys2Proof.Machine.execRequestArrival p f s
  | .takeUnknownKind p => Sys2Proof.Machine.execTakeUnknownKind p s
  | .place p => Sys2Proof.Machine.execPlace p s
  | .fetch p => Sys2Proof.Machine.execFetch p s
  | .release p => Sys2Proof.Machine.execRelease p s
  | .locate p => Sys2Proof.Machine.execLocate p s
  | .drain p => Sys2Proof.Machine.execDrain p s
  | .streamSetBoundary p => Sys2Proof.Machine.execStreamSetBoundary p s
  | .streamSetNow p => Sys2Proof.Machine.execStreamSetNow p s
  | .fence p => Sys2Proof.Machine.execFence p s
  | .admitPort p => Sys2Proof.Machine.execAdmit p s
  | .halt p => Sys2Proof.Machine.execHalt p s
  | .run p => Sys2Proof.Machine.execRun p s
  | .restart p => Sys2Proof.Machine.execRestart p s
  | .set p => Sys2Proof.Machine.execSet p s
  | .get p => Sys2Proof.Machine.execGet p s
  | .saveSettings p => Sys2Proof.Machine.execSaveSettings p s
  | .loadDefaults p => Sys2Proof.Machine.execLoadDefaults p s
  | .status p => Sys2Proof.Machine.execStatus p s
  | .bandQuery p => Sys2Proof.Machine.execBandQuery p s
  | .verifyBand p => Sys2Proof.Machine.execVerifyBand p s
  | .noticeFetch p => Sys2Proof.Machine.execNoticeFetch p s
  | .channelCompletion c => Sys2Proof.Machine.execChannelCompletion c s
  | .temperatureReport c => Sys2Proof.Machine.execTemperatureReport c s
  | .channelTimerExpiry => Sys2Proof.Machine.execChannelTimerExpiry s
  | .notReadyWaitExpiry => Sys2Proof.Machine.execNotReadyWaitExpiry s
  | .stalenessTimerExpiry => Sys2Proof.Machine.execStalenessTimerExpiry s
  | .slotWaitTimerExpiry p => Sys2Proof.Machine.execSlotWaitTimerExpiry p s
  | .idleTimerExpiry => Sys2Proof.Machine.execIdleTimerExpiry s
  | .geometryRetryExpiry => Sys2Proof.Machine.execGeometryRetryExpiry s
  | .heldRequestHanded => Sys2Proof.Machine.execHeldRequestHanded s
  | .fetchRetake => Sys2Proof.Machine.execFetchRetake s
  | .verifyBandRetake => Sys2Proof.Machine.execVerifyBandRetake s
  | .drainAnswered => Sys2Proof.Machine.execDrainAnswered s
  | .haltedEntered => Sys2Proof.Machine.execHaltedEntered s
  | .fetchResponse => Sys2Proof.Machine.execFetchResponse s
  | .heldResetLastPin b => Sys2Proof.Machine.execHeldResetLastPin b s
  | .chooseNextWork => Sys2Proof.Machine.execChooseNextWork s
  | .parcelAgeLimitReached t => Sys2Proof.Machine.execParcelAgeLimitReached t s

end Sys2Proof.Machine
end

