-- ==== Sys2Proof/Machine/Step.lean ====
section
/-! DEFINITION. One step of the part: the command at the front of the queue is taken, or, on an empty queue, a millisecond passes. -/

namespace Sys2Proof.Machine

/-- One step: the command at the front of the queue is executed with the rest of the queue; on an empty queue the part idles and 1 ms passes
(assumption 3). -/
def step (s : State) : Host.Outcome State Fault Refusal :=
  match s.pending with
  | [] => .next { s with now := s.now + 1 }
  | c :: rest => exec c { s with pending := rest }

/-- The state with the command that a word spells at the front of its queue. No row of the table gives bits, so no word spells a command and the state is
unchanged (assumption 13). -/
def State.withFetchWord (s : State) (nbits w : Nat) : State :=
  match Sys2Proof.decodeTableWord nbits w with
  | none => s
  | some c => { s with pending := c :: s.pending }

end Sys2Proof.Machine
end

