-- ==== Sys2Proof/Machine/Layout.lean ====
section
/-! DEFINITION. The byte layouts of chapter 11: request frame headers, trailers, response frames, notice records and the code tables.
Multi-byte fields are stored least significant byte first. -/

namespace Sys2Proof.Machine

/-! ### Request frame headers and trailers -/

/-- The 40 header bytes of a request frame, byte i in bits 8 i to 8 i + 7; the bytes shown as zero are zero (section 11.1). -/
def encodeHeader (f : RequestFrame) : BitVec 320 :=
  f.value ++ 0#16 ++ f.param ++ f.length ++ f.lbn ++ f.band ++ f.apply ++ f.coldPlacement ++ f.zoneOrder ++ f.stream ++
    f.dataCount ++ f.custody ++ 0#8 ++ f.kind ++ f.tag

/-- The request frame that 40 header bytes and the data blocks after them make; the bytes shown as zero are not examined (R176). -/
def decodeHeader (w : BitVec 320) (data : List Block) : RequestFrame where
  tag := w.extractLsb' 0 16
  kind := w.extractLsb' 16 8
  custody := w.extractLsb' 32 16
  dataCount := w.extractLsb' 48 16
  stream := w.extractLsb' 64 8
  zoneOrder := w.extractLsb' 72 8
  coldPlacement := w.extractLsb' 80 8
  apply := w.extractLsb' 88 8
  band := w.extractLsb' 96 32
  lbn := w.extractLsb' 128 64
  length := w.extractLsb' 192 32
  param := w.extractLsb' 224 16
  value := w.extractLsb' 256 64
  data := data

/-- The 32 bytes of a trailer (R177). -/
def encodeTrailer (t : Trailer) : BitVec 256 :=
  0#32 ++ t.chain ++ 0#16 ++ t.sequence ++ t.logical ++ t.band ++ t.stamp ++ 0#8 ++ t.kind

/-- The trailer that 32 bytes hold; the bytes shown as zero are not examined (R176, R177). -/
def decodeTrailer (w : BitVec 256) : Trailer where
  kind := w.extractLsb' 0 8
  stamp := w.extractLsb' 16 16
  band := w.extractLsb' 32 32
  logical := w.extractLsb' 64 64
  sequence := w.extractLsb' 128 48
  chain := w.extractLsb' 192 32

/-! ### Code tables -/

/-- The status codes of section 11.1. -/
def Status.code : Status → Nat
  | .done => 0
  | .partially => 1
  | .clamped => 2
  | .ignored => 3
  | .unknownKind => 4
  | .badRange => 5
  | .tooLong => 6
  | .tagInUse => 7
  | .queueFull => 8
  | .notRunning => 9
  | .notQuiesced => 10
  | .fenced => 11
  | .staleCustody => 12
  | .mapFull => 13
  | .conflict => 14
  | .noSlot => 15

/-- The notice kind codes of section 11.1. -/
def NoticeKind.code : NoticeKind → Nat
  | .bandDue => 1
  | .neglected => 2
  | .breakFound => 3
  | .blocksLost => 4
  | .retired => 5
  | .mapFull => 6
  | .freeLow => 7
  | .temperatureStale => 8
  | .custodyChanged => 9
  | .settingsDefaulted => 10
  | .geometryClamped => 11
  | .rebuildAnomaly => 12
  | .rebuildDone => 13
  | .several => 14

/-- The band state codes of BAND_QUERY. -/
def BandState.code : BandState → Nat
  | .empty => 0
  | .opened => 1
  | .closing => 2
  | .filled => 3
  | .draining => 4
  | .retired => 5

/-- A set of due causes as its sum of codes. -/
def Causes.code (x : Causes) : Nat :=
  (if x.exposure then 1 else 0) + (if x.brk then 2 else 0) + (if x.media then 4 else 0) + (if x.retire then 8 else 0)

/-- The exception reason codes of FETCH. -/
def Reason.code : Reason → Nat
  | .mediaError => 1
  | .mismatch => 2
  | .lost => 3

/-- A flag as 0 or 1. -/
def flagCode (b : Bool) : Nat :=
  if b then 1 else 0

/-- The number of an enumeration's value that chapter 11 does not code: a free value (assumption 8). -/
def openCode (enumeration value : Nat) : Nat :=
  (Config.enumCode enumeration value).toNat

/-! ### Fields as bytes -/

/-- A field: its width in bytes and its value. -/
abbrev Field := Nat × Nat

/-- The n bytes of a value, least significant first. -/
def leBytes : Nat → Nat → List Byte
  | 0, _ => []
  | n + 1, v => BitVec.ofNat 8 v :: leBytes n (v / 256)

/-- The bytes of a list of fields. -/
def fieldBytes (l : List Field) : List Byte :=
  l.flatMap fun x => leBytes x.1 x.2

/-- An optional field: every bit set when it is absent (chapter 11). -/
def optField (width : Nat) (x : Option Nat) : Field :=
  (width, x.getD (256 ^ width - 1))

/-- The 8-byte fields of STATUS and BAND_QUERY. -/
def wordFields (l : List Nat) : List Field :=
  l.map fun v => (8, v)

/-- An optional value in an 8-byte field. -/
def optWord (x : Option Nat) : Nat :=
  x.getD (2 ^ 64 - 1)

/-- A notice record's fields (section 11.1). -/
def noticeFields (n : Notice) : List Field :=
  [(1, n.kind.code), (1, 0), (2, n.count), optField 4 n.band]

/-- A LOCATE descriptor's fields (section 11.1). -/
def descriptorFields (d : Descriptor) : List Field :=
  match d.loc with
  | .media b o => [(8, d.start), (4, d.len), (1, 1), (3, 0), (4, b), (4, o)]
  | .staged p i => [(8, d.start), (4, d.len), (1, 2), (3, 0), (4, p), (4, i)]
  | .lost => [(8, d.start), (4, d.len), (1, 3), (3, 0), optField 4 none, optField 4 none]

/-- The number that names an owning stream: a host stream's own number, and 8 for the relocation stream (assumption 8). -/
def StreamId.code : StreamId → Nat
  | .host t => t.val
  | .relocation => 8

/-- The band record's fields in the order of R20's table, then dead and the due list position (section 11.1). -/
def bandWords (b : Band) (dead : Nat) (position : Option Nat) : List Nat :=
  [b.number, b.zone, b.state.code, b.stamp, b.wp, b.live, b.notes, dead, optWord (b.chain.map BitVec.toNat),
    optWord b.openSeq, optWord b.minSeq, b.exposure, b.causes.code, flagCode b.neglected, optWord b.breakOffset,
    flagCode b.summaryPresent, b.pins, optWord (b.owner.map StreamId.code), dead, position.getD 0]

/-- The number of an engine state (assumption 8). -/
def engineCode : EngineState → Nat
  | .starting => openCode 0 0
  | .running => openCode 0 1
  | .halting => openCode 0 2
  | .halted => openCode 0 3

/-- The number of an admission state (assumption 8). -/
def admissionCode : Admission → Nat
  | .active => openCode 1 0
  | .fenced => openCode 1 1

/-- The number of a link state (assumption 8). -/
def linkCode (up : Bool) : Nat :=
  openCode 2 (flagCode up)

/-- The number of an operation kind (assumption 8). -/
def opCode : OpKind → Nat
  | .writeRun => openCode 3 0
  | .readRun => openCode 3 1
  | .summary => openCode 3 2
  | .systemRead => openCode 3 3
  | .systemWrite => openCode 3 4
  | .geometry => openCode 3 5

/-- The number of a relocation activity (assumption 8). -/
def activityCode : Activity → Nat
  | .idle => openCode 4 0
  | .drain => openCode 4 1
  | .patrol => openCode 4 2
  | .verify => openCode 4 3

/-- The number of a victim reason (assumption 8). -/
def victimCode : VictimReason → Nat
  | .due => openCode 5 0
  | .cleaning => openCode 5 1
  | .pullIn => openCode 5 2

/-- What STATUS reports for one stream, as words. -/
def streamWords (x : StreamReport) : List Nat :=
  [optWord x.openBand, optWord (x.bandState.map BandState.code), optWord x.queued]

/-- The values of STATUS in the order of R158's table; a value of each port is port A's and then port B's (assumption 39), and the three
values of one stream stand together, stream by stream (assumption 42). -/
def statusWords (r : StatusReport) : List Nat :=
  [engineCode r.engine, r.zoneCount, r.bandsRebuilt, r.custody, admissionCode r.admission.a, admissionCode r.admission.b,
    linkCode r.linkUp.a, linkCode r.linkUp.b, r.outstanding.a, r.outstanding.b, r.notices, r.freeBands, r.dueLength,
    r.recordsInUse, r.recordsFree, r.parcels, r.freeSlots, r.freeNotes, r.slotWait, r.noteWait, r.drains, r.seqCounter] ++
  r.streams.flatMap streamWords ++
  [optWord (r.current.map opCode), r.readEntries, r.readBufferFree, r.readWait, optWord (r.tempClass.map Fin.val),
    r.classInForce.val, flagCode r.stale, activityCode r.activity, optWord r.victim, optWord (r.reason.map victimCode),
    optWord r.victimNext, r.copiesHeld, r.patrolPointer, r.verifyLength, optWord r.lowWater]

/-- The outcome codes of VERIFY_BAND. -/
def VerifyOutcome.code : VerifyOutcome → Nat
  | .scanned => 0
  | .cutShort => 1
  | .notScanned => 2

/-- The field area of a response, by its kind, in the order section 11.1 lists. -/
def bodyFields : Body → List Field
  | .none => []
  | .place q n => [(6, q), (2, n)]
  | .fetch n o r u resume =>
    [(2, n), optField 2 o, (2, u), optField 1 (r.map Reason.code), (1, 0), optField 8 resume]
  | .release q resume => [optField 6 q, (2, 0), optField 8 resume]
  | .locate ds resume => [(1, ds.length), (7, 0), optField 8 resume] ++ ds.flatMap descriptorFields
  | .streamSet r => [(1, flagCode r)]
  | .setting i v => [(2, i), (6, 0), (8, v)]
  | .save written => [(1, flagCode (!written))]
  | .status r => wordFields (statusWords r)
  | .bandQuery b dead position => wordFields (bandWords b dead position)
  | .verify o stamp brk n => [(1, o.code), (1, 0), (2, stamp), optField 4 brk, (4, n)]
  | .notices l => [(1, l.length), (7, 0)] ++ l.flatMap noticeFields

/-- The field length of a response, in bytes. -/
def bodyLength (b : Body) : Nat :=
  ((bodyFields b).map fun x => x.1).sum

/-- The bytes of a response frame up to its data blocks: the 16 header bytes and the field area (section 11.1). -/
def responseBytes (r : Response) : List Byte :=
  fieldBytes
    ([(2, r.tag.toNat), (1, r.status.code), (1, r.kind.toNat), (2, r.custody), (2, r.data.length), (2, bodyLength r.body),
        (6, 0)] ++ bodyFields r.body)

end Sys2Proof.Machine
end

