-- ==== Sys2Proof/Safety.lean ====
section
/-! DEFINITION. What the laws of the part say of a state, in the terms that statements use: the custody law (R160), the notice law (R164), the
canonical form of the slot pool (R67) and the order of the map (R46). -/

namespace Sys2Proof.Safety

open Sys2Proof.Machine

/-- The custody law of R160: the number is 1 to 65,535, and at most one port is FENCED. -/
def CustodyLaw (s : State) : Prop :=
  1 ≤ s.custody.number ∧ s.custody.number ≤ 65535 ∧
    ¬(s.custody.admission.a = .fenced ∧ s.custody.admission.b = .fenced)

/-- The notice law of R164: neither list holds more than 16 records. -/
def NoticeLaw (s : State) : Prop :=
  s.links.a.notices.length ≤ Config.noticeRecords ∧ s.links.b.notices.length ≤ Config.noticeRecords

/-- The slot pool stands in its canonical form: block numbers strictly rising, no zero block listed. -/
def PoolLaw (s : State) : Prop :=
  poolWf s.staging.pool = true

/-- A step stops: it ends in a fault or a refusal. -/
def Stops (o : Host.Outcome State Fault Refusal) : Prop :=
  match o with
  | .next _ => False
  | .fault _ => True
  | .refused _ => True

/-- The block pool reads: the block at pool block number a, a block not listed reading as zeros. -/
abbrev poolBlock (s : State) (a : Nat) : Block :=
  poolRead s.staging.pool a

/-- Every value of the settings image lies within its range, the critical mark below the low mark (R43, R178). -/
def SettingsLaw (s : State) : Prop :=
  s.startup.image.inRange = true

/-- The order law of R46: the map's records are ascending, at least one block long, without overlap, and no two adjacent records are
mergeable. -/
def MapLaw (s : State) : Prop :=
  mapOrdered s.map.records = true

/-- The copies that the rebuild has found stand in ascending LBN, one for each (R174). -/
def WinnersLaw (s : State) : Prop :=
  s.startup.found.winners.Pairwise fun x y => x.lbn < y.lbn

/-! ### What a change of the map takes away -/

/-- The number of blocks that the records place in parcel q (R72). -/
def stagedBlocks (m : List Extent) (q : Nat) : Nat :=
  (m.map fun r => match r.loc with | .staged q' _ => if q' = q then r.len else 0 | _ => 0).sum

/-- A band record that loses m blocks: live falls by m, and a FILLED band then without live blocks, notes and pins is retired when
RETIRE is among its causes and otherwise reset (R27, R31 to R33, R53). -/
def bandLess (r : Band) (m : Nat) : Band :=
  let x := { r with live := r.live - m }
  if x.state = .filled ∧ x.live = 0 ∧ x.notes = 0 ∧ x.pins = 0 then
    if x.causes.retire then x.retireRecord else x.resetRecord
  else x

/-- A parcel record that loses m blocks: live falls by m, and a DATA parcel then without live blocks, of which nothing is written or in
flight, is dropped (R53, R72, R77). -/
def parcelLess (x : Parcel) (m : Nat) : Option Parcel :=
  if x.kind = .data ∧ x.state = .queued ∧ x.written = 0 ∧ x.live - m = 0 then none else some { x with live := x.live - m }

/-! ### A crossing of the exposure threshold -/

/-- The crossing of band n, of record r, raises EXPOSURE: its cold group is not masked and the cause is new (R126). -/
def raisesExposure (s : State) (n : Nat) (r : Band) : Bool :=
  !coldMasked s n && !r.causes.exposure

/-- … and the band joins the due list: it is OPEN, CLOSING or FILLED and not on the list (R37, R38, R127). -/
def joinsDue (s : State) (n : Nat) (r : Band) : Bool :=
  raisesExposure s n r && (r.state == .opened || r.state == .closing || r.state == .filled) && !decide (n ∈ s.table.due)

/-- … and the OPEN band is finished at once: no write run on it is in flight (R101, R127). -/
def closesAtOnce (s : State) (n : Nat) (r : Band) : Bool :=
  raisesExposure s n r && r.state == .opened && !writeInFlight n s

/-- … or the OPEN band is to be finished when the write run on it ends: its stream is marked (R101, R127). -/
def finishesLater (s : State) (n : Nat) (r : Band) : Bool :=
  raisesExposure s n r && r.state == .opened && writeInFlight n s

/-- The record after the crossing: neglected in a masked cold group, and otherwise with EXPOSURE, CLOSING when it is finished at
once (R41, R126, R127). -/
def crossedRecord (s : State) (n : Nat) (r : Band) : Band :=
  if coldMasked s n then { r with neglected := true }
  else { r with causes := { r.causes with exposure := true }, state := if closesAtOnce s n r then .closing else r.state }

/-- A notice list after the crossing: NEGLECTED when the flag becomes set, BAND_DUE when the band joins the due list (R37, R41). -/
def crossedNotices (s : State) (n : Nat) (r : Band) (l : List Notice) : List Notice :=
  if coldMasked s n then if r.neglected then l else takeNotice .neglected (some n) l
  else if joinsDue s n r then takeNotice .bandDue (some n) l else l

/-! ### Takes and their answers -/

/-- The head request f of port p, whose link is UP, is of kind k and passes checks 2 to 7 of its take (R154, R155). -/
abbrev Takes (s : State) (p : Port) (k : Kind) (f : RequestFrame) : Prop :=
  (s.link p).up = true ∧ headRequest p s = some f ∧ requestKind f = some k ∧ takeCheck s p k f = none

/-- The response to the request f that s produces: it carries the custody number standing in s (R150). -/
def reply (s : State) (f : RequestFrame) (st : Status) (b : Body) (data : List Block) : Response :=
  { tag := f.tag, status := st, kind := f.kind, custody := s.custody.number, body := b, data := data }

/-- The response to a request taken earlier, from who waits for it (R150). -/
def lateReply (s : State) (r : Requester) (st : Status) (b : Body) (data : List Block) : Response :=
  { tag := r.tag, status := st, kind := r.kind, custody := s.custody.number, body := b, data := data }

/-- The link after its head request has been taken and waits (R154). -/
def taken (l : Link) : Link :=
  { l with queue := l.queue.tail, holding := false }

/-- The link after its head request has been held at the head (R154). -/
def heldAtHead (l : Link) : Link :=
  { l with holding := true }

/-- The link after its head request has been answered with r: the request has left the queue and the store, its tag is no longer
outstanding, and the response is sent (R152, R153). -/
def answered (l : Link) (r : Response) : Link :=
  { l with queue := l.queue.tail, holding := false, outstanding := l.outstanding.erase r.tag, sent := l.sent ++ [r] }

/-- The link after a request taken earlier has been answered with r. -/
def answeredLate (l : Link) (r : Response) : Link :=
  { l with outstanding := l.outstanding.erase r.tag, sent := l.sent ++ [r] }

/-- The command that takes a request f of kind k at the head of port p. -/
def takeCommand (p : Port) (f : RequestFrame) : Kind → Instr
  | .place => .place p
  | .fetch => .fetch p
  | .release => .release p
  | .locate => .locate p
  | .drain => .drain p
  | .streamSet => if applyNow f then .streamSetNow p else .streamSetBoundary p
  | .fence => .fence p
  | .admitPort => .admitPort p
  | .halt => .halt p
  | .run => .run p
  | .restart => .restart p
  | .set => .set p
  | .get => .get p
  | .saveSettings => .saveSettings p
  | .loadDefaults => .loadDefaults p
  | .status => .status p
  | .bandQuery => .bandQuery p
  | .verifyBand => .verifyBand p
  | .noticeFetch => .noticeFetch p

/-! ### Work that a step still owes -/

/-- No follow-on work is due: the agenda is empty, and no entry to HALTED is due (assumption 2). Every step ends so, unless its rounds run
out. -/
abbrev Settled (s : State) : Prop :=
  s.agenda = { freed := [], offered := false, choice := false } ∧ ¬(s.startup.engine = .halting ∧ quiescent s = true)

/-- The current operation with its issue awaited, as R105 takes completions for it. -/
abbrev Awaits (s : State) (op : Operation) : Prop :=
  s.sched.current = some op ∧ op.awaiting = true

/-- The completion c of the awaited issue of a WRITE_RUN or SUMMARY ends the operation, under the retry limit given, with k more sectors
completed and success or failure `ok` (R103, R107, R109). Success is a COMPLETE of the whole issue, or what assumption 10 takes as one.
Failure is WRITE_FAULT, or UNREADABLE taken so, and, with the retries spent, OFF_TRACK, a COMPLETE of too few sectors, or any completion of
more sectors than the issue has. -/
abbrev EndsWrite (op : Operation) (limit : Nat) (c : Completion) (k : Nat) (ok : Bool) : Prop :=
  if ok then
    k = op.count - op.issuedFrom ∧ c.k = op.count - op.issuedFrom ∧
      (c.outcome = .complete ∨ c.outcome = .notReady ∨ c.outcome = .offTrack ∧ op.retries < limit)
  else
    (k = c.k ∧ c.k ≤ op.count - op.issuedFrom ∧
      (c.outcome = .writeFault ∨ c.outcome = .unreadable ∨
        limit ≤ op.retries ∧ (c.outcome = .offTrack ∨ c.outcome = .complete ∧ c.k < op.count - op.issuedFrom))) ∨
    (k = 0 ∧ op.count - op.issuedFrom < c.k ∧ limit ≤ op.retries)

/-- The scheduler after an issue or reissue of op from its completed count (R104, R106, R107). -/
def issued (s : State) (op : Operation) : Scheduler :=
  { s.sched with
    current := some { op with issue := s.sched.nextIssue, issuedFrom := op.completed, awaiting := true, wait := none }
    nextIssue := s.sched.nextIssue + 1
    channelTimer := some (s.now + 30000)
    sent := s.sched.sent ++ [opMessage s.sched.nextIssue op] }

/-- The engine record when an operation is issued: the idle timer is stopped and the idle flag cleared (R135). -/
def busyEngine (s : State) : Engine :=
  { s.engine with idleTimer := none, idleFlag := false }

end Sys2Proof.Safety
end

