-- ==== Sys2Proof/Certificates/Slice0/Obligations.lean ====
section
/-! DEFINITION. The statements for the provers. -/

open Sys2Proof Sys2Proof.Machine Sys2Proof.Safety

/-! ### The step, power-on and the links -/

/-- A step takes the command at the front of the queue: it is exec of that command with the rest of the queue. On an empty queue the part
idles and 1 ms passes. That is the model's choice (assumption 3). -/
def Obligations.StepRunsFrontCommand : Prop :=
  (∀ (c : Instr) (rest : List Instr) (s : State),
     step { s with pending := c :: rest } = exec c { s with pending := rest }) ∧
  (∀ s : State, s.pending = [] → step s = .next { s with now := s.now + 1 })

/-- POWER_ON leaves every block at its power-on value, in STARTING, with GEOMETRY in flight as issue 0 under the channel timer (R104, R106,
R112, R167, the table after R175). Time, N_log and the number of the next FETCH start at 0, the slot pool reads as zeros, the lists of what
has been sent are empty, and the command queue and the free-value counter are kept: the model's choices (assumptions 3, 4, 5, 6, 7 and 28).
-/
def Obligations.PowerOnStartsGeometry : Prop :=
  ∀ s : State,
    exec .powerOn s =
      .next
        { State.reset with
          pending := s.pending
          freeCount := s.freeCount
          sched :=
            { Scheduler.reset with
              current :=
                some
                  { kind := .geometry, owner := .startUp, band := 0, zone := default, first := 0, count := 1, issue := 0, completed := 0
                    retries := 0, issuedFrom := 0, awaiting := true, wait := none, items := [], sectors := [] }
              nextIssue := 1
              channelTimer := some 30000
              sent :=
                [{ issue := 0, kind := .geometry, track := none, sector := none, count := none, spt := none, sectors := [] }] } }

/-- The values that the spec gives the blocks at power-on: the table after R175 and the rules it cites. The laws that every step keeps hold
there. -/
def Obligations.ResetHoldsPowerOnValues : Prop :=
  (State.reset.startup.engine = .starting ∧ State.reset.startup.image = Settings.default ∧
   State.reset.custody = { number := 1, admission := { a := .active, b := .active } } ∧
   (∀ p, (State.reset.link p).up = false ∧ (State.reset.link p).queue = [] ∧ (State.reset.link p).notices = [] ∧
     (State.reset.link p).outstanding = [] ∧ attention State.reset p = false) ∧
   State.reset.staging.freeSlots = List.range 128 ∧ State.reset.staging.freeNotes = List.range 64 ∧
   State.reset.staging.parcels = [] ∧ State.reset.staging.seqCounter = 1 ∧ State.reset.staging.slotWait = [] ∧
   State.reset.staging.noteWait = [] ∧ State.reset.staging.drains = [] ∧
   State.reset.map = { records := [], held := false } ∧ State.reset.table.bands = [] ∧ State.reset.table.zones = [] ∧
   (∀ i, (stream State.reset i).openBand = none ∧ (stream State.reset i).pendingSetting = none ∧
     (stream State.reset i).setting = { order := .outer, cold := false }) ∧
   State.reset.sched.current = none ∧ State.reset.sched.nextIssue = 0 ∧ State.reset.sched.readQueue = [] ∧
   State.reset.sched.readWait = [] ∧ State.reset.sched.summaries = [] ∧ State.reset.sched.pointer = 7 ∧
   State.reset.sched.tempClass = none ∧ State.reset.sched.stale = false ∧ State.reset.sched.staleTimer = some 4000 ∧
   classInForce State.reset = 3 ∧ readBufferFree State.reset = 2048 ∧
   State.reset.engine.activity = .idle ∧ State.reset.engine.victim = none ∧ State.reset.engine.patrolPointer = 0 ∧
   State.reset.engine.idleTimer = none ∧ State.reset.engine.idleFlag = false ∧ State.reset.engine.recoveryWait = false ∧
   State.reset.engine.verifyQueue = [] ∧ State.reset.pending = []) ∧
  (CustodyLaw State.reset ∧ NoticeLaw State.reset ∧ PoolLaw State.reset ∧ SettingsLaw State.reset ∧ MapLaw State.reset ∧
     WinnersLaw State.reset)

/-- LINK_UP brings the link UP and changes nothing else; the attention line is then high exactly when notices wait (R151, R165). LINK_DOWN
of an UP link: its queue, held request, tags and notices are gone and its attention line is low; its waits, DRAIN records and VERIFY_BAND
entries behind the head are discarded; requests already taken become orphans; the rest is kept (R163, R82, R85, R116, R149; assumption 27).
A FETCH or VERIFY_BAND that the other port holds may then be taken, which the first clause leaves room for and the second rules out. -/
def Obligations.LinksGoUpAndDown : Prop :=
  (∀ (s : State) (p : Port),
     exec (.linkUp p) s = .next (s.setLink p { s.link p with up := true }) ∧
     attention (s.setLink p { s.link p with up := true }) p = !(s.link p).notices.isEmpty) ∧
  (∀ (s : State) (p : Port), (s.link p).up = true →
     ∃ u, exec (.linkDown p) s = .next (settle u) ∧
       u.link p =
         { up := false, queue := [], holding := false, outstanding := [], notices := [], sent := (s.link p).sent } ∧
       attention u p = false ∧
       u.staging =
         { s.staging with
           slotWait := s.staging.slotWait.filter fun w => w.port ≠ p
           noteWait := s.staging.noteWait.filter fun w => w.port ≠ p
           drains := s.staging.drains.filter fun d => d.requester.port ≠ p } ∧
       u.custody = s.custody ∧ u.map = s.map ∧ u.alloc = s.alloc ∧ u.now = s.now ∧ u.pending = s.pending ∧
       (s.sched.readWait = [] → s.engine.verifyHeld = [] →
         u =
           { s with
             links := s.links.set p
               { up := false, queue := [], holding := false, outstanding := [], notices := [], sent := (s.link p).sent }
             staging := u.staging
             sched := { s.sched with fetches := s.sched.fetches.map fun x => { x with requester := orphan p x.requester } }
             engine :=
               { s.engine with
                 verifyQueue :=
                   match s.engine.verifyQueue with
                   | [] => []
                   | e :: es => { e with requester := orphan p e.requester } :: es.filter fun x => x.requester.port ≠ p }
             startup :=
               { s.startup with
                 haltWaiters := s.startup.haltWaiters.map (orphan p)
                 savesQueued := s.startup.savesQueued.map (orphan p)
                 savesInFlight := s.startup.savesInFlight.map (orphan p) } }))

/-- A frame arrives on an UP link whose store has a free position and 1,024 free blocks: refused TAG_IN_USE for an outstanding tag, else
QUEUE_FULL at 32 outstanding tags, else it joins the tail of the queue, its tag outstanding; only a PLACE that is not oversize keeps its
data. Nothing else changes (R152, R153). -/
def Obligations.ArrivalJoinsQueueOrIsRefused : Prop :=
  ∀ (s : State) (p : Port) (f : RequestFrame),
    (s.link p).up = true → (s.link p).queue.length < 32 →
    ((s.link p).queue.map fun g => g.data.length).sum + 1024 ≤ 2048 →
    exec (.requestArrival p f) s =
      .next (s.setLink p
        (if f.tag ∈ (s.link p).outstanding then
          { s.link p with sent := (s.link p).sent ++ [{ reply s f .tagInUse .none [] with kind := 0 }] }
        else if 32 ≤ (s.link p).outstanding.length then
          { s.link p with sent := (s.link p).sent ++ [{ reply s f .queueFull .none [] with kind := 0 }] }
        else
          { s.link p with
            queue :=
              (s.link p).queue ++
                [if f.kind = 1 ∧ f.dataCount.toNat ≤ 1024 then f else { f with data := [] }]
            outstanding := (s.link p).outstanding ++ [f.tag] }))

/-! ### The checks of a take -/

/-- A head request whose kind code is none of 1 to 19 is refused UNKNOWN_KIND, and nothing else changes (check 1 of R155, R176). A head
request that fails one of checks 2 to 7 is answered with the status of the first that fails, and nothing else changes, but for follow-on
work that the state still owes (R155; assumption 2). -/
def Obligations.RefusedTakeChangesNothing : Prop :=
  (∀ (s : State) (p : Port) (f : RequestFrame),
     (s.link p).up = true → headRequest p s = some f → ¬(1 ≤ f.kind.toNat ∧ f.kind.toNat ≤ 19) →
     exec (.takeUnknownKind p) s =
       .next (s.setLink p (answered (s.link p) (reply s f .unknownKind .none [])))) ∧
  (∀ (s : State) (p : Port) (k : Kind) (f : RequestFrame) (st : Status),
     (s.link p).up = true → headRequest p s = some f → requestKind f = some k → takeCheck s p k f = some st →
     ∃ t, exec (takeCommand p f k) s = .next t ∧
       (let u := s.setLink p (answered (s.link p) (reply s f st .none []))
       (t = u ∨ t = settle u) ∧ (Settled s → t = u)))

/-- A PLACE passes checks 2 to 7 exactly when the engine is RUNNING, its fields lie in their ranges, its port is ACTIVE and carries the
custody number, at least 64 extent records are free, and no block of the other port's staged data is overlapped while collision refusal is
on (R155, R156, R50, R76). -/
def Obligations.PlacePassesChecksExactlyWhen : Prop :=
  ∀ (s : State) (p : Port) (f : RequestFrame),
    takeCheck s p .place f = none ↔
      s.startup.engine = .running ∧ f.stream.toNat < 8 ∧ 1 ≤ f.length.toNat ∧
      f.lbn.toNat + f.length.toNat ≤ s.startup.nLog ∧ f.dataCount.toNat ≤ 1024 ∧
      f.length.toNat ≤ 1024 / 2 ^ s.startup.image.slotCode ∧ f.dataCount.toNat = f.length.toNat ∧
      s.custody.admission.get p = .active ∧ f.custody.toNat = s.custody.number ∧
      64 + (s.map.records.length + if s.map.held then 1 else 0) ≤ 1048576 ∧
      ¬(s.startup.image.collisionRefusal = true ∧
        0 < stagedOf s p.other f.lbn.toNat (f.lbn.toNat + f.length.toNat))

/-- Checks 4 and 5: while the engine state and the fields let a mutating request pass, it is refused FENCED on a FENCED port, and
STALE_CUSTODY on an ACTIVE port when it carries another custody number; a request that is not mutating is refused for neither (R155, R160).
-/
def Obligations.FencedOrStaleRequestsAreRefused : Prop :=
  ∀ (s : State) (p : Port) (k : Kind) (f : RequestFrame),
    engineCheck s k = none → fieldCheck s k f = none →
    (k.mutating = true → s.custody.admission.get p = .fenced → takeCheck s p k f = some .fenced) ∧
    (k.mutating = true → s.custody.admission.get p = .active → f.custody.toNat ≠ s.custody.number →
      takeCheck s p k f = some .staleCustody) ∧
    (k.mutating = false → takeCheck s p k f = none)

/-! ### PLACE, FETCH, RELEASE, LOCATE, DRAIN -/

/-- A PLACE with a free slot, over any range: the last response of its port is DONE with the sequence counter's value and the superseded
count, the counter has advanced, the new parcel stands in the table and at the tail of its stream's queue, the blocks of the range resolve
to the new parcel and all others as before, the slot holds the data and every other pool block is as before. A band of which blocks are
replaced has its live count lowered by their number, and leaves FILLED when that empties it; a parcel of which blocks are replaced has its
live blocks lowered by their number, and a QUEUED one of which nothing is written is dropped at 0, its slot being freed for handing (R27,
R31 to R33, R53, R72, R77). The custody unit, the scheduler, the start-up unit, the streams but for their queues, the other port's requests,
the held record, and every band and parcel of which no block is replaced are unchanged (R53, R74, R75). That a DRAIN counted down to 0 by a
drop is answered before the PLACE, and the freed slot handed after it, is the model's choice (assumption 11). -/
def Obligations.PlaceSupersedesRange : Prop :=
  ∀ (s : State) (p : Port) (f : RequestFrame) (n : Nat) (rest : List Nat),
    Takes s p .place f → s.staging.seqCounter < 2 ^ 48 - 1 → s.staging.freeSlots = n :: rest →
    ∃ u, exec (.place p) s = .next (settle u) ∧
      (u.link p).sent.getLast? =
        some (reply s f .done
          (.place s.staging.seqCounter (stagedOf s p.other (requestStart f) (requestEnd f))) []) ∧
      (u.link p).queue = (s.link p).queue.tail ∧ (u.link p).holding = false ∧
      u.staging.seqCounter = s.staging.seqCounter + 1 ∧ u.staging.freeSlots = rest ∧
      (parcel? s n = none → (∀ r ∈ s.map.records, ∀ i, r.loc ≠ .staged n i) →
        parcel? u n =
          some
            { id := n, kind := .data, port := p, stream := requestStream f, start := f.lbn.toNat, length := f.length.toNat
              seq := s.staging.seqCounter, live := f.length.toNat, written := 0, state := .queued, acceptedAt := s.now }) ∧
      u.alloc.hosts[requestStream f].queue.getLast? = some n ∧
      (∀ L, resolve u.map.records L =
        if requestStart f ≤ L ∧ L < requestEnd f then some (.staged n (L - requestStart f))
        else resolve s.map.records L) ∧
      (PoolLaw s → ∀ a, poolBlock u a =
        if n * slotSize s ≤ a ∧ a < n * slotSize s + f.length.toNat then
          f.data.getD (a - n * slotSize s) zeroBlock
        else poolBlock s a) ∧
      u.custody = s.custody ∧ u.sched = s.sched ∧ u.startup = s.startup ∧ u.now = s.now ∧ u.pending = s.pending ∧
      u.table.zones = s.table.zones ∧ u.alloc.reloc = s.alloc.reloc ∧
      (∀ t : Fin 8, { u.alloc.hosts[t] with queue := s.alloc.hosts[t].queue } = s.alloc.hosts[t]) ∧
      u.engine = { s.engine with recoveryWait := u.engine.recoveryWait } ∧
      u.staging.slotWait = s.staging.slotWait ∧ u.staging.noteWait = s.staging.noteWait ∧
      u.staging.freeNotes = s.staging.freeNotes ∧
      (∀ id, id ≠ n → (∀ r ∈ recordsInside (requestStart f) (requestEnd f) s.map.records, ∀ i, r.loc ≠ .staged id i) →
        parcel? u id = parcel? s id) ∧
      (∀ b, (∀ r ∈ recordsInside (requestStart f) (requestEnd f) s.map.records, ∀ o, r.loc ≠ .media b o) →
        band? u b = band? s b) ∧
      (∀ b r, band? s b = some r → 0 < mediaBlocks (recordsInside (requestStart f) (requestEnd f) s.map.records) b →
        band? u b = some (bandLess r (mediaBlocks (recordsInside (requestStart f) (requestEnd f) s.map.records) b))) ∧
      (∀ id x, id ≠ n → parcel? s id = some x → 0 < stagedBlocks (recordsInside (requestStart f) (requestEnd f) s.map.records) id →
        let rest := parcelLess x (stagedBlocks (recordsInside (requestStart f) (requestEnd f) s.map.records) id)
        parcel? u id = rest ∧ (rest = none → .slot id ∈ u.agenda.freed)) ∧
      u.map.held = s.map.held ∧ (u.link p.other).up = (s.link p.other).up ∧ (u.link p.other).queue = (s.link p.other).queue ∧
      (u.link p.other).holding = (s.link p.other).holding

/-- A PLACE that passes checks 1 to 7 with no slot free is held at the head of its queue and joins the slot wait list with its timer
started, whatever the sequence counter (check 8 of R155, R81, R154). With a slot free and the sequence counter at 2^48 − 1 it is refused
NOT_RUNNING, and the slot stays free (R73). Nothing else changes. That the limit comes after check 8 is R155's; assumption 22 records it. -/
def Obligations.PlaceWaitsOrIsRefusedAtLimit : Prop :=
  ∀ (s : State) (p : Port) (f : RequestFrame), Takes s p .place f →
    (s.staging.freeSlots = [] →
      exec (.place p) s =
        .next (settle
          { s with
            links := s.links.set p (heldAtHead (s.link p))
            staging :=
              { s.staging with
                slotWait := s.staging.slotWait ++ [{ port := p, deadline := s.now + s.startup.image.slotWait }] } })) ∧
    (s.staging.freeSlots ≠ [] → 2 ^ 48 - 1 ≤ s.staging.seqCounter →
      exec (.place p) s = .next (settle (s.setLink p (answered (s.link p) (reply s f .notRunning .none [])))))

/-- A FETCH over a range in which no block is MEDIA is answered DONE at its take: staged blocks with the data of their slots, LOST blocks as
exceptions, unmapped blocks counted, both with zeros. Nothing else changes (R62, R64, R115). A FETCH with read runs for which there is no
room, or before which another FETCH waits, is held at the head of its queue and joins the read wait list; nothing else changes (R115, R154).
-/
def Obligations.FetchWithoutRunsOrRoom : Prop :=
  (∀ (s : State) (p : Port) (f : RequestFrame),
     Takes s p .fetch f → mediaRuns s (requestStart f) (requestEnd f) = [] →
     exec (.fetch p) s =
       .next (settle
         (let blocks := (List.range (requestLength f)).map fun i => resolve s.map.records (requestStart f + i)
         s.setLink p
           (answered (s.link p)
             (reply s f .done
               (.fetch (blocks.countP fun x => x = some .lost) (blocks.findIdx? fun x => x = some .lost)
                 (if some Location.lost ∈ blocks then some .lost else none) (blocks.countP fun x => x = none) none)
               (blocks.map fun x =>
                 match x with
                 | some (.staged q j) => poolBlock s (q * slotSize s + j)
                 | _ => zeroBlock)))))) ∧
  (∀ (s : State) (p : Port) (f : RequestFrame),
     Takes s p .fetch f → fetchRuns s f ≠ [] →
     s.sched.readWait ≠ [] ∨ 64 < s.sched.readQueue.length + (fetchRuns s f).length ∨
       readBufferFree s < runBlocks (fetchRuns s f) →
     exec (.fetch p) s =
       .next (settle
         { s with
           links := s.links.set p (heldAtHead (s.link p))
           sched := { s.sched with readWait := s.sched.readWait ++ [p] } }))

/-- A FETCH of a map in order, for which the queue and the buffer have room and no FETCH waits. Each MEDIA record that meets the range makes
one read run over its blocks there, with its band's stamp and zone, 64 at the most; a 65th gives the resume LBN, at which the part served
ends (R62, R63). The blocks served are answered from the map: staged ones with their slots' data, LOST ones as exceptions, unmapped ones as
such, the MEDIA ones later. The runs join the tail of the read-run queue, each adds a pin to its band, the buffer is reserved, and the
request leaves the head unanswered. Nothing else changes (R30, R62, R63, R115). -/
def Obligations.FetchQueuesReadRuns : Prop :=
  ∀ (s : State) (p : Port) (f : RequestFrame), Takes s p .fetch f → MapLaw s → s.sched.readWait = [] →
    let spans : List Extent :=
      s.map.records.filterMap fun r =>
        let lo := max r.start f.lbn.toNat
        let hi := min (r.start + r.len) (f.lbn.toNat + f.length.toNat)
        match r.loc with
        | .media b o => if lo < hi then some { start := lo, len := hi - lo, loc := .media b (o + (lo - r.start)) } else none
        | _ => none
    let resume := spans[64]?.map fun r => r.start
    let runs : List ReadRun :=
      (spans.take 64).filterMap fun r =>
        match r.loc with
        | .media b o =>
          (band? s b).map fun x =>
            { fetch := s.sched.nextFetch, pos := r.start - f.lbn.toNat, lbn := r.start, band := b, stamp := x.stamp
              zone := bandZone s x, first := o, count := r.len, completed := 0, pinned := true }
        | _ => none
    let answers : List Answer :=
      (List.range (resume.getD (f.lbn.toNat + f.length.toNat) - f.lbn.toNat)).map fun i =>
        match resolve s.map.records (f.lbn.toNat + i) with
        | none => .unmapped
        | some .lost => .excepted .lost
        | some (.staged q j) => .data (poolBlock s (q * slotSize s + j))
        | some (.media _ _) => .waiting
    runs ≠ [] → s.sched.readQueue.length + runs.length ≤ 64 → (runs.map fun r => r.count).sum ≤ readBufferFree s →
    ∃ u, exec (.fetch p) s = .next (settle u) ∧
      u =
        offer
          { s with
            links := s.links.set p (taken (s.link p))
            table := { s.table with bands := u.table.bands }
            sched :=
              { s.sched with
                readQueue := s.sched.readQueue ++ runs
                fetches :=
                  s.sched.fetches ++
                    [{ id := s.sched.nextFetch, requester := requesterOf p f, answers := answers, resume := resume
                       runsLeft := runs.length, reserved := (runs.map fun r => r.count).sum }]
                nextFetch := s.sched.nextFetch + 1 } } ∧
      ∀ b, band? u b = (band? s b).map fun x => { x with pins := x.pins + runs.countP fun r => r.band = b }

/-- A RELEASE of a mapped unit with a note entry free: no block of the unit is mapped afterwards and every other block resolves as before;
the note joins the table with the sequence counter's value, and the tail of its stream's queue; the last response of its port is DONE, or
PARTIAL with the block after the unit as resume LBN (R54, R80). A band that loses blocks has its live count lowered by their number, and
leaves FILLED when that empties it; a parcel that loses blocks has its live blocks lowered by their number, and a QUEUED one of which
nothing is written is dropped at 0, its slot being freed for handing (R27, R31 to R33, R54, R72, R77). The pool, the custody unit, the
scheduler, the start-up unit, the streams but for their queues, the wait lists, the other port's requests, the held record, and every band
and parcel that loses no block are unchanged. That a DRAIN counted down to 0 by a drop is answered before the RELEASE, and the freed slot
handed after it, is the model's choice (assumption 11). -/
def Obligations.ReleaseUnmapsUnit : Prop :=
  ∀ (s : State) (p : Port) (f : RequestFrame) (n : Nat) (rest : List Nat),
    Takes s p .release f → unitMapped s f = true → s.staging.seqCounter < 2 ^ 48 - 1 → s.staging.freeNotes = n :: rest →
    ∃ u, exec (.release p) s = .next (settle u) ∧
      (∀ L, resolve u.map.records L =
        if f.lbn.toNat ≤ L ∧ L < f.lbn.toNat + min f.length.toNat 65536 then none else resolve s.map.records L) ∧
      u.staging.parcels.getLast? =
        some { id := 16 * 2 ^ s.startup.image.slotCode + n, kind := .note, port := p, stream := requestStream f, start := f.lbn.toNat
               length := min f.length.toNat 65536, seq := s.staging.seqCounter, live := 0, written := 0, state := .queued
               acceptedAt := s.now } ∧
      u.staging.seqCounter = s.staging.seqCounter + 1 ∧ u.staging.freeNotes = rest ∧
      (u.link p).sent.getLast? =
        some (reply s f (if f.length.toNat ≤ 65536 then .done else .partially)
          (.release (some s.staging.seqCounter) (if f.length.toNat ≤ 65536 then none else some (f.lbn.toNat + 65536)))
          []) ∧
      (u.link p).queue = (s.link p).queue.tail ∧ (u.link p).holding = false ∧
      u.staging.pool = s.staging.pool ∧ u.custody = s.custody ∧ u.sched = s.sched ∧ u.startup = s.startup ∧ u.now = s.now ∧
      u.pending = s.pending ∧ u.table.zones = s.table.zones ∧ u.alloc.reloc = s.alloc.reloc ∧
      (∀ t : Fin 8, { u.alloc.hosts[t] with queue := s.alloc.hosts[t].queue } = s.alloc.hosts[t]) ∧
      u.engine = { s.engine with recoveryWait := u.engine.recoveryWait } ∧
      u.staging.slotWait = s.staging.slotWait ∧ u.staging.noteWait = s.staging.noteWait ∧
      u.staging.freeSlots = s.staging.freeSlots ∧
      (∀ id, id ≠ 16 * 2 ^ s.startup.image.slotCode + n →
        (∀ r ∈ recordsInside (requestStart f) (unitEnd f) s.map.records, ∀ i, r.loc ≠ .staged id i) →
        parcel? u id = parcel? s id) ∧
      (∀ b, (∀ r ∈ recordsInside (requestStart f) (unitEnd f) s.map.records, ∀ o, r.loc ≠ .media b o) →
        band? u b = band? s b) ∧
      u.alloc.hosts[requestStream f].queue.getLast? = some (16 * 2 ^ s.startup.image.slotCode + n) ∧
      (∀ b r, band? s b = some r → 0 < mediaBlocks (recordsInside (requestStart f) (unitEnd f) s.map.records) b →
        band? u b = some (bandLess r (mediaBlocks (recordsInside (requestStart f) (unitEnd f) s.map.records) b))) ∧
      (∀ id x, id ≠ 16 * 2 ^ s.startup.image.slotCode + n → parcel? s id = some x →
        0 < stagedBlocks (recordsInside (requestStart f) (unitEnd f) s.map.records) id →
        let rest := parcelLess x (stagedBlocks (recordsInside (requestStart f) (unitEnd f) s.map.records) id)
        parcel? u id = rest ∧ (rest = none → .slot id ∈ u.agenda.freed)) ∧
      u.map.held = s.map.held ∧ (u.link p.other).up = (s.link p.other).up ∧ (u.link p.other).queue = (s.link p.other).queue ∧
      (u.link p.other).holding = (s.link p.other).holding

/-- A RELEASE of an unmapped unit is answered without an acceptance sequence (R54, R80). One of a mapped unit with no note entry free is
held on the note wait list, whatever the sequence counter (check 8 of R155, R81, R154); with an entry free and the sequence counter at 2^48
− 1 it is refused NOT_RUNNING, and the entry stays free (R73). Nothing else changes. That the limit comes after check 8 is R155's;
assumption 22 records it. -/
def Obligations.ReleaseIsAnsweredWaitsOrIsRefused : Prop :=
  ∀ (s : State) (p : Port) (f : RequestFrame), Takes s p .release f →
    (unitMapped s f = false →
      exec (.release p) s =
        .next (settle
          (s.setLink p
            (answered (s.link p)
              (reply s f (if f.length.toNat ≤ 65536 then .done else .partially)
                (.release none (if f.length.toNat ≤ 65536 then none else some (f.lbn.toNat + 65536))) []))))) ∧
    (unitMapped s f = true → s.staging.freeNotes = [] →
      exec (.release p) s =
        .next (settle
          { s with
            links := s.links.set p (heldAtHead (s.link p))
            staging :=
              { s.staging with
                noteWait := s.staging.noteWait ++ [{ port := p, deadline := s.now + s.startup.image.slotWait }] } })) ∧
    (unitMapped s f = true → s.staging.freeNotes ≠ [] → 2 ^ 48 - 1 ≤ s.staging.seqCounter →
      exec (.release p) s = .next (settle (s.setLink p (answered (s.link p) (reply s f .notRunning .none [])))))

/-- A LOCATE that passes its checks has a length of 1 to 2^32 − 1 and a range that ends within N_log. It is answered with one descriptor for
each record that meets its range, clipped to it and in the map's order: all with DONE when they are at most 64, else the first 64 with
PARTIAL and the 65th's start as resume LBN. Nothing else changes (R66). -/
def Obligations.LocateListsRecords : Prop :=
  ∀ (s : State) (p : Port) (f : RequestFrame), Takes s p .locate f →
    (1 ≤ f.length.toNat ∧ f.length.toNat ≤ 2 ^ 32 - 1 ∧ f.lbn.toNat + f.length.toNat ≤ s.startup.nLog) ∧
    exec (.locate p) s =
      .next
        (let all :=
          (s.map.records.filter fun r => max r.start f.lbn.toNat < min (r.start + r.len) (f.lbn.toNat + f.length.toNat)).map
            fun r =>
              { start := max r.start f.lbn.toNat
                len := min (r.start + r.len) (f.lbn.toNat + f.length.toNat) - max r.start f.lbn.toNat
                loc := r.loc.shift (max r.start f.lbn.toNat - r.start) : Descriptor }
        s.setLink p
          (answered (s.link p)
            (if all.length ≤ 64 then reply s f .done (.locate all none) []
            else reply s f .partially (.locate (all.take 64) (all[64]?.map fun d => d.start)) [])))

/-- A DRAIN waits for its port's parcels in the stream, or in all, whose sequence is below the counter: with none it is answered DONE at
once, and otherwise it leaves the head as a DRAIN record with that count. Nothing else changes (R84). Every DRAIN record whose count is 0 is
answered DONE and leaves; the others stay, and nothing else changes but their ports' links. A DRAIN of an orphaned request, or of a DOWN
link, leaves without a response (R79, R84, R163). DRAIN_ANSWERED sent by itself is the model's, and so is the order of the answers, oldest
first (assumptions 2 and 33). -/
def Obligations.DrainWaitsForEarlierParcels : Prop :=
  (∀ (s : State) (p : Port) (f : RequestFrame), Takes s p .drain f →
     exec (.drain p) s =
       .next (settle
         (let n := s.staging.parcels.countP fun x =>
           x.port = p ∧ (f.stream = 255 ∨ x.stream = requestStream f) ∧ x.seq < s.staging.seqCounter
         if n = 0 then s.setLink p (answered (s.link p) (reply s f .done .none []))
         else
           offer
             { s with
               links := s.links.set p (taken (s.link p))
               staging :=
                 { s.staging with
                   drains :=
                     s.staging.drains ++
                       [{ requester := requesterOf p f
                          stream := if f.stream = 255 then none else some (requestStream f)
                          mark := s.staging.seqCounter, count := n }] } }))) ∧
  (∀ s : State,
     ∃ t, exec .drainAnswered s = .next t ∧
       t = { s with
         links := t.links
         staging := { s.staging with drains := s.staging.drains.filter fun d => d.count ≠ 0 } } ∧
       ∀ p, t.link p =
         (s.staging.drains.filter fun d => d.count = 0 ∧ d.requester.port = p ∧ d.requester.orphaned = false).foldl
           (fun l d => if l.up then answeredLate l (lateReply s d.requester .done .none []) else l) (s.link p))

/-! ### Streams -/

/-- A STREAM_SET with apply BOUNDARY stores its zone order and cold placement as the stream's pending setting, and is answered DONE with the
replaced flag set exactly when one was pending; the stream's setting, its open band and everything else are unchanged (R89). A STREAM_SET
with apply NOW replaces the stream's setting, discards a pending one, and is answered DONE with the replaced flag set exactly when one was
pending; an OPEN band of the stream is then finished, and otherwise nothing more happens (R90). A band is finished by going to CLOSING with
its SUMMARY run queued, or, while a write run on it is in flight, by marking the finish at the stream that owns it (R101). -/
def Obligations.StreamSetStoresOrReplacesSetting : Prop :=
  (∀ (s : State) (p : Port) (f : RequestFrame), Takes s p .streamSet f → f.apply = 0 →
     exec (.streamSetBoundary p) s =
       .next
         { s with
           links := s.links.set p
             (answered (s.link p)
               (reply s f .done (.streamSet s.alloc.hosts[requestStream f].pendingSetting.isSome) []))
           alloc :=
             { s.alloc with
               hosts := s.alloc.hosts.set (requestStream f)
                 { s.alloc.hosts[requestStream f] with
                   pendingSetting :=
                     some
                       { order := if f.zoneOrder = 0 then .outer else if f.zoneOrder = 1 then .inner else .spread
                         cold := f.coldPlacement == 1 } } } }) ∧
  (∀ (s : State) (p : Port) (f : RequestFrame), Takes s p .streamSet f → f.apply = 1 →
     exec (.streamSetNow p) s =
       .next (settle
         (let t := requestStream f
         let u : State :=
           { s with
             links := s.links.set p
               (answered (s.link p) (reply s f .done (.streamSet s.alloc.hosts[t].pendingSetting.isSome) []))
             alloc :=
               { s.alloc with
                 hosts := s.alloc.hosts.set t
                   { s.alloc.hosts[t] with
                     setting :=
                       { order := if f.zoneOrder = 0 then .outer else if f.zoneOrder = 1 then .inner else .spread
                         cold := f.coldPlacement == 1 }
                     pendingSetting := none } } }
         match openBandOf s (.host t) with
         | none => u
         | some b => finishBand b.number u))) ∧
  (∀ (s : State) (b : Nat) (r : Band), s.table.bands[b]? = some r →
     (writeInFlight b s = false →
       finishBand b s =
         offer
           { s with
             table := { s.table with bands := s.table.bands.set b { r with state := .closing } }
             sched := { s.sched with summaries := s.sched.summaries ++ [b] } }) ∧
     (∀ t : Fin 8, writeInFlight b s = true → r.owner = some (.host t) →
       finishBand b s =
         { s with alloc := { s.alloc with hosts := s.alloc.hosts.set t { s.alloc.hosts[t] with finish := true } } }) ∧
     (writeInFlight b s = true → r.owner = some .relocation →
       finishBand b s = { s with alloc := { s.alloc with reloc := { s.alloc.reloc with finish := true } } }))

/-- The summary builder takes one written sector: a DATA sector that continues the last entry in offset, LBN and sequence lengthens it; any
other begins a new entry while fewer than 1,024 stand, and sets the overflow mark otherwise; while the mark is set nothing is taken. The
builder never holds more than 1,024 entries (R98, R99). Of a run it takes the sectors in offset order, the header left out: a DATA sector or
copy with its LBN and sequence, a note or its copy with the first LBN, the length and the note sequence (R97, R98). -/
def Obligations.SummaryBuilderTakesSector : Prop :=
  (∀ (x : Stream) (e : SummaryEntry), x.entries.length ≤ 1024 →
     (builderTake e x).entries.length ≤ 1024 ∧
     (x.overflow = true → builderTake e x = x) ∧
     (x.overflow = false →
       (∀ last, x.entries.getLast? = some last → e.kind = .data → last.kind = .data →
         last.offset + last.length = e.offset → last.start + last.length = e.start → last.seq = e.seq →
         builderTake e x = { x with entries := x.entries.dropLast ++ [{ last with length := last.length + 1 }] }) ∧
       ((∀ last, x.entries.getLast? = some last →
           ¬(e.kind = .data ∧ last.kind = .data ∧ last.offset + last.length = e.offset ∧
             last.start + last.length = e.start ∧ last.seq = e.seq)) →
         builderTake e x =
           if x.entries.length < 1024 then { x with entries := x.entries ++ [e] } else { x with overflow := true }))) ∧
  (∀ (o : Nat) (is : List RunItem) (x : Stream),
     let data := fun L q : Nat =>
       builderRun (o + 1) is (builderTake { kind := .data, offset := o, start := L, length := 1, seq := q } x)
     let note := fun L n q : Nat =>
       builderRun (o + 1) is (builderTake { kind := .note, offset := o, start := L, length := n, seq := q } x)
     builderRun o [] x = x ∧ builderRun o (.header :: is) x = builderRun (o + 1) is x ∧
     (∀ p j L q, builderRun o (.data p j L q :: is) x = data L q) ∧ (∀ v L q, builderRun o (.copy v L q :: is) x = data L q) ∧
     (∀ p L n q, builderRun o (.note p L n q :: is) x = note L n q) ∧
     (∀ v L n q, builderRun o (.noteCopy v L n q :: is) x = note L n q))

/-- A stream's part in the final completion of its run. The summary builder first takes the completed sectors. After success the band stays
OPEN, or, with wp at C − 4 or a finish requested, goes to CLOSING with its SUMMARY run queued, the finish cleared (R24, R97, R100, R101).
After a failure the band is FILLED with RETIRE among its causes and no owner, and joins the due list with BAND_DUE unless it stands there;
without live blocks, notes and pins it is retired at once, with RETIRED. The stream then has no band, an empty builder and no finish (R25,
R31, R33, R37 to R39, R97). At the final completion of a CLOSING band's SUMMARY run its owner loses it in the same way, and the chain
advances over the completed parts. After success the band is FILLED with summary present, or, without live blocks, notes and pins, retired
when RETIRE is among its causes and otherwise reset, keeping its stamp; after a failure it goes on as after a failed write run (R26, R31 to
R33, R100). Nothing else changes, but for the arbitration or the choice that this makes due, and the FREE_LOW test of a reset. -/
def Obligations.EndedRunMovesStreamOn : Prop :=
  (∀ (s : State) (i : StreamId) (b first : Nat) (items : List RunItem) (r : Band), band? s b = some r →
     let built := builderRun first items (stream s i)
     let put := fun x : Stream => (updStream i (fun _ => x) s).alloc
     let failed := { r with state := .filled, owner := none, causes := { r.causes with retire := true } }
     let bare := r.live = 0 ∧ r.notes = 0 ∧ r.pins = 0
     (r.wp = bandC s r - 4 ∨ (stream s i).finish = true →
       streamCompletion i b first items true s =
         offer
           { s with
             alloc := put { built with finish := false }
             table := { s.table with bands := s.table.bands.set b { r with state := .closing } }
             sched := { s.sched with summaries := s.sched.summaries ++ [b] } }) ∧
     (r.wp ≠ bandC s r - 4 → (stream s i).finish = false → streamCompletion i b first items true s = { s with alloc := put built }) ∧
     ∃ u, streamCompletion i b first items false s = u ∧
       u =
         { s with
           links := u.links
           alloc := put { stream s i with openBand := none, entries := [], overflow := false, finish := false }
           table :=
             { s.table with
               bands :=
                 s.table.bands.set b
                   (if bare then
                     { failed with
                       state := .retired, live := 0, notes := 0, exposure := 0, minSeq := none, neglected := false
                       causes := { exposure := false, brk := false, media := false, retire := false } }
                   else failed)
               due :=
                 if bare then s.table.due.erase b else if b ∈ s.table.due then s.table.due else s.table.due ++ [b] }
           agenda := { s.agenda with choice := true } } ∧
       ∀ p, u.link p =
         { s.link p with
           notices :=
             (let l := if b ∈ s.table.due then (s.link p).notices else takeNotice .bandDue (some b) (s.link p).notices
             if bare then takeNotice .retired (some b) l else l) }) ∧
  (∀ (s : State) (i : StreamId) (b : Nat) (parts : List Sector) (r : Band),
     band? s b = some r → r.state = .closing → r.owner = some i →
     let cleared := (updStream i (fun x => { x with openBand := none, entries := [], overflow := false, finish := false }) s).alloc
     let chain := match parts.getLast? with
       | none => r.chain
       | some x => some x.trailer.chain
     let filled := { r with state := .filled, owner := none, chain := chain }
     let bare := r.live = 0 ∧ r.notes = 0 ∧ r.pins = 0
     let retired := fun x : Band =>
       { x with
         state := .retired, live := 0, notes := 0, exposure := 0, minSeq := none, neglected := false
         causes := { exposure := false, brk := false, media := false, retire := false } }
     (¬bare →
       finishSummary b true parts s =
         { s with
           alloc := cleared
           table := { s.table with bands := s.table.bands.set b { filled with summaryPresent := true } }
           agenda := { s.agenda with choice := true } }) ∧
     (bare →
       ∃ u, finishSummary b true parts s = u ∧ u.alloc = cleared ∧ u.table.due = s.table.due.erase b ∧
         band? u b =
           some
             (if r.causes.retire then retired { filled with summaryPresent := true }
             else
               { number := r.number, zone := r.zone, stamp := r.stamp, state := .empty, wp := 0, live := 0, notes := 0, exposure := 0
                 chain := none, openSeq := none, minSeq := none, breakOffset := none, neglected := false, summaryPresent := false
                 owner := none, pins := 0
                 causes := { exposure := false, brk := false, media := false, retire := false } }) ∧
         (∀ n, n ≠ b → band? u n = band? s n) ∧ freeBands u = (if r.causes.retire then freeBands s else freeBands s + 1) ∧
         u.map = s.map ∧ u.staging = s.staging ∧ u.sched = s.sched ∧ u.engine = s.engine ∧ u.startup = s.startup ∧
         u.custody = s.custody) ∧
     ∃ u, finishSummary b false parts s = u ∧
       u =
         { s with
           links := u.links
           alloc := cleared
           table :=
             { s.table with
               bands :=
                 s.table.bands.set b
                   (if bare then retired { filled with causes := { r.causes with retire := true } }
                   else { filled with causes := { r.causes with retire := true } })
               due :=
                 if bare then s.table.due.erase b else if b ∈ s.table.due then s.table.due else s.table.due ++ [b] }
           agenda := { s.agenda with choice := true } } ∧
       ∀ p, u.link p =
         { s.link p with
           notices :=
             (let l := if b ∈ s.table.due then (s.link p).notices else takeNotice .bandDue (some b) (s.link p).notices
             if bare then takeNotice .retired (some b) l else l) })

/-! ### Custody, engine state and settings -/

/-- FENCE and ADMIT of port X: the other port becomes FENCED or ACTIVE, port X's state stands, the custody number advances with 65,535 going
to 1, CUSTODY_CHANGED is placed on both lists, and the answer is DONE with the new number. Nothing else changes (R160, R161, R164). -/
def Obligations.FenceAndAdmitChangeCustody : Prop :=
  ∀ (s : State) (p : Port) (k : Kind) (f : RequestFrame), k = .fence ∨ k = .admitPort → Takes s p k f →
    exec (takeCommand p f k) s =
      .next
        (let number := if s.custody.number = 65535 then 1 else s.custody.number + 1
        let noted := fun l : Link => { l with notices := takeNotice .custodyChanged none l.notices }
        { s with
          custody :=
            { number := number
              admission := s.custody.admission.set p.other (if k = .fence then .fenced else .active) }
          links :=
            ({ a := noted s.links.a, b := noted s.links.b } : Both Link).set p
              (answered (noted (s.link p)) { reply s f .done .none [] with custody := number }) })

/-- A HALT is answered DONE at once in HALTED, and waits with the others in HALTING; in RUNNING the state becomes HALTING and the HALT
waits. A relocation engine that is IDLE, drains a victim, or has a scan read in hand, in flight or with its rest still to be issued (R110),
keeps what it has in hand; a patrol between two reads is abandoned, here with no break found, its pointer staying; a VERIFY_BAND between two
reads drops its scan. Nothing else changes, but for the arbitration that HALTING makes due, and the choice of an engine become IDLE (R94,
R146, R147, R168). HALTING becomes HALTED when the parcel table and the summary list are empty, no operation is current, no chunk is READING
or WRITING, and no scan read has still to end (assumption 18); every waiting HALT is then answered DONE, an orphaned one without a response;
else nothing changes. Here the relocation engine holds no chunk (R163, R168). HALTED_ENTERED sent by itself is the model's (assumption 2),
and so is the order of the answers, the earliest HALT first (assumption 41). -/
def Obligations.HaltEndsInHalted : Prop :=
  (∀ (s : State) (p : Port) (f : RequestFrame), Takes s p .halt f →
     let u : State :=
       { s with
         links := s.links.set p (taken (s.link p))
         startup := { s.startup with engine := .halting, haltWaiters := s.startup.haltWaiters ++ [requesterOf p f] } }
     let reading := (∃ op, s.sched.current = some op ∧ op.owner = .relocRead) ∨ ∃ c, s.engine.scan = some c ∧ 0 < c.readDone
     (s.startup.engine = .halted →
       exec (.halt p) s = .next (settle (s.setLink p (answered (s.link p) (reply s f .done .none []))))) ∧
     (s.startup.engine = .halting → exec (.halt p) s = .next (settle u)) ∧
     (s.startup.engine = .running → s.engine.activity = .idle ∨ s.engine.activity = .drain ∨ reading →
       exec (.halt p) s = .next (settle (offer u))) ∧
     (s.startup.engine = .running → ¬reading → s.engine.activity = .verify →
       exec (.halt p) s = .next (settle (offer { u with engine := { s.engine with scan := none } }))) ∧
     (∀ c, s.startup.engine = .running → ¬reading → s.engine.activity = .patrol → s.engine.scan = some c → c.firstBreak = none →
       exec (.halt p) s =
         .next (settle (offer (choiceDue
           { u with
             engine := { s.engine with activity := .idle, victim := none, reason := none, scan := none, chunk := none } }))))) ∧
  (∀ s : State, s.engine.chunk = none →
     let ready :=
       s.startup.engine = .halting ∧ s.staging.parcels = [] ∧ s.sched.summaries = [] ∧ s.sched.current = none ∧
         ∀ c, s.engine.scan = some c → c.readDone = 0
     ∃ t, exec .haltedEntered s = .next t ∧
       (¬ready → t = s) ∧
       (ready →
         t = { s with links := t.links, startup := { s.startup with engine := .halted, haltWaiters := [] } } ∧
         ∀ p, t.link p =
           (s.startup.haltWaiters.filter fun r => r.port = p ∧ r.orphaned = false).foldl
             (fun l r => if l.up then answeredLate l (lateReply s r .done .none []) else l) (s.link p)))

/-- A RUN in RUNNING is answered DONE, and as an event of R134 makes the choice due; nothing else changes (assumption 15). In HALTING or
HALTED the state becomes RUNNING, every waiting HALT is answered NOT_QUIESCED, an orphaned one without a response, and the RUN is answered
DONE; an arbitration is due, and the relocation engine goes on with whatever it holds (R146, R163, R168). IDLE makes the choice of R134 due.
A victim with a chunk in hand goes on with it; one without makes its next chunk, of up to 1,024 sectors, or ends its drain when the next
offset has reached wp (R137, R145). A VERIFY_BAND without a scan is examined and scanned afresh (R149); a scan that is still in hand, of a
patrol or a VERIFY_BAND, goes on where it stands, by the model's choice (assumption 40). That the earliest HALT is answered first is the
model's choice (assumption 41). -/
def Obligations.RunReturnsToRunning : Prop :=
  ∀ (s : State) (p : Port) (f : RequestFrame), Takes s p .run f →
    (s.startup.engine = .running →
      exec (.run p) s = .next (settle (choiceDue (s.setLink p (answered (s.link p) (reply s f .done .none [])))))) ∧
    (s.startup.engine ≠ .running →
      ∃ u : State,
        (s.engine.activity = .idle → exec (.run p) s = .next (settle (offer (choiceDue u)))) ∧
        (s.engine.activity = .patrol → exec (.run p) s = .next (settle (offer u))) ∧
        (s.engine.activity = .drain → s.engine.chunk ≠ none → exec (.run p) s = .next (settle (offer u))) ∧
        (∀ b c r, s.engine.activity = .drain → s.engine.chunk = none → s.engine.victim = some b → s.engine.scan = some c →
          band? s b = some r →
          exec (.run p) s =
            .next (settle (offer
              (if c.next < r.wp then
                { u with
                  engine :=
                    { s.engine with
                      chunk :=
                        some { first := c.next, last := min (c.next + 1023) (r.wp - 1), stage := .reading, buffer := [], copies := [] } } }
              else
                let t := handBreak b c.stamp c.firstBreak u
                endDrain b (choiceDue
                  { t with
                    engine :=
                      { t.engine with activity := .idle, victim := none, reason := none, scan := none, chunk := none } }))))) ∧
        (s.engine.activity = .verify →
          exec (.run p) s = .next (settle (offer (if s.engine.scan = none then beginVerify u else u)))) ∧
        u = { s with links := u.links, startup := { s.startup with engine := .running, haltWaiters := [] } } ∧
        ∀ q, u.link q =
          (let l := (s.startup.haltWaiters.filter fun r => r.port = q ∧ r.orphaned = false).foldl
            (fun l r => if l.up then answeredLate l (lateReply s r .notQuiesced .none []) else l) (s.link q)
          if q = p then answered l (reply s f .done .none []) else l))

/-- A RESTART in HALTED, with no SAVE_SETTINGS waiting and no band CLOSING, is answered DONE and enters STARTING: tables, map, streams'
bands, relocation engine and settings image are discarded; custody, links, stream settings, temperature class, read-run queue and pool stay.
Every VERIFY_BAND in the queue is then answered NOT_RUNNING, an orphaned one without a response, and every held FETCH and VERIFY_BAND is
refused NOT_RUNNING at the head of its port's queue, FETCHes first. In any other case the RESTART is refused NOT_QUIESCED, and nothing else
changes (R104, R116, R133, R149, R163, R169). N_log is 0 from then on, and the pool and the lists of what is sent stay, and the VERIFY_BANDs
are answered in the order of their queue: the model's choices (assumptions 4, 5, 6, 28 and 41). -/
def Obligations.RestartEntersStarting : Prop :=
  ∀ (s : State) (p : Port) (f : RequestFrame), Takes s p .restart f →
    (s.startup.engine = .halted ∧ s.startup.savesQueued = [] ∧ s.startup.savesInFlight = [] ∧ (∀ r ∈ s.table.bands, r.state ≠ .closing) →
      ∃ u, exec (.restart p) s = .next (settle (offer u)) ∧
        u =
          { s with
            links := u.links
            staging := { State.reset.staging with pool := s.staging.pool, seqCounter := s.staging.seqCounter }
            map := { records := [], held := false }
            table := { zones := [], bands := [], due := [], critical := false }
            alloc :=
              { hosts := s.alloc.hosts.map fun x => { x with openBand := none, entries := [], overflow := false, finish := false }
                reloc := { s.alloc.reloc with openBand := none, entries := [], overflow := false, finish := false } }
            sched :=
              { s.sched with
                readQueue := s.sched.readQueue.map fun r => { r with pinned := false }
                readWait := []
                summaries := [] }
            engine := State.reset.engine
            startup :=
              { State.reset.startup with haltWaiters := s.startup.haltWaiters, savesQueued := [], savesInFlight := [] } } ∧
        ∀ q, u.link q =
          (let l := if q = p then answered (s.link p) (reply s f .done .none []) else s.link q
          let l := (s.engine.verifyQueue.filter fun e => e.requester.port = q ∧ e.requester.orphaned = false).foldl
            (fun l e => if l.up then answeredLate l (lateReply s e.requester .notRunning .none []) else l) l
          ((s.sched.readWait ++ s.engine.verifyHeld).filter fun h => h = q).foldl
            (fun l _ =>
              match l.queue.head? with
              | none => l
              | some g => if l.up then answered l (reply s g .notRunning .none []) else taken l) l)) ∧
    (¬(s.startup.engine = .halted ∧ s.startup.savesQueued = [] ∧ s.startup.savesInFlight = [] ∧
        ∀ r ∈ s.table.bands, r.state ≠ .closing) →
      exec (.restart p) s = .next (settle (s.setLink p (answered (s.link p) (reply s f .notQuiesced .none [])))))

/-- A SET of a writable parameter other than the slot division code and the threshold applies the nearest value in range, with DONE when the
value was in range and CLAMPED otherwise, and the value then in force; the critical mark stays below the low mark. The FREE_LOW test follows
the marks, and the choice of R134 the low mark and the mask. Nothing else changes (R43, R44, R134, R157, R178). -/
def Obligations.SetAppliesClampedValue : Prop :=
  ∀ (s : State) (p : Port) (f : RequestFrame), Takes s p .set f → 2 ≤ f.param.toNat → f.param.toNat ≤ 14 →
    f.param.toNat ≠ 5 → SettingsLaw s →
    ∃ x, exec (.set p) s =
        .next (settle
          (let r := settingRange s.startup.image.lowMark f.param.toNat
          let u : State := { s with startup := { s.startup with image := x } }
          let v : State :=
            if f.param = 9 then choiceDue (freeLowTest u) else if f.param = 10 then freeLowTest u
            else if f.param = 13 then choiceDue u else u
          v.setLink p
            (answered (v.link p)
              (reply s f (if r.1 ≤ f.value.toNat ∧ f.value.toNat ≤ r.2 then .done else .clamped)
                (.setting f.param.toNat (settingOf x f.param.toNat)) [])))) ∧
      settingOf x f.param.toNat =
        (let r := settingRange s.startup.image.lowMark f.param.toNat
        if f.value.toNat < r.1 then r.1 else if r.2 < f.value.toNat then r.2 else f.value.toNat) ∧
      (∀ id, id ≠ f.param.toNat → ¬(f.param = 9 ∧ id = 10) → settingOf x id = settingOf s.startup.image id) ∧
      (f.param = 9 → x.criticalMark = min s.startup.image.criticalMark (x.lowMark - 1)) ∧ x.inRange = true

/-- A SET of the slot division code in a quiescent HALTED part divides the pool anew with every slot free, and is refused NOT_QUIESCED in
any other (R68, R69, R157). A SET of the threshold T applies the nearest value from 1,000 to 65,000, and each band of state OPEN, CLOSING,
FILLED or DRAINING with exposure at or above T and without EXPOSURE then crosses, in ascending number: it gets EXPOSURE, or, in a masked
cold group, its neglected flag with a NEGLECTED notice; the OPEN, CLOSING and FILLED ones that are unmasked join the due list with a
BAND_DUE notice, and an OPEN one goes to CLOSING with its SUMMARY run queued, or has its stream marked while a write run on it is in flight
(R37, R38, R41, R101, R126, R129). No other band changes, and the choice of R134 is due. A SET of a read-only parameter is answered IGNORED
with its value (R157, R178). Nothing else changes, but for the arbitration that a band gone to CLOSING makes due. -/
def Obligations.SetOfSlotCodeThresholdAndReadOnly : Prop :=
  ∀ (s : State) (p : Port) (f : RequestFrame), Takes s p .set f →
    (f.param = 1 →
      exec (.set p) s =
        .next (settle
          (if s.startup.engine = .halted ∧ s.staging.parcels = [] then
            { s with
              startup := { s.startup with image := { s.startup.image with slotCode := min f.value.toNat 6 } }
              staging := { s.staging with freeSlots := List.range (16 * 2 ^ min f.value.toNat 6) }
              links := s.links.set p
                (answered (s.link p)
                  (reply s f (if f.value.toNat ≤ 6 then .done else .clamped) (.setting 1 (min f.value.toNat 6)) [])) }
          else s.setLink p (answered (s.link p) (reply s f .notQuiesced .none []))))) ∧
    (f.param = 5 →
      let x := if f.value.toNat < 1000 then 1000 else if 65000 < f.value.toNat then 65000 else f.value.toNat
      let crosses := fun r : Band => exposable r.state && decide (x ≤ r.exposure) && !r.causes.exposure
      let crossing := fun test : Nat → Band → Bool =>
        (List.range s.table.bands.length).filter fun n => (band? s n).any fun r => crosses r && test n r
      ∃ v : State,
        exec (.set p) s =
          .next (settle (v.setLink p
            (answered (v.link p)
              (reply s f (if 1000 ≤ f.value.toNat ∧ f.value.toNat ≤ 65000 then .done else .clamped) (.setting 5 x) [])))) ∧
        v =
          { s with
            startup := { s.startup with image := { s.startup.image with threshold := x } }
            links := v.links
            table := { s.table with bands := v.table.bands, due := s.table.due ++ crossing (joinsDue s) }
            sched := { s.sched with summaries := s.sched.summaries ++ crossing (closesAtOnce s) }
            alloc := v.alloc
            agenda := { s.agenda with offered := s.agenda.offered || !(crossing (closesAtOnce s)).isEmpty, choice := true } } ∧
        (∀ n, band? v n = (band? s n).map fun r => if crosses r then crossedRecord s n r else r) ∧
        (∀ q, v.link q =
          { s.link q with
            notices :=
              (List.range s.table.bands.length).foldl
                (fun l n => match (band? s n).filter crosses with | none => l | some r => crossedNotices s n r l)
                (s.link q).notices }) ∧
        (∀ i, stream v i =
          if (crossing (finishesLater s)).any fun n => (band? s n).any fun r => r.owner == some i then
            { stream s i with finish := true }
          else stream s i)) ∧
    (32 ≤ f.param.toNat →
      exec (.set p) s =
        .next (settle (s.setLink p
          (answered (s.link p)
            (reply s f .ignored (.setting f.param.toNat (paramValue s f.param.toNat)) [])))))

/-- A SAVE_SETTINGS leaves the head and joins the saves that the next SYSTEM_WRITE carries; nothing else changes (R172). With the channel
free and start-up ended, the SYSTEM_WRITE is issued before all else while a save waits: it carries every save that waits and the settings
record of the image as it stands, and nothing else changes but the idle timer and flag (R104, R112, R135, R172); its trailer is free but for
a kind code of 1 to 4 (assumption 7). The final completion of the SYSTEM_WRITE answers every save it carried DONE, with WRITTEN after
COMPLETE and FAILED after WRITE_FAULT, or after OFF_TRACK or the expiry of the channel timer with the retries spent; an orphaned save, or
one of a DOWN link, gets no response. Nothing else changes, but that the channel is free (R106, R107, R111, R163, R172). That the earliest
save is answered first is the model's choice (assumption 41). A LOAD_DEFAULTS in HALTED with no parcel staged sets every setting to its
default, divides the pool by code 3, tests F against the critical mark and re-evaluates the bands against the default threshold, as a SET of
the marks and of the threshold do, and is answered DONE (R44, R68, R129, R172); that it re-evaluates whether or not the threshold changes is
the model's choice (assumption 16). Otherwise it is refused NOT_QUIESCED, and nothing else changes (R68, R172). -/
def Obligations.SavesWaitAndDefaultsAreRestored : Prop :=
  (∀ (s : State) (p : Port) (f : RequestFrame), Takes s p .saveSettings f →
     exec (.saveSettings p) s =
       .next (settle (offer
         { s with
           links := s.links.set p (taken (s.link p))
           startup := { s.startup with savesQueued := s.startup.savesQueued ++ [requesterOf p f] } }))) ∧
  (∀ s : State, s.sched.current = none → s.startup.stage = .finished → s.startup.savesQueued ≠ [] →
     ∃ x : Sector, x.payload = settingsRecord s.startup.image ∧ 1 ≤ x.trailer.kind.toNat ∧ x.trailer.kind.toNat ≤ 4 ∧
       arbitrate s =
         { s with
           startup := { s.startup with savesInFlight := s.startup.savesQueued, savesQueued := [] }
           sched :=
             issued s
               { kind := .systemWrite, owner := .startUp, band := 0, zone := default, first := 0, count := 1, issue := 0, completed := 0
                 retries := 0, issuedFrom := 0, awaiting := false, wait := none, items := [], sectors := [x] }
           engine := busyEngine s }) ∧
  (∀ (s : State) (op : Operation), Awaits s op → op.kind = .systemWrite →
     let ended := fun (t : State) (u : State) (ok : Bool) =>
       u =
         { t with
           links := u.links
           sched := { t.sched with current := none, channelTimer := none }
           startup := { t.startup with savesInFlight := [] }
           agenda := { t.agenda with offered := true } } ∧
       ∀ p, u.link p =
         (s.startup.savesInFlight.filter fun r => r.port = p ∧ r.orphaned = false).foldl
           (fun l r => if l.up then answeredLate l (lateReply s r .done (.save ok) []) else l) (s.link p)
     (∀ c ok, op.issue = c.issue →
       (c.outcome = .complete ∧ ok = true ∨
         (c.outcome = .writeFault ∨ c.outcome = .unreadable ∨ c.outcome = .offTrack ∧ s.startup.image.retryLimit ≤ op.retries) ∧
           ok = false) →
       ∃ u, exec (.channelCompletion c) s = .next (settle u) ∧ ended s u ok) ∧
     (∀ d, s.sched.channelTimer = some d → s.startup.image.retryLimit ≤ op.retries →
       ∃ u, exec .channelTimerExpiry s = .next (settle u) ∧ ended { s with now := max s.now d } u false)) ∧
  (∀ (s : State) (p : Port) (f : RequestFrame), Takes s p .loadDefaults f →
     (s.startup.engine = .halted → s.staging.parcels = [] →
       let d : State := { s with startup := { s.startup with image := Settings.default } }
       let crosses := fun r : Band => exposable r.state && decide (40000 ≤ r.exposure) && !r.causes.exposure
       let crossing := fun test : Nat → Band → Bool =>
         (List.range s.table.bands.length).filter fun n => (band? s n).any fun r => crosses r && test n r
       ∃ v : State,
         exec (.loadDefaults p) s = .next (settle (v.setLink p (answered (v.link p) (reply s f .done .none [])))) ∧
         v =
           { s with
             startup := d.startup
             staging := { s.staging with freeSlots := List.range 128 }
             links := v.links
             table :=
               { s.table with
                 bands := v.table.bands, due := s.table.due ++ crossing (joinsDue d), critical := decide (freeBands s ≤ 6) }
             sched := { s.sched with summaries := s.sched.summaries ++ crossing (closesAtOnce d) }
             alloc := v.alloc
             agenda :=
               { s.agenda with
                 offered := s.agenda.offered || !(crossing (closesAtOnce d)).isEmpty
                 choice := s.agenda.choice || !(crossing (joinsDue d)).isEmpty } } ∧
         (∀ n, band? v n = (band? s n).map fun r => if crosses r then crossedRecord d n r else r) ∧
         (∀ q, v.link q =
           { s.link q with
             notices :=
               (List.range s.table.bands.length).foldl
                 (fun l n => match (band? s n).filter crosses with | none => l | some r => crossedNotices d n r l)
                 (if freeBands s ≤ 6 ∧ s.table.critical = false then takeNotice .freeLow none (s.link q).notices
                 else (s.link q).notices) }) ∧
         (∀ i, stream v i =
           if (crossing (finishesLater d)).any fun n => (band? s n).any fun r => r.owner == some i then
             { stream s i with finish := true }
           else stream s i)) ∧
     (¬(s.startup.engine = .halted ∧ s.staging.parcels = []) →
       exec (.loadDefaults p) s =
         .next (settle (s.setLink p (answered (s.link p) (reply s f .notQuiesced .none []))))))

/-! ### GET, STATUS, BAND_QUERY, VERIFY_BAND, NOTICE_FETCH -/

/-- A GET is answered DONE with the value in force, here spelled out for each of the read-only parameters; a writable one is the image's.
Nothing else changes (R157, R178). A STATUS is answered DONE with the values as they stand, some of which are spelled out here; nothing else
changes (R158). That the host streams stand first, by number, is the model's choice (assumption 42). A BAND_QUERY is answered DONE with the
band's record, its dead count wp − 1 − live − notes, and its position on the due list, the oldest being 1; nothing else changes (R28, R159).
-/
def Obligations.QueriesReportValuesInForce : Prop :=
  (∀ (s : State) (p : Port) (f : RequestFrame), Takes s p .get f →
     exec (.get p) s =
       .next (s.setLink p
         (answered (s.link p)
           (reply s f .done
             (.setting f.param.toNat
               (if f.param = 0x20 then 16 * 2 ^ s.startup.image.slotCode
               else if f.param = 0x21 then 1024 / 2 ^ s.startup.image.slotCode
               else if f.param = 0x22 then 1048576
               else if f.param = 0x23 then s.startup.nLog
               else if f.param = 0x24 then s.table.bands.length
               else if f.param = 0x25 then s.table.zones.length
               else if f.param = 0x26 then 30000
               else if f.param = 0x27 then 4000
               else settingOf s.startup.image f.param.toNat)) [])))) ∧
  (∀ (s : State) (p : Port) (f : RequestFrame), Takes s p .status f →
     ∃ r, exec (.status p) s = .next (s.setLink p (answered (s.link p) (reply s f .done (.status r) []))) ∧
       r.engine = s.startup.engine ∧ r.zoneCount = s.table.zones.length ∧ r.bandsRebuilt = s.startup.bandsRebuilt ∧
       r.custody = s.custody.number ∧ r.admission = s.custody.admission ∧
       (∀ q, r.linkUp.get q = (s.link q).up ∧ r.outstanding.get q = (s.link q).outstanding.length) ∧
       r.notices = (s.link p).notices.length ∧ r.freeBands = s.table.bands.countP (fun b => b.state = .empty) ∧
       r.dueLength = s.table.due.length ∧ r.recordsInUse = s.map.records.length ∧
       r.recordsFree = 1048576 - (s.map.records.length + if s.map.held then 1 else 0) ∧
       r.parcels = s.staging.parcels.length ∧ r.freeSlots = s.staging.freeSlots.length ∧
       r.freeNotes = s.staging.freeNotes.length ∧ r.slotWait = s.staging.slotWait.length ∧
       r.noteWait = s.staging.noteWait.length ∧ r.drains = s.staging.drains.length ∧
       r.seqCounter = s.staging.seqCounter ∧ r.current = s.sched.current.map (fun op => op.kind) ∧
       r.readEntries = s.sched.readQueue.length ∧
       r.readBufferFree = 2048 - (s.sched.fetches.map fun x => x.reserved).sum ∧
       r.readWait = s.sched.readWait.length ∧ r.tempClass = s.sched.tempClass ∧ r.stale = s.sched.stale ∧
       r.classInForce = (if s.sched.stale then 3 else s.sched.tempClass.getD 3) ∧ r.activity = s.engine.activity ∧
       r.victim = s.engine.victim ∧ r.reason = s.engine.reason ∧ r.patrolPointer = s.engine.patrolPointer ∧
       r.verifyLength = s.engine.verifyQueue.length ∧ r.lowWater = s.engine.lowWater ∧
       r.streams.length = 9 ∧
       ∀ t : Fin 8, (r.streams[t.val]?.map fun x => x.openBand) = some s.alloc.hosts[t].openBand) ∧
  (∀ (s : State) (p : Port) (f : RequestFrame), Takes s p .bandQuery f →
     ∃ b, s.table.bands[f.band.toNat]? = some b ∧
       exec (.bandQuery p) s =
         .next (s.setLink p
           (answered (s.link p)
             (reply s f .done
               (.bandQuery b (b.wp - 1 - b.live - b.notes)
                 ((s.table.due.findIdx? fun n => n = f.band.toNat).map fun i => i + 1)) []))))

/-- A VERIFY_BAND joins the tail of the queue while it holds fewer than 4 entries, and the choice of R134 is due; otherwise it is held at
the head of its port's queue. Nothing else changes (R149, R154). The VERIFY_BAND held first joins the queue's tail while the queue has a
free entry, its request leaves its port's queue, and the choice of R134 is due; while the queue is full nothing changes (R149). The entry at
the head of the queue is examined, here with no VERIFY_BAND held: of an EMPTY or RETIRED band it is answered at once, NOT_SCANNED, with the
band's stamp, no first break and no unreadable offset; otherwise a scan begins, which reads offsets 0 to wp − 1 and then the summary when it
is present, in runs of up to 1,024 sectors (R17, R147, R149; the cut is the model's, assumption 31), and which ends at once, SCANNED, when
there is none to read. After each run its unreadable offsets are handed and the next run is offered; at the end the first break offset is
handed, and the entry is answered SCANNED with the stamp scanned, the first break offset and the number of unreadable offsets (R148, R149).
Before each read after the first, with the channel free (assumption 20), the scan ends when its band has been reset or reopened, or, by the
model's choice, retired (assumption 38), and the entry is answered CUT_SHORT with the same values (R149). An entry answered leaves the
queue, the engine is IDLE, and its choice is due; an orphaned request, or one of a DOWN link, gets no response (R149, R163). -/
def Obligations.VerifyBandIsQueuedScannedAndAnswered : Prop :=
  (∀ (s : State) (p : Port) (f : RequestFrame), Takes s p .verifyBand f →
     exec (.verifyBand p) s =
       .next (settle
         (if s.engine.verifyQueue.length < 4 then
           choiceDue
             { s with
               links := s.links.set p (taken (s.link p))
               engine :=
                 { s.engine with
                   verifyQueue := s.engine.verifyQueue ++ [{ requester := requesterOf p f, band := f.band.toNat }] } }
         else
           { s with
             links := s.links.set p (heldAtHead (s.link p))
             engine := { s.engine with verifyHeld := s.engine.verifyHeld ++ [p] } }))) ∧
  (∀ (s : State) (p : Port) (ps : List Port) (f : RequestFrame),
     s.engine.verifyHeld = p :: ps → (s.link p).queue.head? = some f →
     exec .verifyBandRetake s =
       .next (settle
         (if s.engine.verifyQueue.length < 4 then
           choiceDue
             { s with
               links := s.links.set p (taken (s.link p))
               engine :=
                 { s.engine with
                   verifyQueue := s.engine.verifyQueue ++ [{ requester := requesterOf p f, band := f.band.toNat }]
                   verifyHeld := ps } }
         else s))) ∧
  (∀ (s : State) (e : VerifyEntry) (es : List VerifyEntry), s.engine.verifyQueue = e :: es → s.engine.verifyHeld = [] →
     let q := e.requester
     let answered := fun (t : State) (x : VerifyOutcome) (stamp : Nat) (brk : Option Nat) (n : Nat) =>
       choiceDue
         { t with
           links :=
             if q.orphaned = true ∨ (t.link q.port).up = false then t.links
             else t.links.set q.port (answeredLate (t.link q.port) (lateReply t q .done (.verify x stamp brk n) []))
           engine :=
             { t.engine with
               activity := .idle, victim := none, reason := none, scan := none, chunk := none, verifyQueue := es } }
     (∀ r, band? s e.band = some r →
       (r.state = .empty ∨ r.state = .retired → beginVerify s = answered s .notScanned r.stamp none 0) ∧
       (r.state ≠ .empty → r.state ≠ .retired →
         ∃ reads : List (Nat × Nat),
           (∀ x ∈ reads, 1 ≤ x.2 ∧ x.2 ≤ 1024) ∧
           (reads.flatMap fun x => List.range' x.1 x.2) =
             (List.range r.wp ++ if r.summaryPresent then List.range' (bandC s r - 4) 4 else []) ∧
           beginVerify s =
             if reads = [] then answered s .scanned r.stamp none 0
             else
               offer
                 { s with
                   engine :=
                     { s.engine with
                       activity := .verify
                       scan :=
                         some
                           { band := r.number, stamp := r.stamp, state := r.state, next := 1, reads := reads, readDone := 0
                             begun := false, pred := none, firstBreak := none, unreadable := [], runUnreadable := [] } } })) ∧
     (∀ c, s.engine.scan = some c → s.startup.engine = .running → s.engine.activity = .verify →
       (let t := handMedia c.band c.stamp c.runUnreadable s
       (c.reads.tail ≠ [] →
         endScanRead s =
           offer { t with engine := { t.engine with scan := some { c with reads := c.reads.tail, readDone := 0, runUnreadable := [] } } }) ∧
       (c.reads.tail = [] →
         endScanRead s =
           answered (handBreak c.band c.stamp c.firstBreak t) .scanned c.stamp c.firstBreak c.unreadable.length)) ∧
       (let lives := ∃ r, band? s c.band = some r ∧ r.state ≠ .empty ∧ r.state ≠ .retired ∧ r.stamp = c.stamp
       c.begun = true → c.readDone = 0 → s.sched.current = none →
         (lives → testBeforeRead s = s) ∧
         (¬lives → testBeforeRead s = answered s .cutShort c.stamp c.firstBreak c.unreadable.length))))

/-- A NOTICE_FETCH that is not oversize is served in every engine state and from a FENCED port: the response takes every record of the
port's list in order, with DONE, the list becomes empty and the attention line falls; a notice placed after it raises the line again. The
other port's list, and everything else, is unchanged (R166). The attention line of a port is high while its link is UP and its notice list
holds at least one record, and low otherwise: it rises when a notice is placed on an empty list of an UP link and when the link comes UP
with records, and falls when the list is emptied and when the link goes DOWN (R165). -/
def Obligations.NoticesAreFetchedAndAttended : Prop :=
  (∀ (s : State) (p : Port) (f : RequestFrame),
     (s.link p).up = true → headRequest p s = some f → requestKind f = some .noticeFetch → f.dataCount.toNat ≤ 1024 →
     ∃ t, exec (.noticeFetch p) s = .next t ∧
       t = s.setLink p
         { answered (s.link p) (reply s f .done (.notices (s.link p).notices) []) with notices := [] } ∧
       attention t p = false ∧ (t.link p.other).notices = (s.link p.other).notices ∧
       ∀ k b, (placeNotice k b t).link p = { t.link p with notices := [{ kind := k, band := b, count := 1 }] } ∧
         attention (placeNotice k b t) p = true) ∧
  (∀ (s : State) (p : Port),
     (attention s p = true ↔ (s.link p).up = true ∧ 1 ≤ (s.link p).notices.length) ∧
     (∀ k b, (s.link p).up = true → (s.link p).notices = [] →
       attention s p = false ∧ attention (placeNotice k b s) p = true) ∧
     ((s.link p).notices ≠ [] → attention (linkUp p s) p = true) ∧
     attention (s.setLink p { s.link p with notices := [] }) p = false ∧
     attention (s.setLink p { s.link p with up := false }) p = false)

/-- A notice list takes a notice by the first case of R164 that applies; it keeps at most 16 records, and no count passes 65,535. -/
def Obligations.NoticeListTakesFirstCase : Prop :=
  ∀ (k : NoticeKind) (b : Option Nat) (l : List Notice),
    (l.length ≤ 16 → (takeNotice k b l).length ≤ 16) ∧
    ((∀ n ∈ l, n.count ≤ 65535) → ∀ n ∈ takeNotice k b l, n.count ≤ 65535) ∧
    (∀ pre n post, l = pre ++ n :: post → (∀ m ∈ pre, ¬(m.kind = k ∧ m.band = b)) → n.kind = k → n.band = b →
      takeNotice k b l = pre ++ { n with count := min (n.count + 1) 65535 } :: post) ∧
    ((∀ n ∈ l, ¬(n.kind = k ∧ n.band = b)) →
      (l.length < 16 → takeNotice k b l = l ++ [{ kind := k, band := b, count := 1 }]) ∧
      (16 ≤ l.length → ∀ pre n post, l = pre ++ n :: post → (∀ m ∈ pre, m.kind ≠ k) → n.kind = k →
        takeNotice k b l = pre ++ { n with band := none, count := min (n.count + 1) 65535 } :: post) ∧
      (16 ≤ l.length → (∀ n ∈ l, n.kind ≠ k) → ∀ pre n, l = pre ++ [n] →
        takeNotice k b l = pre ++ [{ kind := .several, band := none, count := min (n.count + 1) 65535 }]))

/-! ### The channel -/

/-- A completion is discarded when no issue is awaited or it answers another issue: no state changes (R105), but for follow-on work that the
state still owes (assumption 2). A NOT_READY completion of a WRITE_RUN's awaited issue with k sectors of its n, k < n, keeps the operation
current with its retry count, adds k to its completed count, and starts a wait of 1,000 ms; the timer is stopped. The band table takes the
added sectors at once; nothing else changes (R22, R105, R108, R109). An OFF_TRACK or UNREADABLE completion of a READ_RUN's awaited issue at
its first sector, with retries left, reissues the operation at once from its completed count with the retry count grown by 1; the issue
identifier advances and the channel timer starts anew. Nothing else changes but the idle timer and flag (R104 to R107, R135). -/
def Obligations.CompletionsAreDiscardedOrContinue : Prop :=
  (∀ (s : State) (c : Completion), (∀ op, Awaits s op → op.issue ≠ c.issue) →
     exec (.channelCompletion c) s = .next (settle s) ∧ (Settled s → settle s = s)) ∧
  (∀ (s : State) (op : Operation) (c : Completion),
     Awaits s op → op.kind = .writeRun → op.issue = c.issue → c.outcome = .notReady → c.k < op.count - op.issuedFrom →
     exec (.channelCompletion c) s =
       .next (settle
         (writeProgress op.band ((op.items.drop op.issuedFrom).take c.k) ((op.sectors.drop op.issuedFrom).take c.k)
           { s with
             sched :=
               { s.sched with
                 channelTimer := none
                 current :=
                   some
                     { op with completed := op.issuedFrom + c.k, awaiting := false, wait := some (s.now + 1000) } } }))) ∧
  (∀ (s : State) (op : Operation) (c : Completion),
     Awaits s op → op.kind = .readRun → op.issue = c.issue → c.outcome = .offTrack ∨ c.outcome = .unreadable → c.k = 0 →
     op.issuedFrom < op.count → op.retries < s.startup.image.retryLimit →
     exec (.channelCompletion c) s =
       .next (settle
         { s with
           sched := issued s { op with completed := op.issuedFrom, retries := op.retries + 1 }
           engine := busyEngine s }))

/-- The final completion of a WRITE_RUN, with the sectors completed before and at it, acts in the order of R109: the band table takes the
added sectors (R22), and the channel is free; after a host stream's run the extent map commits the completed sectors, and staging settles
the carried parcels; after a relocation run the relocation engine settles its copies (R140); then the stream moves on (R97), and the
exposure accounting is handed the completed count (R121). A completion that leaves no sector of a retryable issue is taken as COMPLETE: the
model's choice (assumption 10). The expiry of the channel timer with the retries spent ends the run so with nothing added (R106, R107). The
completed items are committed in offset order: a DATA sector at offset o of band b, from parcel p's index j for block L, is committed when L
resolves to (p, j), so that L becomes MEDIA at (b, o), b's live count grows by 1 and p's live blocks fall by 1, and no other block's
resolution changes; it is written dead otherwise, so that nothing changes, and no other item commits anything (R48, R56). With the commits
the held record is free again: an arbitration is due while a record is free, and with 64 or more free a recovery wait is cleared, which
makes a choice due (R51, R57, R144). The carried parcels are settled in the run's order. Each one's written count grows by its completed
sectors. A parcel then written whole, or a DATA parcel of which nothing is written and nothing live, is removed, its slot or note entry is
free again, here with nothing waiting for it, and the DRAINs that count it are lowered, and answered at 0; any other becomes QUEUED (R77 to
R79, R84). -/
def Obligations.WriteCompletionFollowsOrder : Prop :=
  (∀ (s : State) (op : Operation), Awaits s op → op.kind = .writeRun →
     let ended := fun (s : State) (k : Nat) (ok : Bool) =>
       let items := op.items.take (op.issuedFrom + k)
       let w :=
         offer
           (writeProgress op.band ((op.items.drop op.issuedFrom).take k) ((op.sectors.drop op.issuedFrom).take k)
             { s with sched := { s.sched with current := none, channelTimer := none } })
       let rest := fun (i : StreamId) (u : State) =>
         offer (accountExposure op.band op.first (op.issuedFrom + k) (streamCompletion i op.band op.first items ok u))
       match op.owner with
       | .hostWrite t => rest (.host t) (settleParcels (carriedParcels op.items) items (commitRun op.band op.first items w))
       | .relocWrite => rest .relocation (relocCompletion op.band op.first op.items (op.issuedFrom + k) w)
       | _ => w
     (∀ c k ok, op.issue = c.issue → EndsWrite op s.startup.image.retryLimit c k ok →
       exec (.channelCompletion c) s = .next (settle (ended s k ok))) ∧
     (∀ d, s.sched.channelTimer = some d → s.startup.image.retryLimit ≤ op.retries →
       exec .channelTimerExpiry s = .next (settle (ended { s with now := max s.now d } 0 false)))) ∧
  (∀ (s : State) (b o : Nat) (i : RunItem) (is : List RunItem),
     commitItems b o [] s = s ∧
     ((∀ p j L q, i ≠ .data p j L q) → commitItems b o (i :: is) s = commitItems b (o + 1) is s) ∧
     ∀ p j L q, i = .data p j L q →
       (resolve s.map.records L ≠ some (.staged p j) → commitItems b o (i :: is) s = commitItems b (o + 1) is s) ∧
       (resolve s.map.records L = some (.staged p j) →
         ∃ t, commitItems b o (i :: is) s = commitItems b (o + 1) is t ∧
           (∀ M, resolve t.map.records M = if M = L then some (.media b o) else resolve s.map.records M) ∧
           (∀ n, band? t n = (band? s n).map fun r => if n = b then { r with live := r.live + 1 } else r) ∧
           (∀ id, parcel? t id = (parcel? s id).map fun x => if id = p then { x with live := x.live - 1 } else x) ∧
           t =
             { s with
               map := { s.map with records := t.map.records }
               table := { s.table with bands := t.table.bands }
               staging := { s.staging with parcels := t.staging.parcels } })) ∧
  (∀ (s : State) (b first : Nat) (items : List RunItem),
     let t := commitItems b first items s
     let free := 1048576 - t.map.records.length
     let clears := t.engine.recoveryWait = true ∧ 64 ≤ free
     commitRun b first items s =
       { t with
         map := { t.map with held := false }
         engine := if clears then { t.engine with recoveryWait := false } else t.engine
         agenda :=
           { t.agenda with
             offered := t.agenda.offered || decide (0 < free), choice := t.agenda.choice || decide clears } }) ∧
  (∀ (s : State) (p : Nat) (ps : List Nat) (items : List RunItem),
     settleParcels [] items s = s ∧ settleParcels (p :: ps) items s = settleParcels ps items (settleParcels [p] items s)) ∧
  (∀ (s : State) (x : Parcel) (items : List RunItem), parcel? s x.id = some x →
     let n := x.written + items.countP fun i => itemParcel i == some x.id
     let whole := x.kind = .data ∧ n = x.length ∨ x.kind = .note ∧ n = 1
     let dead := x.kind = .data ∧ n = 0 ∧ x.live = 0
     (¬whole → ¬dead →
       settleParcels [x.id] items s =
         { s with
           staging :=
             { s.staging with
               parcels := s.staging.parcels.map fun y =>
                 if y.id = x.id then
                   { y with written := y.written + items.countP fun i => itemParcel i == some x.id, state := .queued }
                 else y } }) ∧
     (whole ∨ dead → s.agenda.freed = [] → s.staging.slotWait = [] → s.staging.noteWait = [] →
       settleParcels [x.id] items s =
         answerDrains
           { s with
             alloc :=
               { s.alloc with
                 hosts :=
                   s.alloc.hosts.set x.stream
                     { s.alloc.hosts[x.stream] with queue := s.alloc.hosts[x.stream].queue.erase x.id } }
             staging :=
               { s.staging with
                 parcels := s.staging.parcels.filter fun y => y.id ≠ x.id
                 freeSlots := if x.kind = .data then insertSorted x.id s.staging.freeSlots else s.staging.freeSlots
                 freeNotes :=
                   if x.kind = .note then insertSorted (x.id - 16 * 2 ^ s.startup.image.slotCode) s.staging.freeNotes
                   else s.staging.freeNotes
                 drains := s.staging.drains.map fun d =>
                   if d.requester.port = x.port ∧ (d.stream = none ∨ d.stream = some x.stream) ∧ x.seq < d.mark then
                     { d with count := d.count - 1 }
                   else d } }))

/-- A sector of a FETCH read run answers its block with its payload when its trailer is of kind DATA, names the run's band and the recorded
LBN, and has the recorded stamp, and otherwise as a MISMATCH. A COMPLETE that delivers the rest of the run answers its blocks so, and the
run ends: its queue entry is freed, its pin is removed, and the FETCH, here the only one, with more than one run left and no FETCH held, has
one run fewer left (R30, R117). A sector with its retries spent is excepted with MEDIA_ERROR, and the rest of the run goes on as a new
operation that is offered at once (R107, R110, R117). Nothing else changes. -/
def Obligations.FetchedSectorsAreChecked : Prop :=
  (∀ (r : ReadRun) (i : Nat) (x : Sector),
     checkFetched r i x =
       if x.trailer.kind = 2 ∧ x.trailer.band.toNat = r.band ∧ x.trailer.logical.toNat = r.lbn + i ∧ x.trailer.stamp.toNat = r.stamp then
         .data x.payload
       else .excepted .mismatch) ∧
  (∀ (s : State) (op : Operation) (c : Completion) (r : ReadRun) (x : FetchRecord) (l : List Sector),
     Awaits s op → op.kind = .readRun → op.owner = .fetch r.fetch r.pos → op.issue = c.issue → c.outcome = .complete →
     op.issuedFrom ≤ op.count → c.k = op.count - op.issuedFrom → c.delivery = .sectors l → l.length = c.k →
     readRun? s r.fetch r.pos = some r → s.sched.fetches = [x] → x.id = r.fetch → 2 ≤ x.runsLeft → s.sched.readWait = [] →
     ∃ u y, exec (.channelCompletion c) s = .next (settle u) ∧
       u.sched =
         { s.sched with
           current := none
           channelTimer := none
           readQueue := s.sched.readQueue.filter fun q => ¬(q.fetch = r.fetch ∧ q.pos = r.pos)
           fetches := [{ x with answers := y, runsLeft := x.runsLeft - 1 }] } ∧
       y.length = x.answers.length ∧
       (∀ i, i < y.length →
         y[i]? =
           if r.pos + op.issuedFrom ≤ i ∧ i < r.pos + op.issuedFrom + l.length then
             l[i - (r.pos + op.issuedFrom)]?.map (checkFetched r (i - r.pos))
           else x.answers[i]?) ∧
       (r.pinned = false → u.table = s.table) ∧
       (∀ b, r.pinned = true → band? s r.band = some b → 2 ≤ b.pins → band? u r.band = some { b with pins := b.pins - 1 }) ∧
       (∀ n, n ≠ r.band → band? u n = band? s n) ∧
       u.map = s.map ∧ u.staging = s.staging ∧ u.custody = s.custody ∧ u.alloc = s.alloc ∧ u.engine = s.engine ∧ u.startup = s.startup ∧
       u.now = s.now ∧ ∀ p, u.link p = { s.link p with notices := (u.link p).notices }) ∧
  (∀ (s : State) (op : Operation) (c : Completion) (id pos : Nat),
     Awaits s op → op.kind = .readRun → op.owner = .fetch id pos → op.issue = c.issue → c.outcome = .unreadable → c.k = 0 →
     s.startup.image.retryLimit ≤ op.retries → op.issuedFrom + 1 < op.count →
     exec (.channelCompletion c) s =
       .next (settle (offer
         { s with
           sched :=
             { s.sched with
               current := none
               channelTimer := none
               readQueue := s.sched.readQueue.map fun r =>
                 if r.fetch = id ∧ r.pos = pos then { r with completed := op.issuedFrom + 1 } else r
               fetches := s.sched.fetches.map fun x =>
                 if x.id = id then { x with answers := x.answers.set (pos + op.issuedFrom) (.excepted .mediaError) } else x } })))

/-- A COMPLETE of the awaited GEOMETRY with an accepted record: the zone and band tables are built with every band EMPTY and stamp 0, N_log
is set with GEOMETRY_CLAMPED when it had to be brought down, and the settings are read next. A record that is not accepted is asked for
again 1,000 ms later (R2, R20, R170). A record is accepted when it passes the checks of R2 and, by the model's choice (assumption 30), when
no field of a zone lies outside its range of R1 that those checks do not name: so a zone of no band, or of a first band or first physical
track out of range, makes a record that is asked for again. -/
def Obligations.GeometryRecordBuildsTables : Prop :=
  (∀ g : GeometryRecord,
     geometryAccepted g = true ↔
       (1 ≤ g.zones.length ∧ g.zones.length ≤ 32) ∧
       ((∀ z, g.zones[0]? = some z → z.firstBand = 0) ∧
         ∀ i y z, g.zones[i]? = some y → g.zones[i + 1]? = some z → z.firstBand = y.firstBand + y.bandCount) ∧
       (64 ≤ (g.zones.map fun z => z.bandCount).sum ∧ (g.zones.map fun z => z.bandCount).sum ≤ 131072) ∧
       (∀ z ∈ g.zones, 8 ≤ z.tpb ∧ z.tpb ≤ 128 ∧ 128 ≤ z.spt ∧ z.spt ≤ 1024) ∧
       (∀ i y z, g.zones[i]? = some y → g.zones[i + 1]? = some z → y.firstTrack + y.bandCount * (y.tpb + 1) ≤ z.firstTrack) ∧
       1 ≤ g.capacity ∧
       ∀ z ∈ g.zones, z.firstBand ≤ 131071 ∧ 1 ≤ z.bandCount ∧ z.bandCount ≤ 131072 ∧ z.firstTrack ≤ 2 ^ 32 - 1) ∧
  ∀ (s : State) (op : Operation) (c : Completion) (g : GeometryRecord),
    Awaits s op → op.kind = .geometry → op.issue = c.issue → op.issuedFrom = 0 → op.count = 1 → c.outcome = .complete → c.k = 1 →
    c.delivery = .geometry g →
    ∃ u, exec (.channelCompletion c) s = .next (settle u) ∧ u.sched = { s.sched with current := none, channelTimer := none } ∧
      u.custody = s.custody ∧ u.staging = s.staging ∧ u.map = s.map ∧ u.alloc = s.alloc ∧ u.now = s.now ∧
      (geometryAccepted g = true →
        u.table.zones = g.zones ∧ u.table.due = [] ∧ u.table.critical = false ∧
        u.table.bands.length = (g.zones.map fun z => z.bandCount).sum ∧
        (∀ (b : Nat) (r : Band), u.table.bands[b]? = some r →
          r.number = b ∧ r.state = .empty ∧ r.stamp = 0 ∧ r.wp = 0 ∧ r.live = 0 ∧ r.notes = 0 ∧ r.exposure = 0 ∧ r.owner = none) ∧
        u.startup =
          { s.startup with
            stage := .settings
            nLog :=
              min (min g.capacity (2 ^ 36)) (7 * (g.zones.map fun z => z.bandCount * (z.tpb * z.spt - 5)).sum / 8) } ∧
        (∀ p, (u.link p).notices =
          if u.startup.nLog = g.capacity then (s.link p).notices
          else takeNotice .geometryClamped none (s.link p).notices)) ∧
      (geometryAccepted g = false →
        u.table = s.table ∧ u.links = s.links ∧
        u.startup = { s.startup with stage := .geometryWait (s.now + 1000) })

/-- A COMPLETE of the awaited SYSTEM_READ: a valid settings record becomes the image, and an invalid one leaves every setting at its default
with SETTINGS_DEFAULTED; every slot of the new division is free, and the rebuild begins with band 0 (R67, R69, R171, R173). -/
def Obligations.SettingsRecordBecomesImage : Prop :=
  ∀ (s : State) (op : Operation) (c : Completion) (b : Block),
    Awaits s op → op.kind = .systemRead → op.issue = c.issue → op.issuedFrom = 0 → op.count = 1 → c.outcome = .complete → c.k = 1 →
    c.delivery = .record b →
    ∃ u, exec (.channelCompletion c) s = .next (settle u) ∧
      u.startup.image = (if recordValid b then recordImage b else Settings.default) ∧
      u.staging = { s.staging with freeSlots := List.range (16 * 2 ^ u.startup.image.slotCode) } ∧
      (∃ r, u.startup.stage = .rebuild r ∧ r.band = 0 ∧ r.phase = .header ∧ r.first = 0 ∧ r.count = 1) ∧
      (∀ p, (u.link p).notices =
        if recordValid b then (s.link p).notices else takeNotice .settingsDefaulted none (s.link p).notices) ∧
      u.sched = { s.sched with current := none, channelTimer := none } ∧ u.custody = s.custody ∧ u.table = s.table ∧
      u.map = s.map ∧ u.alloc = s.alloc ∧ u.now = s.now

/-! ### Arbitration and write runs -/

/-- The arbitration. While the channel is busy it issues nothing; while it is free it issues the first operation available (R104, R112).
Rank 1: the start-up unit's, in the stages that ask for the geometry, the settings or a rebuild read, or, when start-up has ended, while a
save waits, whose SYSTEM_WRITE is spelled out with the saves. Rank 2: the relocation engine's pending operation, while the due list holds at
least the backlog limit of bands or F is at or below the critical mark (R113). Rank 3: the FETCH read run that goes on under R110, the first
of those, or else the first of the read-run queue, as a READ_RUN of its rest. Rank 4: the SUMMARY run at the head of the summary list, which
leaves the list: four sectors at C − 4, built from the builder of the stream that owns the band (R100). Rank 5: the host streams are
considered in the order that starts after the pointer; the first that is flush-eligible, with an extent record free, and issues a run, has
the pointer; one that issues none is passed over (R114). Rank 6: the relocation engine's pending operation; and with none, nothing is
issued, and the idle timer is started with the idle delay unless it runs or the idle flag is set (R112, R135). A stream is flush-eligible
when its queue holds a parcel, it has an OPEN band or no band and F is above 2, and its queued total has reached the flush threshold, its
oldest parcel the age limit, a DRAIN counts one of its parcels, or the engine is HALTING (R86, R94). The relocation engine offers nothing in
HALTED or when IDLE; a scan its next read in RUNNING, or the rest of one that has begun; a chunk that is READING the rest of its read; and
one that is WRITING a write run, while a copy is UNWRITTEN and the relocation stream has an OPEN band, or none and F is at least 1 (R42,
R110, R112, R137, R140, R146). Its read is issued as a READ_RUN of that rest. -/
def Obligations.ArbitrationIssuesFirstByRank : Prop :=
  (∀ s : State, s.sched.current ≠ none → arbitrate s = s) ∧
  (∀ s : State, s.sched.current = none →
     let pending :=
       s.startup.stage = .geometry ∨ s.startup.stage = .settings ∨ (∃ r, s.startup.stage = .rebuild r) ∨
         s.startup.stage = .finished ∧ s.startup.savesQueued ≠ []
     let sends := fun (t : State) (op : Operation) => ({ t with sched := issued t op, engine := busyEngine t } : State)
     let system := fun kind : OpKind =>
       ({ kind := kind, owner := .startUp, band := 0, zone := default, first := 0, count := 1, issue := 0, completed := 0, retries := 0
          issuedFrom := 0, awaiting := false, wait := none, items := [], sectors := [] } : Operation)
     let read := fun (owner : Owner) (band : Nat) (zone : ZoneRecord) (first count completed : Nat) =>
       ({ kind := .readRun, owner := owner, band := band, zone := zone, first := first, count := count, issue := 0
          completed := completed, retries := 0, issuedFrom := completed, awaiting := false, wait := none, items := []
          sectors := [] } : Operation)
     let urgency :=
       s.startup.image.backlogLimit ≤ s.table.due.length ∨ freeBands s ≤ s.startup.image.criticalMark
     let waiting := match s.sched.readQueue.find? fun r => 1 ≤ r.completed with
       | some r => some r
       | none => s.sched.readQueue.head?
     let hosts := selectHosts ((List.finRange 8).map fun i => s.sched.pointer + i + 1) s
     (s.startup.stage = .geometry → arbitrate s = sends s (system .geometry)) ∧
     (s.startup.stage = .settings → arbitrate s = sends s (system .systemRead)) ∧
     (∀ r x, s.startup.stage = .rebuild r → band? s r.band = some x →
       arbitrate s = sends s (read .startUp r.band (bandZone s x) r.first r.count r.buffer.length)) ∧
     (pending → arbitrate s = issueStart s) ∧
     (¬pending →
       (∀ op, urgency → relocPending s = some op → arbitrate s = issueReloc op s) ∧
       (¬urgency ∨ relocPending s = none →
         (∀ r, waiting = some r →
           arbitrate s = sends s (read (.fetch r.fetch r.pos) r.band r.zone r.first r.count r.completed)) ∧
         (waiting = none →
           (∀ b bs r i, s.sched.summaries = b :: bs → band? s b = some r → r.owner = some i →
             arbitrate s =
               sends { s with sched := { s.sched with summaries := bs } }
                 { kind := .summary, owner := .summaryRun, band := b, zone := bandZone s r, first := bandC s r - 4, count := 4
                   issue := 0, completed := 0, retries := 0, issuedFrom := 0, awaiting := false, wait := none, items := []
                   sectors := summarySectors r (stream s i).entries (stream s i).overflow }) ∧
           (s.sched.summaries = [] →
             (hosts.2 = true → arbitrate s = hosts.1) ∧
             (∀ op, hosts.2 = false → relocPending hosts.1 = some op → arbitrate s = issueReloc op hosts.1) ∧
             (hosts.2 = false → relocPending hosts.1 = none →
               let t := hosts.1
               arbitrate s =
                 if t.engine.idleTimer = none ∧ t.engine.idleFlag = false then
                   { t with engine := { t.engine with idleTimer := some (t.now + t.startup.image.idleDelay) } }
                 else t)))))) ∧
  (∀ (s : State) (t : Fin 8) (ts : List (Fin 8)),
     let served := selectHost t s
     selectHosts [] s = (s, false) ∧
     (¬(flushEligible s t = true ∧ 1 ≤ freeRecords s) → selectHosts (t :: ts) s = selectHosts ts s) ∧
     (flushEligible s t = true → 1 ≤ freeRecords s →
       selectHosts (t :: ts) s =
         if served.2 = true then ({ served.1 with sched := { served.1.sched with pointer := t } }, true)
         else selectHosts ts served.1)) ∧
  (∀ (s : State) (t : Fin 8),
     flushEligible s t = true ↔
       queueParcels s t ≠ [] ∧
       (s.alloc.hosts[t].openBand = none ∧ 2 < freeBands s ∨
         ∃ b r, s.alloc.hosts[t].openBand = some b ∧ band? s b = some r ∧ r.state = .opened) ∧
       (s.startup.image.flushThreshold ≤
           ((queueParcels s t).map fun x => match x.kind with | .data => x.length - x.written | .note => 1 - x.written).sum ∨
         (∃ x, (queueParcels s t).head? = some x ∧ s.startup.image.ageLimit ≤ s.now - x.acceptedAt) ∨
         (∃ x ∈ queueParcels s t, ∃ d ∈ s.staging.drains,
           x.port = d.requester.port ∧ (d.stream = none ∨ d.stream = some x.stream) ∧ x.seq < d.mark) ∨
         s.startup.engine = .halting)) ∧
  (∀ s : State,
     let stream := s.alloc.reloc.openBand
     let mayWrite := stream = none ∧ 1 ≤ freeBands s ∨ ∃ b r, stream = some b ∧ band? s b = some r ∧ r.state = .opened
     (s.startup.engine = .halted ∨ s.engine.activity = .idle → relocPending s = none) ∧
     (∀ c first count reads, s.startup.engine ≠ .halted → s.engine.activity = .patrol ∨ s.engine.activity = .verify →
       s.engine.scan = some c → c.reads = (first, count) :: reads →
       relocPending s =
         if s.startup.engine = .running ∨ 1 ≤ c.readDone then some (.read c.band first count c.readDone) else none) ∧
     (∀ v k, s.startup.engine ≠ .halted → s.engine.activity = .drain → s.engine.victim = some v → s.engine.chunk = some k →
       (k.stage = .reading → relocPending s = some (.read v k.first (k.last + 1 - k.first) k.buffer.length)) ∧
       (k.stage = .writing → (∃ c ∈ k.copies, c.state = .unwritten) → mayWrite → relocPending s = some .write) ∧
       (k.stage = .writing → ¬((∃ c ∈ k.copies, c.state = .unwritten) ∧ mayWrite) → relocPending s = none))) ∧
  (∀ (s : State) (b first count completed : Nat) (r : Band), band? s b = some r →
     issueReloc (.read b first count completed) s =
       { s with
         sched :=
           issued s
             { kind := .readRun, owner := .relocRead, band := b, zone := bandZone s r, first := first, count := count, issue := 0
               completed := completed, retries := 0, issuedFrom := completed, awaiting := false, wait := none, items := []
               sectors := [] }
         engine := { busyEngine s with scan := s.engine.scan.map fun c => { c with begun := true } } })

/-- A host stream that is selected issues a run, or none (R95). The DATA parcels without live blocks at the head of its queue are dropped,
and with an empty queue no run is issued. A stream without a band asks for one: none is given unless F is above 2; otherwise a pending
setting becomes its setting, the band is chosen under it, and the stream has it with an empty builder and no finish (R42, R91). The
candidates are the EMPTY bands whose cold group is masked as the cold placement says, or every EMPTY band when none is; the zone is the
lowest for OUTER, the highest for INNER, and for SPREAD the one with the most candidates, of equals the lowest; the band is the first
candidate in it (R88, R92). The relocation stream has the first EMPTY band, which it takes when it has none (R91, R93). A run takes the
parcels in queue order while their remaining sectors fit into the lesser of the room, D in a band at wp 0 and else C − 4 − wp, and 1,024
sectors with the header; the first DATA parcel that does not fit is split, and a note that does not fit ends the run; a dead DATA parcel is
dropped (R95). The carried parcels are FLUSHING, a record is held, and the WRITE_RUN is issued at wp, with the header first at wp 0 (R51,
R78, R96). The relocation engine's run carries the UNWRITTEN copies in list order in the same room, which are then IN_FLIGHT (R102, R140).
The sectors are built in order, each chained from the one before by 33 times its chain plus the payload check, the first from the band's
chain, and a header has the band seed (R7, R10 to R12, R15, R16). -/
def Obligations.WriteRunIsComposedAndIssued : Prop :=
  (∀ (s : State) (t : Fin 8) (n : Nat),
     (∀ id x, s.alloc.hosts[t].queue.head? = some id → parcel? s id = some x →
       dropAtHead t (n + 1) s =
         if x.kind = .data ∧ x.live = 0 then dropAtHead t n (removeParcel id s) else s) ∧
     (s.alloc.hosts[t].queue = [] → dropAtHead t n s = s ∧ selectHost t s = (s, false))) ∧
  (∀ (s : State) (x : StreamSetting),
     let cands := bandCandidates s x
     let count := fun z : Nat => cands.countP fun r => r.zone = z
     cands.Sublist s.table.bands ∧
     (∀ r, r ∈ cands ↔
       r ∈ s.table.bands ∧ r.state = .empty ∧
         (coldMasked s r.number = x.cold ∨ ∀ y ∈ s.table.bands, y.state = .empty → coldMasked s y.number ≠ x.cold)) ∧
     (chooseHostBand s x = none ↔ freeBands s = 0) ∧
     (∀ b, chooseHostBand s x = some b →
       ∃ pre r post, cands = pre ++ r :: post ∧ r.number = b ∧ (∀ y ∈ pre, y.zone ≠ r.zone) ∧
         ∀ y ∈ cands,
           match x.order with
           | .outer => r.zone ≤ y.zone
           | .inner => y.zone ≤ r.zone
           | .spread => count y.zone < count r.zone ∨ count y.zone = count r.zone ∧ r.zone ≤ y.zone) ∧
     chooseRelocBand s = (s.table.bands.find? fun r => r.state = .empty).map fun r => r.number) ∧
  (∀ (s : State) (t : Fin 8),
     let x := s.alloc.hosts[t]
     let setting := x.pendingSetting.getD x.setting
     (freeBands s ≤ 2 → takeHostBand t s = none) ∧
     (∀ b, 2 < freeBands s → chooseHostBand s setting = some b →
       takeHostBand t s =
         some
           (let u := takeBand b (.host t) s
           { u with
             alloc :=
               { s.alloc with
                 hosts := s.alloc.hosts.set t
                   { x with
                     openBand := some b, entries := [], overflow := false, finish := false, setting := setting
                     pendingSetting := none } } }))) ∧
  (∀ (s : State) (t : Fin 8) (b : Nat) (r : Band) (placed rest : List Parcel),
     let queue := placed ++ rest
     let left := fun x : Parcel => match x.kind with
       | .data => x.length - x.written
       | .note => 1 - x.written
     let sectors := fun x : Parcel => match x.kind with
       | .data => (List.range (x.length - x.written)).map fun j =>
           RunItem.data x.id (x.written + j) (x.start + x.written + j) x.seq
       | .note => [.note x.id x.start x.length x.seq]
     let limit := if r.wp = 0 then min (bandC s r - 5) 1023 else min (bandC s r - 4 - r.wp) 1024
     let room := limit - (placed.map left).sum
     let split := fun x : Parcel => x.kind = .data ∧ 1 ≤ room
     let carried := (placed ++ (rest.take 1).filter fun x => split x).map fun x => x.id
     let items :=
       (if r.wp = 0 then [RunItem.header] else []) ++ placed.flatMap sectors ++
         (rest.take 1).flatMap fun x => if split x then (sectors x).take room else []
     s.alloc.hosts[t].queue = queue.map (fun x => x.id) → (queue.map fun x => x.id).Nodup →
     (∀ x ∈ queue, parcel? s x.id = some x ∧ ¬(x.kind = .data ∧ x.live = 0)) → queue ≠ [] →
     (placed.map left).sum ≤ limit → (∀ x, rest.head? = some x → room < left x) →
     s.alloc.hosts[t].openBand = some b → band? s b = some r → r.state = .opened → r.number = b →
     selectHost t s =
       ({ s with
          staging :=
            { s.staging with
              parcels := s.staging.parcels.map fun x => if x.id ∈ carried then { x with state := .flushing } else x }
          sched :=
            issued s
              { kind := .writeRun, owner := .hostWrite t, band := b, zone := bandZone s r, first := r.wp, count := items.length
                issue := 0, completed := 0, retries := 0, issuedFrom := 0, awaiting := false, wait := none, items := items
                sectors := buildSectors r (hostPayload s) (r.chain.getD 0) items }
          map := { s.map with held := true }
          engine := busyEngine s }, true)) ∧
  (∀ (s : State) (t : Fin 8) (id : Nat) (x : Parcel),
     s.alloc.hosts[t].queue.head? = some id → parcel? s id = some x → ¬(x.kind = .data ∧ x.live = 0) →
     s.alloc.hosts[t].openBand = none →
     (takeHostBand t s = none → selectHost t s = (s, false)) ∧
     (∀ u b r, takeHostBand t s = some u → u.alloc.hosts[t].openBand = some b → band? u b = some r → r.state = .opened →
       selectHost t s = selectHost t u)) ∧
  (∀ (s : State) (t : Fin 8) (n k limit id : Nat) (items : List RunItem) (x : Parcel),
     s.alloc.hosts[t].queue[k]? = some id → parcel? s id = some x → x.kind = .data → x.live = 0 →
     composeParcels t (n + 1) k limit items s = composeParcels t n k limit items (removeParcel id s)) ∧
  (∀ (s : State) (b : Nat) (r : Band), s.alloc.reloc.openBand = none → chooseRelocBand s = some b → band? s b = some r →
     r.state = .empty →
     issueReloc .write s =
       issueReloc .write
         (let u := takeBand b .relocation s
         { u with
           alloc :=
             { s.alloc with
               reloc := { s.alloc.reloc with openBand := some b, entries := [], overflow := false, finish := false } } })) ∧
  (∀ (s : State) (b : Nat) (r : Band) (k : Chunk),
     s.alloc.reloc.openBand = some b → band? s b = some r → r.state = .opened → r.number = b → s.engine.chunk = some k →
     let limit := if r.wp = 0 then min (bandC s r - 5) 1023 else min (bandC s r - 4 - r.wp) 1024
     let copies := (k.copies.filter fun c => c.state = .unwritten).take limit
     let items :=
       (if r.wp = 0 then [RunItem.header] else []) ++
         copies.map fun c => match c.kind with
           | .data => .copy c.victimOffset c.lbn c.seq
           | .note => .noteCopy c.victimOffset c.lbn c.length c.seq
     issueReloc .write s =
       { s with
         sched :=
           issued s
             { kind := .writeRun, owner := .relocWrite, band := b, zone := bandZone s r, first := r.wp, count := items.length
               issue := 0, completed := 0, retries := 0, issuedFrom := 0, awaiting := false, wait := none, items := items
               sectors := buildSectors r (copyPayload copies) (r.chain.getD 0) items }
         engine :=
           { busyEngine s with
             chunk :=
               some
                 { k with
                   copies := k.copies.map fun c =>
                     if c.victimOffset ∈ copies.map (fun y => y.victimOffset) then { c with state := .inFlight } else c } } }) ∧
  (∀ (r : Band) (payload : RunItem → Block) (c : Chain) (i : RunItem) (is : List RunItem),
     let trailer := fun (kind : BitVec 8) (L q : Nat) (chain : Chain) =>
       { kind := kind, stamp := BitVec.ofNat 16 r.stamp, band := BitVec.ofNat 32 r.number, logical := BitVec.ofNat 64 L
         sequence := BitVec.ofNat 48 q, chain := chain : Trailer }
     let chained := 33#32 * c + payloadCheck (payload i)
     buildSectors r payload c [] = [] ∧
     ∃ x, buildSectors r payload c (i :: is) = x :: buildSectors r payload x.trailer.chain is ∧
       (i = .header →
         x.payload = headerPayload r.number r.stamp (r.openSeq.getD 0) ∧
         x.trailer = trailer 1 0 (r.openSeq.getD 0) (bandSeed r.number r.stamp)) ∧
       (∀ p j L q, i = .data p j L q ∨ i = .copy p L q → x.payload = payload i ∧ x.trailer = trailer 2 L q chained) ∧
       (∀ p L m q, i = .note p L m q ∨ i = .noteCopy p L m q → x.payload = payload i ∧ x.trailer = trailer 3 L q chained))

/-! ### Timers -/

/-- The channel timer of an awaited WRITE_RUN or SUMMARY with retries left expires: as after OFF_TRACK with k = 0 the operation is reissued
at once from its completed count, the retry count grown by 1. Time stands at the timer's end or later. Nothing else changes but the idle
timer and flag (R104, R106, R107, R135). The wait after NOT_READY ends: the operation is reissued from its completed count with its retry
count unchanged. Time stands at the wait's end or later. Nothing else changes but the idle timer and flag (R108, R135). The delay after a
failed geometry record ends in a state that owes no follow-on work (assumption 2), with the channel free: GEOMETRY is issued again (R2,
R104, R106, R112). Nothing else changes but the idle timer and flag, and the time. -/
def Obligations.ChannelAndGeometryWaitsEndInIssue : Prop :=
  (∀ (s : State) (op : Operation) (d : Nat),
     Awaits s op → op.kind = .writeRun ∨ op.kind = .summary → s.sched.channelTimer = some d → op.issuedFrom < op.count →
     op.retries < s.startup.image.retryLimit →
     exec .channelTimerExpiry s =
       .next (settle
         { s with
           now := max s.now d
           sched :=
             issued { s with now := max s.now d } { op with completed := op.issuedFrom, retries := op.retries + 1 }
           engine := busyEngine s })) ∧
  (∀ (s : State) (op : Operation) (d : Nat), s.sched.current = some op → op.wait = some d →
     exec .notReadyWaitExpiry s =
       .next
         { s with
           now := max s.now d
           sched := issued { s with now := max s.now d } op
           engine := busyEngine s }) ∧
  (∀ (s : State) (d : Nat), s.startup.stage = .geometryWait d → s.startup.engine = .starting → s.sched.current = none →
     s.agenda = { freed := [], offered := false, choice := false } → s.engine.scan = none →
     exec .geometryRetryExpiry s =
       .next
         { s with
           now := max s.now d
           startup := { s.startup with stage := .geometry }
           sched :=
             issued { s with now := max s.now d }
               { kind := .geometry, owner := .startUp, band := 0, zone := default, first := 0, count := 1, issue := 0, completed := 0
                 retries := 0, issuedFrom := 0, awaiting := false, wait := none, items := [], sectors := [] }
           engine := busyEngine s })

/-- A temperature report sets the class, clears the stale flag and restarts the staleness timer at 4,000 ms; the class in force is then the
reported one. Nothing else changes (R118). The staleness timer expires: the stale flag is set, the class in force becomes 3,
TEMPERATURE_STALE is placed on both lists, and the timer is not restarted. Nothing else changes but the time (R119, R164). The slot-wait
timer of a port's waiting PLACE or RELEASE expires: the request is refused NO_SLOT and leaves its list; the others keep their order, and
nothing else changes but the time (R82). The idle timer expires: it stops, the idle flag is set, and the choice of R134 is due; nothing else
changes but the time (R134, R135). The oldest parcel of a stream reaches the age limit: time stands at that moment or later and an
arbitration is due; when it finds the stream with an OPEN band, the stream is flush-eligible. Nothing else changes (R86, R94). -/
def Obligations.ReportsAndTimersTakeEffect : Prop :=
  (∀ (s : State) (c : Fin 4),
     exec (.temperatureReport c) s =
       .next
         { s with
           sched := { s.sched with tempClass := some c, stale := false, staleTimer := some (s.now + 4000) } } ∧
     classInForce { s with
       sched := { s.sched with tempClass := some c, stale := false, staleTimer := some (s.now + 4000) } } = c) ∧
  (∀ (s : State) (d : Nat), s.sched.staleTimer = some d →
     ∃ t, exec .stalenessTimerExpiry s = .next t ∧ classInForce t = 3 ∧
       t =
         { s with
           now := max s.now d
           sched := { s.sched with stale := true, staleTimer := none }
           links :=
             { a := { s.links.a with notices := takeNotice .temperatureStale none s.links.a.notices }
               b := { s.links.b with notices := takeNotice .temperatureStale none s.links.b.notices } } }) ∧
  (∀ (s : State) (p : Port) (f : RequestFrame) (w : Waiter),
     (s.link p).up = true → (s.link p).queue.head? = some f →
     (s.staging.slotWait ++ s.staging.noteWait).find? (fun w => w.port = p) = some w →
     exec (.slotWaitTimerExpiry p) s =
       .next
         { s with
           now := max s.now w.deadline
           links := s.links.set p (answered (s.link p) (reply s f .noSlot .none []))
           staging :=
             { s.staging with
               slotWait := s.staging.slotWait.filter fun w => w.port ≠ p
               noteWait := s.staging.noteWait.filter fun w => w.port ≠ p } }) ∧
  (∀ (s : State) (d : Nat), s.engine.idleTimer = some d →
     exec .idleTimerExpiry s =
       .next (settle (choiceDue
         { s with now := max s.now d, engine := { s.engine with idleTimer := none, idleFlag := true } }))) ∧
  (∀ (s : State) (t : Fin 8) (x : Parcel) (b : Nat) (r : Band), (queueParcels s t).head? = some x →
     exec (.parcelAgeLimitReached t) s =
       .next (settle (offer { s with now := max s.now (x.acceptedAt + s.startup.image.ageLimit) })) ∧
     (s.alloc.hosts[t].openBand = some b → band? s b = some r → r.state = .opened →
       flushEligible (offer { s with now := max s.now (x.acceptedAt + s.startup.image.ageLimit) }) t = true))

/-! ### Follow-on steps -/

/-- A free slot is handed to the PLACE that waits longest and alone: the checks of its take from check 2 on are made again without the field
checks; it is refused with the status of the first that fails, or NOT_RUNNING at the sequence limit, and the slot joins the free-slot set
again; otherwise it is accepted in that slot, as PLACE is at its take: map, response, parcel, slot data and the tail of its stream's queue
(R73, R74, R82, R83). A free note entry is handed to the RELEASE that waits alone, with no PLACE waiting: it is refused in the same way,
answered without an entry when its unit is no longer mapped, the entry joining the free note set again in each case, and otherwise accepted
with that entry, as RELEASE is at its take (R73, R80, R82, R83). The waiting port's link is UP. That a resource stands free while a request
waits is met by no run (assumption 2), and that a DRAIN counted down to 0 by a drop is answered before the request is the model's choice
(assumption 11). -/
def Obligations.HandedRequestIsTakenAgain : Prop :=
  (∀ (s : State) (w : Waiter) (f : RequestFrame) (n : Nat) (rest : List Nat),
     s.staging.slotWait = [w] → s.staging.freeSlots = n :: rest → (s.link w.port).queue.head? = some f → (s.link w.port).up = true →
     (∀ st, retakeCheck s w.port .place f = some st ∨
         (retakeCheck s w.port .place f = none ∧ 2 ^ 48 - 1 ≤ s.staging.seqCounter ∧ st = .notRunning) →
       exec .heldRequestHanded s =
         .next (settle
           { s with
             links := s.links.set w.port (answered (s.link w.port) (reply s f st .none []))
             staging := { s.staging with slotWait := [], freeSlots := insertSorted n rest } })) ∧
     (retakeCheck s w.port .place f = none → s.staging.seqCounter < 2 ^ 48 - 1 →
       ∃ u, exec .heldRequestHanded s = .next (settle u) ∧
         (∀ L, resolve u.map.records L =
           if requestStart f ≤ L ∧ L < requestEnd f then some (.staged n (L - requestStart f))
           else resolve s.map.records L) ∧
         (u.link w.port).sent.getLast? =
           some (reply s f .done
             (.place s.staging.seqCounter (stagedOf s w.port.other (requestStart f) (requestEnd f))) []) ∧
         (u.link w.port).queue = (s.link w.port).queue.tail ∧ (u.link w.port).holding = false ∧
         u.staging.slotWait = [] ∧ u.staging.freeSlots = rest ∧ u.staging.seqCounter = s.staging.seqCounter + 1 ∧
         (parcel? s n = none → (∀ r ∈ s.map.records, ∀ i, r.loc ≠ .staged n i) →
           parcel? u n =
             some
               { id := n, kind := .data, port := w.port, stream := requestStream f, start := f.lbn.toNat, length := f.length.toNat
                 seq := s.staging.seqCounter, live := f.length.toNat, written := 0, state := .queued, acceptedAt := s.now }) ∧
         u.alloc.hosts[requestStream f].queue.getLast? = some n ∧
         (PoolLaw s → ∀ a, poolBlock u a =
           if n * slotSize s ≤ a ∧ a < n * slotSize s + f.length.toNat then
             f.data.getD (a - n * slotSize s) zeroBlock
           else poolBlock s a) ∧
         u.custody = s.custody ∧ u.sched = s.sched ∧ u.startup = s.startup ∧ u.now = s.now ∧ u.pending = s.pending)) ∧
  (∀ (s : State) (w : Waiter) (f : RequestFrame) (n : Nat) (rest : List Nat),
     s.staging.slotWait = [] → s.staging.noteWait = [w] → s.staging.freeNotes = n :: rest → (s.link w.port).queue.head? = some f →
     (s.link w.port).up = true →
     (∀ st, retakeCheck s w.port .release f = some st ∨
         (retakeCheck s w.port .release f = none ∧ unitMapped s f = true ∧ 2 ^ 48 - 1 ≤ s.staging.seqCounter ∧ st = .notRunning) →
       exec .heldRequestHanded s =
         .next (settle
           { s with
             links := s.links.set w.port (answered (s.link w.port) (reply s f st .none []))
             staging := { s.staging with noteWait := [], freeNotes := insertSorted n rest } })) ∧
     (retakeCheck s w.port .release f = none → unitMapped s f = false →
       exec .heldRequestHanded s =
         .next (settle
           { s with
             links := s.links.set w.port
               (answered (s.link w.port)
                 (reply s f (if f.length.toNat ≤ 65536 then .done else .partially)
                   (.release none (if f.length.toNat ≤ 65536 then none else some (f.lbn.toNat + 65536))) []))
             staging := { s.staging with noteWait := [], freeNotes := insertSorted n rest } })) ∧
     (retakeCheck s w.port .release f = none → unitMapped s f = true → s.staging.seqCounter < 2 ^ 48 - 1 →
       ∃ u, exec .heldRequestHanded s = .next (settle u) ∧
         (∀ L, resolve u.map.records L =
           if f.lbn.toNat ≤ L ∧ L < f.lbn.toNat + min f.length.toNat 65536 then none else resolve s.map.records L) ∧
         u.staging.parcels.getLast? =
           some { id := 16 * 2 ^ s.startup.image.slotCode + n, kind := .note, port := w.port, stream := requestStream f
                  start := f.lbn.toNat, length := min f.length.toNat 65536, seq := s.staging.seqCounter, live := 0, written := 0
                  state := .queued, acceptedAt := s.now } ∧
         u.alloc.hosts[requestStream f].queue.getLast? = some (16 * 2 ^ s.startup.image.slotCode + n) ∧
         u.staging.seqCounter = s.staging.seqCounter + 1 ∧ u.staging.freeNotes = rest ∧ u.staging.noteWait = [] ∧
         (u.link w.port).sent.getLast? =
           some (reply s f (if f.length.toNat ≤ 65536 then .done else .partially)
             (.release (some s.staging.seqCounter) (if f.length.toNat ≤ 65536 then none else some (f.lbn.toNat + 65536))) []) ∧
         (u.link w.port).queue = (s.link w.port).queue.tail ∧ (u.link w.port).holding = false ∧
         u.staging.pool = s.staging.pool ∧ u.custody = s.custody ∧ u.sched = s.sched ∧ u.startup = s.startup ∧ u.now = s.now ∧
         u.pending = s.pending))

/-- The FETCH at the head of the read wait list, here the only one, is taken again when there is room for the read runs that the map now
gives it: it leaves the list and its runs are queued and pinned; without room it stays (R115, R116). A FETCH whose read runs have all ended,
here the only FETCH of the part, is answered with its blocks in LBN order, DONE or PARTIAL with its resume LBN, the number of excepted
blocks, the first of them with its reason, and the number of unmapped blocks; its read-buffer room is free again. Nothing else changes (R64,
R117). Both steps sent by themselves are the model's (assumption 2). -/
def Obligations.HeldAndEndedFetchesGoOn : Prop :=
  (∀ (s : State) (p : Port) (f : RequestFrame),
     s.sched.readWait = [p] → (s.link p).queue.head? = some f → fetchRuns s f ≠ [] →
     ∃ u, exec .fetchRetake s = .next (settle u) ∧
       (s.sched.readQueue.length + (fetchRuns s f).length ≤ 64 ∧ runBlocks (fetchRuns s f) ≤ readBufferFree s →
         u =
           offer
             { s with
               links := s.links.set p (taken (s.link p))
               table := { s.table with bands := u.table.bands }
               sched :=
                 { s.sched with
                   readWait := []
                   readQueue := s.sched.readQueue ++ fetchRuns s f
                   fetches :=
                     s.sched.fetches ++
                       [{ id := s.sched.nextFetch, requester := requesterOf p f, answers := snapshotAnswers s f, resume := fetchResume s f
                          runsLeft := (fetchRuns s f).length, reserved := runBlocks (fetchRuns s f) }]
                   nextFetch := s.sched.nextFetch + 1 } } ∧
         ∀ b, band? u b = (band? s b).map fun x => { x with pins := x.pins + (fetchRuns s f).countP fun r => r.band = b }) ∧
       (¬(s.sched.readQueue.length + (fetchRuns s f).length ≤ 64 ∧ runBlocks (fetchRuns s f) ≤ readBufferFree s) → u = s)) ∧
  (∀ (s : State) (x : FetchRecord),
     s.sched.fetches = [x] → x.runsLeft = 0 → x.requester.orphaned = false → (s.link x.requester.port).up = true →
     s.sched.readWait = [] →
     exec .fetchResponse s =
       .next (settle
         (let excepted := fun a : Answer => match a with
           | .excepted _ => true
           | _ => false
         { s with
           sched := { s.sched with fetches := [] }
           links := s.links.set x.requester.port
             (answeredLate (s.link x.requester.port)
               (lateReply s x.requester (if x.resume = none then .done else .partially)
                 (.fetch (x.answers.countP excepted) (x.answers.findIdx? excepted)
                   (x.answers.findSome? fun a => match a with
                     | .excepted r => some r
                     | _ => none)
                   (x.answers.countP fun a => a = .unmapped) x.resume)
                 (x.answers.map fun a => match a with
                   | .data b => b
                   | _ => zeroBlock))) })))

/-- The reset that a band's pins held back, with no pin left: a DRAINING band that is not the current victim, or a FILLED one without live
blocks and notes, is retired when RETIRE is among its causes, with its RETIRED notice and F unchanged, and is otherwise reset to EMPTY,
keeping its stamp, with F grown by 1; it leaves the due list either way, and no other band changes (R30 to R33, R36, R39). Of any other band
nothing changes, and, in STARTING, where no pin holds a reset back, of none (assumption 48). The step sent by itself is the model's
(assumption 2). A band leaves the due list when it is chosen as victim, when it is reset and when it is retired, and the other bands keep
their order; the victim keeps its due causes, and a band reset or retired loses them (R39). -/
def Obligations.LastPinCompletesHeldReset : Prop :=
  (∀ (s : State) (b : Nat),
     (s.startup.engine = .starting ∨ band? s b = none ∨
       ∃ r, band? s b = some r ∧
         (r.pins ≠ 0 ∨
           ¬(r.state = .draining ∧ s.engine.victim ≠ some b) ∧ ¬(r.state = .filled ∧ r.live = 0 ∧ r.notes = 0))) →
     exec (.heldResetLastPin b) s = .next (settle s)) ∧
  (∀ (s : State) (b : Nat) (r : Band),
     s.startup.engine ≠ .starting → band? s b = some r → r.pins = 0 →
     r.state = .draining ∧ s.engine.victim ≠ some b ∨ r.state = .filled ∧ r.live = 0 ∧ r.notes = 0 →
     ∃ u, exec (.heldResetLastPin b) s = .next (settle u) ∧
       band? u b =
         some
           (if r.causes.retire then
             { r with
               state := .retired, live := 0, notes := 0, exposure := 0, minSeq := none, neglected := false, owner := none
               causes := { exposure := false, brk := false, media := false, retire := false } }
           else
             { number := r.number, zone := r.zone, stamp := r.stamp, state := .empty, wp := 0, live := 0, notes := 0, exposure := 0
               chain := none, openSeq := none, minSeq := none, breakOffset := none, neglected := false, summaryPresent := false
               owner := none, pins := 0
               causes := { exposure := false, brk := false, media := false, retire := false } }) ∧
       (∀ n, n ≠ b → band? u n = band? s n) ∧ u.table.due = s.table.due.erase b ∧
       freeBands u = (if r.causes.retire then freeBands s else freeBands s + 1) ∧
       (r.causes.retire = true → ∀ p, (u.link p).notices = takeNotice .retired (some b) (s.link p).notices) ∧
       u.custody = s.custody ∧ u.map = s.map ∧ u.staging = s.staging ∧ u.sched = s.sched ∧ u.alloc = s.alloc ∧
       u.engine = s.engine ∧ u.startup = s.startup) ∧
  (∀ (s : State) (b : Nat) (r : Band), band? s b = some r →
     ((drainBand b s).table.due = s.table.due.erase b ∧
       (band? (drainBand b s) b).map (fun x => x.causes) = some r.causes) ∧
     ((resetBand b s).table.due = s.table.due.erase b ∧
       (band? (resetBand b s) b).map (fun x => x.causes) = some Causes.none) ∧
     ((retireBand b s).table.due = s.table.due.erase b ∧
       (band? (retireBand b s) b).map (fun x => x.causes) = some Causes.none))

/-! ### The relocation engine -/

/-- The choice of R134, in RUNNING with an IDLE engine, is the first available. Due: the first FILLED band on the due list, while the
recovery wait is clear. Cleaning: when F is at or below the low mark and the recovery wait is clear, the FILLED band of the least live +
notes, and of equals the first, among those with dead sectors (wp − 1 less live and notes) or without live blocks. VERIFY_BAND: the entry at
the head of the queue is examined. Pull-in: when the idle flag is set, the due list empty and the recovery wait clear, the FILLED band of
the highest exposure, and of equals the first, among those in no masked cold group, at or above floor(3 × T / 4) and without causes (R132).
With the idle flag clear or a band on the due list, nothing further is chosen and nothing changes. A band chosen as victim goes to DRAINING
with its causes kept and leaves the due list, its scan begins at offset 1 from the band seed, and its first chunk of up to 1,024 sectors is
to be read, or, when it holds no data, its drain ends at once; no other band changes (R28, R34, R134, R137, R145). The step sent by itself
is the model's (assumption 2). -/
def Obligations.ChoiceTakesFirstAvailable : Prop :=
  ∀ s : State, s.engine.activity = .idle → s.startup.engine = .running →
    let chosen := exec .chooseNextWork s
    let drained := fun (b : Nat) (r : Band) (why : VictimReason) =>
      let t : State :=
        { s with
          table :=
            { s.table with bands := s.table.bands.set b { r with state := .draining }, due := s.table.due.erase b } }
      if 2 ≤ r.wp then
        offer
          { t with
            engine :=
              { s.engine with
                activity := .drain
                victim := some b
                reason := some why
                scan :=
                  some
                    { band := r.number, stamp := r.stamp, state := .draining, next := 1, reads := [], readDone := 0, begun := false
                      pred := some (bandSeed r.number r.stamp), firstBreak := none, unreadable := [], runUnreadable := [] }
                chunk :=
                  some { first := 1, last := min 1024 (r.wp - 1), stage := .reading, buffer := [], copies := [] } } }
      else
        endDrain b (choiceDue
          { t with
            engine := { s.engine with activity := .idle, victim := none, reason := none, scan := none, chunk := none } })
    let due := s.table.due.find? fun n => (s.table.bands[n]?.any fun x => x.state = .filled)
    let cleanable := fun r : Band => r.state = .filled ∧ (1 ≤ r.wp - 1 - r.live - r.notes ∨ r.live = 0)
    let pullable := fun r : Band =>
      r.state = .filled ∧ coldMasked s r.number = false ∧ 3 * s.startup.image.threshold / 4 ≤ r.exposure ∧
        r.causes = { exposure := false, brk := false, media := false, retire := false }
    let noDue := s.engine.recoveryWait = true ∨ due = none
    let noCleaning :=
      s.engine.recoveryWait = true ∨ s.startup.image.lowMark < freeBands s ∨ ∀ r ∈ s.table.bands, ¬cleanable r
    (∀ b r, s.engine.recoveryWait = false → due = some b → s.table.bands[b]? = some r →
      chosen = .next (settle (drained b r .due))) ∧
    (∀ pre r post, s.engine.recoveryWait = false → due = none → freeBands s ≤ s.startup.image.lowMark →
      s.table.bands = pre ++ r :: post → r.number = pre.length → cleanable r →
      (∀ x ∈ pre, cleanable x → r.live + r.notes < x.live + x.notes) →
      (∀ x ∈ post, cleanable x → r.live + r.notes ≤ x.live + x.notes) →
      chosen = .next (settle (drained r.number r .cleaning))) ∧
    (noDue → noCleaning → s.engine.verifyQueue ≠ [] → chosen = .next (settle (beginVerify s))) ∧
    (∀ pre r post, s.engine.recoveryWait = false → noCleaning → s.engine.verifyQueue = [] → s.engine.idleFlag = true →
      s.table.due = [] → s.table.bands = pre ++ r :: post → r.number = pre.length → pullable r →
      (∀ x ∈ pre, pullable x → x.exposure < r.exposure) → (∀ x ∈ post, pullable x → x.exposure ≤ r.exposure) →
      chosen = .next (settle (drained r.number r .pullIn))) ∧
    (noDue → noCleaning → s.engine.verifyQueue = [] → s.engine.idleFlag = false ∨ s.table.due ≠ [] →
      chosen = .next (settle s))

/-- The decisions of a chunk, offset by offset in ascending order (R138). Where the map places LBN L at the victim's offset, a sector of
kind DATA with the victim's number and stamp and logical field L gives a DATA copy; any other sector, or none, marks L LOST, which lowers
the victim's live count and sends BLOCKS_LOST, or, when it needs more records than are free, ends the decisions (R61, R143). Where the map
places none, a NOTE sector of the victim's life at or above the low-water gives a NOTE copy, and anything else nothing, but that the offset
of a NOTE sector whose trailer names another band or stamp is listed as unreadable. The low-water is the least of the min data sequences of
the other bands that are not EMPTY and the staging minimum, or the sequence counter when there is none (R139). A chunk with copies then goes
to WRITING, with the victim's next offset after it, and MEDIA added to the victim's causes when an offset was unreadable or listed so (R137,
R143). The victim is DRAINING. The model's choices: a note is known by the kind of its trailer (assumption 44), and a NOTE copy keeps its
payload as read (assumption 47). -/
def Obligations.ChunkDecisionsFollowMap : Prop :=
  (∀ (s : State) (v stamp lw o : Nat) (copies : List Copy), decideChunk v stamp lw o [] copies s = (copies, false, s)) ∧
  (∀ (s : State) (v stamp lw o L : Nat) (x : Option Sector) (xs : List (Option Sector)) (copies : List Copy) (r : Band),
     MapLaw s → band? s v = some r → r.state = .draining → searchLocation s.map.records v o = some L →
     let good := fun sec : Sector =>
       sec.trailer.kind = 2 ∧ sec.trailer.band.toNat = v ∧ sec.trailer.stamp.toNat = stamp ∧ sec.trailer.logical.toNat = L
     resolve s.map.records L = some (.media v o) ∧
     (∀ sec, x = some sec → good sec →
       decideChunk v stamp lw o (x :: xs) copies s =
         decideChunk v stamp lw (o + 1) xs
           (copies ++
             [{ kind := .data, victimOffset := o, lbn := L, length := 1, seq := sec.trailer.sequence.toNat, payload := sec.payload
                check := payloadCheck sec.payload, state := .unwritten }]) s) ∧
     ((∀ sec, x = some sec → ¬good sec) →
       (lostBlock L s.map.records).length ≤ s.map.records.length + freeRecords s →
       ∃ t, decideChunk v stamp lw o (x :: xs) copies s = decideChunk v stamp lw (o + 1) xs copies t ∧
         (∀ K, resolve t.map.records K = if K = L then some .lost else resolve s.map.records K) ∧
         band? t v = some { r with live := r.live - 1 } ∧ (∀ n, n ≠ v → band? t n = band? s n) ∧
         (∀ p, t.link p = { s.link p with notices := takeNotice .blocksLost (some v) (s.link p).notices }) ∧
         t.staging = s.staging ∧ t.custody = s.custody ∧ t.alloc = s.alloc ∧ t.sched = s.sched ∧ t.startup = s.startup ∧
         t.engine = { s.engine with recoveryWait := t.engine.recoveryWait }) ∧
     ((∀ sec, x = some sec → ¬good sec) →
       ¬(lostBlock L s.map.records).length ≤ s.map.records.length + freeRecords s →
       decideChunk v stamp lw o (x :: xs) copies s = (copies, true, s))) ∧
  (∀ (s : State) (v stamp lw o : Nat) (x : Option Sector) (xs : List (Option Sector)) (copies : List Copy),
     searchLocation s.map.records v o = none →
     let good := fun sec : Sector =>
       sec.trailer.kind = 3 ∧ sec.trailer.band.toNat = v ∧ sec.trailer.stamp.toNat = stamp ∧ lw ≤ sec.trailer.sequence.toNat
     let fails := fun sec : Sector => sec.trailer.kind = 3 ∧ ¬(sec.trailer.band.toNat = v ∧ sec.trailer.stamp.toNat = stamp)
     (∀ L, resolve s.map.records L ≠ some (.media v o)) ∧
     (∀ sec, x = some sec → good sec →
       decideChunk v stamp lw o (x :: xs) copies s =
         decideChunk v stamp lw (o + 1) xs
           (copies ++
             [{ kind := .note, victimOffset := o, lbn := sec.payload.toNat % 2 ^ 64, length := sec.payload.toNat / 2 ^ 64 % 2 ^ 32
                seq := sec.payload.toNat / 2 ^ 128 % 2 ^ 48, payload := sec.payload
                check := payloadCheck sec.payload, state := .unwritten }]) s) ∧
     (∀ sec, x = some sec → fails sec →
       decideChunk v stamp lw o (x :: xs) copies s =
         decideChunk v stamp lw (o + 1) xs copies
           { s with
             engine :=
               { s.engine with
                 scan := s.engine.scan.map fun c =>
                   { c with unreadable := c.unreadable ++ [o], runUnreadable := c.runUnreadable ++ [o] } } }) ∧
     ((∀ sec, x = some sec → ¬good sec ∧ ¬fails sec) →
       decideChunk v stamp lw o (x :: xs) copies s = decideChunk v stamp lw (o + 1) xs copies s)) ∧
  (∀ (s : State) (v : Nat),
     let present := fun q : Nat =>
       (∃ r ∈ s.table.bands, r.state ≠ .empty ∧ r.number ≠ v ∧ r.minSeq = some q) ∨ ∃ x ∈ s.staging.parcels, x.seq = q
     ((∃ q, present q) → present (lowWaterOf v s) ∧ ∀ q, present q → lowWaterOf v s ≤ q) ∧
     ((∀ q, ¬present q) → lowWaterOf v s = s.staging.seqCounter)) ∧
  (∀ (s w : State) (v : Nat) (c d : Scan) (k : Chunk) (copies : List Copy) (r : Band),
     s.engine.victim = some v → s.engine.scan = some c → s.engine.chunk = some k → copies ≠ [] →
     decideChunk v c.stamp (lowWaterOf v s) k.first k.buffer []
       { s with engine := { s.engine with lowWater := some (lowWaterOf v s) } } = (copies, false, w) →
     w.engine.scan = some d → band? w v = some r → r.state = .draining → r.stamp = c.stamp →
     endChunkRead s =
       offer
         { w with
           table :=
             { w.table with
               bands := w.table.bands.set v { r with causes := { r.causes with media := r.causes.media || !d.runUnreadable.isEmpty } } }
           engine :=
             { w.engine with
               scan := some { d with next := k.last + 1, runUnreadable := [] }
               chunk := some { k with stage := .writing, buffer := [], copies := copies } } })

/-- The completed items of a relocation run from victim v into band d, in destination offset order. A DATA copy whose LBN the map still
places at its victim offset is COMMITTED: the LBN becomes MEDIA at the destination offset, d gains a live block and v, which is DRAINING,
loses one; it is not made when it needs more records than are free. One whose LBN the map places elsewhere or nowhere is DEAD, and a NOTE
copy is COMMITTED without a change of the map (R59, R60, R141). When a commit is not made the victim is abandoned; otherwise the copies of
the items not completed are UNWRITTEN again, and while one is left the engine offers its next run (R140, R141, R144). -/
def Obligations.RelocationCommitMovesBlock : Prop :=
  (∀ (s : State) (v d o : Nat) (is : List RunItem),
     let settled := fun (vo : Nat) (st : CopyState) =>
       s.engine.chunk.map fun k => { k with copies := k.copies.map fun c => if c.victimOffset = vo then { c with state := st } else c }
     commitCopies v d o [] s = (false, s) ∧
     commitCopies v d o (.header :: is) s = commitCopies v d (o + 1) is s ∧
     (∀ vo first n q,
       commitCopies v d o (.noteCopy vo first n q :: is) s =
         commitCopies v d (o + 1) is { s with engine := { s.engine with chunk := settled vo .committed } }) ∧
     (∀ vo L q, resolve s.map.records L ≠ some (.media v vo) →
       commitCopies v d o (.copy vo L q :: is) s =
         commitCopies v d (o + 1) is { s with engine := { s.engine with chunk := settled vo .dead } }) ∧
     (∀ vo L q r x, resolve s.map.records L = some (.media v vo) → v ≠ d → band? s v = some r → r.state = .draining →
       band? s d = some x → (commitBlock L d o s.map.records).length ≤ s.map.records.length + freeRecords s →
       ∃ t, commitCopies v d o (.copy vo L q :: is) s = commitCopies v d (o + 1) is t ∧
         (∀ K, resolve t.map.records K = if K = L then some (.media d o) else resolve s.map.records K) ∧
         band? t v = some { r with live := r.live - 1 } ∧ band? t d = some { x with live := x.live + 1 } ∧
         (∀ n, n ≠ v → n ≠ d → band? t n = band? s n) ∧
         t.engine = { s.engine with chunk := settled vo .committed, recoveryWait := t.engine.recoveryWait } ∧
         t.links = s.links ∧ t.staging = s.staging ∧ t.custody = s.custody ∧ t.alloc = s.alloc ∧ t.sched = s.sched ∧
         t.startup = s.startup) ∧
     (∀ vo L q, resolve s.map.records L = some (.media v vo) →
       ¬(commitBlock L d o s.map.records).length ≤ s.map.records.length + freeRecords s →
       commitCopies v d o (.copy vo L q :: is) s = (true, s))) ∧
  (∀ (s t : State) (v d first n : Nat) (items : List RunItem), s.engine.victim = some v →
     (commitCopies v d first (items.take n) s = (true, t) → relocCompletion d first items n s = abandonVictim t) ∧
     (∀ k, commitCopies v d first (items.take n) s = (false, t) → t.engine.chunk = some k →
       let left := (items.drop n).filterMap itemCopy
       let copies := k.copies.map fun c => if c.victimOffset ∈ left then { c with state := .unwritten } else c
       (∃ c ∈ copies, c.state = .unwritten ∨ c.state = .inFlight) →
       relocCompletion d first items n s = offer { t with engine := { t.engine with chunk := some { k with copies := copies } } }))

/-- An abandoned victim goes back to FILLED with its findings: MEDIA for unreadable offsets not yet handed, BREAK with the first break
offset, kept where one stands already, and a BREAK notice; with any cause it joins the due list's tail with BAND_DUE; MAP_FULL is sent once.
The engine becomes IDLE with no victim, scan or chunk and with the recovery wait set, its choice is due, and nothing else changes (R35, R37,
R40, R143, R144). While the recovery wait is set no due, cleaning or pull-in victim is chosen; a change of the map that leaves 64 or more
records free clears it (R144). -/
def Obligations.AbandonedVictimGoesBack : Prop :=
  (∀ (s : State) (b : Nat) (c : Scan) (r : Band), s.engine.victim = some b → s.engine.scan = some c → band? s b = some r →
     r.state = .draining → r.stamp = c.stamp → b ∉ s.table.due →
     let causes :=
       { r.causes with brk := r.causes.brk || c.firstBreak.isSome, media := r.causes.media || !c.runUnreadable.isEmpty }
     let due := causes.exposure || causes.brk || causes.media || causes.retire
     ∃ u, abandonVictim s = u ∧
       u =
         { s with
           links := u.links
           table :=
             { s.table with
               bands := s.table.bands.set b { r with state := .filled, causes := causes, breakOffset := r.breakOffset.or c.firstBreak }
               due := if due then s.table.due ++ [b] else s.table.due }
           engine :=
             { s.engine with
               activity := .idle, victim := none, reason := none, scan := none, chunk := none, recoveryWait := true }
           agenda := { s.agenda with choice := true } } ∧
       ∀ p, u.link p =
         { s.link p with
           notices :=
             (let l := (s.link p).notices
             let l := if c.firstBreak.isSome then takeNotice .breakFound (some b) l else l
             let l := if due then takeNotice .bandDue (some b) l else l
             takeNotice .mapFull none l) }) ∧
  (∀ s : State, s.engine.recoveryWait = true →
     dueVictim s = none ∧ cleaningVictim s = none ∧ (s.engine.activity ≠ .drain → (chooseWork s).engine.activity ≠ .drain) ∧
     ∀ m : List Extent,
       ((setRecords m s).engine.recoveryWait = true ↔ 1048576 - (m.length + if s.map.held then 1 else 0) < 64))

/-- The chain check of a scan (R18, R19). The sector at offset 0 is expected to carry the band seed as its chain, and any other, where the
sector before it was read, 33 times that sector's chain plus its own payload check; the first offset whose chain differs is the break
offset. Where the sector before was not read nothing is expected. A sector read becomes the predecessor; an unreadable one leaves none, and
its offset is listed. Sectors that come in several completions are checked as one sequence. -/
def Obligations.ScanChecksBandChain : Prop :=
  (∀ (seed : Chain) (o : Nat) (pred : Option Chain) (brk : Option Nat), checkSector seed o none pred brk = (none, brk)) ∧
  (∀ (seed : Chain) (o : Nat) (x : Sector) (pred : Option Chain) (brk : Option Nat),
     let expected := if o = 0 then some seed else pred.map fun c => 33#32 * c + payloadCheck x.payload
     checkSector seed o (some x) pred brk =
       (some x.trailer.chain, if expected = none ∨ expected = some x.trailer.chain then brk else brk.or (some o))) ∧
  (∀ (seed : Chain) (o : Nat) (xs ys : List (Option Sector)) (pred : Option Chain) (brk : Option Nat),
     checkSectors seed o (xs ++ ys) pred brk =
       checkSectors seed (o + xs.length) ys (checkSectors seed o xs pred brk).1 (checkSectors seed o xs pred brk).2) ∧
  (∀ (c : Scan) (o : Nat) (xs : List (Option Sector)),
     let r := checkSectors (BitVec.ofNat 32 (65537 * c.stamp + c.band)) o xs c.pred c.firstBreak
     c.feed o xs =
       { c with
         pred := r.1, firstBreak := r.2
         unreadable := (c.feed o xs).unreadable, runUnreadable := (c.feed o xs).runUnreadable } ∧
     ∀ n,
       (n ∈ (c.feed o xs).unreadable ↔ n ∈ c.unreadable ∨ ∃ i, xs[i]? = some none ∧ n = o + i) ∧
       (n ∈ (c.feed o xs).runUnreadable ↔ n ∈ c.runUnreadable ∨ ∃ i, xs[i]? = some none ∧ n = o + i))

/-- With the idle flag set, nothing due, no cleaning or pull-in victim and no VERIFY_BAND waiting, an IDLE engine in RUNNING begins a patrol
of the first band of state OPEN, CLOSING or FILLED from the patrol pointer on, wrapping, and when there is none nothing is chosen (R134,
R147). The scan reads offsets 0 to wp − 1 and then the summary when it is present, in runs of up to 1,024 sectors (R17; the cut is the
model's, assumption 31). After each run its unreadable offsets are handed and the next run is offered; at the end the first break offset is
handed, the pointer moves to the band after, and the engine is IDLE (R147, R148). A finding is discarded when the band is EMPTY or RETIRED
or has another stamp; for a FILLED band not on the due list it adds MEDIA or BREAK, BREAK with its offset, kept where one stands already,
and its notice after the BAND_DUE of joining (R37, R38, R40, R148). -/
def Obligations.PatrolScanHandsFindings : Prop :=
  (∀ s : State, s.engine.activity = .idle → s.startup.engine = .running → s.engine.idleFlag = true → s.table.due = [] →
     cleaningVictim s = none → s.engine.verifyQueue = [] → (s.engine.recoveryWait = true ∨ pullInTest s = none) →
     s.engine.patrolPointer < s.table.bands.length →
     let scanned := fun i : Nat => (band? s ((s.engine.patrolPointer + i) % s.table.bands.length)).any fun r =>
       r.state = .opened ∨ r.state = .closing ∨ r.state = .filled
     ((∀ i, i < s.table.bands.length → scanned i = false) → exec .chooseNextWork s = .next (settle s)) ∧
     (∀ i b r, i < s.table.bands.length → scanned i = true → (∀ j, j < i → scanned j = false) →
       b = (s.engine.patrolPointer + i) % s.table.bands.length → band? s b = some r → 1 ≤ r.wp →
       ∃ reads : List (Nat × Nat),
         exec .chooseNextWork s =
           .next (settle (offer
             { s with
               engine :=
                 { s.engine with
                   activity := .patrol
                   scan :=
                     some
                       { band := r.number, stamp := r.stamp, state := r.state, next := 1, reads := reads, readDone := 0, begun := false
                         pred := none, firstBreak := none, unreadable := [], runUnreadable := [] } } })) ∧
         (∀ x ∈ reads, 1 ≤ x.2 ∧ x.2 ≤ 1024) ∧
         (reads.flatMap fun x => List.range' x.1 x.2) =
           List.range r.wp ++ if r.summaryPresent then List.range' (bandC s r - 4) 4 else [])) ∧
  (∀ (s : State) (c : Scan), s.engine.scan = some c → s.startup.engine = .running → s.engine.activity = .patrol →
     let t := handMedia c.band c.stamp c.runUnreadable s
     (c.reads.tail ≠ [] →
       endScanRead s =
         offer { t with engine := { t.engine with scan := some { c with reads := c.reads.tail, readDone := 0, runUnreadable := [] } } }) ∧
     (c.reads.tail = [] →
       let u := handBreak c.band c.stamp c.firstBreak t
       endScanRead s =
         choiceDue
           { u with
             engine :=
               { s.engine with
                 activity := .idle, victim := none, reason := none, scan := none, chunk := none
                 patrolPointer := if c.band + 1 = s.table.bands.length then 0 else c.band + 1 } })) ∧
  (∀ (s : State) (b stamp : Nat) (r : Band), band? s b = some r →
     (r.state = .empty ∨ r.state = .retired ∨ r.stamp ≠ stamp →
       (∀ l, handMedia b stamp l s = s) ∧ ∀ o, handBreak b stamp o s = s) ∧
     handMedia b stamp [] s = s ∧ handBreak b stamp none s = s ∧
     (r.state = .filled → r.stamp = stamp → b ∉ s.table.due →
       (∀ l, l ≠ [] →
         (handMedia b stamp l s).table =
           { s.table with
             bands := s.table.bands.set b { r with causes := { r.causes with media := true } }, due := s.table.due ++ [b] } ∧
         ∀ p, (handMedia b stamp l s).link p = { s.link p with notices := takeNotice .bandDue (some b) (s.link p).notices }) ∧
       ∀ o,
         (handBreak b stamp (some o) s).table =
           { s.table with
             bands := s.table.bands.set b
               { r with causes := { r.causes with brk := true }, breakOffset := some (r.breakOffset.getD o) }
             due := s.table.due ++ [b] } ∧
         ∀ p, (handBreak b stamp (some o) s).link p =
           { s.link p with notices := takeNotice .breakFound (some b) (takeNotice .bandDue (some b) (s.link p).notices) }))

/-! ### Bands, exposure and the due list -/

/-- A stream takes an EMPTY band: OPEN, the stamp advanced past 65,535 and 0 to 1, the open sequence at the sequence counter, wp 0, the
chain at the seed 65,537 × stamp + band number mod 2^32, the owner set; F falls by 1 and the counter is not advanced (R15, R21, R42). What a
completed WRITE_RUN adds to its band's record: wp grows by the sectors added, chain becomes the last one's, notes grows by the NOTE sectors
among them, and min data sequence becomes the least of itself and their sequences; with no sector added nothing changes, and no other band
changes (R22). -/
def Obligations.BandOpensAndAdvances : Prop :=
  (∀ (s : State) (b : Nat) (i : StreamId) (r : Band), band? s b = some r → r.state = .empty → r.stamp ≤ 65535 →
     let stamp := if r.stamp = 65535 then 1 else r.stamp + 1
     band? (takeBand b i s) b =
       some
         { r with
           state := .opened, stamp := stamp, openSeq := some s.staging.seqCounter, wp := 0
           chain := some (BitVec.ofNat 32 (65537 * stamp + r.number)), owner := some i, summaryPresent := false } ∧
     1 ≤ stamp ∧ stamp ≤ 65535 ∧ freeBands (takeBand b i s) + 1 = freeBands s ∧
     (takeBand b i s).staging = s.staging ∧ ∀ n, n ≠ b → band? (takeBand b i s) n = band? s n) ∧
  (∀ (s : State) (b : Nat) (r : Band) (items : List RunItem) (sectors : List Sector),
     band? s b = some r → items.length = sectors.length →
     (sectors = [] → writeProgress b items sectors s = s) ∧
     (∀ last, sectors.getLast? = some last →
       ∃ x, band? (writeProgress b items sectors s) b = some x ∧
         x = { r with wp := r.wp + sectors.length, chain := some last.trailer.chain, notes := x.notes, minSeq := x.minSeq } ∧
         x.notes = r.notes + items.countP isNoteItem ∧
         (∀ q, (r.minSeq = some q ∨ ∃ i ∈ items, itemSeq i = some q) → ∃ m, x.minSeq = some m ∧ m ≤ q) ∧
         (∀ m, x.minSeq = some m → r.minSeq = some m ∨ ∃ i ∈ items, itemSeq i = some m)) ∧
     (∀ n, n ≠ b → band? (writeProgress b items sectors s) n = band? s n))

/-- A gain g takes the exposure E of an OPEN, CLOSING, FILLED or DRAINING band of the writer's zone to the lesser of E + g and 65,535, and
changes no other band. When E was below the threshold and is no longer, the band crosses: in a masked cold group it gets its neglected flag,
with a NEGLECTED notice when the flag was clear; otherwise it gets EXPOSURE, and, when that is new, an OPEN, CLOSING or FILLED band not on
the due list joins its tail with BAND_DUE, and an OPEN band goes to CLOSING with its SUMMARY run queued, or has its stream marked while a
write run on it is in flight (R37, R38, R41, R101, R125 to R127). Nothing else changes, but for the choice and the arbitration that this
makes due. -/
def Obligations.GainSaturatesAndCrosses : Prop :=
  (∀ (s : State) (n z g : Nat), band? s n = none → gainExposure n z g s = s) ∧
  ∀ (s : State) (n z g : Nat) (r : Band), band? s n = some r →
    let e := min (r.exposure + g) 65535
    let x := { r with exposure := e }
    let gains := r.zone = z ∧ (r.state = .opened ∨ r.state = .closing ∨ r.state = .filled ∨ r.state = .draining)
    let crosses := r.exposure < s.startup.image.threshold ∧ s.startup.image.threshold ≤ e
    (¬gains → gainExposure n z g s = s) ∧
    (gains → ¬crosses →
      gainExposure n z g s = { s with table := { s.table with bands := s.table.bands.set n x } }) ∧
    (gains → crosses →
      ∃ u, gainExposure n z g s = u ∧
        u =
          { s with
            links := u.links
            table :=
              { s.table with
                bands := s.table.bands.set n (crossedRecord s n x)
                due := if joinsDue s n r then s.table.due ++ [n] else s.table.due }
            sched :=
              { s.sched with summaries := if closesAtOnce s n r then s.sched.summaries ++ [n] else s.sched.summaries }
            alloc := u.alloc
            agenda :=
              { s.agenda with
                offered := s.agenda.offered || closesAtOnce s n r, choice := s.agenda.choice || joinsDue s n r } } ∧
        (∀ p, u.link p = { s.link p with notices := crossedNotices s n r (s.link p).notices }) ∧
        ∀ i, stream u i =
          if finishesLater s n r = true ∧ r.owner = some i then { stream s i with finish := true } else stream s i)

/-- An operation of sectors 0 to k − 1 in band b touches track 0 of the band when one of them lies on it, and track TPB − 1 likewise; k is
at least 1 and the sectors lie in the band. Track 0 touched gives band b − 1, if there is one, the backward weight × M, first; track TPB − 1
touched gives band b + 1 the forward weight × M; M is 4, 5, 6 or 8 for the class in force 0 to 3, which is 3 when the temperature is stale
or absent. Nothing else changes, and with k = 0 nothing does (R118, R121 to R124). The accounting of a SUMMARY run is handed its completed
count at the final completion, after the band table and the stream have taken it, whatever the outcome: COMPLETE, WRITE_FAULT, or OFF_TRACK
with the retries spent, which the expiry of the channel timer counts as (R106, R107, R109, R121). A completion that leaves no sector of a
retryable issue is taken as COMPLETE: the model's choice (assumption 10). -/
def Obligations.EdgeTracksGiveNeighboursGains : Prop :=
  (∀ (s : State) (b first k : Nat) (r : Band), band? s b = some r →
     let z := bandZone s r
     let touched := fun t : Nat => ∃ o, first ≤ o ∧ o < first + k ∧ o / z.spt = t
     let M := ([4, 5, 6, 8] : List Nat)[if s.sched.stale then 3 else (s.sched.tempClass.getD 3).toNat]?.getD 0
     let back := gainExposure (b - 1) r.zone (s.startup.image.backwardWeight * M)
     let forward := gainExposure (b + 1) r.zone (s.startup.image.forwardWeight * M)
     accountExposure b first 0 s = s ∧
     (1 ≤ k → 1 ≤ z.spt → 1 ≤ z.tpb → first + k ≤ z.tpb * z.spt →
       ((¬touched 0 ∨ b = 0) → ¬touched (z.tpb - 1) → accountExposure b first k s = s) ∧
       ((¬touched 0 ∨ b = 0) → touched (z.tpb - 1) → accountExposure b first k s = forward s) ∧
       (touched 0 → 1 ≤ b → ¬touched (z.tpb - 1) → accountExposure b first k s = back s) ∧
       (touched 0 → 1 ≤ b → touched (z.tpb - 1) → accountExposure b first k s = forward (back s)))) ∧
  (∀ (s : State) (op : Operation), Awaits s op → op.kind = .summary →
     let ended := fun (s : State) (k : Nat) (ok : Bool) =>
       offer
         (accountExposure op.band op.first (op.issuedFrom + k)
           (finishSummary op.band ok (op.sectors.take (op.issuedFrom + k))
             (offer { s with sched := { s.sched with current := none, channelTimer := none } })))
     (∀ c k ok, op.issue = c.issue → EndsWrite op s.startup.image.retryLimit c k ok →
       exec (.channelCompletion c) s = .next (settle (ended s k ok))) ∧
     (∀ d, s.sched.channelTimer = some d → s.startup.image.retryLimit ≤ op.retries →
       exec .channelTimerExpiry s = .next (settle (ended { s with now := max s.now d } 0 false))))

/-! ### The rebuild -/

/-- The rebuild of one band (R173). With a valid header, of kind HEADER, the band's number and a stamp of at least 1, the band is FILLED
with the header's stamp and open sequence, and its summary is read next; without one its offsets 1 to the lesser of 1,023 and C − 5 are
read, and after that read, whatever it holds, the band is left EMPTY, with REBUILD_ANOMALY when a trailer valid for it was found. The
summary is usable exactly when its four parts are readable, valid for the band's life with their part numbers, equal in entry count, without
the overflow mark and chained. From a usable one the band takes wp, chain, notes, min data sequence and summary present, and its DATA
entries give copies, those below N_log, and its NOTE entries notes; else the scan begins at offset 1. The header's open sequence and every
entry's sequence count for the sequence counter (R175). The read is delivered by CHANNEL_COMPLETION, here one COMPLETE of all its sectors.
The model's choices: the stamp and open sequence are those of the header's trailer, not of its payload (assumption 24); a summary of a count
above 1,024 is usable (assumption 36); wp is 1 plus the sum of the entries' sectors, also past C − 4 (assumption 43); the scan's first run
takes as many sectors as it can, up to 1,024 (assumption 31); the DATA and NOTE trailers valid for a band without a valid header count for
the sequence counter (assumption 12). -/
def Obligations.RebuildReadsHeaderAndSummary : Prop :=
  (∀ (s : State) (r : BandRebuild) (x : Band) (y : Option Sector), band? s r.band = some x → r.phase = .header → r.buffer = [y] →
     let good := fun h : Sector => h.trailer.kind = 1 ∧ h.trailer.band.toNat = r.band ∧ 1 ≤ h.trailer.stamp.toNat
     (∀ h, y = some h → good h →
       endRebuildRead r s =
         offer
           { s with
             table :=
               { s.table with
                 bands := s.table.bands.set r.band
                   { x with state := .filled, stamp := h.trailer.stamp.toNat, openSeq := some h.trailer.sequence.toNat } }
             startup :=
               { s.startup with
                 found :=
                   { s.startup.found with
                     highest := some (max h.trailer.sequence.toNat (s.startup.found.highest.getD 0)) }
                 stage :=
                   .rebuild
                     { r with
                       phase := .summary, first := bandC s x - 4, count := 4, buffer := [], stamp := h.trailer.stamp.toNat
                       openSeq := h.trailer.sequence.toNat, lastChain := some h.trailer.chain } } }) ∧
     ((∀ h, y = some h → ¬good h) →
       endRebuildRead r s =
         offer
           { s with
             startup :=
               { s.startup with
                 stage := .rebuild { r with phase := .anomaly, first := 1, count := min 1023 (bandC s x - 5), buffer := [] } } })) ∧
  (∀ (s : State) (r : BandRebuild) (x : Band), band? s r.band = some x → r.phase = .anomaly →
     let anomaly := ∃ h, some h ∈ r.buffer ∧ h.trailer.band.toNat = r.band ∧ 1 ≤ h.trailer.kind.toNat ∧ h.trailer.kind.toNat ≤ 4
     let counted := (r.buffer.filterMap id).filter fun h => h.trailer.band.toNat = r.band ∧ (h.trailer.kind = 2 ∨ h.trailer.kind = 3)
     let highest := counted.foldl (fun q h => some (max h.trailer.sequence.toNat (q.getD 0))) s.startup.found.highest
     ∃ u, endRebuildRead r s = nextBand r.band u ∧
       u =
         { s with
           links := u.links
           table := { s.table with bands := s.table.bands.set r.band { x with wp := 0, chain := none } }
           startup :=
             { s.startup with
               found := { s.startup.found with highest := highest }, bandsRebuilt := s.startup.bandsRebuilt + 1 } } ∧
       (anomaly → ∀ p, u.link p = { s.link p with notices := takeNotice .rebuildAnomaly (some r.band) (s.link p).notices }) ∧
       (¬anomaly → u.links = s.links)) ∧
  (∀ (r : BandRebuild) (p0 p1 p2 p3 : Sector), r.buffer = [some p0, some p1, some p2, some p3] →
     let parts := [p0, p1, p2, p3]
     let count := fun p : Sector => p.trailer.logical.toNat / 2 ^ 16 % 2 ^ 16
     let usable :=
       (∀ (n : Nat) (p : Sector), parts[n]? = some p →
         p.trailer.kind = 4 ∧ p.trailer.band.toNat = r.band ∧ p.trailer.stamp.toNat = r.stamp ∧ p.trailer.sequence.toNat = r.openSeq ∧
           p.trailer.logical.toNat % 2 ^ 8 = n ∧ p.trailer.logical.toNat / 2 ^ 8 % 2 ^ 8 = 0 ∧ count p = count p0) ∧
       ∀ (n : Nat) (p q : Sector), parts[n]? = some p → parts[n + 1]? = some q →
         q.trailer.chain = 33#32 * p.trailer.chain + payloadCheck q.payload
     (usable →
       usableSummary r = some ((parts.flatMap fun p => unpackEntries 256 p.payload.toNat).take (count p0), p3.trailer.chain)) ∧
     (¬usable → usableSummary r = none)) ∧
  (∀ (r : BandRebuild) (n : Nat), r.buffer.length = 4 → r.buffer[n]? = some none → usableSummary r = none) ∧
  (∀ (s : State) (r : BandRebuild) (x : Band) (es : List SummaryEntry) (chain : Chain),
     band? s r.band = some x → r.phase = .summary → usableSummary r = some (es, chain) →
     let data := es.filter fun e => e.kind = .data
     let note := es.filter fun e => e.kind = .note
     let copies : List FoundCopy :=
       data.flatMap fun e => (List.range e.length).map fun i =>
         { lbn := e.start + i, seq := e.seq, band := r.band, offset := e.offset + i, openSeq := r.openSeq }
     ∃ u, endRebuildRead r s = nextBand r.band u ∧
       u =
         { s with
           table := u.table
           startup :=
             { s.startup with
               found :=
                 { s.startup.found with
                   winners :=
                     (copies.filter fun c => c.lbn < s.startup.nLog).foldl (fun l c => addCopy c l) s.startup.found.winners
                   notes := s.startup.found.notes ++ note.map fun e => { first := e.start, length := e.length, seq := e.seq }
                   highest := es.foldl (fun q e => some (max e.seq (q.getD 0))) s.startup.found.highest }
               bandsRebuilt := s.startup.bandsRebuilt + 1 } } ∧
       u.table = { s.table with bands := u.table.bands } ∧ (∀ n, n ≠ r.band → band? u n = band? s n) ∧
       band? u r.band =
         some
           { x with
             wp := 1 + ((data.map fun e => e.length).sum + note.length), chain := some chain, notes := x.notes + note.length
             minSeq := leastOf (x.minSeq :: (copies.map (fun c => some c.seq) ++ note.map fun e => some e.seq)), summaryPresent := true }) ∧
  (∀ (s : State) (r : BandRebuild) (x : Band), band? s r.band = some x → r.phase = .summary → usableSummary r = none →
     endRebuildRead r s =
       offer
         { s with
           startup :=
             { s.startup with
               stage :=
                 .rebuild
                   { r with
                     phase := .scan, first := 1, count := min 1024 (bandC s x - 4 - 1), buffer := []
                     pred := some (BitVec.ofNat 32 (65537 * r.stamp + r.band)) } } }) ∧
  (∀ (s : State) (op : Operation) (c : Completion) (r : BandRebuild) (l : List Sector),
     Awaits s op → op.kind = .readRun → op.owner = .startUp → op.issue = c.issue → c.outcome = .complete → op.issuedFrom ≤ op.count →
     c.k = op.count - op.issuedFrom → c.delivery = .sectors l → l.length = c.k → s.startup.stage = .rebuild r →
     let r' := { r with buffer := r.buffer ++ l.map some }
     exec (.channelCompletion c) s =
       .next (settle (endRebuildRead r'
         (offer
           { s with
             sched := { s.sched with current := none, channelTimer := none }, startup := { s.startup with stage := .rebuild r' } }))))

/-- The rebuild scan of a band (R17 to R19, R173). It stops at a sector whose trailer is unwritten, invalid for the band, of another stamp,
or of a kind other than DATA or NOTE. An unreadable sector does not stop it: its offset is listed and no predecessor is left. A DATA sector
gives its copy, when its LBN is below N_log, and a NOTE sector the note of its payload; each lowers the band's min data sequence to the
sequence it gives, where that is less, and is checked by the chain, and its trailer's sequence counts for the sequence counter (R175). At
the stop, or at C − 4, wp is set to that offset, the chain to that of the sector before, a free value when that could not be read
(assumption 7), and the first break offset and the list of unreadable offsets are kept for R175; before that, the scan goes on behind the
run that has ended. The model's choices: the next run takes as many sectors as it can, up to 1,024 (assumption 31); what the run holds at
and behind the stop does not count for the sequence counter (assumption 37); a note lowers the min data sequence by the sequence of its
payload, not of its trailer (assumption 24). -/
def Obligations.RebuildScanStopsAndLists : Prop :=
  (∀ (s : State) (r : BandRebuild) (o : Nat) (x : Option Sector) (xs : List (Option Sector)),
     let stops := fun y : Sector =>
       y.trailer.band.toNat ≠ r.band ∨ y.trailer.stamp.toNat ≠ r.stamp ∨ (y.trailer.kind ≠ 2 ∧ y.trailer.kind ≠ 3)
     let passed := fun y : Sector =>
       let c := checkSector (BitVec.ofNat 32 (65537 * r.stamp + r.band)) o (some y) r.pred r.firstBreak
       { r with pred := c.1, firstBreak := c.2, lastChain := some y.trailer.chain }
     scanSectors o [] r s = ((r, none), s) ∧
     (∀ y, x = some y → stops y → scanSectors o (x :: xs) r s = ((r, some o), s)) ∧
     (x = none →
       scanSectors o (x :: xs) r s =
         scanSectors (o + 1) xs { r with pred := none, lastChain := none, unreadable := r.unreadable ++ [o] } s) ∧
     (∀ y b, x = some y → ¬stops y → y.trailer.kind = 2 → band? s r.band = some b →
       let q := y.trailer.sequence.toNat
       scanSectors o (x :: xs) r s =
         scanSectors (o + 1) xs (passed y)
           { s with
             table := { s.table with bands := s.table.bands.set r.band { b with minSeq := leastOf [b.minSeq, some q] } }
             startup :=
               { s.startup with
                 found :=
                   { s.startup.found with
                     highest := some (max q (s.startup.found.highest.getD 0))
                     winners :=
                       if y.trailer.logical.toNat < s.startup.nLog then
                         addCopy { lbn := y.trailer.logical.toNat, seq := q, band := r.band, offset := o, openSeq := r.openSeq }
                           s.startup.found.winners
                       else s.startup.found.winners } } }) ∧
     (∀ y b, x = some y → ¬stops y → y.trailer.kind = 3 → band? s r.band = some b →
       let q := y.payload.toNat / 2 ^ 128 % 2 ^ 48
       scanSectors o (x :: xs) r s =
         scanSectors (o + 1) xs (passed y)
           { s with
             table :=
               { s.table with
                 bands := s.table.bands.set r.band { b with notes := b.notes + 1, minSeq := leastOf [b.minSeq, some q] } }
             startup :=
               { s.startup with
                 found :=
                   { s.startup.found with
                     highest := some (max y.trailer.sequence.toNat (s.startup.found.highest.getD 0))
                     notes :=
                       s.startup.found.notes ++
                         [{ first := y.payload.toNat % 2 ^ 64, length := y.payload.toNat / 2 ^ 64 % 2 ^ 32, seq := q }] } } })) ∧
  (∀ (s : State) (r : BandRebuild) (x : Band), band? s r.band = some x → r.phase = .scan →
     let out := scanSectors r.first r.buffer r s
     (∀ t y r' o, out = ((r', some o), t) ∨ (out = ((r', none), t) ∧ bandC s x - 4 ≤ r.first + r.count ∧ o = r.first + r.count) →
       r'.band = r.band → band? t r.band = some y →
       ∃ u, endRebuildRead r s = nextBand r.band u ∧
         (∀ n, n ≠ r.band → band? u n = band? t n) ∧
         (∀ c, r'.lastChain = some c → band? u r.band = some { y with wp := o, chain := some c }) ∧
         (r'.lastChain = none →
           ∃ c, band? u r.band = some { y with wp := o, chain := some c } ∧ u.freeCount = t.freeCount + 1) ∧
         u.startup =
           { t.startup with
             found :=
               { t.startup.found with
                 findings :=
                   t.startup.found.findings ++ [{ band := r.band, firstBreak := r'.firstBreak, unreadable := r'.unreadable }] }
             bandsRebuilt := t.startup.bandsRebuilt + 1 } ∧
         u.links = t.links ∧ u.map = t.map) ∧
     (∀ t r', out = ((r', none), t) → r.first + r.count < bandC s x - 4 →
       let next := r.first + r.count
       endRebuildRead r s =
         offer
           { t with
             startup :=
               { t.startup with
                 stage :=
                   .rebuild { r' with phase := .scan, first := next, count := min 1024 (bandC s x - 4 - next), buffer := [] } } }))

/-- The map build (R174). Of two copies of one LBN the one with the higher data sequence wins, then the one in the band of the higher open
sequence, then the one in the higher band, then the one at the higher offset. The winner of each LBN is MEDIA at its band and offset unless
a note that covers it has a higher sequence, and an LBN without a copy is unmapped; the records keep the order law of R46. When the records
have reached 1,048,576 − 4,096 and another is wanted (assumption 35), the range from its LBN up to N_log − 1 is LOST, and REBUILD_ANOMALY is
sent; at most 4,096 records suffice for it. The winners stand in ascending LBN, below N_log. -/
def Obligations.MapBuildTakesWinningCopies : Prop :=
  (∀ x y : FoundCopy,
     (copyWins x y = true ↔
       y.seq < x.seq ∨
         (x.seq = y.seq ∧
           (y.openSeq < x.openSeq ∨
             (x.openSeq = y.openSeq ∧ (y.band < x.band ∨ (x.band = y.band ∧ y.offset < x.offset))))))) ∧
  (∀ (x : FoundCopy) (l : List FoundCopy), (l.Pairwise fun a b => a.lbn < b.lbn) →
     ((addCopy x l).Pairwise fun a b => a.lbn < b.lbn) ∧
     ∀ L, (addCopy x l).find? (fun c => c.lbn = L) =
       if L = x.lbn then
         match l.find? fun c => c.lbn = L with
         | none => some x
         | some y => some (if copyWins x y then x else y)
       else l.find? fun c => c.lbn = L) ∧
  (∀ s : State, WinnersLaw s → (∀ x ∈ s.startup.found.winners, x.lbn < s.startup.nLog) → s.startup.nLog ≤ 2 ^ 36 →
     let placed := fun L : Nat =>
       (s.startup.found.winners.find? fun c => c.lbn = L).bind fun x =>
         if s.startup.found.notes.any fun n => n.first ≤ x.lbn ∧ x.lbn < n.first + n.length ∧ x.seq < n.seq then none
         else some (Location.media x.band x.offset)
     let t := buildMap s
     MapLaw t ∧ t.map.held = s.map.held ∧ t.map.records.length ≤ 1048576 ∧
     ((∀ L, resolve t.map.records L = placed L) ∧ t = { s with map := { s.map with records := t.map.records } } ∨
       ∃ a, a < s.startup.nLog ∧ 1044480 ≤ t.map.records.length ∧
         (∀ L, resolve t.map.records L = if L < a then placed L else if L < s.startup.nLog then some .lost else none) ∧
         t = { s with links := t.links, map := { s.map with records := t.map.records } } ∧
         ∀ p, t.link p = { s.link p with notices := takeNotice .rebuildAnomaly none (s.link p).notices }) ∧
     (s.startup.found.winners.length ≤ 1044480 → ∀ L, resolve t.map.records L = placed L))

/-- The end of the rebuild (R175). Each FILLED band gets the number of MEDIA blocks the map places in it as its live count, no pins, no
neglected flag and exposure floor(T / 2), or is reset with its stamp kept when it has neither live blocks nor notes; every other band that
is not EMPTY gets floor(T / 2) too, and an EMPTY one 0. The findings of bands still FILLED raise BREAK, with its offset and notice, and
MEDIA, and their bands join the due list in the order of the findings, which is ascending, each with BAND_DUE. FREE_LOW is tested; the
sequence counter is the highest sequence found plus 1, or 1, and a free value when the sum does not fit it (assumption 7). The engine is
RUNNING, REBUILD_DONE is sent, and the relocation engine's choice is due (R44, R167, R175). Each band has at most one finding, and the due
list is empty. -/
def Obligations.RebuildEndsInRunning : Prop :=
  ∀ s : State, s.table.due = [] → (s.startup.found.findings.Pairwise fun f g => f.band < g.band) →
    let m := (buildMap s).map.records
    let half := s.startup.image.threshold / 2
    let kept := fun r : Band => r.state = .filled ∧ ¬(mediaBlocks m r.number = 0 ∧ r.notes = 0)
    let counted := fun r : Band =>
      if r.state = .filled then
        if mediaBlocks m r.number = 0 ∧ r.notes = 0 then
          { r with
            state := .empty, wp := 0, live := 0, notes := 0, exposure := 0, chain := none, openSeq := none, minSeq := none
            breakOffset := none, causes := Causes.none, neglected := false, summaryPresent := false, owner := none, pins := 0 }
        else { r with live := mediaBlocks m r.number, pins := 0, neglected := false, exposure := half }
      else { r with exposure := if r.state = .empty then 0 else half }
    let applied := s.startup.found.findings.filter fun f =>
      (band? s f.band).any (fun r => kept r) && (f.firstBreak.isSome || !f.unreadable.isEmpty)
    let t := finishRebuild s
    (∀ n r, band? s n = some r →
      ((∀ f ∈ applied, f.band ≠ n) → band? t n = some (counted r)) ∧
      (∀ f ∈ applied, f.band = n →
        band? t n =
          some
            { counted r with
              causes :=
                { r.causes with brk := r.causes.brk || f.firstBreak.isSome, media := r.causes.media || !f.unreadable.isEmpty }
              breakOffset := r.breakOffset.or f.firstBreak })) ∧
    t.table.due = applied.map (fun f => f.band) ∧
    t.table.critical = decide (freeBands t ≤ s.startup.image.criticalMark) ∧
    (∀ p, t.link p =
      { s.link p with
        notices :=
          (let l := applied.foldl
            (fun l f =>
              let l := takeNotice .bandDue (some f.band) l
              if f.firstBreak.isSome then takeNotice .breakFound (some f.band) l else l) ((buildMap s).link p).notices
          let l := if freeBands t ≤ s.startup.image.criticalMark ∧ s.table.critical = false then takeNotice .freeLow none l else l
          takeNotice .rebuildDone none l) }) ∧
    t =
      { s with
        links := t.links
        map := (buildMap s).map
        table := { s.table with bands := t.table.bands, due := t.table.due, critical := t.table.critical }
        staging := { s.staging with seqCounter := t.staging.seqCounter }
        startup := { s.startup with engine := .running, stage := .finished, found := Found.nothing }
        agenda := { s.agenda with offered := true, choice := true }
        freeCount := t.freeCount } ∧
    (s.startup.found.highest = none → t.staging.seqCounter = 1 ∧ t.freeCount = s.freeCount) ∧
    (∀ q, s.startup.found.highest = some q → q < 2 ^ 48 - 1 → t.staging.seqCounter = q + 1 ∧ t.freeCount = s.freeCount)

/-! ### Layouts -/

/-- Decoding the 40 header bytes of a request frame gives back every field of it, and decoding the 32 bytes of a trailer every field of the
trailer; in both, a field stands at the byte that chapter 11 gives it, of which the kind code, the LBN and the value, and the trailer's
sequence and chain, are spelled out (section 11.1, R176, R177). The settings record of an image in range is valid and gives the image back:
marker, format number and check value agree (R171, R178). -/
def Obligations.LayoutsAndSettingsRecordRoundTrip : Prop :=
  ((∀ f : RequestFrame, decodeHeader (encodeHeader f) f.data = f) ∧
   (∀ t : Trailer, decodeTrailer (encodeTrailer t) = t) ∧
   (∀ f : RequestFrame,
     (encodeHeader f).extractLsb' 0x10 8 = f.kind ∧ (encodeHeader f).extractLsb' 0x18 8 = 0 ∧
     (encodeHeader f).extractLsb' 0x80 64 = f.lbn ∧ (encodeHeader f).extractLsb' 0x100 64 = f.value) ∧
   (∀ t : Trailer,
     (encodeTrailer t).extractLsb' 0x80 48 = t.sequence ∧ (encodeTrailer t).extractLsb' 0xC0 32 = t.chain ∧
     (encodeTrailer t).extractLsb' 8 8 = 0)) ∧
  (∀ x : Settings, x.inRange = true → recordValid (settingsRecord x) = true ∧ recordImage (settingsRecord x) = x)

/-! ### Laws that every step keeps -/

/-- The custody law of R160, kept by every step from every state that meets it: the custody number is 1 to 65,535 and at most one port is
FENCED. -/
def Obligations.StepKeepsCustodyLaw : Prop :=
  ∀ s t : State, CustodyLaw s → step s = .next t → CustodyLaw t

/-- The bound of the notice lists (R164), the canonical form of the slot pool, and the ranges of the settings (R43, R178), each kept by
every step from every state that meets it. -/
def Obligations.StepKeepsNoticePoolAndSettingsLaws : Prop :=
  ∀ s t : State, step s = .next t →
    (NoticeLaw s → NoticeLaw t) ∧ (PoolLaw s → PoolLaw t) ∧ (SettingsLaw s → SettingsLaw t)

/-- The order law of the extent map (R46: records ascending, without overlap, no two adjacent ones mergeable), kept by every step from every
state that meets it together with the ascending order of the copies that a rebuild has found. -/
def Obligations.StepKeepsMapOrder : Prop :=
  ∀ s t : State, MapLaw s → WinnersLaw s → step s = .next t → MapLaw t ∧ WinnersLaw t

/-- Every step ends in a next state, in which the command queue is what stood behind its front; time does not run back, and what has been
sent on a link stays, but for POWER_ON, which begins anew (R150). Time and the record of what is sent are the model's (assumptions 3 and 5).
-/
def Obligations.StepTakesOneCommand : Prop :=
  ∀ s : State, ∃ t, step s = .next t ∧ t.pending = s.pending.tail ∧
    (s.pending.head? ≠ some .powerOn → s.now ≤ t.now ∧ ∀ p, (s.link p).sent <+: (t.link p).sent)
end

