-- ==== Sys2Proof/Laws/State.lean ====
section
/-! SUPPORT. One lemma for each field of the state and each named update: what the field holds after it. -/

namespace Sys2Proof.Machine

/-! ### advanceTo -/

section
variable (t : Nat) (s : State)

@[simp] theorem advanceTo_pending : (advanceTo t s).pending = s.pending := rfl
@[simp] theorem advanceTo_now : (advanceTo t s).now = max s.now t := rfl
@[simp] theorem advanceTo_links : (advanceTo t s).links = s.links := rfl
@[simp] theorem advanceTo_custody : (advanceTo t s).custody = s.custody := rfl
@[simp] theorem advanceTo_staging : (advanceTo t s).staging = s.staging := rfl
@[simp] theorem advanceTo_map : (advanceTo t s).map = s.map := rfl
@[simp] theorem advanceTo_table : (advanceTo t s).table = s.table := rfl
@[simp] theorem advanceTo_alloc : (advanceTo t s).alloc = s.alloc := rfl
@[simp] theorem advanceTo_sched : (advanceTo t s).sched = s.sched := rfl
@[simp] theorem advanceTo_engine : (advanceTo t s).engine = s.engine := rfl
@[simp] theorem advanceTo_startup : (advanceTo t s).startup = s.startup := rfl
@[simp] theorem advanceTo_agenda : (advanceTo t s).agenda = s.agenda := rfl
@[simp] theorem advanceTo_freeCount : (advanceTo t s).freeCount = s.freeCount := rfl

end

/-! ### offer -/

section
variable (s : State)

@[simp] theorem offer_pending : (offer s).pending = s.pending := rfl
@[simp] theorem offer_now : (offer s).now = s.now := rfl
@[simp] theorem offer_links : (offer s).links = s.links := rfl
@[simp] theorem offer_custody : (offer s).custody = s.custody := rfl
@[simp] theorem offer_staging : (offer s).staging = s.staging := rfl
@[simp] theorem offer_map : (offer s).map = s.map := rfl
@[simp] theorem offer_table : (offer s).table = s.table := rfl
@[simp] theorem offer_alloc : (offer s).alloc = s.alloc := rfl
@[simp] theorem offer_sched : (offer s).sched = s.sched := rfl
@[simp] theorem offer_engine : (offer s).engine = s.engine := rfl
@[simp] theorem offer_startup : (offer s).startup = s.startup := rfl
@[simp] theorem offer_agenda : (offer s).agenda = { s.agenda with offered := true } := rfl
@[simp] theorem offer_freeCount : (offer s).freeCount = s.freeCount := rfl

end

/-! ### choiceDue -/

section
variable (s : State)

@[simp] theorem choiceDue_pending : (choiceDue s).pending = s.pending := rfl
@[simp] theorem choiceDue_now : (choiceDue s).now = s.now := rfl
@[simp] theorem choiceDue_links : (choiceDue s).links = s.links := rfl
@[simp] theorem choiceDue_custody : (choiceDue s).custody = s.custody := rfl
@[simp] theorem choiceDue_staging : (choiceDue s).staging = s.staging := rfl
@[simp] theorem choiceDue_map : (choiceDue s).map = s.map := rfl
@[simp] theorem choiceDue_table : (choiceDue s).table = s.table := rfl
@[simp] theorem choiceDue_alloc : (choiceDue s).alloc = s.alloc := rfl
@[simp] theorem choiceDue_sched : (choiceDue s).sched = s.sched := rfl
@[simp] theorem choiceDue_engine : (choiceDue s).engine = s.engine := rfl
@[simp] theorem choiceDue_startup : (choiceDue s).startup = s.startup := rfl
@[simp] theorem choiceDue_agenda : (choiceDue s).agenda = { s.agenda with choice := true } := rfl
@[simp] theorem choiceDue_freeCount : (choiceDue s).freeCount = s.freeCount := rfl

end

/-! ### pushFreed -/

section
variable (r : Resource) (s : State)

@[simp] theorem pushFreed_pending : (pushFreed r s).pending = s.pending := rfl
@[simp] theorem pushFreed_now : (pushFreed r s).now = s.now := rfl
@[simp] theorem pushFreed_links : (pushFreed r s).links = s.links := rfl
@[simp] theorem pushFreed_custody : (pushFreed r s).custody = s.custody := rfl
@[simp] theorem pushFreed_staging : (pushFreed r s).staging = s.staging := rfl
@[simp] theorem pushFreed_map : (pushFreed r s).map = s.map := rfl
@[simp] theorem pushFreed_table : (pushFreed r s).table = s.table := rfl
@[simp] theorem pushFreed_alloc : (pushFreed r s).alloc = s.alloc := rfl
@[simp] theorem pushFreed_sched : (pushFreed r s).sched = s.sched := rfl
@[simp] theorem pushFreed_engine : (pushFreed r s).engine = s.engine := rfl
@[simp] theorem pushFreed_startup : (pushFreed r s).startup = s.startup := rfl
@[simp] theorem pushFreed_agenda : (pushFreed r s).agenda = { s.agenda with freed := s.agenda.freed ++ [r] } := rfl
@[simp] theorem pushFreed_freeCount : (pushFreed r s).freeCount = s.freeCount := rfl

end

/-! ### setLink -/

section
variable (s : State) (p : Port) (l : Link)

@[simp] theorem setLink_pending : (s.setLink p l).pending = s.pending := rfl
@[simp] theorem setLink_now : (s.setLink p l).now = s.now := rfl
@[simp] theorem setLink_links : (s.setLink p l).links = s.links.set p l := rfl
@[simp] theorem setLink_custody : (s.setLink p l).custody = s.custody := rfl
@[simp] theorem setLink_staging : (s.setLink p l).staging = s.staging := rfl
@[simp] theorem setLink_map : (s.setLink p l).map = s.map := rfl
@[simp] theorem setLink_table : (s.setLink p l).table = s.table := rfl
@[simp] theorem setLink_alloc : (s.setLink p l).alloc = s.alloc := rfl
@[simp] theorem setLink_sched : (s.setLink p l).sched = s.sched := rfl
@[simp] theorem setLink_engine : (s.setLink p l).engine = s.engine := rfl
@[simp] theorem setLink_startup : (s.setLink p l).startup = s.startup := rfl
@[simp] theorem setLink_agenda : (s.setLink p l).agenda = s.agenda := rfl
@[simp] theorem setLink_freeCount : (s.setLink p l).freeCount = s.freeCount := rfl

end

/-! ### placeNotice -/

section
variable (k : NoticeKind) (b : Option Nat) (s : State)

@[simp] theorem placeNotice_pending : (placeNotice k b s).pending = s.pending := rfl
@[simp] theorem placeNotice_now : (placeNotice k b s).now = s.now := rfl
@[simp] theorem placeNotice_links : (placeNotice k b s).links = { a := { s.links.a with notices := takeNotice k b s.links.a.notices }, b := { s.links.b with notices := takeNotice k b s.links.b.notices } } := rfl
@[simp] theorem placeNotice_custody : (placeNotice k b s).custody = s.custody := rfl
@[simp] theorem placeNotice_staging : (placeNotice k b s).staging = s.staging := rfl
@[simp] theorem placeNotice_map : (placeNotice k b s).map = s.map := rfl
@[simp] theorem placeNotice_table : (placeNotice k b s).table = s.table := rfl
@[simp] theorem placeNotice_alloc : (placeNotice k b s).alloc = s.alloc := rfl
@[simp] theorem placeNotice_sched : (placeNotice k b s).sched = s.sched := rfl
@[simp] theorem placeNotice_engine : (placeNotice k b s).engine = s.engine := rfl
@[simp] theorem placeNotice_startup : (placeNotice k b s).startup = s.startup := rfl
@[simp] theorem placeNotice_agenda : (placeNotice k b s).agenda = s.agenda := rfl
@[simp] theorem placeNotice_freeCount : (placeNotice k b s).freeCount = s.freeCount := rfl

end

/-! ### updBand -/

section
variable (b : Nat) (f : Band → Band) (s : State)

@[simp] theorem updBand_pending : (updBand b f s).pending = s.pending := rfl
@[simp] theorem updBand_now : (updBand b f s).now = s.now := rfl
@[simp] theorem updBand_links : (updBand b f s).links = s.links := rfl
@[simp] theorem updBand_custody : (updBand b f s).custody = s.custody := rfl
@[simp] theorem updBand_staging : (updBand b f s).staging = s.staging := rfl
@[simp] theorem updBand_map : (updBand b f s).map = s.map := rfl
@[simp] theorem updBand_table : (updBand b f s).table = { s.table with bands := s.table.bands.modify b f } := rfl
@[simp] theorem updBand_alloc : (updBand b f s).alloc = s.alloc := rfl
@[simp] theorem updBand_sched : (updBand b f s).sched = s.sched := rfl
@[simp] theorem updBand_engine : (updBand b f s).engine = s.engine := rfl
@[simp] theorem updBand_startup : (updBand b f s).startup = s.startup := rfl
@[simp] theorem updBand_agenda : (updBand b f s).agenda = s.agenda := rfl
@[simp] theorem updBand_freeCount : (updBand b f s).freeCount = s.freeCount := rfl

end

/-! ### updParcel -/

section
variable (id : Nat) (f : Parcel → Parcel) (s : State)

@[simp] theorem updParcel_pending : (updParcel id f s).pending = s.pending := rfl
@[simp] theorem updParcel_now : (updParcel id f s).now = s.now := rfl
@[simp] theorem updParcel_links : (updParcel id f s).links = s.links := rfl
@[simp] theorem updParcel_custody : (updParcel id f s).custody = s.custody := rfl
@[simp] theorem updParcel_staging : (updParcel id f s).staging = { s.staging with parcels := s.staging.parcels.map fun p => if p.id = id then f p else p } := rfl
@[simp] theorem updParcel_map : (updParcel id f s).map = s.map := rfl
@[simp] theorem updParcel_table : (updParcel id f s).table = s.table := rfl
@[simp] theorem updParcel_alloc : (updParcel id f s).alloc = s.alloc := rfl
@[simp] theorem updParcel_sched : (updParcel id f s).sched = s.sched := rfl
@[simp] theorem updParcel_engine : (updParcel id f s).engine = s.engine := rfl
@[simp] theorem updParcel_startup : (updParcel id f s).startup = s.startup := rfl
@[simp] theorem updParcel_agenda : (updParcel id f s).agenda = s.agenda := rfl
@[simp] theorem updParcel_freeCount : (updParcel id f s).freeCount = s.freeCount := rfl

end

/-! ### updHost -/

section
variable (t : Fin 8) (f : Stream → Stream) (s : State)

@[simp] theorem updHost_pending : (updHost t f s).pending = s.pending := rfl
@[simp] theorem updHost_now : (updHost t f s).now = s.now := rfl
@[simp] theorem updHost_links : (updHost t f s).links = s.links := rfl
@[simp] theorem updHost_custody : (updHost t f s).custody = s.custody := rfl
@[simp] theorem updHost_staging : (updHost t f s).staging = s.staging := rfl
@[simp] theorem updHost_map : (updHost t f s).map = s.map := rfl
@[simp] theorem updHost_table : (updHost t f s).table = s.table := rfl
@[simp] theorem updHost_alloc : (updHost t f s).alloc = { s.alloc with hosts := s.alloc.hosts.set t (f s.alloc.hosts[t]) } := rfl
@[simp] theorem updHost_sched : (updHost t f s).sched = s.sched := rfl
@[simp] theorem updHost_engine : (updHost t f s).engine = s.engine := rfl
@[simp] theorem updHost_startup : (updHost t f s).startup = s.startup := rfl
@[simp] theorem updHost_agenda : (updHost t f s).agenda = s.agenda := rfl
@[simp] theorem updHost_freeCount : (updHost t f s).freeCount = s.freeCount := rfl

end

/-! ### updReloc -/

section
variable (f : Stream → Stream) (s : State)

@[simp] theorem updReloc_pending : (updReloc f s).pending = s.pending := rfl
@[simp] theorem updReloc_now : (updReloc f s).now = s.now := rfl
@[simp] theorem updReloc_links : (updReloc f s).links = s.links := rfl
@[simp] theorem updReloc_custody : (updReloc f s).custody = s.custody := rfl
@[simp] theorem updReloc_staging : (updReloc f s).staging = s.staging := rfl
@[simp] theorem updReloc_map : (updReloc f s).map = s.map := rfl
@[simp] theorem updReloc_table : (updReloc f s).table = s.table := rfl
@[simp] theorem updReloc_alloc : (updReloc f s).alloc = { s.alloc with reloc := f s.alloc.reloc } := rfl
@[simp] theorem updReloc_sched : (updReloc f s).sched = s.sched := rfl
@[simp] theorem updReloc_engine : (updReloc f s).engine = s.engine := rfl
@[simp] theorem updReloc_startup : (updReloc f s).startup = s.startup := rfl
@[simp] theorem updReloc_agenda : (updReloc f s).agenda = s.agenda := rfl
@[simp] theorem updReloc_freeCount : (updReloc f s).freeCount = s.freeCount := rfl

end

/-! ### updEngine -/

section
variable (f : Engine → Engine) (s : State)

@[simp] theorem updEngine_pending : (updEngine f s).pending = s.pending := rfl
@[simp] theorem updEngine_now : (updEngine f s).now = s.now := rfl
@[simp] theorem updEngine_links : (updEngine f s).links = s.links := rfl
@[simp] theorem updEngine_custody : (updEngine f s).custody = s.custody := rfl
@[simp] theorem updEngine_staging : (updEngine f s).staging = s.staging := rfl
@[simp] theorem updEngine_map : (updEngine f s).map = s.map := rfl
@[simp] theorem updEngine_table : (updEngine f s).table = s.table := rfl
@[simp] theorem updEngine_alloc : (updEngine f s).alloc = s.alloc := rfl
@[simp] theorem updEngine_sched : (updEngine f s).sched = s.sched := rfl
@[simp] theorem updEngine_engine : (updEngine f s).engine = f s.engine := rfl
@[simp] theorem updEngine_startup : (updEngine f s).startup = s.startup := rfl
@[simp] theorem updEngine_agenda : (updEngine f s).agenda = s.agenda := rfl
@[simp] theorem updEngine_freeCount : (updEngine f s).freeCount = s.freeCount := rfl

end

/-! ### updStart -/

section
variable (f : StartUp → StartUp) (s : State)

@[simp] theorem updStart_pending : (updStart f s).pending = s.pending := rfl
@[simp] theorem updStart_now : (updStart f s).now = s.now := rfl
@[simp] theorem updStart_links : (updStart f s).links = s.links := rfl
@[simp] theorem updStart_custody : (updStart f s).custody = s.custody := rfl
@[simp] theorem updStart_staging : (updStart f s).staging = s.staging := rfl
@[simp] theorem updStart_map : (updStart f s).map = s.map := rfl
@[simp] theorem updStart_table : (updStart f s).table = s.table := rfl
@[simp] theorem updStart_alloc : (updStart f s).alloc = s.alloc := rfl
@[simp] theorem updStart_sched : (updStart f s).sched = s.sched := rfl
@[simp] theorem updStart_engine : (updStart f s).engine = s.engine := rfl
@[simp] theorem updStart_startup : (updStart f s).startup = f s.startup := rfl
@[simp] theorem updStart_agenda : (updStart f s).agenda = s.agenda := rfl
@[simp] theorem updStart_freeCount : (updStart f s).freeCount = s.freeCount := rfl

end

/-! ### setImage -/

section
variable (x : Settings) (s : State)

@[simp] theorem setImage_pending : (setImage x s).pending = s.pending := rfl
@[simp] theorem setImage_now : (setImage x s).now = s.now := rfl
@[simp] theorem setImage_links : (setImage x s).links = s.links := rfl
@[simp] theorem setImage_custody : (setImage x s).custody = s.custody := rfl
@[simp] theorem setImage_staging : (setImage x s).staging = s.staging := rfl
@[simp] theorem setImage_map : (setImage x s).map = s.map := rfl
@[simp] theorem setImage_table : (setImage x s).table = s.table := rfl
@[simp] theorem setImage_alloc : (setImage x s).alloc = s.alloc := rfl
@[simp] theorem setImage_sched : (setImage x s).sched = s.sched := rfl
@[simp] theorem setImage_engine : (setImage x s).engine = s.engine := rfl
@[simp] theorem setImage_startup : (setImage x s).startup = { s.startup with image := x } := rfl
@[simp] theorem setImage_agenda : (setImage x s).agenda = s.agenda := rfl
@[simp] theorem setImage_freeCount : (setImage x s).freeCount = s.freeCount := rfl

end

/-! ### leaveDue -/

section
variable (b : Nat) (s : State)

@[simp] theorem leaveDue_pending : (leaveDue b s).pending = s.pending := rfl
@[simp] theorem leaveDue_now : (leaveDue b s).now = s.now := rfl
@[simp] theorem leaveDue_links : (leaveDue b s).links = s.links := rfl
@[simp] theorem leaveDue_custody : (leaveDue b s).custody = s.custody := rfl
@[simp] theorem leaveDue_staging : (leaveDue b s).staging = s.staging := rfl
@[simp] theorem leaveDue_map : (leaveDue b s).map = s.map := rfl
@[simp] theorem leaveDue_table : (leaveDue b s).table = { s.table with due := s.table.due.erase b } := rfl
@[simp] theorem leaveDue_alloc : (leaveDue b s).alloc = s.alloc := rfl
@[simp] theorem leaveDue_sched : (leaveDue b s).sched = s.sched := rfl
@[simp] theorem leaveDue_engine : (leaveDue b s).engine = s.engine := rfl
@[simp] theorem leaveDue_startup : (leaveDue b s).startup = s.startup := rfl
@[simp] theorem leaveDue_agenda : (leaveDue b s).agenda = s.agenda := rfl
@[simp] theorem leaveDue_freeCount : (leaveDue b s).freeCount = s.freeCount := rfl

end

/-! ### freeSlot -/

section
variable (n : Nat) (s : State)

@[simp] theorem freeSlot_pending : (freeSlot n s).pending = s.pending := rfl
@[simp] theorem freeSlot_now : (freeSlot n s).now = s.now := rfl
@[simp] theorem freeSlot_links : (freeSlot n s).links = s.links := rfl
@[simp] theorem freeSlot_custody : (freeSlot n s).custody = s.custody := rfl
@[simp] theorem freeSlot_staging : (freeSlot n s).staging = { s.staging with freeSlots := insertSorted n s.staging.freeSlots } := rfl
@[simp] theorem freeSlot_map : (freeSlot n s).map = s.map := rfl
@[simp] theorem freeSlot_table : (freeSlot n s).table = s.table := rfl
@[simp] theorem freeSlot_alloc : (freeSlot n s).alloc = s.alloc := rfl
@[simp] theorem freeSlot_sched : (freeSlot n s).sched = s.sched := rfl
@[simp] theorem freeSlot_engine : (freeSlot n s).engine = s.engine := rfl
@[simp] theorem freeSlot_startup : (freeSlot n s).startup = s.startup := rfl
@[simp] theorem freeSlot_agenda : (freeSlot n s).agenda = s.agenda := rfl
@[simp] theorem freeSlot_freeCount : (freeSlot n s).freeCount = s.freeCount := rfl

end

/-! ### freeNote -/

section
variable (n : Nat) (s : State)

@[simp] theorem freeNote_pending : (freeNote n s).pending = s.pending := rfl
@[simp] theorem freeNote_now : (freeNote n s).now = s.now := rfl
@[simp] theorem freeNote_links : (freeNote n s).links = s.links := rfl
@[simp] theorem freeNote_custody : (freeNote n s).custody = s.custody := rfl
@[simp] theorem freeNote_staging : (freeNote n s).staging = { s.staging with freeNotes := insertSorted n s.staging.freeNotes } := rfl
@[simp] theorem freeNote_map : (freeNote n s).map = s.map := rfl
@[simp] theorem freeNote_table : (freeNote n s).table = s.table := rfl
@[simp] theorem freeNote_alloc : (freeNote n s).alloc = s.alloc := rfl
@[simp] theorem freeNote_sched : (freeNote n s).sched = s.sched := rfl
@[simp] theorem freeNote_engine : (freeNote n s).engine = s.engine := rfl
@[simp] theorem freeNote_startup : (freeNote n s).startup = s.startup := rfl
@[simp] theorem freeNote_agenda : (freeNote n s).agenda = s.agenda := rfl
@[simp] theorem freeNote_freeCount : (freeNote n s).freeCount = s.freeCount := rfl

end

/-! ### addParcel -/

section
variable (x : Parcel) (s : State)

@[simp] theorem addParcel_pending : (addParcel x s).pending = s.pending := rfl
@[simp] theorem addParcel_now : (addParcel x s).now = s.now := rfl
@[simp] theorem addParcel_links : (addParcel x s).links = s.links := rfl
@[simp] theorem addParcel_custody : (addParcel x s).custody = s.custody := rfl
@[simp] theorem addParcel_staging : (addParcel x s).staging = { s.staging with parcels := s.staging.parcels ++ [x], seqCounter := s.staging.seqCounter + 1 } := rfl
@[simp] theorem addParcel_map : (addParcel x s).map = s.map := rfl
@[simp] theorem addParcel_table : (addParcel x s).table = s.table := rfl
@[simp] theorem addParcel_alloc : (addParcel x s).alloc = s.alloc := rfl
@[simp] theorem addParcel_sched : (addParcel x s).sched = s.sched := rfl
@[simp] theorem addParcel_engine : (addParcel x s).engine = s.engine := rfl
@[simp] theorem addParcel_startup : (addParcel x s).startup = s.startup := rfl
@[simp] theorem addParcel_agenda : (addParcel x s).agenda = s.agenda := rfl
@[simp] theorem addParcel_freeCount : (addParcel x s).freeCount = s.freeCount := rfl

end

/-! ### popRequest -/

section
variable (p : Port) (s : State)

@[simp] theorem popRequest_pending : (popRequest p s).pending = s.pending := rfl
@[simp] theorem popRequest_now : (popRequest p s).now = s.now := rfl
@[simp] theorem popRequest_links : (popRequest p s).links = s.links.set p { s.link p with queue := (s.link p).queue.tail, holding := false } := rfl
@[simp] theorem popRequest_custody : (popRequest p s).custody = s.custody := rfl
@[simp] theorem popRequest_staging : (popRequest p s).staging = s.staging := rfl
@[simp] theorem popRequest_map : (popRequest p s).map = s.map := rfl
@[simp] theorem popRequest_table : (popRequest p s).table = s.table := rfl
@[simp] theorem popRequest_alloc : (popRequest p s).alloc = s.alloc := rfl
@[simp] theorem popRequest_sched : (popRequest p s).sched = s.sched := rfl
@[simp] theorem popRequest_engine : (popRequest p s).engine = s.engine := rfl
@[simp] theorem popRequest_startup : (popRequest p s).startup = s.startup := rfl
@[simp] theorem popRequest_agenda : (popRequest p s).agenda = s.agenda := rfl
@[simp] theorem popRequest_freeCount : (popRequest p s).freeCount = s.freeCount := rfl

end

/-! ### holdRequest -/

section
variable (p : Port) (s : State)

@[simp] theorem holdRequest_pending : (holdRequest p s).pending = s.pending := rfl
@[simp] theorem holdRequest_now : (holdRequest p s).now = s.now := rfl
@[simp] theorem holdRequest_links : (holdRequest p s).links = s.links.set p { s.link p with holding := true } := rfl
@[simp] theorem holdRequest_custody : (holdRequest p s).custody = s.custody := rfl
@[simp] theorem holdRequest_staging : (holdRequest p s).staging = s.staging := rfl
@[simp] theorem holdRequest_map : (holdRequest p s).map = s.map := rfl
@[simp] theorem holdRequest_table : (holdRequest p s).table = s.table := rfl
@[simp] theorem holdRequest_alloc : (holdRequest p s).alloc = s.alloc := rfl
@[simp] theorem holdRequest_sched : (holdRequest p s).sched = s.sched := rfl
@[simp] theorem holdRequest_engine : (holdRequest p s).engine = s.engine := rfl
@[simp] theorem holdRequest_startup : (holdRequest p s).startup = s.startup := rfl
@[simp] theorem holdRequest_agenda : (holdRequest p s).agenda = s.agenda := rfl
@[simp] theorem holdRequest_freeCount : (holdRequest p s).freeCount = s.freeCount := rfl

end

/-! ### updScan -/

section
variable (f : Scan → Scan) (s : State)

@[simp] theorem updScan_pending : (updScan f s).pending = s.pending := rfl
@[simp] theorem updScan_now : (updScan f s).now = s.now := rfl
@[simp] theorem updScan_links : (updScan f s).links = s.links := rfl
@[simp] theorem updScan_custody : (updScan f s).custody = s.custody := rfl
@[simp] theorem updScan_staging : (updScan f s).staging = s.staging := rfl
@[simp] theorem updScan_map : (updScan f s).map = s.map := rfl
@[simp] theorem updScan_table : (updScan f s).table = s.table := rfl
@[simp] theorem updScan_alloc : (updScan f s).alloc = s.alloc := rfl
@[simp] theorem updScan_sched : (updScan f s).sched = s.sched := rfl
@[simp] theorem updScan_engine : (updScan f s).engine = { s.engine with scan := s.engine.scan.map f } := rfl
@[simp] theorem updScan_startup : (updScan f s).startup = s.startup := rfl
@[simp] theorem updScan_agenda : (updScan f s).agenda = s.agenda := rfl
@[simp] theorem updScan_freeCount : (updScan f s).freeCount = s.freeCount := rfl

end

/-! ### updChunk -/

section
variable (f : Chunk → Chunk) (s : State)

@[simp] theorem updChunk_pending : (updChunk f s).pending = s.pending := rfl
@[simp] theorem updChunk_now : (updChunk f s).now = s.now := rfl
@[simp] theorem updChunk_links : (updChunk f s).links = s.links := rfl
@[simp] theorem updChunk_custody : (updChunk f s).custody = s.custody := rfl
@[simp] theorem updChunk_staging : (updChunk f s).staging = s.staging := rfl
@[simp] theorem updChunk_map : (updChunk f s).map = s.map := rfl
@[simp] theorem updChunk_table : (updChunk f s).table = s.table := rfl
@[simp] theorem updChunk_alloc : (updChunk f s).alloc = s.alloc := rfl
@[simp] theorem updChunk_sched : (updChunk f s).sched = s.sched := rfl
@[simp] theorem updChunk_engine : (updChunk f s).engine = { s.engine with chunk := s.engine.chunk.map f } := rfl
@[simp] theorem updChunk_startup : (updChunk f s).startup = s.startup := rfl
@[simp] theorem updChunk_agenda : (updChunk f s).agenda = s.agenda := rfl
@[simp] theorem updChunk_freeCount : (updChunk f s).freeCount = s.freeCount := rfl

end

/-! ### updReadRun -/

section
variable (id pos : Nat) (f : ReadRun → ReadRun) (s : State)

@[simp] theorem updReadRun_pending : (updReadRun id pos f s).pending = s.pending := rfl
@[simp] theorem updReadRun_now : (updReadRun id pos f s).now = s.now := rfl
@[simp] theorem updReadRun_links : (updReadRun id pos f s).links = s.links := rfl
@[simp] theorem updReadRun_custody : (updReadRun id pos f s).custody = s.custody := rfl
@[simp] theorem updReadRun_staging : (updReadRun id pos f s).staging = s.staging := rfl
@[simp] theorem updReadRun_map : (updReadRun id pos f s).map = s.map := rfl
@[simp] theorem updReadRun_table : (updReadRun id pos f s).table = s.table := rfl
@[simp] theorem updReadRun_alloc : (updReadRun id pos f s).alloc = s.alloc := rfl
@[simp] theorem updReadRun_sched : (updReadRun id pos f s).sched = { s.sched with readQueue := s.sched.readQueue.map fun r => if r.fetch = id ∧ r.pos = pos then f r else r } := rfl
@[simp] theorem updReadRun_engine : (updReadRun id pos f s).engine = s.engine := rfl
@[simp] theorem updReadRun_startup : (updReadRun id pos f s).startup = s.startup := rfl
@[simp] theorem updReadRun_agenda : (updReadRun id pos f s).agenda = s.agenda := rfl
@[simp] theorem updReadRun_freeCount : (updReadRun id pos f s).freeCount = s.freeCount := rfl

end

/-! ### updFetch -/

section
variable (id : Nat) (f : FetchRecord → FetchRecord) (s : State)

@[simp] theorem updFetch_pending : (updFetch id f s).pending = s.pending := rfl
@[simp] theorem updFetch_now : (updFetch id f s).now = s.now := rfl
@[simp] theorem updFetch_links : (updFetch id f s).links = s.links := rfl
@[simp] theorem updFetch_custody : (updFetch id f s).custody = s.custody := rfl
@[simp] theorem updFetch_staging : (updFetch id f s).staging = s.staging := rfl
@[simp] theorem updFetch_map : (updFetch id f s).map = s.map := rfl
@[simp] theorem updFetch_table : (updFetch id f s).table = s.table := rfl
@[simp] theorem updFetch_alloc : (updFetch id f s).alloc = s.alloc := rfl
@[simp] theorem updFetch_sched : (updFetch id f s).sched = { s.sched with fetches := s.sched.fetches.map fun x => if x.id = id then f x else x } := rfl
@[simp] theorem updFetch_engine : (updFetch id f s).engine = s.engine := rfl
@[simp] theorem updFetch_startup : (updFetch id f s).startup = s.startup := rfl
@[simp] theorem updFetch_agenda : (updFetch id f s).agenda = s.agenda := rfl
@[simp] theorem updFetch_freeCount : (updFetch id f s).freeCount = s.freeCount := rfl

end

/-! ### updFound -/

section
variable (f : Found → Found) (s : State)

@[simp] theorem updFound_pending : (updFound f s).pending = s.pending := rfl
@[simp] theorem updFound_now : (updFound f s).now = s.now := rfl
@[simp] theorem updFound_links : (updFound f s).links = s.links := rfl
@[simp] theorem updFound_custody : (updFound f s).custody = s.custody := rfl
@[simp] theorem updFound_staging : (updFound f s).staging = s.staging := rfl
@[simp] theorem updFound_map : (updFound f s).map = s.map := rfl
@[simp] theorem updFound_table : (updFound f s).table = s.table := rfl
@[simp] theorem updFound_alloc : (updFound f s).alloc = s.alloc := rfl
@[simp] theorem updFound_sched : (updFound f s).sched = s.sched := rfl
@[simp] theorem updFound_engine : (updFound f s).engine = s.engine := rfl
@[simp] theorem updFound_startup : (updFound f s).startup = { s.startup with found := f s.startup.found } := rfl
@[simp] theorem updFound_agenda : (updFound f s).agenda = s.agenda := rfl
@[simp] theorem updFound_freeCount : (updFound f s).freeCount = s.freeCount := rfl

end

/-! ### setStage -/

section
variable (x : StartStage) (s : State)

@[simp] theorem setStage_pending : (setStage x s).pending = s.pending := rfl
@[simp] theorem setStage_now : (setStage x s).now = s.now := rfl
@[simp] theorem setStage_links : (setStage x s).links = s.links := rfl
@[simp] theorem setStage_custody : (setStage x s).custody = s.custody := rfl
@[simp] theorem setStage_staging : (setStage x s).staging = s.staging := rfl
@[simp] theorem setStage_map : (setStage x s).map = s.map := rfl
@[simp] theorem setStage_table : (setStage x s).table = s.table := rfl
@[simp] theorem setStage_alloc : (setStage x s).alloc = s.alloc := rfl
@[simp] theorem setStage_sched : (setStage x s).sched = s.sched := rfl
@[simp] theorem setStage_engine : (setStage x s).engine = s.engine := rfl
@[simp] theorem setStage_startup : (setStage x s).startup = { s.startup with stage := x } := rfl
@[simp] theorem setStage_agenda : (setStage x s).agenda = { s.agenda with offered := true } := rfl
@[simp] theorem setStage_freeCount : (setStage x s).freeCount = s.freeCount := rfl

end

/-! ### Links and ports -/

@[simp] theorem Both.get_set_same {α : Type} (x : Both α) (p : Port) (v : α) : (x.set p v).get p = v := by
  cases p <;> rfl

@[simp] theorem Both.get_set_other {α : Type} (x : Both α) (p : Port) (v : α) : (x.set p v).get p.other = x.get p.other := by
  cases p <;> rfl

@[simp] theorem Both.set_set {α : Type} (x : Both α) (p : Port) (v w : α) : (x.set p v).set p w = x.set p w := by
  cases p <;> rfl

@[simp] theorem Both.set_get {α : Type} (x : Both α) (p : Port) : x.set p (x.get p) = x := by
  cases p <;> rfl

theorem Both.get_set {α : Type} (x : Both α) (p q : Port) (v : α) :
    (x.set p v).get q = if q = p then v else x.get q := by
  cases p <;> cases q <;> rfl

@[simp] theorem link_setLink_same (s : State) (p : Port) (l : Link) : (s.setLink p l).link p = l := by
  cases p <;> rfl

theorem link_setLink (s : State) (p q : Port) (l : Link) :
    (s.setLink p l).link q = if q = p then l else s.link q := by
  cases p <;> cases q <;> rfl

@[simp] theorem link_placeNotice (k : NoticeKind) (b : Option Nat) (s : State) (p : Port) :
    (placeNotice k b s).link p = { s.link p with notices := takeNotice k b (s.link p).notices } := by
  cases p <;> rfl

@[simp] theorem Port.other_other (p : Port) : p.other.other = p := by cases p <;> rfl

theorem Port.other_ne (p : Port) : p.other ≠ p := by cases p <;> decide

/-! ### Responses -/

/-- A response changes nothing but its port's link: it ends the tag and is sent, unless the requester is orphaned or the link DOWN. -/
theorem respond_eq (r : Requester) (st : Status) (b : Body) (data : List Block) (s : State) :
    respond r st b data s =
      { s with
        links :=
          if r.orphaned || !(s.link r.port).up then s.links
          else
            s.links.set r.port
              { s.link r.port with
                outstanding := (s.link r.port).outstanding.erase r.tag
                sent := (s.link r.port).sent ++
                  [{ tag := r.tag, status := st, kind := r.kind, custody := s.custody.number, body := b, data := data }] } } := by
  simp only [respond]
  split <;> rfl

/-- The answer to the head request of an UP link changes nothing but that link. -/
theorem answerHead_eq (p : Port) (f : RequestFrame) (st : Status) (b : Body) (data : List Block) (s : State)
    (h : (s.link p).up = true) :
    answerHead p f st b data s = s.setLink p (Safety.answered (s.link p) (Safety.reply s f st b data)) := by
  cases p <;> simp_all [answerHead, respond, popRequest, requesterOf, State.link, State.setLink, Both.get, Both.set,
    Safety.answered, Safety.reply]

end Sys2Proof.Machine
end

