-- ==== Sys2Proof/Laws/Bands.lean ====
section
/-! SUPPORT. What the band table's resets, retirements and counts can change: the table, the notice lists and the agenda, and nothing else. -/

namespace Sys2Proof.Machine

/-- t differs from s at most in its links, its band table and its agenda, and its links at most in their notices. -/
structure OnlyBands (s t : State) : Prop where
  eq : t = { s with links := t.links, table := t.table, agenda := t.agenda }
  links : ∀ p, t.link p = { s.link p with notices := (t.link p).notices }
  zones : t.table.zones = s.table.zones
  freed : t.agenda.freed = s.agenda.freed

namespace OnlyBands
variable {s t u : State}

theorem refl (s : State) : OnlyBands s s := ⟨rfl, fun _ => rfl, rfl, rfl⟩

theorem trans (h : OnlyBands s t) (k : OnlyBands t u) : OnlyBands s u := by
  refine ⟨?_, fun p => ?_, k.zones.trans h.zones, k.freed.trans h.freed⟩
  · rw [k.eq, h.eq]
  · rw [k.links p, h.links p]

theorem pending (h : OnlyBands s t) : t.pending = s.pending := by rw [h.eq]
theorem now (h : OnlyBands s t) : t.now = s.now := by rw [h.eq]
theorem custody (h : OnlyBands s t) : t.custody = s.custody := by rw [h.eq]
theorem staging (h : OnlyBands s t) : t.staging = s.staging := by rw [h.eq]
theorem map (h : OnlyBands s t) : t.map = s.map := by rw [h.eq]
theorem alloc (h : OnlyBands s t) : t.alloc = s.alloc := by rw [h.eq]
theorem sched (h : OnlyBands s t) : t.sched = s.sched := by rw [h.eq]
theorem engine (h : OnlyBands s t) : t.engine = s.engine := by rw [h.eq]
theorem startup (h : OnlyBands s t) : t.startup = s.startup := by rw [h.eq]
theorem freeCount (h : OnlyBands s t) : t.freeCount = s.freeCount := by rw [h.eq]

end OnlyBands

variable (s : State)

theorem onlyBands_offer : OnlyBands s (offer s) := ⟨rfl, fun _ => rfl, rfl, rfl⟩

theorem onlyBands_choiceDue : OnlyBands s (choiceDue s) := ⟨rfl, fun _ => rfl, rfl, rfl⟩

theorem onlyBands_placeNotice (k : NoticeKind) (b : Option Nat) : OnlyBands s (placeNotice k b s) := by
  refine ⟨rfl, fun p => ?_, rfl, rfl⟩
  cases p <;> rfl

theorem onlyBands_updBand (b : Nat) (f : Band → Band) : OnlyBands s (updBand b f s) := ⟨rfl, fun _ => rfl, rfl, rfl⟩

theorem onlyBands_leaveDue (b : Nat) : OnlyBands s (leaveDue b s) := ⟨rfl, fun _ => rfl, rfl, rfl⟩

theorem onlyBands_freeLowTest : OnlyBands s (freeLowTest s) := by
  unfold freeLowTest
  split
  · split
    · exact .refl s
    · exact OnlyBands.trans (t := { s with table := { s.table with critical := true } }) ⟨rfl, fun _ => rfl, rfl, rfl⟩
        (onlyBands_placeNotice _ _ _)
  · exact ⟨rfl, fun _ => rfl, rfl, rfl⟩

theorem onlyBands_freeChanged : OnlyBands s (freeChanged s) :=
  ((onlyBands_freeLowTest s).trans (onlyBands_choiceDue _)).trans (onlyBands_offer _)

theorem onlyBands_joinDue (b : Nat) : OnlyBands s (joinDue b s) := by
  unfold joinDue
  split
  · exact .refl s
  · exact (OnlyBands.trans (t := { s with table := { s.table with due := s.table.due ++ [b] } }) ⟨rfl, fun _ => rfl, rfl, rfl⟩
      (onlyBands_placeNotice _ _ _)).trans (onlyBands_choiceDue _)

theorem onlyBands_resetBand (b : Nat) : OnlyBands s (resetBand b s) :=
  ((onlyBands_updBand s b _).trans (onlyBands_leaveDue _ b)).trans (onlyBands_freeChanged _)

theorem onlyBands_retireBand (b : Nat) : OnlyBands s (retireBand b s) :=
  ((onlyBands_updBand s b _).trans (onlyBands_leaveDue _ b)).trans (onlyBands_placeNotice _ _ _)

theorem onlyBands_resetOrRetire (b : Nat) : OnlyBands s (resetOrRetire b s) := by
  unfold resetOrRetire
  split
  · exact .refl s
  · split
    · exact onlyBands_retireBand s b
    · exact onlyBands_resetBand s b

theorem onlyBands_emptiedTest (b : Nat) : OnlyBands s (emptiedTest b s) := by
  unfold emptiedTest
  split
  · exact .refl s
  · split
    · exact onlyBands_resetOrRetire s b
    · exact .refl s

theorem onlyBands_raiseLive (b m : Nat) : OnlyBands s (raiseLive b m s) := onlyBands_updBand s b _

theorem onlyBands_lowerLive (b m : Nat) : OnlyBands s (lowerLive b m s) :=
  (onlyBands_updBand s b _).trans (onlyBands_emptiedTest _ b)

theorem onlyBands_addPin (b : Nat) : OnlyBands s (addPin b s) := onlyBands_updBand s b _

theorem onlyBands_heldReset (b : Nat) : OnlyBands s (heldReset b s) := by
  unfold heldReset
  split
  · exact .refl s
  · split
    · split
      · exact onlyBands_resetOrRetire s b
      · exact onlyBands_emptiedTest s b
    · exact .refl s

theorem onlyBands_removePin (b : Nat) : OnlyBands s (removePin b s) :=
  (onlyBands_updBand s b _).trans (onlyBands_heldReset _ b)

theorem onlyBands_takeBand (b : Nat) (i : StreamId) : OnlyBands s (takeBand b i s) :=
  (onlyBands_updBand s b _).trans (onlyBands_freeChanged _)

theorem onlyBands_drainBand (b : Nat) : OnlyBands s (drainBand b s) :=
  (onlyBands_updBand s b _).trans (onlyBands_leaveDue _ b)

theorem onlyBands_endDrain (b : Nat) : OnlyBands s (endDrain b s) :=
  (onlyBands_updBand s b _).trans (onlyBands_heldReset _ b)

theorem onlyBands_writeProgress (b : Nat) (is : List RunItem) (xs : List Sector) : OnlyBands s (writeProgress b is xs s) := by
  unfold writeProgress
  split
  · exact .refl s
  · exact onlyBands_updBand s b _

theorem onlyBands_recordBreak (b n : Nat) : OnlyBands s (recordBreak b n s) := onlyBands_updBand s b _

/-- A band's record put in its own place changes nothing. -/
theorem set_self {n : Nat} {r : Band} (h : band? s n = some r) : s.table.bands.set n r = s.table.bands := by
  refine List.ext_getElem? fun i => ?_
  rw [List.getElem?_set]
  have hb : s.table.bands[n]? = some r := h
  have := (List.getElem?_eq_some_iff.mp hb).1
  split <;> simp_all

/-- A change of the record of band b puts the changed record in its place. -/
theorem updBand_eq_set {b : Nat} {r : Band} (h : band? s b = some r) (f : Band → Band) :
    updBand b f s = { s with table := { s.table with bands := s.table.bands.set b (f r) } } := by
  have : s.table.bands.modify b f = s.table.bands.set b (f r) := by
    refine List.ext_getElem? fun i => ?_
    have hb : s.table.bands[b]? = some r := h
    rw [List.getElem?_modify, List.getElem?_set]
    have := (List.getElem?_eq_some_iff.mp hb).1
    split <;> simp_all
  rw [updBand, this]

/-- A change of one band's record leaves every other record as it is. -/
theorem band?_updBand (b n : Nat) (f : Band → Band) :
    band? (updBand b f s) n = if n = b then (band? s n).map f else band? s n := by
  simp only [band?, updBand_table, List.getElem?_modify]
  split <;> split <;> simp_all

theorem band?_offer (n : Nat) : band? (offer s) n = band? s n := rfl

theorem band?_placeNotice (k : NoticeKind) (b : Option Nat) (n : Nat) : band? (placeNotice k b s) n = band? s n := rfl

theorem band?_leaveDue (b n : Nat) : band? (leaveDue b s) n = band? s n := rfl

theorem band?_freeLowTest (n : Nat) : band? (freeLowTest s) n = band? s n := by
  unfold freeLowTest
  split
  · split <;> rfl
  · rfl

theorem band?_freeChanged (n : Nat) : band? (freeChanged s) n = band? s n := band?_freeLowTest s n

theorem due_freeChanged : (freeChanged s).table.due = s.table.due := by
  show (freeLowTest s).table.due = s.table.due
  unfold freeLowTest
  split
  · split <;> rfl
  · rfl

theorem band?_resetBand (b n : Nat) :
    band? (resetBand b s) n = if n = b then (band? s n).map Band.resetRecord else band? s n := by
  rw [resetBand, band?_freeChanged, band?_leaveDue, band?_updBand]

theorem band?_retireBand (b n : Nat) :
    band? (retireBand b s) n = if n = b then (band? s n).map Band.retireRecord else band? s n := by
  rw [retireBand, band?_placeNotice, band?_leaveDue, band?_updBand]

/-- A reset or retirement touches the one band's record alone. -/
theorem band?_resetOrRetire_other (b n : Nat) (h : n ≠ b) : band? (resetOrRetire b s) n = band? s n := by
  unfold resetOrRetire
  split
  · rfl
  · split
    · rw [band?_retireBand, if_neg h]
    · rw [band?_resetBand, if_neg h]

theorem band?_emptiedTest_other (b n : Nat) (h : n ≠ b) : band? (emptiedTest b s) n = band? s n := by
  unfold emptiedTest
  split
  · rfl
  · split
    · exact band?_resetOrRetire_other s b n h
    · rfl

theorem band?_lowerLive_other (b m n : Nat) (h : n ≠ b) : band? (lowerLive b m s) n = band? s n := by
  rw [lowerLive, band?_emptiedTest_other _ _ _ h, band?_updBand, if_neg h]

end Sys2Proof.Machine
end

