-- ==== Sys2Proof/Laws/Causes.lean ====
section
/-! SUPPORT. What raising a cause and crossing the threshold can change (R37, R38, R41, R126, R129), and how F follows a band record. -/

namespace Sys2Proof.Machine

/-- t differs from s at most in what raising causes writes: the band table, the notice lists, the summary list, the agenda, and, where a write
run is in flight, the marks of the streams whose bands are to be finished. -/
structure CauseFrame (s t : State) : Prop where
  eq : t = { s with
    links := t.links, table := t.table, agenda := t.agenda, alloc := t.alloc
    sched := { s.sched with summaries := t.sched.summaries } }
  links : ∀ p, t.link p = { s.link p with notices := (t.link p).notices }
  zones : t.table.zones = s.table.zones
  alloc : (∀ b, writeInFlight b s = false) → t.alloc = s.alloc

namespace CauseFrame
variable {s t u : State}

theorem refl (s : State) : CauseFrame s s := ⟨rfl, fun _ => rfl, rfl, fun _ => rfl⟩

theorem current (h : CauseFrame s t) : t.sched.current = s.sched.current := by rw [h.eq]

theorem trans (h : CauseFrame s t) (k : CauseFrame t u) : CauseFrame s u := by
  refine ⟨?_, fun p => ?_, k.zones.trans h.zones, fun hw => (k.alloc fun b => ?_).trans (h.alloc hw)⟩
  · rw [k.eq, h.eq]
  · rw [k.links p, h.links p]
  · have : writeInFlight b t = writeInFlight b s := by unfold writeInFlight; rw [h.current]
    rw [this]; exact hw b

end CauseFrame

/-- What changes bands and notices alone is within the frame. -/
theorem OnlyBands.causeFrame {s t : State} (h : OnlyBands s t) : CauseFrame s t := by
  refine ⟨?_, h.links, h.zones, fun _ => h.alloc⟩
  have e := h.eq
  rw [e]

variable (s : State)

theorem causeFrame_finishBand (b : Nat) : CauseFrame s (finishBand b s) := by
  unfold finishBand
  split
  · rename_i hw
    split
    · exact .refl s
    · rename_i i _
      cases i <;> exact ⟨rfl, fun _ => rfl, rfl, fun h => by rw [h b] at hw; simp at hw⟩
  · exact ⟨rfl, fun _ => rfl, rfl, fun _ => rfl⟩

theorem causeFrame_raiseCause (b : Nat) (c : Cause) : CauseFrame s (raiseCause b c s) := by
  unfold raiseCause
  split
  · exact .refl s
  · have ha := (onlyBands_updBand s b (fun x => { x with causes := x.causes.add c })).causeFrame
    simp only
    split
    · exact .refl s
    · exact .refl s
    · exact (ha.trans (onlyBands_joinDue _ b).causeFrame).trans (causeFrame_finishBand _ b)
    · exact ha.trans (onlyBands_joinDue _ b).causeFrame
    · exact ha.trans (onlyBands_joinDue _ b).causeFrame
    · exact ha

theorem causeFrame_crossThreshold (n : Nat) : CauseFrame s (crossThreshold n s) := by
  unfold crossThreshold
  split
  · exact .refl s
  · split
    · split
      · exact .refl s
      · exact ((onlyBands_updBand s n _).trans (onlyBands_placeNotice _ _ _)).causeFrame
    · split
      · exact .refl s
      · exact causeFrame_raiseCause _ _ _

theorem causeFrame_gainExposure (n z g : Nat) : CauseFrame s (gainExposure n z g s) := by
  unfold gainExposure
  split
  · exact .refl s
  · rename_i r _
    split
    · have h := (onlyBands_updBand s n fun x => { x with exposure := exposureAfter r.exposure g }).causeFrame
      simp only
      split
      · exact h.trans (causeFrame_crossThreshold _ _)
      · exact h
    · exact .refl s

theorem causeFrame_reevaluate : CauseFrame s (reevaluate s) := by
  unfold reevaluate
  generalize List.range (bandCount s) = l
  induction l generalizing s with
  | nil => exact .refl s
  | cons n l ih =>
    rw [List.foldl_cons]
    refine CauseFrame.trans ?_ (ih _)
    split
    · exact .refl s
    · split
      · exact causeFrame_crossThreshold _ _
      · exact .refl s

/-! ### A crossing -/

/-- Band b joins the due list unless it is on it. -/
theorem joinDue_eq (b : Nat) :
    joinDue b s =
        { s with
          links := (joinDue b s).links
          table := { s.table with due := if b ∈ s.table.due then s.table.due else s.table.due ++ [b] }
          agenda := { s.agenda with choice := s.agenda.choice || !decide (b ∈ s.table.due) } } ∧
      ∀ p, (joinDue b s).link p =
        { s.link p with
          notices := if b ∈ s.table.due then (s.link p).notices else takeNotice .bandDue (some b) (s.link p).notices } := by
  unfold joinDue
  by_cases h : b ∈ s.table.due
  · simp [h]
  · simp only [if_neg h]
    exact ⟨by simp [choiceDue, placeNotice, h], fun p => by cases p <;> rfl⟩

/-- The band b is finished. -/
theorem finishBand_eq {b : Nat} {r : Band} (h : band? s b = some r) :
    finishBand b s =
        { s with
          table :=
            { s.table with bands := s.table.bands.set b { r with state := if writeInFlight b s then r.state else .closing } }
          sched :=
            { s.sched with summaries := if writeInFlight b s then s.sched.summaries else s.sched.summaries ++ [b] }
          alloc := (finishBand b s).alloc
          agenda := { s.agenda with offered := s.agenda.offered || !writeInFlight b s } } ∧
      ∀ i, stream (finishBand b s) i =
        if writeInFlight b s = true ∧ r.owner = some i then { stream s i with finish := true } else stream s i := by
  unfold finishBand
  cases hw : writeInFlight b s
  · simp only [Bool.false_eq_true, if_false, closeBand, updBand_eq_set s h]
    exact ⟨by simp [offer], fun i => by simp only [false_and, if_false]; cases i <;> rfl⟩
  · have hs : s.table.bands.set b { r with state := r.state } = s.table.bands := set_self s h
    simp only [if_true, h, Option.bind_some, hs, Bool.not_true, Bool.or_false, true_and]
    cases ho : r.owner with
    | none => exact ⟨rfl, by simp⟩
    | some j =>
      refine ⟨?_, fun i => ?_⟩
      · cases j <;> rfl
      · cases j with
        | relocation => cases i <;> simp [updStream, updReloc, stream]
        | host t =>
          cases i with
          | relocation => simp [updStream, updHost, stream]
          | host t' =>
            simp only [updStream, updHost, stream, Option.some.injEq, StreamId.host.injEq]
            by_cases ht : t = t'
            · subst ht; simp
            · have : (t : Nat) ≠ t' := fun h => ht (Fin.ext h)
              simp [ht, this]

/-- What a crossing of band n, of record r in a state that has exposure, leaves (R37, R38, R41, R101, R126, R127). -/
theorem crossThreshold_eq {n : Nat} {r : Band} (h : band? s n = some r) (hr : exposable r.state = true) :
    ∃ u, crossThreshold n s = u ∧
      u =
        { s with
          links := u.links
          table :=
            { s.table with
              bands := s.table.bands.set n (Safety.crossedRecord s n r)
              due := if Safety.joinsDue s n r then s.table.due ++ [n] else s.table.due }
          sched :=
            { s.sched with
              summaries := if Safety.closesAtOnce s n r then s.sched.summaries ++ [n] else s.sched.summaries }
          alloc := u.alloc
          agenda :=
            { s.agenda with
              offered := s.agenda.offered || Safety.closesAtOnce s n r
              choice := s.agenda.choice || Safety.joinsDue s n r } } ∧
      (∀ p, u.link p = { s.link p with notices := Safety.crossedNotices s n r (s.link p).notices }) ∧
      ∀ i, stream u i =
        if Safety.finishesLater s n r = true ∧ r.owner = some i then { stream s i with finish := true } else stream s i := by
  refine ⟨_, rfl, ?_⟩
  have hself := set_self s h
  simp only [crossThreshold, h]
  cases hm : coldMasked s n
  · cases he : r.causes.exposure
    · have hw : ∀ t : State, t.sched = s.sched → writeInFlight n t = writeInFlight n s := fun t ht => by unfold writeInFlight; rw [ht]
      have hb : s.table.bands[n]? = some r := h
      have hl := (List.getElem?_eq_some_iff.mp hb).1
      have hmod : ∀ f : Band → Band, s.table.bands.modify n f = s.table.bands.set n (f r) := fun f =>
        congrArg (fun t : State => t.table.bands) (updBand_eq_set s h f)
      have hlink : ∀ (p : Port), s.links.get p = s.link p := fun _ => rfl
      simp only [Bool.false_eq_true, if_false, raiseCause, h, Safety.crossedRecord, Safety.joinsDue, Safety.closesAtOnce, Safety.finishesLater,
        Safety.raisesExposure, Safety.crossedNotices, hm, he]
      have h1 : (BandState.closing == .opened) = false := rfl
      have h2 : (BandState.filled == .opened) = false := rfl
      have h3 : (BandState.draining == .opened) = false := rfl
      have h4 : (BandState.draining == .closing) = false := rfl
      have h5 : (BandState.draining == .filled) = false := rfl
      have hadd : updBand n (fun x => { x with causes := x.causes.add .exposure }) s =
          { s with table := { s.table with bands := s.table.bands.set n { r with causes := { r.causes with exposure := true } } } } := by
        rw [updBand_eq_set s h]; rfl
      rw [hadd]
      generalize hv : ({ s with
        table := { s.table with bands := s.table.bands.set n { r with causes := { r.causes with exposure := true } } } } : State) = v
      have hvt : v.table = { s.table with bands := s.table.bands.set n { r with causes := { r.causes with exposure := true } } } := by rw [← hv]
      have hvb : band? v n = some { r with causes := { r.causes with exposure := true } } := by
        rw [← hv]; simp [band?, hl]
      have hvw : writeInFlight n v = writeInFlight n s := hw _ (by rw [← hv])
      obtain ⟨hj, hjl⟩ := joinDue_eq v n
      have hjb : band? (joinDue n v) n = some { r with causes := { r.causes with exposure := true } } := by rw [hj]; exact hvb
      have hjw : writeInFlight n (joinDue n v) = writeInFlight n s := by rw [← hvw]; unfold writeInFlight; rw [hj]
      cases hs : r.state <;> rw [hs] at hr <;> try (exact absurd hr (by decide))
      · obtain ⟨hf, hfs⟩ := finishBand_eq (joinDue n v) hjb
        rw [hjw] at hf hfs
        refine ⟨?_, ?_, ?_⟩
        · simp only
          rw [hf, hj]
          have : (finishBand n (joinDue n v)).links = (joinDue n v).links := by rw [hf]
          rw [← hv]
          cases hwf : writeInFlight n s <;> by_cases hd : n ∈ s.table.due <;> simp [hd, hs, BEq.rfl]
        · intro p
          show (finishBand n (joinDue n v)).link p = _
          have : (finishBand n (joinDue n v)).link p = (joinDue n v).link p := by rw [hf]; rfl
          rw [this, hjl p]
          have : v.link p = s.link p := by rw [← hv]; rfl
          rw [this]
          by_cases hd : n ∈ s.table.due <;> simp [hvt, hd, BEq.rfl]
        · intro i
          show stream (finishBand n (joinDue n v)) i = _
          rw [hfs i]
          have : stream (joinDue n v) i = stream s i := by rw [hj, ← hv]; cases i <;> rfl
          rw [this]
          simp [BEq.rfl]
      on_goal 3 =>
        refine ⟨?_, fun p => ?_, fun i => ?_⟩
        · simp only
          rw [← hv]
          simp [h3, h4, h5, hs]
        · show v.link p = _
          rw [← hv]; simp [h3, h4, h5]; rfl
        · show stream v i = _
          rw [← hv]; simp [h3]; cases i <;> rfl
      all_goals
        refine ⟨?_, fun p => ?_, fun i => ?_⟩
        · simp only
          rw [hj, ← hv]
          by_cases hd : n ∈ s.table.due <;> simp [hd, h1, h2, BEq.rfl, hs]
        · show (joinDue n v).link p = _
          rw [hjl p]
          have : v.link p = s.link p := by rw [← hv]; rfl
          rw [this]
          by_cases hd : n ∈ s.table.due <;> simp [hvt, hd, BEq.rfl, h1, h2]
        · show stream (joinDue n v) i = _
          have : stream (joinDue n v) i = stream s i := by rw [hj, ← hv]; cases i <;> rfl
          rw [this]; simp [h1, h2]
    · have hx : Safety.crossedRecord s n r = r := by
        have : { r.causes with exposure := true } = r.causes := by cases hc : r.causes; rw [hc] at he; simp_all
        simp [Safety.crossedRecord, Safety.closesAtOnce, Safety.raisesExposure, hm, he, this]
      simp [hm, he, hx, hself, Safety.joinsDue, Safety.closesAtOnce, Safety.finishesLater, Safety.raisesExposure, Safety.crossedNotices]
  · cases hn : r.neglected
    · refine ⟨?_, ?_, ?_⟩
      · simp [hm, updBand_eq_set s h, Safety.crossedRecord, placeNotice, Safety.joinsDue, Safety.closesAtOnce,
          Safety.raisesExposure]
      · intro p; cases p <;> simp [hm, hn, Safety.crossedNotices, placeNotice, State.link, Both.get]
      · intro i
        simp [Safety.finishesLater, Safety.raisesExposure, hm]
        cases i <;> rfl
    · have hx : Safety.crossedRecord s n r = r := by
        cases r; simp_all [Safety.crossedRecord]
      simp [hm, hn, hx, hself, Safety.joinsDue, Safety.closesAtOnce, Safety.finishesLater, Safety.raisesExposure, Safety.crossedNotices]

/-- A band that the re-evaluation under threshold T treats as crossing (R129). -/
def crossesAt (T : Nat) (r : Band) : Bool :=
  exposable r.state && decide (T ≤ r.exposure) && !r.causes.exposure

/-- The bands of l that cross and pass a test. -/
def crossing (l : List Nat) (test : Nat → Band → Bool) : List Nat :=
  l.filter fun n => (band? s n).any fun r => crossesAt s.startup.image.threshold r && test n r

/-- What the crossings of the bands l, each named once, leave of s (R126, R129). -/
structure Crossed (l : List Nat) (t : State) : Prop where
  eq : t =
    { s with
      links := t.links
      table := { s.table with bands := t.table.bands, due := s.table.due ++ crossing s l (Safety.joinsDue s) }
      sched := { s.sched with summaries := s.sched.summaries ++ crossing s l (Safety.closesAtOnce s) }
      alloc := t.alloc
      agenda :=
        { s.agenda with
          offered := s.agenda.offered || !(crossing s l (Safety.closesAtOnce s)).isEmpty
          choice := s.agenda.choice || !(crossing s l (Safety.joinsDue s)).isEmpty } }
  bands : ∀ m, band? t m =
    (band? s m).map fun r =>
      if m ∈ l ∧ crossesAt s.startup.image.threshold r = true then Safety.crossedRecord s m r else r
  links : ∀ q, t.link q =
    { s.link q with
      notices :=
        l.foldl
          (fun k n =>
            match (band? s n).filter (crossesAt s.startup.image.threshold) with
            | none => k
            | some r => Safety.crossedNotices s n r k)
          (s.link q).notices }
  streams : ∀ i, stream t i =
    if (crossing s l (Safety.finishesLater s)).any fun n => (band? s n).any fun r => r.owner == some i then
      { stream s i with finish := true }
    else stream s i

/-- A band that does not cross may be named or not. -/
theorem Crossed.cons_none {n : Nat} {l : List Nat} {t : State}
    (hc : ∀ r, band? s n = some r → crossesAt s.startup.image.threshold r = false) (h : Crossed s l t) : Crossed s (n :: l) t := by
  have h1 : ∀ test, crossing s (n :: l) test = crossing s l test := fun test => by
    cases hb : band? s n with
    | none => simp [crossing, hb]
    | some r => simp [crossing, hb, hc r hb]
  have h2 : (band? s n).filter (crossesAt s.startup.image.threshold) = none := by
    cases hb : band? s n with
    | none => rfl
    | some r => simp [hc r hb]
  refine ⟨?_, fun m => ?_, fun q => ?_, fun i => ?_⟩
  · rw [h1, h1]; exact h.eq
  · rw [h.bands m]
    cases hb : band? s m with
    | none => rfl
    | some r =>
      by_cases hm : m = n
      · subst hm; simp [hc r hb]
      · simp [hm]
  · rw [h.links q, List.foldl_cons, h2]
  · rw [h1]; exact h.streams i

/-- The re-evaluation of the bands l, each named once, in that order (R129). -/
theorem crossed_foldl : ∀ (l : List Nat) (s : State), l.Nodup →
    Crossed s l
      (l.foldl
        (fun s n =>
          match band? s n with
          | none => s
          | some r =>
            if exposable r.state = true ∧ s.startup.image.threshold ≤ r.exposure ∧ r.causes.exposure = false then crossThreshold n s
            else s)
        s)
  | [], s, _ => by
    refine ⟨?_, fun m => ?_, fun q => rfl, fun i => ?_⟩
    · simp [crossing]
    · simp
    · simp [crossing]
  | n :: l, s, h => by
    obtain ⟨hn, hl⟩ := List.nodup_cons.mp h
    rw [List.foldl_cons]
    cases hb : band? s n with
    | none => exact (crossed_foldl l s hl).cons_none s fun r hr => by rw [hb] at hr; cases hr
    | some r =>
      cases hc : crossesAt s.startup.image.threshold r
      · have : ¬(exposable r.state = true ∧ s.startup.image.threshold ≤ r.exposure ∧ r.causes.exposure = false) := by
          rintro ⟨a, b, c⟩; simp [crossesAt, a, b, c] at hc
        simp only [if_neg this]
        exact (crossed_foldl l s hl).cons_none s fun r' hr => by rw [hb] at hr; cases hr; exact hc
      · have hx : exposable r.state = true ∧ s.startup.image.threshold ≤ r.exposure ∧ r.causes.exposure = false := by
          simpa [crossesAt, and_assoc] using hc
        simp only [if_pos hx]
        obtain ⟨u, hu, he, hlk, hst⟩ := crossThreshold_eq s hb hx.1
        rw [hu]
        obtain ⟨b, c, d, e⟩ := crossed_foldl l u hl
        generalize List.foldl _ u l = t at b c d e ⊢
        have hlt : n < s.table.bands.length := (List.getElem?_eq_some_iff.mp hb).1
        have hub : ∀ m, band? u m = if m = n then some (Safety.crossedRecord s n r) else band? s m := fun m => by
          rw [he]; simp only [band?, List.getElem?_set]
          by_cases hm : n = m
          · subst hm; simp [hlt]
          · simp [hm, Ne.symm hm]
        have hmask : ∀ m, coldMasked u m = coldMasked s m := fun m => by
          rw [he]; simp [coldMasked, bandCount]
        have hw : ∀ m, writeInFlight m u = writeInFlight m s := fun m => by rw [he]; rfl
        have hth : u.startup.image.threshold = s.startup.image.threshold := by rw [he]
        have hdue : ∀ m, m ≠ n → (m ∈ u.table.due ↔ m ∈ s.table.due) := fun m hm => by
          rw [he]; simp only; split <;> simp [hm]
        have hj : ∀ m ∈ l, ∀ x, Safety.joinsDue u m x = Safety.joinsDue s m x := fun m hm x => by
          have : m ≠ n := fun h => hn (h ▸ hm)
          simp [Safety.joinsDue, Safety.raisesExposure, hmask, hdue m this]
        have hcl : ∀ m ∈ l, ∀ x, Safety.closesAtOnce u m x = Safety.closesAtOnce s m x := fun m hm x => by
          simp [Safety.closesAtOnce, Safety.raisesExposure, hmask, hw]
        have hfl : ∀ m ∈ l, ∀ x, Safety.finishesLater u m x = Safety.finishesLater s m x := fun m hm x => by
          simp [Safety.finishesLater, Safety.raisesExposure, hmask, hw]
        have hcr : ∀ m ∈ l, ∀ x, Safety.crossedRecord u m x = Safety.crossedRecord s m x := fun m hm x => by
          simp only [Safety.crossedRecord, hmask, hcl m hm]
        have hcn : ∀ m ∈ l, ∀ x, Safety.crossedNotices u m x = Safety.crossedNotices s m x := fun m hm x => by
          funext k; simp only [Safety.crossedNotices, hmask, hj m hm]
        have hbl : ∀ m ∈ l, band? u m = band? s m := fun m hm => by
          rw [hub, if_neg]; rintro rfl; exact hn hm
        have hcg : ∀ (f g : Nat → Band → Bool), (∀ m ∈ l, ∀ x, f m x = g m x) →
            crossing s (n :: l) g = (if g n r then [n] else []) ++ crossing u l f := fun f g hfg => by
          have : crossing u l f = crossing s l g := by
            refine List.filter_congr fun m hm => ?_
            rw [hbl m hm, hth]
            cases band? s m with
            | none => rfl
            | some x => simp [hfg m hm]
          rw [this]
          simp only [crossing, List.filter_cons, hb, Option.any_some, hc, Bool.true_and]
          split <;> rfl
        have g1 := hcg _ _ hj
        have g2 := hcg _ _ hcl
        have g3 := hcg _ _ hfl
        have hdj : Safety.joinsDue s n r = true → n ∉ s.table.due := by
          simp only [Safety.joinsDue, Bool.and_eq_true]; rintro ⟨-, h⟩; simpa using h
        refine ⟨?_, fun m => ?_, fun q => ?_, fun i => ?_⟩
        · rw [b, g1, g2, he]
          simp only
          cases hJ : Safety.joinsDue s n r <;> cases hC : Safety.closesAtOnce s n r <;> simp
        · rw [c m, hub]
          by_cases hm : m = n
          · subst hm
            simp [hn, hb, hc]
          · rw [if_neg hm, hth]
            cases band? s m with
            | none => rfl
            | some x =>
              simp only [Option.map_some, List.mem_cons, hm, false_or]
              by_cases hml : m ∈ l
              · rw [hcr m hml]
              · simp [hml]
        · rw [d q, hlk q, List.foldl_cons, hb]
          simp only [Option.filter, hc, if_true]
          congr 1
          refine List.foldl_ext _ _ _ fun k m hm => ?_
          rw [hbl m hm, hth]
          cases band? s m with
          | none => rfl
          | some x =>
            simp only
            cases crossesAt s.startup.image.threshold x
            · rfl
            · simp only [if_true]; rw [hcn m hm]
        · rw [e i, g3, hst i]
          have : (crossing u l (Safety.finishesLater u)).any (fun n => (band? u n).any fun r => r.owner == some i) =
              (crossing u l (Safety.finishesLater u)).any (fun n => (band? s n).any fun r => r.owner == some i) := by
            rw [Bool.eq_iff_iff, List.any_eq_true, List.any_eq_true]
            refine exists_congr fun m => and_congr_right fun hm => ?_
            rw [hbl m (List.mem_of_mem_filter hm)]
          rw [this]
          cases hF : Safety.finishesLater s n r <;> simp [hb]
          by_cases ho : r.owner = some i <;> simp [ho]

/-- What the re-evaluation leaves (R129). -/
theorem crossed_reevaluate : Crossed s (List.range s.table.bands.length) (reevaluate s) :=
  crossed_foldl _ s List.nodup_range

/-! ### The count F -/

/-- A change at one place of a list moves a count by that place alone. -/
theorem countP_modify {α : Type} (p : α → Bool) (f : α → α) (l : List α) : ∀ (b : Nat) (r : α), l[b]? = some r →
    (l.modify b f).countP p + (if p r then 1 else 0) = l.countP p + (if p (f r) then 1 else 0) := by
  induction l with
  | nil => intro b r h; simp at h
  | cons x l ih =>
    intro b r h
    cases b with
    | zero => simp at h; subst h; simp only [List.modify_zero_cons, List.countP_cons]; omega
    | succ b => simp at h; have := ih b r h; simp only [List.modify_succ_cons, List.countP_cons]; omega

/-- F follows the state of the one band record that is changed (R43). -/
theorem freeBands_updBand (b : Nat) (r : Band) (f : Band → Band) (h : band? s b = some r) :
    freeBands (updBand b f s) + (if r.state = .empty then 1 else 0) = freeBands s + (if (f r).state = .empty then 1 else 0) := by
  have := countP_modify (fun b => decide (b.state = .empty)) f s.table.bands b r h
  simpa [freeBands] using this

theorem freeBands_freeChanged : freeBands (freeChanged s) = freeBands s := by
  show freeBands (freeLowTest s) = _
  unfold freeLowTest
  split
  · split <;> rfl
  · rfl

end Sys2Proof.Machine
end

