-- ==== Sys2Proof/Laws/ExtentMap.lean ====
section
/-! SUPPORT. The extent map: what a change of a range does to the resolution of every block, and that it keeps the order law. -/

namespace Sys2Proof.Machine

/-! ### Resolution -/

@[simp] theorem Location.shift_shift (a b : Nat) : ∀ l : Location, (l.shift a).shift b = l.shift (a + b)
  | .media _ _ => by simp [Location.shift, Nat.add_assoc]
  | .staged _ _ => by simp [Location.shift, Nat.add_assoc]
  | .lost => rfl

@[simp] theorem Location.shift_zero : ∀ l : Location, l.shift 0 = l
  | .media _ _ => rfl
  | .staged _ _ => rfl
  | .lost => rfl

@[simp] theorem resolve_nil (L : Nat) : resolve [] L = none := rfl

theorem resolve_cons (r : Extent) (m : List Extent) (L : Nat) :
    resolve (r :: m) L =
      if r.start ≤ L ∧ L < r.start + r.len then some (r.loc.shift (L - r.start)) else resolve m L := by
  by_cases h : r.start ≤ L ∧ L < r.start + r.len
  · simp [resolve, Extent.covers, h]
  · have : r.covers L = false := by
      simp only [Extent.covers, Bool.and_eq_false_iff, decide_eq_false_iff_not]
      omega
    simp [resolve, this, h]

theorem resolve_append (xs ys : List Extent) (L : Nat) : resolve (xs ++ ys) L = (resolve xs L).or (resolve ys L) := by
  induction xs with
  | nil => simp
  | cons r m ih =>
    rw [List.cons_append, resolve_cons, resolve_cons, ih]
    split <;> simp

/-- A cut moves no block. -/
theorem resolve_cutAt (K : Nat) (m : List Extent) (L : Nat) : resolve (cutAt K m) L = resolve m L := by
  induction m with
  | nil => rfl
  | cons r m ih =>
    rw [cutAt, List.flatMap_cons, resolve_append, ← cutAt, ih, resolve_cons r m]
    unfold cutRecord
    split
    · next h =>
      simp only [resolve_cons, resolve_nil, Location.shift_shift]
      by_cases h1 : r.start ≤ L ∧ L < K
      · rw [if_pos (by omega), if_pos (by omega)]; simp
      · by_cases h2 : K ≤ L ∧ L < r.start + r.len
        · rw [if_neg (by omega), if_pos (by omega), if_pos (by omega)]
          rw [show K - r.start + (L - K) = L - r.start by omega]; simp
        · rw [if_neg (by omega), if_neg (by omega), if_neg (by omega)]; simp
    · simp only [resolve_cons, resolve_nil]
      split <;> simp

theorem resolve_cutRange (a e : Nat) (m : List Extent) (L : Nat) : resolve (cutRange a e m) L = resolve m L := by
  rw [cutRange, resolve_cutAt, resolve_cutAt]

/-- No record of the map crosses into block K. -/
def Uncrossed (K : Nat) (m : List Extent) : Prop :=
  ∀ r ∈ m, ¬(r.start < K ∧ K < r.start + r.len)

theorem uncrossed_cutAt (K : Nat) (m : List Extent) : Uncrossed K (cutAt K m) := by
  intro r hr
  simp only [cutAt, List.mem_flatMap] at hr
  obtain ⟨x, -, hx⟩ := hr
  unfold cutRecord at hx
  split at hx
  · simp only [List.mem_cons, List.not_mem_nil, or_false] at hx
    rcases hx with rfl | rfl <;> simp
    omega
  · next h =>
    simp only [List.mem_singleton] at hx
    exact hx ▸ h

theorem uncrossed_cutAt_of (K J : Nat) (m : List Extent) (h : Uncrossed K m) : Uncrossed K (cutAt J m) := by
  intro r hr
  simp only [cutAt, List.mem_flatMap] at hr
  obtain ⟨x, hm, hx⟩ := hr
  have := h x hm
  unfold cutRecord at hx
  split at hx
  · simp only [List.mem_cons, List.not_mem_nil, or_false] at hx
    rcases hx with rfl | rfl <;> simp <;> omega
  · simp only [List.mem_singleton] at hx
    exact hx ▸ this

theorem uncrossed_cutRange_left (a e : Nat) (m : List Extent) : Uncrossed a (cutRange a e m) :=
  uncrossed_cutAt_of a e _ (uncrossed_cutAt a m)

theorem uncrossed_cutRange_right (a e : Nat) (m : List Extent) : Uncrossed e (cutRange a e m) :=
  uncrossed_cutAt e _

theorem resolve_before (a : Nat) (m : List Extent) (h : Uncrossed a m) (L : Nat) :
    resolve (m.filter fun r => decide (r.start < a)) L = if L < a then resolve m L else none := by
  induction m with
  | nil => simp
  | cons r m ih =>
    have hr := h r (by simp)
    have ih := ih fun x hx => h x (by simp [hx])
    rw [List.filter_cons, resolve_cons]
    by_cases hs : r.start < a
    · simp only [hs, decide_true, if_true, resolve_cons, ih]
      by_cases hc : r.start ≤ L ∧ L < r.start + r.len
      · rw [if_pos hc, if_pos (by omega), if_pos hc]
      · simp only [if_neg hc]
    · simp only [hs, decide_false, Bool.false_eq_true, if_false, ih]
      by_cases hL : L < a
      · rw [if_pos hL, if_pos hL, if_neg (by omega)]
      · simp [hL]

theorem resolve_after (e : Nat) (m : List Extent) (h : Uncrossed e m) (L : Nat) :
    resolve (m.filter fun r => decide (e ≤ r.start)) L = if e ≤ L then resolve m L else none := by
  induction m with
  | nil => simp
  | cons r m ih =>
    have hr := h r (by simp)
    have ih := ih fun x hx => h x (by simp [hx])
    rw [List.filter_cons, resolve_cons]
    by_cases hs : e ≤ r.start
    · simp only [hs, decide_true, if_true, resolve_cons, ih]
      by_cases hc : r.start ≤ L ∧ L < r.start + r.len
      · rw [if_pos hc, if_pos (by omega), if_pos hc]
      · simp only [if_neg hc]
    · simp only [hs, decide_false, Bool.false_eq_true, if_false, ih]
      by_cases hL : e ≤ L
      · rw [if_pos hL, if_pos hL, if_neg (by omega)]
      · simp [hL]

/-- A mergeable record continues the one before it. -/
theorem mergeable_spec {x y : Extent} (h : mergeable x y = true) :
    x.start + x.len = y.start ∧ y.loc = x.loc.shift x.len := by
  obtain ⟨xs, xl, xk⟩ := x
  obtain ⟨ys, yl, yk⟩ := y
  cases xk <;> cases yk <;> simp_all [mergeable, Location.shift]

theorem resolve_glue (xs ys : List Extent) (L : Nat) : resolve (glue xs ys) L = (resolve xs L).or (resolve ys L) := by
  unfold glue
  split
  · next x y ys' hx =>
    split
    · next hm =>
      obtain ⟨hend, hloc⟩ := mergeable_spec hm
      have hxs : xs = xs.dropLast ++ [x] := by
        have := List.dropLast_append_getLast? x hx
        exact this.symm
      rw [hxs, List.dropLast_concat, resolve_append, resolve_append, resolve_cons, resolve_cons y, resolve_cons x]
      simp only [resolve_nil, Option.or_assoc]
      congr 1
      by_cases h1 : x.start ≤ L ∧ L < x.start + x.len
      · rw [if_pos (by omega), if_pos h1]; simp
      · by_cases h2 : y.start ≤ L ∧ L < y.start + y.len
        · rw [if_pos (by omega), if_neg h1, if_pos h2, hloc, Location.shift_shift,
            show x.len + (L - y.start) = L - x.start by omega]
          simp
        · rw [if_neg (by omega), if_neg h1, if_neg h2]; simp
    · rw [resolve_append]
  · rw [resolve_append]

theorem resolve_sealBefore (xs : List Extent) (L : Nat) : resolve (sealBefore xs) L = resolve xs L := by
  unfold sealBefore
  split
  · next h => rw [List.getLast?_eq_none_iff.mp h]
  · next x h => rw [resolve_glue, ← resolve_append, List.dropLast_append_getLast? x h]

theorem resolve_sealAfter : ∀ (xs : List Extent) (L : Nat), resolve (sealAfter xs) L = resolve xs L
  | [], _ => rfl
  | y :: ys, L => by rw [sealAfter, resolve_glue, ← resolve_append]; rfl

/-- A change of the range [a, e) gives every block outside it the location it had, and every block inside it the location that the new records, which
lie inside it, give. -/
theorem resolve_changeRange (a e : Nat) (new m : List Extent) (L : Nat)
    (hnew : ∀ K, ¬(a ≤ K ∧ K < e) → resolve new K = none) :
    resolve (changeRange a e new m) L = if a ≤ L ∧ L < e then resolve new L else resolve m L := by
  unfold changeRange
  split
  · rw [if_neg (by omega)]
  · simp only [resolve_glue, resolve_sealBefore, resolve_sealAfter]
    rw [resolve_before a _ (uncrossed_cutRange_left a e m), resolve_after e _ (uncrossed_cutRange_right a e m),
      resolve_cutRange]
    by_cases h : a ≤ L ∧ L < e
    · rw [if_neg (by omega), if_neg (by omega), if_pos h]; simp
    · rw [hnew L h, if_neg h]
      by_cases h1 : L < a
      · rw [if_pos h1, if_neg (by omega)]; simp
      · rw [if_neg h1, if_pos (by omega)]; simp

/-- The change of a range to one record over it. -/
theorem resolve_changeRange_one (a n : Nat) (loc : Location) (m : List Extent) (L : Nat) :
    resolve (changeRange a (a + n) [{ start := a, len := n, loc := loc }] m) L =
      if a ≤ L ∧ L < a + n then some (loc.shift (L - a)) else resolve m L := by
  rw [resolve_changeRange a (a + n) _ m L]
  · simp only [resolve_cons, resolve_nil]
    split <;> rfl
  · intro K hK
    simp only [resolve_cons, resolve_nil, if_neg hK]

/-- The change of a range to nothing. -/
theorem resolve_changeRange_none (a e : Nat) (m : List Extent) (L : Nat) :
    resolve (changeRange a e [] m) L = if a ≤ L ∧ L < e then none else resolve m L :=
  resolve_changeRange a e [] m L (fun _ _ => rfl)

/-! ### The order law -/

/-- Two records that the order law lets stand side by side. -/
def Apart (x y : Extent) : Prop :=
  x.start + x.len ≤ y.start ∧ mergeable x y = false

theorem mapOrderedFrom_iff (lo : Nat) (m : List Extent) :
    mapOrderedFrom lo m = true ↔ (∀ r ∈ m, 1 ≤ r.len) ∧ (∀ r ∈ m.head?, lo ≤ r.start) ∧ m.IsChain Apart := by
  induction m generalizing lo with
  | nil => simp [mapOrderedFrom]
  | cons x m ih =>
    cases m with
    | nil => simp [mapOrderedFrom, and_comm]
    | cons y rest =>
      simp only [mapOrderedFrom, Bool.and_eq_true, decide_eq_true_eq, Bool.not_eq_true', ih,
        List.isChain_cons_cons, Apart, List.head?_cons, Option.mem_def, Option.some.injEq, forall_eq', List.mem_cons]
      constructor
      · rintro ⟨⟨⟨h1, h2⟩, h3⟩, h4, h5, h6⟩
        refine ⟨?_, h1, ⟨h5, h3⟩, h6⟩
        rintro r (rfl | hr)
        · exact h2
        · exact h4 r hr
      · rintro ⟨h1, h2, ⟨h3, h4⟩, h5⟩
        exact ⟨⟨⟨h2, h1 x (Or.inl rfl)⟩, h4⟩, fun r hr => h1 r (Or.inr hr), h3, h5⟩

/-- The order law as a chain. -/
def MapOk (m : List Extent) : Prop :=
  (∀ r ∈ m, 1 ≤ r.len) ∧ m.IsChain Apart

theorem mapOrdered_iff (m : List Extent) : mapOrdered m = true ↔ MapOk m := by
  rw [mapOrdered, mapOrderedFrom_iff, MapOk]
  simp

theorem MapOk.tail {x : Extent} {m : List Extent} (h : MapOk (x :: m)) : MapOk m :=
  ⟨fun r hr => h.1 r (List.mem_cons_of_mem _ hr), h.2.of_cons⟩

/-- Every later record starts at or after the end of the first. -/
theorem MapOk.starts {x : Extent} : ∀ {m : List Extent}, MapOk (x :: m) → ∀ r ∈ m, x.start + x.len ≤ r.start
  | [], _, r, hr => by simp at hr
  | y :: m, h, r, hr => by
    have hxy := (List.isChain_cons_cons.mp h.2).1.1
    rcases List.mem_cons.mp hr with rfl | hr
    · exact hxy
    · have := MapOk.starts h.tail r hr
      have := h.1 y (by simp)
      omega

/-- The records that start before a, the last one cut at a. -/
def beforePart (a : Nat) : List Extent → List Extent
  | [] => []
  | r :: m => if r.start < a then { r with len := min r.len (a - r.start) } :: beforePart a m else beforePart a m

/-- The records from e on, the first one cut at e. -/
def afterPart (e : Nat) : List Extent → List Extent
  | [] => []
  | r :: m =>
    if e ≤ r.start then r :: afterPart e m
    else if e < r.start + r.len then
      { start := e, len := r.start + r.len - e, loc := r.loc.shift (e - r.start) } :: afterPart e m
    else afterPart e m

theorem cutRange_cons (a e : Nat) (r : Extent) (m : List Extent) :
    cutRange a e (r :: m) = cutAt e (cutRecord a r) ++ cutRange a e m := by
  simp [cutRange, cutAt, List.flatMap_append]

theorem filter_before (a e : Nat) (h : a < e) (m : List Extent) :
    ((cutRange a e m).filter fun r => decide (r.start < a)) = beforePart a m := by
  induction m with
  | nil => rfl
  | cons r m ih =>
    rw [cutRange_cons, List.filter_append, ih, beforePart]
    unfold cutRecord
    by_cases h1 : r.start < a ∧ a < r.start + r.len
    · rw [if_pos h1, if_pos h1.1]
      simp only [cutAt, List.flatMap_cons, List.flatMap_nil, List.append_nil, cutRecord]
      rw [if_neg (by omega)]
      have hm : min r.len (a - r.start) = a - r.start := by omega
      by_cases h2 : a < e ∧ e < a + (r.start + r.len - a)
      · rw [if_pos h2]; simp [hm, h1.1, show ¬ e < a by omega]
      · rw [if_neg h2]; simp [hm, h1.1]
    · rw [if_neg h1]
      simp only [cutAt, List.flatMap_cons, List.flatMap_nil, List.append_nil, cutRecord]
      by_cases h3 : r.start < a
      · rw [if_neg (by omega), if_pos h3]
        have hm : min r.len (a - r.start) = r.len := by omega
        simp [hm, h3]
      · rw [if_neg h3]
        split
        · simp [h3, show ¬ e < a by omega]
        · simp [h3]

theorem filter_after (a e : Nat) (h : a < e) (m : List Extent) :
    ((cutRange a e m).filter fun r => decide (e ≤ r.start)) = afterPart e m := by
  induction m with
  | nil => rfl
  | cons r m ih =>
    rw [cutRange_cons, List.filter_append, ih, afterPart]
    unfold cutRecord
    by_cases h1 : r.start < a ∧ a < r.start + r.len
    · rw [if_pos h1, if_neg (show ¬ e ≤ r.start by omega)]
      simp only [cutAt, List.flatMap_cons, List.flatMap_nil, List.append_nil, cutRecord]
      rw [if_neg (show ¬(r.start < e ∧ e < r.start + (a - r.start)) by omega)]
      by_cases h2 : e < r.start + r.len
      · rw [if_pos (show a < e ∧ e < a + (r.start + r.len - a) by omega), if_pos h2]
        simp [show ¬ e ≤ a by omega, show ¬ e ≤ r.start by omega, show a - r.start + (e - a) = e - r.start by omega,
          show a + (r.start + r.len - a) - e = r.start + r.len - e by omega]
      · rw [if_neg (show ¬(a < e ∧ e < a + (r.start + r.len - a)) by omega), if_neg h2]
        simp [show ¬ e ≤ a by omega, show ¬ e ≤ r.start by omega]
    · rw [if_neg h1]
      simp only [cutAt, List.flatMap_cons, List.flatMap_nil, List.append_nil, cutRecord]
      by_cases h3 : e ≤ r.start
      · rw [if_neg (show ¬(r.start < e ∧ e < r.start + r.len) by omega), if_pos h3]
        simp [h3]
      · rw [if_neg h3]
        by_cases h4 : e < r.start + r.len
        · rw [if_pos (show r.start < e ∧ e < r.start + r.len by omega), if_pos h4]
          simp [h3]
        · rw [if_neg (show ¬(r.start < e ∧ e < r.start + r.len) by omega), if_neg h4]
          simp [h3]

/-- A record may stand before one that is longer than another it may stand before, with the same start and location. -/
theorem Apart.of_right {x y z : Extent} (h : Apart x y) (hs : z.start = y.start) (hl : z.loc = y.loc) (hn : y.len ≤ z.len) :
    Apart x z := by
  refine ⟨hs ▸ h.1, ?_⟩
  have hm := h.2
  obtain ⟨xs, xl, xk⟩ := x
  obtain ⟨ys, yl, yk⟩ := y
  obtain ⟨zs, zl, zk⟩ := z
  simp only at hs hl hn
  subst hs hl
  cases xk <;> cases zk <;> simp_all [mergeable]
  intro he; have := hm he; omega

/-- … and one that is longer than another may stand before the same record, with the same end and the same location after it. -/
theorem Apart.of_left {x y z : Extent} (h : Apart x y) (hend : z.start + z.len = x.start + x.len)
    (hloc : z.loc.shift z.len = x.loc.shift x.len) (hn : x.len ≤ z.len) : Apart z y := by
  refine ⟨hend ▸ h.1, ?_⟩
  have hm := h.2
  obtain ⟨xs, xl, xk⟩ := x
  obtain ⟨ys, yl, yk⟩ := y
  obtain ⟨zs, zl, zk⟩ := z
  simp only at hend hloc hn
  cases xk <;> cases zk <;> cases yk <;> simp_all [mergeable, Location.shift]
  intro he; have := hm he; omega

theorem beforePart_nil (a : Nat) : ∀ m : List Extent, (∀ r ∈ m, a ≤ r.start) → beforePart a m = []
  | [], _ => rfl
  | r :: m, h => by
    rw [beforePart, if_neg (by have := h r (by simp); omega)]
    exact beforePart_nil a m fun x hx => h x (by simp [hx])

theorem MapOk.of_append {xs ys : List Extent} (h : MapOk (xs ++ ys)) : MapOk xs ∧ MapOk ys :=
  ⟨⟨fun r hr => h.1 r (by simp [hr]), (List.isChain_append.mp h.2).1⟩,
    ⟨fun r hr => h.1 r (by simp [hr]), (List.isChain_append.mp h.2).2.1⟩⟩

/-- The records before a are whole records of the map, but for the last one, which a may cut short. -/
theorem beforePart_spec (a : Nat) : ∀ m : List Extent, MapOk m →
    beforePart a m = [] ∨
      ∃ pre x rest, m = pre ++ x :: rest ∧ x.start < a ∧
        beforePart a m = pre ++ [{ x with len := min x.len (a - x.start) }]
  | [], _ => Or.inl rfl
  | x :: m, h => by
    by_cases hs : x.start < a
    · right
      rcases beforePart_spec a m h.tail with hb | ⟨pre, y, rest, rfl, hy, hb⟩
      · exact ⟨[], x, m, rfl, hs, by rw [beforePart, if_pos hs, hb]; rfl⟩
      · have hxy := MapOk.starts h y (by simp)
        refine ⟨x :: pre, y, rest, rfl, hy, ?_⟩
        rw [beforePart, if_pos hs, hb, show min x.len (a - x.start) = x.len by omega]
        rfl
    · exact Or.inl (beforePart_nil a _ fun r hr => by
        rcases List.mem_cons.mp hr with rfl | hr
        · omega
        · have := MapOk.starts h r hr; omega)

theorem MapOk.ends_le {xs : List Extent} {y : Extent} {ys : List Extent} (h : MapOk (xs ++ y :: ys)) :
    ∀ x ∈ xs, x.start + x.len ≤ y.start := by
  induction xs with
  | nil => simp
  | cons z zs ih =>
    intro x hx
    rcases List.mem_cons.mp hx with rfl | hx
    · exact MapOk.starts h y (by simp)
    · exact ih (MapOk.tail h) x hx

theorem afterPart_all (e : Nat) : ∀ m : List Extent, (∀ r ∈ m, e ≤ r.start) → afterPart e m = m
  | [], _ => rfl
  | r :: m, h => by
    rw [afterPart, if_pos (h r (by simp)), afterPart_all e m fun x hx => h x (by simp [hx])]

/-- The records from e on are whole records of the map, but for the first one, which e may cut short. -/
theorem afterPart_spec (e : Nat) : ∀ m : List Extent, MapOk m →
    afterPart e m = [] ∨ ∃ y ys, afterPart e m = y :: ys ∧ 1 ≤ y.len ∧ e ≤ y.start ∧ MapOk ys ∧ ∀ r ∈ ys, y.start + y.len ≤ r.start
  | [], _ => Or.inl rfl
  | x :: m, h => by
    have hx := h.1 x (by simp)
    by_cases hs : e ≤ x.start
    · right
      have hall : ∀ r ∈ m, e ≤ r.start := fun r hr => by have := MapOk.starts h r hr; omega
      exact ⟨x, m, by rw [afterPart, if_pos hs, afterPart_all e m hall], hx, hs, h.tail, MapOk.starts h⟩
    · by_cases he : e < x.start + x.len
      · have hall : ∀ r ∈ m, e ≤ r.start := fun r hr => by have := MapOk.starts h r hr; omega
        refine Or.inr ⟨_, m, by rw [afterPart, if_neg hs, if_pos he, afterPart_all e m hall], ?_, Nat.le_refl _, h.tail, ?_⟩
        · simp only; omega
        · intro r hr; have := MapOk.starts h r hr; simp only; omega
      · rw [afterPart, if_neg hs, if_neg he]
        exact afterPart_spec e m h.tail

/-- Joining two runs of records keeps the order law. -/
theorem mapOk_glue (xs ys : List Extent) (hx : MapOk xs) (hy : MapOk ys)
    (h : ∀ x ∈ xs, ∀ y ∈ ys, x.start + x.len ≤ y.start) : MapOk (glue xs ys) := by
  unfold glue
  split
  · next x y ys' hl =>
    have hxs : xs = xs.dropLast ++ [x] := (List.dropLast_append_getLast? x hl).symm
    split
    · next hm =>
      obtain ⟨hend, hloc⟩ := mergeable_spec hm
      refine ⟨?_, ?_⟩
      · intro r hr
        simp only [List.mem_append, List.mem_cons] at hr
        rcases hr with hr | rfl | hr
        · exact hx.1 r (List.mem_of_mem_dropLast hr)
        · have := hy.1 y (by simp)
          simp only; omega
        · exact hy.1 r (by simp [hr])
      · have hcx : (xs.dropLast ++ [x]).IsChain Apart := hxs ▸ hx.2
        have h1 : (xs.dropLast ++ [{ x with len := x.len + y.len }]).IsChain Apart := by
          rw [List.isChain_append] at hcx ⊢
          refine ⟨hcx.1, by simp, ?_⟩
          intro p hp q hq
          simp only [List.head?_cons, Option.mem_def, Option.some.injEq] at hq
          subst hq
          exact (hcx.2.2 p hp x (by simp)).of_right rfl rfl (Nat.le_add_right _ _)
        have h2 : ({ x with len := x.len + y.len } :: ys').IsChain Apart := by
          cases ys' with
          | nil => simp
          | cons z zs =>
            obtain ⟨hyz, hc⟩ := List.isChain_cons_cons.mp hy.2
            refine List.isChain_cons_cons.mpr ⟨hyz.of_left (by simp only; omega) ?_ (Nat.le_add_left _ _), hc⟩
            simp [hloc]
        have := List.isChain_append.mp h1
        rw [List.isChain_append]
        refine ⟨this.1, h2, ?_⟩
        intro p hp q hq
        simp only [List.head?_cons, Option.mem_def, Option.some.injEq] at hq
        subst hq
        exact this.2.2 p hp _ (by simp)
    · next hm =>
      refine ⟨?_, List.isChain_append.mpr ⟨hx.2, hy.2, ?_⟩⟩
      · intro r hr
        rcases List.mem_append.mp hr with hr | hr
        · exact hx.1 r hr
        · exact hy.1 r hr
      · intro p hp q hq
        simp only [List.head?_cons, Option.mem_def, Option.some.injEq] at hq
        rw [hl] at hp
        simp only [Option.mem_def, Option.some.injEq] at hp
        subst hp hq
        exact ⟨h x (List.mem_of_getLast? hl) y (by simp), by simpa using hm⟩
  · next hno =>
    refine ⟨?_, List.isChain_append.mpr ⟨hx.2, hy.2, ?_⟩⟩
    · intro r hr
      rcases List.mem_append.mp hr with hr | hr
      · exact hx.1 r hr
      · exact hy.1 r hr
    · intro p hp q hq
      obtain ⟨ys', hys⟩ := List.head?_eq_some_iff.mp hq
      exact (hno p q ys' hp hys).elim

/-- Every record of a joined run ends where a record of its parts ends, or starts where one starts. -/
theorem glue_ends (xs ys : List Extent) (K : Nat) (hx : ∀ x ∈ xs, x.start + x.len ≤ K) (hy : ∀ y ∈ ys, y.start + y.len ≤ K) :
    ∀ r ∈ glue xs ys, r.start + r.len ≤ K := by
  intro r hr
  unfold glue at hr
  split at hr
  · next x y ys' hl =>
    split at hr
    · next hm =>
      have := (mergeable_spec hm).1
      simp only [List.mem_append, List.mem_cons] at hr
      rcases hr with hr | rfl | hr
      · exact hx r (List.mem_of_mem_dropLast hr)
      · have := hy y (by simp)
        simp only; omega
      · exact hy r (by simp [hr])
    · rcases List.mem_append.mp hr with hr | hr
      · exact hx r hr
      · exact hy r hr
  · rcases List.mem_append.mp hr with hr | hr
    · exact hx r hr
    · exact hy r hr

/-- … and every record of a joined run starts where a record of its parts starts. -/
theorem glue_starts (xs ys : List Extent) (K : Nat) (hx : ∀ x ∈ xs, K ≤ x.start) (hy : ∀ y ∈ ys, K ≤ y.start) :
    ∀ r ∈ glue xs ys, K ≤ r.start := by
  intro r hr
  unfold glue at hr
  split at hr
  · next x y ys' hl =>
    split at hr
    · simp only [List.mem_append, List.mem_cons] at hr
      rcases hr with hr | rfl | hr
      · exact hx r (List.mem_of_mem_dropLast hr)
      · exact hx x (List.mem_of_getLast? hl)
      · exact hy r (by simp [hr])
    · rcases List.mem_append.mp hr with hr | hr
      · exact hx r hr
      · exact hy r hr
  · rcases List.mem_append.mp hr with hr | hr
    · exact hx r hr
    · exact hy r hr

theorem mapOk_one (r : Extent) (h : 1 ≤ r.len) : MapOk [r] :=
  ⟨by simpa using h, by simp⟩

theorem mapOk_nil : MapOk [] :=
  ⟨by simp, by simp⟩

theorem mapOk_sealBefore (a : Nat) (m : List Extent) (h : MapOk m) :
    MapOk (sealBefore (beforePart a m)) ∧ ∀ r ∈ sealBefore (beforePart a m), r.start + r.len ≤ a := by
  rcases beforePart_spec a m h with hb | ⟨pre, x, rest, rfl, hx, hb⟩
  · rw [hb]; exact ⟨mapOk_nil, by simp [sealBefore]⟩
  · have hlen := h.1 x (by simp)
    have hpre := MapOk.ends_le h
    rw [hb, sealBefore, List.getLast?_concat]
    simp only [List.dropLast_concat]
    refine ⟨mapOk_glue _ _ h.of_append.1 (mapOk_one _ (by simp only; omega)) ?_, glue_ends _ _ a ?_ ?_⟩
    · intro y hy z hz
      rw [List.mem_singleton.mp hz]
      exact hpre y hy
    · intro y hy; have := hpre y hy; omega
    · intro y hy
      rw [List.mem_singleton.mp hy]
      simp only
      omega

theorem mapOk_sealAfter (e : Nat) (m : List Extent) (h : MapOk m) :
    MapOk (sealAfter (afterPart e m)) ∧ ∀ r ∈ sealAfter (afterPart e m), e ≤ r.start := by
  rcases afterPart_spec e m h with ha | ⟨y, ys, ha, hlen, hy, hys, hst⟩
  · rw [ha]; exact ⟨mapOk_nil, by simp [sealAfter]⟩
  · rw [ha, sealAfter]
    refine ⟨mapOk_glue _ _ (mapOk_one _ hlen) hys ?_, glue_starts _ _ e ?_ ?_⟩
    · intro x hx z hz
      rw [List.mem_singleton.mp hx]
      exact hst z hz
    · intro x hx; rw [List.mem_singleton.mp hx]; exact hy
    · intro z hz; have := hst z hz; omega

/-- A change of the range [a, e) to new records inside it that keep the order law keeps the order law of the map. -/
theorem mapOk_changeRange (a e : Nat) (new m : List Extent) (hm : MapOk m) (hn : a < e → MapOk new)
    (hin : ∀ r ∈ new, a ≤ r.start ∧ r.start + r.len ≤ e) : MapOk (changeRange a e new m) := by
  unfold changeRange
  split
  · exact hm
  next h =>
  replace h : a < e := by omega
  replace hn := hn h
  simp only [filter_before a e h, filter_after a e h]
  obtain ⟨hb, hbe⟩ := mapOk_sealBefore a m hm
  obtain ⟨haf, has⟩ := mapOk_sealAfter e m hm
  refine mapOk_glue _ _ (mapOk_glue _ _ hb hn ?_) haf ?_
  · intro x hx y hy
    exact Nat.le_trans (hbe x hx) (hin y hy).1
  · intro x hx y hy
    refine Nat.le_trans (glue_ends _ _ e ?_ ?_ x hx) (has y hy)
    · intro r hr; have := hbe r hr; omega
    · intro r hr; exact (hin r hr).2

/-- A commit or a LOST marking of one block keeps the order law. -/
theorem mapOk_oneBlock (L : Nat) (loc : Location) (m : List Extent) (h : MapOk m) :
    MapOk (changeRange L (L + 1) [{ start := L, len := 1, loc := loc }] m) :=
  mapOk_changeRange L (L + 1) _ m h (fun _ => mapOk_one _ (Nat.le_refl _)) (by simp)

end Sys2Proof.Machine
end

