-- ==== Sys2Proof/Laws/Pool.lean ====
section
/-! SUPPORT. The slot pool and the notice lists: reads after writes, the canonical form, and the bound of a list. -/

namespace Sys2Proof.Machine

/-! ### The slot pool -/

/-- A lower bound may be lowered. -/
theorem poolWfFrom_mono {lo lo' : Nat} (h : lo ≤ lo') : ∀ l : List (Nat × Block), poolWfFrom lo' l = true → poolWfFrom lo l = true
  | [], _ => rfl
  | (k, v) :: rest, hw => by
    simp only [poolWfFrom, Bool.and_eq_true, decide_eq_true_eq] at hw ⊢
    exact ⟨⟨by omega, hw.1.2⟩, hw.2⟩

/-- A write keeps the canonical form. -/
theorem poolWfFrom_poolWrite (a : Nat) (v : Block) :
    ∀ (lo : Nat) (l : List (Nat × Block)), lo ≤ a → poolWfFrom lo l = true → poolWfFrom lo (poolWrite a v l) = true
  | lo, [], ha, _ => by
    unfold poolWrite
    split
    · rfl
    · next hv => simp [poolWfFrom, ha, hv]
  | lo, (k, w) :: rest, ha, h => by
    simp only [poolWfFrom, Bool.and_eq_true, decide_eq_true_eq] at h
    unfold poolWrite
    split
    · split
      · simp only [poolWfFrom, Bool.and_eq_true, decide_eq_true_eq]; exact h
      · next hv =>
        simp only [poolWfFrom, Bool.and_eq_true, decide_eq_true_eq]
        exact ⟨⟨ha, by simpa using hv⟩, ⟨by omega, h.1.2⟩, h.2⟩
    · split
      · next hk =>
        split
        · exact poolWfFrom_mono (by omega) rest h.2
        · next hv =>
          simp only [poolWfFrom, Bool.and_eq_true, decide_eq_true_eq]
          exact ⟨⟨ha, by simpa using hv⟩, hk ▸ h.2⟩
      · simp only [poolWfFrom, Bool.and_eq_true, decide_eq_true_eq]
        exact ⟨h.1, poolWfFrom_poolWrite a v (k + 1) rest (by omega) h.2⟩

/-- A write keeps the canonical form of the pool. -/
theorem poolWf_poolWrite (a : Nat) (v : Block) (l : List (Nat × Block)) (h : poolWf l = true) : poolWf (poolWrite a v l) = true :=
  poolWfFrom_poolWrite a v 0 l (Nat.zero_le _) h

/-- A copy of a run of blocks keeps the canonical form of the pool. -/
theorem poolWf_poolWriteRun : ∀ (n a : Nat) (bs : List Block) (l : List (Nat × Block)), poolWf l = true →
    poolWf (poolWriteRun a n bs l) = true
  | 0, _, _, _, h => h
  | n + 1, a, bs, l, h => poolWf_poolWriteRun n (a + 1) bs.tail _ (poolWf_poolWrite a _ l h)

/-- Below the least block listed, the pool reads as zeros. -/
theorem poolRead_below : ∀ (l : List (Nat × Block)) (lo a : Nat), poolWfFrom lo l = true → a < lo → poolRead l a = zeroBlock
  | [], _, _, _, _ => rfl
  | (k, v) :: rest, lo, a, h, ha => by
    simp only [poolWfFrom, Bool.and_eq_true, decide_eq_true_eq] at h
    simp only [poolRead]
    rw [if_neg (by omega)]
    exact poolRead_below rest (k + 1) a h.2 (by omega)

theorem poolRead_poolWrite_from (a : Nat) (v : Block) (b : Nat) :
    ∀ (lo : Nat) (l : List (Nat × Block)), poolWfFrom lo l = true →
      poolRead (poolWrite a v l) b = if b = a then v else poolRead l b
  | lo, [], _ => by
    unfold poolWrite
    by_cases hb : b = a <;> by_cases hv : v = zeroBlock <;> simp [poolRead, hb, hv, eq_comm]
    simp [Ne.symm hb]
  | lo, (k, w) :: rest, h => by
    simp only [poolWfFrom, Bool.and_eq_true, decide_eq_true_eq] at h
    unfold poolWrite
    split
    · next hak =>
      split
      · next hv =>
        by_cases hb : b = a
        · subst hb
          simp only [poolRead, if_true]
          rw [if_neg (by omega), hv]
          exact poolRead_below rest (k + 1) b h.2 (by omega)
        · simp [hb]
      · by_cases hb : b = a
        · simp [poolRead, hb]
        · simp [poolRead, hb, Ne.symm hb]
    · next hak =>
      split
      · next hk =>
        subst hk
        split
        · next hv =>
          by_cases hb : b = a
          · subst hb
            simp only [if_true, hv]
            exact poolRead_below rest (b + 1) b h.2 (by omega)
          · simp [poolRead, hb, Ne.symm hb]
        · by_cases hb : b = a
          · simp [poolRead, hb]
          · simp [poolRead, hb, Ne.symm hb]
      · next hk =>
        simp only [poolRead]
        rw [poolRead_poolWrite_from a v b (k + 1) rest h.2]
        by_cases hb : b = a
        · subst hb; simp [Ne.symm hk]
        · simp [hb]

/-- A read after a write gives the block written there, and every other block as before. -/
theorem poolRead_poolWrite (a : Nat) (v : Block) (b : Nat) (l : List (Nat × Block)) (h : poolWf l = true) :
    poolRead (poolWrite a v l) b = if b = a then v else poolRead l b :=
  poolRead_poolWrite_from a v b 0 l h

/-- A read after a copy of n blocks from a on. -/
theorem poolRead_poolWriteRun : ∀ (n a : Nat) (bs : List Block) (l : List (Nat × Block)) (b : Nat), poolWf l = true →
    poolRead (poolWriteRun a n bs l) b = if a ≤ b ∧ b < a + n then bs.getD (b - a) zeroBlock else poolRead l b
  | 0, a, bs, l, b, _ => by
    rw [poolWriteRun, if_neg (by omega)]
  | n + 1, a, bs, l, b, h => by
    rw [poolWriteRun, poolRead_poolWriteRun n (a + 1) bs.tail _ b (poolWf_poolWrite a _ l h), poolRead_poolWrite a _ b l h]
    rcases Nat.lt_trichotomy b a with hb | hb | hb
    · rw [if_neg (by omega), if_neg (by omega), if_neg (by omega)]
    · subst hb
      rw [if_neg (by omega), if_pos rfl, if_pos (by omega), Nat.sub_self]
      cases bs <;> rfl
    · obtain ⟨d, rfl⟩ : ∃ d, b = a + 1 + d := ⟨b - a - 1, by omega⟩
      by_cases hd : a + 1 + d < a + (n + 1)
      · rw [if_pos (by omega), if_pos (by omega), show a + 1 + d - (a + 1) = d by omega, show a + 1 + d - a = d + 1 by omega]
        cases bs <;> simp
      · rw [if_neg (by omega), if_neg (by omega), if_neg (by omega)]

/-! ### Notice lists (R164) -/

theorem noticeSame_length (k : NoticeKind) (b : Option Nat) : ∀ (l l' : List Notice), noticeSame k b l = some l' → l'.length = l.length
  | [], _, h => by simp [noticeSame] at h
  | n :: ns, l', h => by
    simp only [noticeSame] at h
    split at h
    · cases h; rfl
    · simp only [Option.map_eq_some_iff] at h
      obtain ⟨x, hx, rfl⟩ := h
      simp [noticeSame_length k b ns x hx]

theorem noticeKindOnly_length (k : NoticeKind) : ∀ (l l' : List Notice), noticeKindOnly k l = some l' → l'.length = l.length
  | [], _, h => by simp [noticeKindOnly] at h
  | n :: ns, l', h => by
    simp only [noticeKindOnly] at h
    split at h
    · cases h; rfl
    · simp only [Option.map_eq_some_iff] at h
      obtain ⟨x, hx, rfl⟩ := h
      simp [noticeKindOnly_length k ns x hx]

theorem noticeSeveral_length : ∀ l : List Notice, (noticeSeveral l).length = l.length
  | [] => rfl
  | [_] => rfl
  | n :: m :: ns => by simp [noticeSeveral, noticeSeveral_length (m :: ns)]

/-- A list never grows past 16 records. -/
theorem takeNotice_bound (k : NoticeKind) (b : Option Nat) (l : List Notice) (h : l.length ≤ Config.noticeRecords) :
    (takeNotice k b l).length ≤ Config.noticeRecords := by
  unfold takeNotice
  split
  · next x hx => rw [noticeSame_length k b l x hx]; exact h
  · split
    · next hlt => simpa using hlt
    · split
      · next x hx => rw [noticeKindOnly_length k l x hx]; exact h
      · rw [noticeSeveral_length]; exact h

end Sys2Proof.Machine
end

