-- ==== Sys2Proof/Laws/Keeps.lean ====
section
/-! SUPPORT. What every shared operation keeps: the command queue, the custody unit, time's direction, the responses sent, and the laws of the notice lists, the
pool, the settings and the map. -/

namespace Sys2Proof.Machine

/-- What the shared operations of the blocks keep between two states. -/
structure Keeps (o t : State) : Prop where
  pending : t.pending = o.pending
  custody : t.custody = o.custody
  now : o.now ≤ t.now
  sent : ∀ p, (o.link p).sent <+: (t.link p).sent
  notices : Safety.NoticeLaw o → Safety.NoticeLaw t
  pool : Safety.PoolLaw o → Safety.PoolLaw t
  settings : Safety.SettingsLaw o → Safety.SettingsLaw t
  order : MapOk o.map.records ∧ Safety.WinnersLaw o → MapOk t.map.records ∧ Safety.WinnersLaw t

/-- The parts of the state that `Keeps` looks at. -/
def keptView (s : State) :=
  (s.pending, s.custody, s.now, s.links, s.staging.pool, s.startup.image, s.map.records, s.startup.found.winners)

theorem Keeps.refl (s : State) : Keeps s s :=
  ⟨rfl, rfl, Nat.le_refl _, fun _ => List.prefix_refl _, id, id, id, id⟩

/-- A state that agrees in the parts looked at is kept to as well. -/
theorem Keeps.of_view {o s t : State} (h : Keeps o s) (hv : keptView t = keptView s) : Keeps o t := by
  simp only [keptView, Prod.mk.injEq] at hv
  obtain ⟨h1, h2, h3, h4, h5, h6, h7, h8⟩ := hv
  refine ⟨h1.trans h.pending, h2.trans h.custody, h3 ▸ h.now, fun p => ?_, fun x => ?_, fun x => ?_, fun x => ?_, fun x => ?_⟩
  · have hl : t.link p = s.link p := by simp only [State.link, h4]
    rw [hl]; exact h.sent p
  · rw [Safety.NoticeLaw, h4]; exact h.notices x
  · rw [Safety.PoolLaw, h5]; exact h.pool x
  · rw [Safety.SettingsLaw, h6]; exact h.settings x
  · rw [Safety.WinnersLaw, h7, h8]; exact h.order x

theorem Keeps.trans {o s t : State} (h : Keeps o s) (k : Keeps s t) : Keeps o t :=
  ⟨k.pending.trans h.pending, k.custody.trans h.custody, Nat.le_trans h.now k.now, fun p => (h.sent p).trans (k.sent p),
    fun x => k.notices (h.notices x), fun x => k.pool (h.pool x), fun x => k.settings (h.settings x),
    fun x => k.order (h.order x)⟩

section
variable {o s : State}

/-! ### Changes of one part -/

/-- A change of links that only appends responses and lets no list grow past its bound. -/
theorem Keeps.of_links (h : Keeps o s) (l : Both Link) (hs : ∀ p, (s.link p).sent <+: (l.get p).sent)
    (hn : Safety.NoticeLaw s → l.a.notices.length ≤ Config.noticeRecords ∧ l.b.notices.length ≤ Config.noticeRecords) :
    Keeps o { s with links := l } :=
  ⟨h.pending, h.custody, h.now, fun p => (h.sent p).trans (hs p), fun x => hn (h.notices x), h.pool, h.settings, h.order⟩

/-- A change of one link that only appends responses and does not lengthen its notice list. -/
theorem Keeps.setLink (h : Keeps o s) (p : Port) (l : Link) (hs : (s.link p).sent <+: l.sent)
    (hn : l.notices.length ≤ (s.link p).notices.length) : Keeps o (s.setLink p l) := by
  refine h.of_links _ (fun q => ?_) (fun x => ?_)
  · cases p <;> cases q <;> first | exact hs | exact List.prefix_refl _
  · cases p
    · exact ⟨Nat.le_trans hn x.1, x.2⟩
    · exact ⟨x.1, Nat.le_trans hn x.2⟩

/-- A change of the map's records that keeps their order law. -/
theorem Keeps.of_records (h : Keeps o s) (m : List Extent) (hm : MapOk s.map.records → MapOk m) :
    Keeps o { s with map := { s.map with records := m } } :=
  ⟨h.pending, h.custody, h.now, h.sent, h.notices, h.pool, h.settings, fun x => ⟨hm (h.order x).1, (h.order x).2⟩⟩

/-- A change of the pool that keeps its canonical form. -/
theorem Keeps.of_pool (h : Keeps o s) (l : List (Nat × Block)) (hl : poolWf s.staging.pool = true → poolWf l = true) :
    Keeps o { s with staging := { s.staging with pool := l } } :=
  ⟨h.pending, h.custody, h.now, h.sent, h.notices, fun x => hl (h.pool x), h.settings, h.order⟩

/-! ### Ops -/

theorem keeps_advanceTo (t : Nat) (h : Keeps o s) : Keeps o (advanceTo t s) :=
  ⟨h.pending, h.custody, Nat.le_trans h.now (Nat.le_max_left _ _), h.sent, h.notices, h.pool, h.settings, h.order⟩

theorem keeps_offer (h : Keeps o s) : Keeps o (offer s) := h.of_view rfl

theorem keeps_choiceDue (h : Keeps o s) : Keeps o (choiceDue s) := h.of_view rfl

theorem keeps_pushFreed (r : Resource) (h : Keeps o s) : Keeps o (pushFreed r s) := h.of_view rfl

theorem keeps_placeNotice (k : NoticeKind) (b : Option Nat) (h : Keeps o s) : Keeps o (placeNotice k b s) := by
  refine h.of_links _ (fun q => ?_) (fun x => ?_)
  · cases q <;> exact List.prefix_refl _
  · exact ⟨takeNotice_bound k b _ x.1, takeNotice_bound k b _ x.2⟩

theorem keeps_respond (r : Requester) (st : Status) (b : Body) (data : List Block) (h : Keeps o s) :
    Keeps o (respond r st b data s) := by
  simp only [respond]
  split
  · exact h
  · exact h.setLink _ _ (List.prefix_append _ _) (Nat.le_refl _)

theorem keeps_popRequest (p : Port) (h : Keeps o s) : Keeps o (popRequest p s) :=
  h.setLink _ _ (List.prefix_refl _) (Nat.le_refl _)

theorem keeps_holdRequest (p : Port) (h : Keeps o s) : Keeps o (holdRequest p s) :=
  h.setLink _ _ (List.prefix_refl _) (Nat.le_refl _)

theorem keeps_answerHead (p : Port) (f : RequestFrame) (st : Status) (b : Body) (data : List Block) (h : Keeps o s) :
    Keeps o (answerHead p f st b data s) :=
  keeps_respond _ _ _ _ (keeps_popRequest p h)

theorem keeps_refuseHead (p : Port) (f : RequestFrame) (st : Status) (h : Keeps o s) : Keeps o (refuseHead p f st s) :=
  keeps_answerHead _ _ _ _ _ h

theorem keeps_updBand (b : Nat) (f : Band → Band) (h : Keeps o s) : Keeps o (updBand b f s) := h.of_view rfl

theorem keeps_updParcel (id : Nat) (f : Parcel → Parcel) (h : Keeps o s) : Keeps o (updParcel id f s) := h.of_view rfl

theorem keeps_updHost (t : Fin 8) (f : Stream → Stream) (h : Keeps o s) : Keeps o (updHost t f s) := h.of_view rfl

theorem keeps_updReloc (f : Stream → Stream) (h : Keeps o s) : Keeps o (updReloc f s) := h.of_view rfl

theorem keeps_updStream (i : StreamId) (f : Stream → Stream) (h : Keeps o s) : Keeps o (updStream i f s) := by
  cases i
  · exact keeps_updHost _ f h
  · exact keeps_updReloc f h

theorem keeps_foldl {α : Type} (f : State → α → State) (hf : ∀ x {u : State}, Keeps o u → Keeps o (f u x)) :
    ∀ (l : List α) {s : State}, Keeps o s → Keeps o (l.foldl f s)
  | [], _, h => h
  | x :: xs, _, h => keeps_foldl f hf xs (hf x h)

/-! ### Flags -/

theorem keeps_freeLowTest (h : Keeps o s) : Keeps o (freeLowTest s) := by
  unfold freeLowTest
  split
  · split
    · exact h
    · exact keeps_placeNotice _ _ (h.of_view rfl)
  · exact h.of_view rfl

theorem keeps_freeChanged (h : Keeps o s) : Keeps o (freeChanged s) :=
  keeps_offer (keeps_choiceDue (keeps_freeLowTest h))

theorem keeps_mapChanged (h : Keeps o s) : Keeps o (mapChanged s) := by
  unfold mapChanged
  have : ∀ {u : State}, Keeps o u → Keeps o (if u.engine.recoveryWait && decide (Config.mapReserve ≤ freeRecords u) then
      choiceDue { u with engine := { u.engine with recoveryWait := false } } else u) := by
    intro u hu
    split
    · exact keeps_choiceDue (hu.of_view rfl)
    · exact hu
  apply this
  split
  · exact keeps_offer h
  · exact h

/-! ### Bands -/

theorem keeps_leaveDue (b : Nat) (h : Keeps o s) : Keeps o (leaveDue b s) := h.of_view rfl

theorem keeps_joinDue (b : Nat) (h : Keeps o s) : Keeps o (joinDue b s) := by
  unfold joinDue
  split
  · exact h
  · exact keeps_choiceDue (keeps_placeNotice _ _ (h.of_view rfl))

theorem keeps_closeBand (b : Nat) (h : Keeps o s) : Keeps o (closeBand b s) := h.of_view rfl

theorem keeps_finishBand (b : Nat) (h : Keeps o s) : Keeps o (finishBand b s) := by
  unfold finishBand
  split
  · split
    · exact h
    · exact keeps_updStream _ _ h
  · exact keeps_closeBand b h

theorem keeps_raiseCause (b : Nat) (c : Cause) (h : Keeps o s) : Keeps o (raiseCause b c s) := by
  unfold raiseCause
  split
  · exact h
  · have ha := keeps_updBand b (fun x => { x with causes := x.causes.add c }) h
    simp only
    split
    · exact h
    · exact h
    · exact keeps_finishBand b (keeps_joinDue b ha)
    · exact keeps_joinDue b ha
    · exact keeps_joinDue b ha
    · exact ha

theorem keeps_resetBand (b : Nat) (h : Keeps o s) : Keeps o (resetBand b s) :=
  keeps_freeChanged (h.of_view rfl)

theorem keeps_retireBand (b : Nat) (h : Keeps o s) : Keeps o (retireBand b s) :=
  keeps_placeNotice _ _ (h.of_view rfl)

theorem keeps_resetOrRetire (b : Nat) (h : Keeps o s) : Keeps o (resetOrRetire b s) := by
  unfold resetOrRetire
  split
  · exact h
  · split
    · exact keeps_retireBand b h
    · exact keeps_resetBand b h

theorem keeps_emptiedTest (b : Nat) (h : Keeps o s) : Keeps o (emptiedTest b s) := by
  unfold emptiedTest
  split
  · exact h
  · split
    · exact keeps_resetOrRetire b h
    · exact h

theorem keeps_raiseLive (b m : Nat) (h : Keeps o s) : Keeps o (raiseLive b m s) := h.of_view rfl

theorem keeps_lowerLive (b m : Nat) (h : Keeps o s) : Keeps o (lowerLive b m s) :=
  keeps_emptiedTest b (h.of_view rfl)

theorem keeps_addPin (b : Nat) (h : Keeps o s) : Keeps o (addPin b s) := h.of_view rfl

theorem keeps_heldReset (b : Nat) (h : Keeps o s) : Keeps o (heldReset b s) := by
  unfold heldReset
  split
  · exact h
  · split
    · split
      · exact keeps_resetOrRetire b h
      · exact keeps_emptiedTest b h
    · exact h

theorem keeps_removePin (b : Nat) (h : Keeps o s) : Keeps o (removePin b s) :=
  keeps_heldReset b (h.of_view rfl)

theorem keeps_takeBand (b : Nat) (i : StreamId) (h : Keeps o s) : Keeps o (takeBand b i s) :=
  keeps_freeChanged (h.of_view rfl)

theorem keeps_writeProgress (b : Nat) (items : List RunItem) (sectors : List Sector) (h : Keeps o s) :
    Keeps o (writeProgress b items sectors s) := by
  unfold writeProgress
  split
  · exact h
  · exact h.of_view rfl

theorem keeps_fillBand (b : Nat) (h : Keeps o s) : Keeps o (fillBand b s) := h.of_view rfl

theorem keeps_failBand (b : Nat) (h : Keeps o s) : Keeps o (failBand b s) :=
  keeps_emptiedTest b (keeps_raiseCause b _ (keeps_fillBand b h))

theorem keeps_endSummary (b : Nat) (ok : Bool) (parts : List Sector) (h : Keeps o s) : Keeps o (endSummary b ok parts s) := by
  unfold endSummary
  refine keeps_emptiedTest b ?_
  split
  · exact h.of_view rfl
  · exact keeps_raiseCause b _ (h.of_view rfl)

theorem keeps_drainBand (b : Nat) (h : Keeps o s) : Keeps o (drainBand b s) := h.of_view rfl

theorem keeps_abandonBand (b : Nat) (h : Keeps o s) : Keeps o (abandonBand b s) := by
  unfold abandonBand
  have hs : Keeps o (choiceDue (updBand b (fun x => { x with state := .filled }) s)) := h.of_view rfl
  simp only
  split
  · exact hs
  · split
    · exact keeps_joinDue b hs
    · exact hs

theorem keeps_endDrain (b : Nat) (h : Keeps o s) : Keeps o (endDrain b s) :=
  keeps_heldReset b (h.of_view rfl)

theorem keeps_withFinding (b stamp : Nat) (f : State → State) (hf : ∀ {u : State}, Keeps o u → Keeps o (f u)) (h : Keeps o s) :
    Keeps o (withFinding b stamp f s) := by
  unfold withFinding
  split
  · exact h
  · split
    · exact hf h
    · exact h

theorem keeps_recordBreak (b n : Nat) (h : Keeps o s) : Keeps o (recordBreak b n s) := h.of_view rfl

theorem keeps_handBreak (b stamp : Nat) (x : Option Nat) (h : Keeps o s) : Keeps o (handBreak b stamp x s) := by
  unfold handBreak
  split
  · exact h
  · exact keeps_withFinding _ _ _
      (fun hu => keeps_placeNotice _ _ (keeps_recordBreak _ _ (keeps_raiseCause _ _ hu))) h

theorem keeps_handMedia (b stamp : Nat) (offsets : List Nat) (h : Keeps o s) : Keeps o (handMedia b stamp offsets s) := by
  unfold handMedia
  split
  · exact h
  · exact keeps_withFinding _ _ _ (fun hu => keeps_raiseCause _ _ hu) h

/-! ### The map and staging -/

theorem keeps_setRecords (m : List Extent) (hm : MapOk s.map.records → MapOk m) (h : Keeps o s) : Keeps o (setRecords m s) :=
  keeps_mapChanged (h.of_records m hm)

theorem keeps_answerDrains (h : Keeps o s) : Keeps o (answerDrains s) :=
  keeps_foldl _ (fun _ _ hu => keeps_respond _ _ _ _ hu) _ (h.of_view rfl)

theorem keeps_lowerDrains (x : Parcel) (h : Keeps o s) : Keeps o (lowerDrains x s) :=
  keeps_answerDrains (h.of_view rfl)

theorem keeps_takeOut (x : Parcel) (h : Keeps o s) : Keeps o (takeOut x s) := h.of_view rfl

theorem keeps_dropParcel (id : Nat) (h : Keeps o s) : Keeps o (dropParcel id s) := by
  unfold dropParcel
  split
  · exact h
  · exact keeps_lowerDrains _ (keeps_takeOut _ h)

theorem keeps_lowerParcelLive (q m : Nat) (h : Keeps o s) : Keeps o (lowerParcelLive q m s) := by
  simp only [lowerParcelLive]
  split
  · exact keeps_dropParcel q (h.of_view rfl)
  · exact h.of_view rfl

theorem keeps_removalEffect (r : Extent) (h : Keeps o s) : Keeps o (removalEffect s r) := by
  unfold removalEffect
  split
  · exact keeps_lowerLive _ _ h
  · exact keeps_lowerParcelLive _ _ h
  · exact h

theorem keeps_takeChange (a e : Nat) (new : List Extent) (hn : a < e → MapOk new)
    (hin : ∀ r ∈ new, a ≤ r.start ∧ r.start + r.len ≤ e) (h : Keeps o s) : Keeps o (takeChange a e new s) :=
  keeps_foldl _ (fun _ _ hu => keeps_removalEffect _ hu) _
    (keeps_setRecords _ (fun hm => mapOk_changeRange a e new _ hm hn hin) h)

theorem keeps_acceptPlace (p : Port) (f : RequestFrame) (slot : Nat) (h : Keeps o s) : Keeps o (acceptPlace p f slot s) := by
  unfold acceptPlace
  refine keeps_offer (keeps_answerHead _ _ _ _ _ (keeps_updHost _ _ ?_))
  refine keeps_takeChange _ _ _ (fun hlt => mapOk_one _ ?_) ?_ ?_
  · simp only [requestEnd, placeParcel] at hlt ⊢; omega
  · simp [requestEnd, placeParcel]
  · exact Keeps.of_pool (s := addParcel _ s) (h.of_view rfl) _ (fun hw => poolWf_poolWriteRun _ _ _ _ hw)

theorem keeps_releaseUnmapped (p : Port) (f : RequestFrame) (h : Keeps o s) : Keeps o (releaseUnmapped p f s) :=
  keeps_answerHead _ _ _ _ _ h

theorem keeps_acceptRelease (p : Port) (f : RequestFrame) (entry : Nat) (h : Keeps o s) : Keeps o (acceptRelease p f entry s) := by
  unfold acceptRelease
  have ht := keeps_takeChange (requestStart f) (unitEnd f) [] (fun _ => mapOk_nil) (by simp) h
  exact keeps_offer (keeps_answerHead _ _ _ _ _ (ht.of_view rfl))

theorem keeps_freeSlot (n : Nat) (h : Keeps o s) : Keeps o (freeSlot n s) := h.of_view rfl

theorem keeps_freeNote (n : Nat) (h : Keeps o s) : Keeps o (freeNote n s) := h.of_view rfl

theorem keeps_handSlot (n : Nat) : ∀ (ws : List Waiter) {s : State}, Keeps o s → Keeps o (handSlot n ws s)
  | [], _, h => keeps_freeSlot n h
  | w :: ws, s, h => by
    have hs : Keeps o { s with staging := { s.staging with slotWait := ws } } := h.of_view rfl
    simp only [handSlot]
    split
    · exact keeps_handSlot n ws hs
    · split
      · exact keeps_handSlot n ws (keeps_refuseHead _ _ _ hs)
      · split
        · exact keeps_handSlot n ws (keeps_refuseHead _ _ _ hs)
        · exact keeps_acceptPlace _ _ _ hs

theorem keeps_handNote (n : Nat) : ∀ (ws : List Waiter) {s : State}, Keeps o s → Keeps o (handNote n ws s)
  | [], _, h => keeps_freeNote n h
  | w :: ws, s, h => by
    have hs : Keeps o { s with staging := { s.staging with noteWait := ws } } := h.of_view rfl
    simp only [handNote]
    split
    · exact keeps_handNote n ws hs
    · split
      · exact keeps_handNote n ws (keeps_refuseHead _ _ _ hs)
      · split
        · exact keeps_handNote n ws (keeps_releaseUnmapped _ _ hs)
        · split
          · exact keeps_handNote n ws (keeps_refuseHead _ _ _ hs)
          · exact keeps_acceptRelease _ _ _ hs

theorem keeps_handResource (r : Resource) (h : Keeps o s) : Keeps o (handResource r s) := by
  cases r
  · exact keeps_handSlot _ _ h
  · exact keeps_handNote _ _ h

theorem keeps_handOut : ∀ (n : Nat) {s : State}, Keeps o s → Keeps o (handOut n s)
  | 0, _, h => h
  | n + 1, s, h => by
    simp only [handOut]
    split
    · exact h
    · exact keeps_handOut n (keeps_handResource _ (h.of_view rfl))

theorem keeps_handAll (h : Keeps o s) : Keeps o (handAll s) := keeps_handOut _ h

theorem keeps_removeParcel (id : Nat) (h : Keeps o s) : Keeps o (removeParcel id s) := by
  unfold removeParcel
  split
  · exact h
  · exact keeps_lowerDrains _ (keeps_handAll (keeps_takeOut _ h))

theorem keeps_placeTake (p : Port) (f : RequestFrame) (h : Keeps o s) : Keeps o (placeTake p f s) := by
  unfold placeTake
  split
  · exact keeps_holdRequest p (h.of_view rfl)
  · split
    · exact keeps_refuseHead _ _ _ h
    · exact keeps_acceptPlace _ _ _ (h.of_view rfl)

theorem keeps_releaseTake (p : Port) (f : RequestFrame) (h : Keeps o s) : Keeps o (releaseTake p f s) := by
  unfold releaseTake
  split
  · exact keeps_releaseUnmapped _ _ h
  · split
    · exact keeps_holdRequest p (h.of_view rfl)
    · split
      · exact keeps_refuseHead _ _ _ h
      · exact keeps_acceptRelease _ _ _ (h.of_view rfl)

theorem keeps_slotWaitExpires (p : Port) (h : Keeps o s) : Keeps o (slotWaitExpires p s) := by
  unfold slotWaitExpires
  split
  · exact keeps_refuseHead _ _ _ (keeps_advanceTo _ (h.of_view rfl))
  · exact h

theorem keeps_handWaiting (h : Keeps o s) : Keeps o (handWaiting s) := by
  unfold handWaiting
  split
  · exact keeps_handResource _ (h.of_view rfl)
  · split
    · exact keeps_handResource _ (h.of_view rfl)
    · exact h

theorem keeps_drainTake (p : Port) (f : RequestFrame) (h : Keeps o s) : Keeps o (drainTake p f s) := by
  simp only [drainTake]
  split
  · exact keeps_answerHead _ _ _ _ _ h
  · exact keeps_offer (keeps_popRequest p (h.of_view rfl))

theorem keeps_takeHead (p : Port) (k : Kind) (want : RequestFrame → Bool) (act : RequestFrame → State → State)
    (ha : ∀ f {u : State}, Keeps o u → Keeps o (act f u)) (h : Keeps o s) : Keeps o (takeHead p k want act s) := by
  unfold takeHead
  split
  · exact h
  · split
    · split
      · exact keeps_refuseHead _ _ _ h
      · exact ha _ h
    · exact h

end

end Sys2Proof.Machine
end

