-- ==== Sys2Proof/Laws/KeepsWork.lean ====
section
/-! SUPPORT. What the operations of the channel, the streams, exposure, FETCH and the relocation engine keep. -/

namespace Sys2Proof.Machine

section
variable {o s : State}

/-! ### The channel and streams -/

theorem keeps_sendIssue (op : Operation) (h : Keeps o s) : Keeps o (sendIssue op s) := h.of_view rfl

theorem keeps_issueWrite (w : Owner) (b : Band) (is : List RunItem) (f : RunItem → Block) (h : Keeps o s) :
    Keeps o (issueWrite w b is f s) := keeps_sendIssue _ h

theorem keeps_takeHostBand (t : Fin 8) {u : State} (hu : takeHostBand t s = some u) (h : Keeps o s) : Keeps o u := by
  unfold takeHostBand at hu
  split at hu
  · simp only at hu
    split at hu
    · exact absurd hu (by simp)
    · cases hu; exact keeps_updHost _ _ (keeps_takeBand _ _ h)
  · exact absurd hu (by simp)

theorem keeps_takeRelocBand {u : State} (hu : takeRelocBand s = some u) (h : Keeps o s) : Keeps o u := by
  unfold takeRelocBand at hu
  split at hu
  · exact absurd hu (by simp)
  · cases hu; exact keeps_updReloc _ (keeps_takeBand _ _ h)

theorem keeps_dropAtHead (t : Fin 8) : ∀ (n : Nat) {s : State}, Keeps o s → Keeps o (dropAtHead t n s)
  | 0, _, h => h
  | n + 1, s, h => by
    simp only [dropAtHead]
    split
    · exact h
    · split
      · exact keeps_dropAtHead t n (keeps_removeParcel _ h)
      · exact h

theorem keeps_carryParcel (id : Nat) (h : Keeps o s) : Keeps o (carryParcel id s) := keeps_updParcel _ _ h

theorem keeps_composeParcels (t : Fin 8) : ∀ (n k limit : Nat) (is : List RunItem) {s : State}, Keeps o s →
    Keeps o (composeParcels t n k limit is s).2
  | 0, _, _, _, _, h => h
  | n + 1, k, limit, is, s, h => by
    simp only [composeParcels]
    split
    · exact h
    · split
      · exact keeps_composeParcels t n _ _ _ (keeps_removeParcel _ h)
      · split
        · exact keeps_composeParcels t n _ _ _ (keeps_carryParcel _ h)
        · split
          · simp only
            split
            · exact h
            · exact keeps_carryParcel _ h
          · exact h

theorem keeps_issueHostRun (t : Fin 8) (b : Band) (h : Keeps o s) : Keeps o (issueHostRun t b s) := by
  unfold issueHostRun
  exact (keeps_issueWrite _ _ _ _ (keeps_composeParcels _ _ _ _ _ h)).of_view rfl

theorem keeps_selectHost (t : Fin 8) (h : Keeps o s) : Keeps o (selectHost t s).1 := by
  have hd := keeps_dropAtHead t (composerFuel t s) h
  simp only [selectHost]
  split
  · exact hd
  · split
    · exact keeps_issueHostRun _ _ hd
    · split
      · exact hd
      · rename_i hu
        have := keeps_takeHostBand t hu hd
        split
        · exact this
        · exact keeps_issueHostRun _ _ this

theorem keeps_streamCompletion (i : StreamId) (b first : Nat) (is : List RunItem) (ok : Bool) (h : Keeps o s) :
    Keeps o (streamCompletion i b first is ok s) := by
  have hb := keeps_updStream i (builderRun first is) h
  simp only [streamCompletion]
  split
  · split
    · exact hb
    · split
      · exact keeps_closeBand _ (keeps_updStream _ _ hb)
      · exact hb
  · exact keeps_updStream _ _ (keeps_failBand _ hb)

theorem keeps_issueSummary (b : Nat) (h : Keeps o s) : Keeps o (issueSummary b s) := by
  simp only [issueSummary]
  split
  · exact h.of_view rfl
  · exact keeps_sendIssue _ (h.of_view rfl)

theorem keeps_finishSummary (b : Nat) (ok : Bool) (parts : List Sector) (h : Keeps o s) : Keeps o (finishSummary b ok parts s) := by
  have he := keeps_endSummary b ok parts h
  simp only [finishSummary]
  split
  · exact he
  · exact keeps_updStream _ _ he

/-! ### Exposure -/

theorem keeps_crossThreshold (n : Nat) (h : Keeps o s) : Keeps o (crossThreshold n s) := by
  unfold crossThreshold
  split
  · exact h
  · split
    · split
      · exact h
      · exact keeps_placeNotice _ _ (keeps_updBand _ _ h)
    · split
      · exact h
      · exact keeps_raiseCause _ _ h

theorem keeps_gainExposure (n z g : Nat) (h : Keeps o s) : Keeps o (gainExposure n z g s) := by
  unfold gainExposure
  split
  · exact h
  · split
    · simp only
      split
      · exact keeps_crossThreshold _ (keeps_updBand _ _ h)
      · exact keeps_updBand _ _ h
    · exact h

theorem keeps_accountExposure (b first k : Nat) (h : Keeps o s) : Keeps o (accountExposure b first k s) := by
  unfold accountExposure
  split
  · exact h
  · rename_i r _
    have hb : Keeps o (if touchesFirst (bandZone s r) first k && decide (0 < b) then
        gainExposure (b - 1) r.zone (s.startup.image.backwardWeight * multiplier (classInForce s)) s else s) := by
      split
      · exact keeps_gainExposure _ _ _ h
      · exact h
    simp only
    split
    · exact keeps_gainExposure _ _ _ hb
    · exact hb

theorem keeps_reevaluate (h : Keeps o s) : Keeps o (reevaluate s) := by
  unfold reevaluate
  refine keeps_foldl _ (fun n u hu => ?_) _ h
  split
  · exact hu
  · split
    · exact keeps_crossThreshold _ hu
    · exact hu

/-! ### FETCH and LOCATE -/

theorem keeps_admitFetch (p : Port) (f : RequestFrame) (h : Keeps o s) : Keeps o (admitFetch p f s) := by
  unfold admitFetch
  simp only
  split
  · exact keeps_answerHead _ _ _ _ _ h
  · exact keeps_offer ((keeps_foldl _ (fun r _ hu => keeps_addPin r.band hu) _ (keeps_popRequest p h)).of_view rfl)

theorem keeps_fetchTake (p : Port) (f : RequestFrame) (h : Keeps o s) : Keeps o (fetchTake p f s) := by
  unfold fetchTake
  simp only
  split
  · exact keeps_admitFetch _ _ h
  · exact keeps_holdRequest p (h.of_view rfl)

theorem keeps_retakeFetches : ∀ (ps : List Port) {s : State}, Keeps o s → Keeps o (retakeFetches ps s)
  | [], _, h => h
  | p :: ps, s, h => by
    simp only [retakeFetches]
    split
    · exact h
    · split
      · exact keeps_retakeFetches ps (keeps_admitFetch _ _ (h.of_view rfl))
      · exact h

theorem keeps_roomReturned (h : Keeps o s) : Keeps o (roomReturned s) := keeps_retakeFetches _ h

theorem keeps_updReadRun (id pos : Nat) (f : ReadRun → ReadRun) (h : Keeps o s) : Keeps o (updReadRun id pos f s) := h.of_view rfl

theorem keeps_updFetch (id : Nat) (f : FetchRecord → FetchRecord) (h : Keeps o s) : Keeps o (updFetch id f s) := h.of_view rfl

theorem keeps_deliverFetch (id pos start : Nat) (xs : List Sector) (h : Keeps o s) : Keeps o (deliverFetch id pos start xs s) := by
  unfold deliverFetch
  split
  · exact h
  · exact keeps_updFetch _ _ h

theorem keeps_exceptFetch (id pos j : Nat) (h : Keeps o s) : Keeps o (exceptFetch id pos j s) := keeps_updFetch _ _ h

theorem keeps_answerFetch (x : FetchRecord) (h : Keeps o s) : Keeps o (answerFetch x s) :=
  keeps_roomReturned (keeps_respond _ _ _ _ (h.of_view rfl))

theorem keeps_answerIfEnded (id : Nat) (h : Keeps o s) : Keeps o (answerIfEnded id s) := by
  unfold answerIfEnded
  split
  · exact h
  · split
    · exact keeps_answerFetch _ h
    · exact h

theorem keeps_endReadRun (id pos : Nat) (h : Keeps o s) : Keeps o (endReadRun id pos s) := by
  unfold endReadRun
  split
  · exact h
  · rename_i r _
    have hr : Keeps o (roomReturned
        { s with sched := { s.sched with readQueue := s.sched.readQueue.filter fun y => ¬(y.fetch = id ∧ y.pos = pos) } }) :=
      keeps_roomReturned (h.of_view rfl)
    refine keeps_answerIfEnded _ (keeps_updFetch _ _ ?_)
    simp only
    split
    · exact keeps_removePin _ hr
    · exact hr

theorem keeps_answerEnded (h : Keeps o s) : Keeps o (answerEnded s) := by
  unfold answerEnded
  refine keeps_foldl _ (fun x u hu => ?_) _ h
  split
  · exact keeps_answerFetch _ hu
  · exact hu

theorem keeps_locateTake (p : Port) (f : RequestFrame) (h : Keeps o s) : Keeps o (locateTake p f s) :=
  keeps_answerHead _ _ _ _ _ h

/-! ### The relocation engine -/

theorem keeps_updEngine (f : Engine → Engine) (h : Keeps o s) : Keeps o (updEngine f s) := h.of_view rfl

theorem keeps_engineIdle (h : Keeps o s) : Keeps o (engineIdle s) := h.of_view rfl

theorem keeps_updScan (f : Scan → Scan) (h : Keeps o s) : Keeps o (updScan f s) := h.of_view rfl

theorem keeps_updChunk (f : Chunk → Chunk) (h : Keeps o s) : Keeps o (updChunk f s) := h.of_view rfl

theorem keeps_makeChunk (n wp : Nat) (h : Keeps o s) : Keeps o (makeChunk n wp s) := h.of_view rfl

theorem keeps_finishDrain (b : Nat) (c : Scan) (h : Keeps o s) : Keeps o (finishDrain b c s) :=
  keeps_endDrain _ (keeps_engineIdle (keeps_handBreak _ _ _ h))

theorem keeps_advanceDrain (h : Keeps o s) : Keeps o (advanceDrain s) := by
  unfold advanceDrain
  split
  · split
    · exact h
    · split
      · exact keeps_finishDrain _ _ h
      · split
        · exact keeps_makeChunk _ _ h
        · exact h
  · exact h

theorem keeps_beginVictim (b : Nat) (r : VictimReason) (h : Keeps o s) : Keeps o (beginVictim b r s) := by
  unfold beginVictim
  split
  · exact h
  · exact keeps_advanceDrain (keeps_updEngine _ (keeps_drainBand _ h))

theorem keeps_markLost (v L : Nat) {u : State} (hu : markLost v L s = some u) (h : Keeps o s) : Keeps o u := by
  unfold markLost at hu
  simp only at hu
  split at hu
  · cases hu
    exact keeps_placeNotice _ _ (keeps_lowerLive _ _ (keeps_setRecords _ (fun hm => mapOk_oneBlock _ _ _ hm) h))
  · exact absurd hu (by simp)

theorem keeps_decideChunk (v stamp lw : Nat) : ∀ (n : Nat) (xs : List (Option Sector)) (cs : List Copy) {s : State}, Keeps o s →
    Keeps o (decideChunk v stamp lw n xs cs s).2.2
  | _, [], _, _, h => h
  | n, x :: xs, cs, s, h => by
    simp only [decideChunk]
    split
    · split
      · exact keeps_decideChunk _ _ _ _ _ _ h
      · split
        · rename_i hu
          exact keeps_decideChunk _ _ _ _ _ _ (keeps_markLost _ _ hu h)
        · exact h
    · split
      · exact keeps_decideChunk _ _ _ _ _ _ h
      · refine keeps_decideChunk _ _ _ _ _ _ ?_
        split
        · exact keeps_updScan _ h
        · exact h

theorem keeps_abandonVictim (h : Keeps o s) : Keeps o (abandonVictim s) := by
  unfold abandonVictim
  split
  · exact keeps_updEngine _ (keeps_engineIdle (keeps_placeNotice _ _ (keeps_abandonBand _
      (keeps_handBreak _ _ _ (keeps_handMedia _ _ _ h)))))
  · exact h

theorem keeps_endChunkRead (h : Keeps o s) : Keeps o (endChunkRead s) := by
  unfold endChunkRead
  split
  · simp only
    split
    · exact keeps_abandonVictim (keeps_decideChunk _ _ _ _ _ _ (keeps_updEngine _ h))
    · split
      · exact keeps_advanceDrain (keeps_updEngine _ (keeps_updScan _ (keeps_handMedia _ _ _
          (keeps_decideChunk _ _ _ _ _ _ (keeps_updEngine _ h)))))
      · exact keeps_offer (keeps_updChunk _ (keeps_updScan _ (keeps_handMedia _ _ _
          (keeps_decideChunk _ _ _ _ _ _ (keeps_updEngine _ h)))))
  · exact h

theorem keeps_setCopies (l : List Nat) (st : CopyState) (h : Keeps o s) : Keeps o (setCopies l st s) := h.of_view rfl

theorem keeps_issueRelocWrite (b : Band) (h : Keeps o s) : Keeps o (issueRelocWrite b s) :=
  keeps_issueWrite _ _ _ _ (keeps_setCopies _ _ h)

theorem keeps_commitCopies (v d : Nat) : ∀ (n : Nat) (is : List RunItem) {s : State}, Keeps o s →
    Keeps o (commitCopies v d n is s).2
  | _, [], _, h => h
  | n, i :: is, s, h => by
    cases i <;> simp only [commitCopies]
    case copy vo L q =>
      split
      · split
        · refine keeps_commitCopies _ _ _ _ (keeps_setCopies _ _ (keeps_setRecords _ (fun hm => ?_)
            (keeps_lowerLive _ _ (keeps_raiseLive _ _ h))))
          rw [((onlyBands_raiseLive s d 1).trans (onlyBands_lowerLive _ v 1)).map] at hm
          exact mapOk_oneBlock _ _ _ hm
        · exact h
      · exact keeps_commitCopies _ _ _ _ (keeps_setCopies _ _ h)
    all_goals exact keeps_commitCopies _ _ _ _ (by first | exact keeps_setCopies _ _ h | exact h)

theorem keeps_relocCompletion (d first : Nat) (is : List RunItem) (k : Nat) (h : Keeps o s) :
    Keeps o (relocCompletion d first is k s) := by
  unfold relocCompletion
  split
  · exact h
  · simp only
    split
    · exact keeps_abandonVictim (keeps_commitCopies _ _ _ _ h)
    · split
      · exact keeps_offer (keeps_setCopies _ _ (keeps_commitCopies _ _ _ _ h))
      · exact keeps_advanceDrain (keeps_updEngine _ (keeps_setCopies _ _ (keeps_commitCopies _ _ _ _ h)))

theorem keeps_retakeVerify (h : Keeps o s) : Keeps o (retakeVerify s) := by
  unfold retakeVerify
  split
  · exact h
  · split
    · split
      · exact h
      · exact keeps_choiceDue (keeps_updEngine _ (keeps_popRequest _ h))
    · exact h

theorem keeps_answerVerify (x : VerifyOutcome) (st : Nat) (brk : Option Nat) (n : Nat) (h : Keeps o s) :
    Keeps o (answerVerify x st brk n s) := by
  unfold answerVerify
  split
  · exact keeps_engineIdle h
  · exact keeps_retakeVerify (keeps_respond _ _ _ _ (keeps_engineIdle (keeps_updEngine _ h)))

theorem keeps_endScan (whole : Bool) (h : Keeps o s) : Keeps o (endScan whole s) := by
  unfold endScan
  split
  · exact h
  · simp only
    split
    · exact keeps_answerVerify _ _ _ _ (keeps_handBreak _ _ _ h)
    · split
      · exact keeps_engineIdle (keeps_updEngine _ (keeps_handBreak _ _ _ h))
      · exact keeps_engineIdle (keeps_handBreak _ _ _ h)

theorem keeps_beginScan (b : Nat) (a : Activity) (h : Keeps o s) : Keeps o (beginScan b a s) := by
  unfold beginScan
  split
  · exact h
  · simp only
    split
    · exact keeps_endScan _ (keeps_updEngine _ h)
    · exact keeps_offer (keeps_updEngine _ h)

theorem keeps_beginVerify (h : Keeps o s) : Keeps o (beginVerify s) := by
  unfold beginVerify
  split
  · exact keeps_engineIdle h
  · split
    · exact keeps_answerVerify _ _ _ _ h
    · split
      · exact keeps_answerVerify _ _ _ _ h
      · exact keeps_beginScan _ _ h

theorem keeps_stopScan (h : Keeps o s) : Keeps o (stopScan s) := by
  unfold stopScan
  split
  · exact keeps_endScan _ h
  · exact keeps_updEngine _ h
  · exact h

theorem keeps_endScanRead (h : Keeps o s) : Keeps o (endScanRead s) := by
  unfold endScanRead
  split
  · exact h
  · simp only
    split
    · exact keeps_stopScan (keeps_updScan _ (keeps_handMedia _ _ _ h))
    · split
      · exact keeps_endScan _ (keeps_updScan _ (keeps_handMedia _ _ _ h))
      · exact keeps_offer (keeps_updScan _ (keeps_handMedia _ _ _ h))

theorem keeps_chooseWork (h : Keeps o s) : Keeps o (chooseWork s) := by
  unfold chooseWork
  split
  · split
    · exact keeps_beginVictim _ _ h
    · split
      · exact keeps_beginVictim _ _ h
      · split
        · exact keeps_beginVerify h
        · split
          · split
            · exact keeps_beginVictim _ _ h
            · split
              · exact keeps_beginScan _ _ h
              · exact h
          · exact h
  · exact h

theorem keeps_testBeforeRead (h : Keeps o s) : Keeps o (testBeforeRead s) := by
  unfold testBeforeRead
  split
  · exact h
  · split
    · split
      · split
        · exact keeps_endScan _ h
        · exact h
      · split
        · exact h
        · exact keeps_endScan _ h
      · exact h
    · exact h

theorem keeps_issueReloc (op : RelocOp) (h : Keeps o s) : Keeps o (issueReloc op s) := by
  cases op
  · simp only [issueReloc]
    split
    · exact h
    · exact keeps_sendIssue _ (keeps_updScan _ h)
  · simp only [issueReloc]
    split
    · exact keeps_issueRelocWrite _ h
    · split
      · exact h
      · rename_i hu
        have := keeps_takeRelocBand hu h
        split
        · exact this
        · exact keeps_issueRelocWrite _ this

theorem keeps_deliverReloc (n : Nat) (xs : List (Option Sector)) (h : Keeps o s) : Keeps o (deliverReloc n xs s) := by
  unfold deliverReloc
  simp only
  split
  · exact keeps_updChunk _ (keeps_updScan _ h)
  · exact keeps_updScan _ (keeps_updScan _ h)

theorem keeps_endRelocRead (h : Keeps o s) : Keeps o (endRelocRead s) := by
  unfold endRelocRead
  split
  · exact keeps_endChunkRead h
  · exact keeps_endScanRead h

theorem keeps_haltEngine (h : Keeps o s) : Keeps o (haltEngine s) := by
  unfold haltEngine
  split
  · exact h
  · exact keeps_stopScan h

theorem keeps_resumeEngine (h : Keeps o s) : Keeps o (resumeEngine s) := by
  unfold resumeEngine
  split
  · exact keeps_choiceDue h
  · split
    · exact keeps_offer (keeps_advanceDrain h)
    · exact keeps_offer h
  · split
    · exact keeps_beginVerify h
    · exact keeps_offer h
  · exact keeps_offer h

end

end Sys2Proof.Machine
end

