-- ==== Sys2Proof/Laws/Rebuild.lean ====
section
/-! SUPPORT. The map build (R174): the winners stay ascending, and the records made from them keep the order law of the map. -/

namespace Sys2Proof.Machine

/-- The winners stand in ascending LBN, one for each. -/
def Ascending (l : List FoundCopy) : Prop :=
  l.Pairwise fun x y => x.lbn < y.lbn

/-- An added copy brings in no LBN but its own. -/
theorem addCopy_lbn (x : FoundCopy) : ∀ (l : List FoundCopy), ∀ z ∈ addCopy x l, z.lbn = x.lbn ∨ ∃ y ∈ l, z.lbn = y.lbn
  | [], z, hz => by simp only [addCopy, List.mem_singleton] at hz; exact Or.inl (by rw [hz])
  | y :: ys, z, hz => by
    rw [addCopy] at hz
    split at hz
    · rcases List.mem_cons.mp hz with rfl | hz
      · exact Or.inl rfl
      · exact Or.inr ⟨z, hz, rfl⟩
    · split at hz
      · next h =>
        rcases List.mem_cons.mp hz with rfl | hz
        · split
          · exact Or.inl rfl
          · exact Or.inl h.symm
        · exact Or.inr ⟨z, List.mem_cons_of_mem _ hz, rfl⟩
      · rcases List.mem_cons.mp hz with rfl | hz
        · exact Or.inr ⟨z, by simp, rfl⟩
        · rcases addCopy_lbn x ys z hz with h | ⟨w, hw, h⟩
          · exact Or.inl h
          · exact Or.inr ⟨w, List.mem_cons_of_mem _ hw, h⟩

theorem ascending_addCopy (x : FoundCopy) : ∀ (l : List FoundCopy), Ascending l → Ascending (addCopy x l)
  | [], _ => by simp [addCopy, Ascending]
  | y :: ys, h => by
    obtain ⟨hy, hys⟩ := List.pairwise_cons.mp h
    rw [addCopy]
    split
    · next hlt =>
      refine List.pairwise_cons.mpr ⟨fun z hz => ?_, h⟩
      rcases List.mem_cons.mp hz with rfl | hz
      · exact hlt
      · exact Nat.lt_trans hlt (hy z hz)
    · split
      · next heq =>
        refine List.pairwise_cons.mpr ⟨fun z hz => ?_, hys⟩
        have := hy z hz
        split <;> omega
      · next h1 h2 =>
        refine List.pairwise_cons.mpr ⟨fun z hz => ?_, ascending_addCopy x ys hys⟩
        rcases addCopy_lbn x ys z hz with h | ⟨w, hw, h⟩
        · omega
        · have := hy w hw; omega

/-- The records made so far, last first, before the copies still to come. -/
structure Made (done : List Extent) : Prop where
  len : ∀ r ∈ done, 1 ≤ r.len
  media : ∀ r ∈ done, ∃ b o, r.loc = .media b o
  chain : done.IsChain fun x y => Apart y x

theorem made_nil : Made [] := ⟨by simp, by simp, by simp⟩

theorem made_mediaRecords (notes : List FoundNote) : ∀ (ws : List FoundCopy) (done : List Extent) (n : Nat), Ascending ws →
    Made done → (∀ r ∈ done.head?, ∀ x ∈ ws, r.start + r.len ≤ x.lbn) →
    Made (mediaRecords notes ws done n).1 ∧
      ∀ a ∈ (mediaRecords notes ws done n).2, ∀ r ∈ (mediaRecords notes ws done n).1.head?, r.start + r.len ≤ a
  | [], done, n, _, hd, _ => by simpa [mediaRecords] using hd
  | x :: xs, done, n, hw, hd, hb => by
    obtain ⟨hx, hxs⟩ := List.pairwise_cons.mp hw
    rw [mediaRecords]
    split
    · exact made_mediaRecords notes xs done n hxs hd fun r hr y hy => hb r hr y (List.mem_cons_of_mem _ hy)
    · simp only
      cases done with
      | nil =>
        refine made_mediaRecords notes xs _ _ hxs ⟨by simp, by simp, by simp⟩ fun r hr y hy => ?_
        simp only [List.head?_cons, Option.mem_def, Option.some.injEq] at hr
        subst hr
        exact hx y hy
      | cons last rest =>
        obtain ⟨h1, h2, h3⟩ := hd
        simp only
        split
        · next hm =>
          have hend := (mergeable_spec hm).1
          simp only at hend
          refine made_mediaRecords notes xs _ _ hxs ⟨fun r hr => ?_, fun r hr => ?_, ?_⟩ fun r hr y hy => ?_
          · rcases List.mem_cons.mp hr with rfl | hr
            · simp
            · exact h1 r (List.mem_cons_of_mem _ hr)
          · rcases List.mem_cons.mp hr with rfl | hr
            · exact h2 last (by simp)
            · exact h2 r (List.mem_cons_of_mem _ hr)
          · cases rest with
            | nil => simp
            | cons z zs =>
              obtain ⟨ha, hc⟩ := List.isChain_cons_cons.mp h3
              exact List.isChain_cons_cons.mpr ⟨ha.of_right rfl rfl (Nat.le_add_right _ _), hc⟩
          · simp only [List.head?_cons, Option.mem_def, Option.some.injEq] at hr
            subst hr
            have := hx y hy
            simp only
            omega
        · next hm =>
          split
          · refine made_mediaRecords notes xs _ _ hxs ⟨fun r hr => ?_, fun r hr => ?_, ?_⟩ fun r hr y hy => ?_
            · rcases List.mem_cons.mp hr with rfl | hr
              · simp
              · exact h1 r hr
            · rcases List.mem_cons.mp hr with rfl | hr
              · exact ⟨_, _, rfl⟩
              · exact h2 r hr
            · exact List.isChain_cons_cons.mpr ⟨⟨hb last rfl x (by simp), by simpa using hm⟩, h3⟩
            · simp only [List.head?_cons, Option.mem_def, Option.some.injEq] at hr
              subst hr
              exact hx y hy
          · refine ⟨⟨h1, h2, h3⟩, fun a ha r hr => ?_⟩
            simp only [Option.mem_def, Option.some.injEq] at ha
            subst ha
            exact hb r hr x (by simp)

theorem mapOk_lostRecords (a e : Nat) : MapOk (lostRecords a e) := by
  refine ⟨fun r hr => ?_, ?_⟩
  · simp only [lostRecords, List.mem_map, List.mem_range] at hr
    obtain ⟨i, hi, rfl⟩ := hr
    simp only [Config.lostLimit] at hi ⊢
    omega
  · refine List.Pairwise.isChain ?_
    rw [lostRecords, List.pairwise_map]
    refine List.Pairwise.imp_of_mem (fun {i j} _ hj hij => ?_) List.pairwise_lt_range
    rw [List.mem_range] at hj
    simp only [Config.lostLimit] at hj ⊢
    refine ⟨by simp only; omega, ?_⟩
    simp only [mergeable, Config.lostLimit, Bool.and_eq_false_iff, decide_eq_false_iff_not]
    right
    omega

theorem lostRecords_start (a e : Nat) : ∀ r ∈ lostRecords a e, a ≤ r.start ∧ r.loc = .lost := by
  intro r hr
  simp only [lostRecords, List.mem_map] at hr
  obtain ⟨i, _, rfl⟩ := hr
  exact ⟨Nat.le_add_right _ _, rfl⟩

theorem made_reverse {done : List Extent} (h : Made done) : MapOk done.reverse :=
  ⟨by simpa using h.len, by rw [List.isChain_reverse]; exact h.chain⟩

/-- The map that the build makes from ascending winners keeps the order law. -/
theorem mapOk_buildMap (s : State) (h : Ascending s.startup.found.winners) : MapOk (buildMap s).map.records := by
  obtain ⟨hm, hb⟩ := made_mediaRecords s.startup.found.notes _ [] 0 h made_nil (by simp)
  unfold buildMap
  simp only
  split
  · exact made_reverse hm
  · next a ha =>
    show MapOk (_ ++ _)
    obtain ⟨h1, h2⟩ := made_reverse hm
    obtain ⟨h3, h4⟩ := mapOk_lostRecords a s.startup.nLog
    refine ⟨fun r hr => ?_, List.isChain_append.mpr ⟨h2, h4, fun p hp q hq => ?_⟩⟩
    · rcases List.mem_append.mp hr with hr | hr
      · exact h1 r hr
      · exact h3 r hr
    · rw [List.getLast?_reverse] at hp
      have hq' := lostRecords_start a _ q (List.mem_of_mem_head? hq)
      obtain ⟨b, o, hl⟩ := hm.media p (List.mem_of_mem_head? hp)
      refine ⟨Nat.le_trans (hb a ha p hp) hq'.1, ?_⟩
      simp [mergeable, hl, hq'.2]

end Sys2Proof.Machine
end

