-- ==== Sys2Proof/Laws/Settings.lean ====
section
/-! SUPPORT. The ranges of the settings are kept: by the defaults, by a clamped SET, and by the image of a valid settings record. -/

namespace Sys2Proof.Machine

theorem all_range14 (p : Nat → Bool) :
    (List.range 14).all p = true ↔
      p 0 ∧ p 1 ∧ p 2 ∧ p 3 ∧ p 4 ∧ p 5 ∧ p 6 ∧ p 7 ∧ p 8 ∧ p 9 ∧ p 10 ∧ p 11 ∧ p 12 ∧ p 13 := by
  simp [List.range, List.range.loop]

/-- The ranges of the table of R178, one by one. -/
structure InRange (x : Settings) : Prop where
  slotCode : x.slotCode ≤ 6
  flushThreshold : 1 ≤ x.flushThreshold ∧ x.flushThreshold ≤ 4096
  ageLimit : 10 ≤ x.ageLimit ∧ x.ageLimit ≤ 60000
  slotWait : 100 ≤ x.slotWait ∧ x.slotWait ≤ 30000
  threshold : 1000 ≤ x.threshold ∧ x.threshold ≤ 65000
  forwardWeight : 1 ≤ x.forwardWeight ∧ x.forwardWeight ≤ 15
  backwardWeight : x.backwardWeight ≤ 15
  backlogLimit : 1 ≤ x.backlogLimit ∧ x.backlogLimit ≤ 16
  lowMark : 4 ≤ x.lowMark ∧ x.lowMark ≤ 4096
  criticalMark : 3 ≤ x.criticalMark ∧ x.criticalMark ≤ x.lowMark - 1
  retryLimit : x.retryLimit ≤ 7
  idleDelay : 100 ≤ x.idleDelay ∧ x.idleDelay ≤ 60000

theorem inRange_iff (x : Settings) : x.inRange = true ↔ InRange x := by
  have hmask : x.coldMask.toNat ≤ 18446744073709551615 := by have := x.coldMask.isLt; omega
  have hcol : (if x.collisionRefusal = true then 1 else 0) ≤ 1 := by split <;> omega
  rw [Settings.inRange, all_range14]
  simp only [settingRange, settingOf, decide_eq_true_eq, Nat.zero_le, true_and, Nat.reducePow, Nat.reduceSub]
  constructor
  · rintro ⟨h1, h2, h3, h4, h5, h6, h7, h8, h9, h10, h11, h12, -, -⟩
    exact ⟨h1, h2, h3, h4, h5, h6, h7, h8, h9, h10, h11, h12⟩
  · rintro ⟨h1, h2, h3, h4, h5, h6, h7, h8, h9, h10, h11, h12⟩
    exact ⟨h1, h2, h3, h4, h5, h6, h7, h8, h9, h10, h11, h12, hmask, hcol⟩

theorem default_inRange : Settings.default.inRange = true := by decide

/-- Every range holds a value. -/
theorem settingRange_le (x : Settings) (h : InRange x) (id : Nat) :
    (settingRange x.lowMark id).1 ≤ (settingRange x.lowMark id).2 := by
  have := h.lowMark
  unfold settingRange
  split <;> simp only <;> omega

/-- A clamped value lies in its range. -/
theorem clampTo_mem (r : Nat × Nat) (v : Nat) (h : r.1 ≤ r.2) : r.1 ≤ clampTo r v ∧ clampTo r v ≤ r.2 := by
  unfold clampTo
  split
  · omega
  · split <;> omega

/-- An image in range stays in range when a setting takes a value of its range. -/
theorem putSetting_inRange (x : Settings) (id v : Nat) (h : InRange x) (hv : (settingRange x.lowMark id).1 ≤ v ∧
    v ≤ (settingRange x.lowMark id).2) : InRange (putSetting x id v) := by
  obtain ⟨h1, h2, h3, h4, h5, h6, h7, h8, h9, h10, h11, h12⟩ := h
  unfold putSetting
  split <;> simp only [settingRange, Nat.reducePow, Nat.reduceSub] at hv <;> constructor <;> (try simp only) <;>
    first
    | assumption
    | omega
    | (split <;> omega)

theorem putSetting_clamped (x : Settings) (id v : Nat) (h : x.inRange = true) :
    (putSetting x id (clampTo (settingRange x.lowMark id) v)).inRange = true := by
  rw [inRange_iff] at h ⊢
  exact putSetting_inRange x id _ h (clampTo_mem _ v (settingRange_le x h id))

/-- The image of a valid settings record is in range. -/
theorem recordImage_inRange (b : Block) (h : recordValid b = true) : (recordImage b).inRange = true := by
  simp only [recordValid, Bool.and_eq_true] at h
  have hr := h.2
  rw [recordInRange, all_range14] at hr
  simp only [settingRange, decide_eq_true_eq, Nat.zero_le, true_and, Nat.reduceAdd] at hr
  obtain ⟨h1, h2, h3, h4, h5, h6, h7, h8, h9, h10, h11, h12, -, -⟩ := hr
  rw [inRange_iff]
  exact ⟨h1, h2, h3, h4, h5, h6, h7, h8, h9, h10, h11, h12⟩

end Sys2Proof.Machine
end

