-- ==== Sys2Proof/Laws/KeepsSteps.lean ====
section
/-! SUPPORT. What the start-up unit, the media scheduler, the end of a step and the meanings keep: one lemma for every command but the three that
change what `Keeps` fixes (POWER_ON, FENCE, ADMIT). -/

namespace Sys2Proof.Machine

/-- A change of the settings image that keeps it in range. -/
theorem Keeps.of_image {o s : State} (h : Keeps o s) (x : Settings) (hx : s.startup.image.inRange = true → x.inRange = true) :
    Keeps o (setImage x s) :=
  ⟨h.pending, h.custody, h.now, h.sent, h.notices, h.pool, fun y => hx (h.settings y), h.order⟩

/-- A change of what the rebuild has found that keeps the winners ascending. -/
theorem Keeps.of_found {o s : State} (h : Keeps o s) (f : Found → Found)
    (hf : Ascending s.startup.found.winners → Ascending (f s.startup.found).winners) : Keeps o (updFound f s) :=
  ⟨h.pending, h.custody, h.now, h.sent, h.notices, h.pool, h.settings, fun x => ⟨(h.order x).1, hf (h.order x).2⟩⟩

section
variable {o s : State}

/-! ### The start-up unit -/

theorem keeps_setStage (x : StartStage) (h : Keeps o s) : Keeps o (setStage x s) := h.of_view rfl

theorem keeps_redivide (h : Keeps o s) : Keeps o (redivide s) := h.of_view rfl

theorem keeps_acceptGeometry (g : GeometryRecord) (h : Keeps o s) : Keeps o (acceptGeometry g s) := by
  unfold acceptGeometry
  have hu : Keeps o (updStart (fun y => { y with nLog := logicalCapacity g }) { s with table := buildTable g.zones }) := h.of_view rfl
  refine keeps_setStage _ ?_
  split
  · exact keeps_placeNotice _ _ hu
  · exact hu

theorem keeps_failGeometry (h : Keeps o s) : Keeps o (failGeometry s) := h.of_view rfl

theorem keeps_endGeometry (g : Option GeometryRecord) (h : Keeps o s) : Keeps o (endGeometry g s) := by
  unfold endGeometry
  split
  · exact keeps_failGeometry h
  · split
    · exact keeps_acceptGeometry _ h
    · exact keeps_failGeometry h

theorem keeps_beginBand (b : Nat) (h : Keeps o s) : Keeps o (beginBand b s) := keeps_setStage _ h

theorem keeps_endSettings (b : Option Block) (h : Keeps o s) : Keeps o (endSettings b s) := by
  unfold endSettings
  refine keeps_beginBand _ (keeps_redivide ?_)
  split
  · next c hc =>
    exact h.of_image _ fun _ => recordImage_inRange c (Option.eq_some_of_filter_eq_some hc |> fun _ => by
      have := Option.filter_eq_some_iff.mp hc
      exact this.2)
  · exact keeps_placeNotice _ _ (h.of_image _ fun _ => default_inRange)

theorem keeps_seenSeq (q : Nat) (h : Keeps o s) : Keeps o (updFound (seenSeq q) s) := h.of_found _ id

theorem keeps_foundData (b q n lbn seq : Nat) (h : Keeps o s) : Keeps o (foundData b q n lbn seq s) := by
  unfold foundData
  refine Keeps.of_found (keeps_updBand _ _ h) _ fun hw => ?_
  split
  · exact ascending_addCopy _ _ hw
  · exact hw

theorem keeps_foundNote (b first len seq : Nat) (h : Keeps o s) : Keeps o (foundNote b first len seq s) := by
  unfold foundNote
  exact Keeps.of_found (keeps_updBand _ _ h) _ fun hw => hw

theorem keeps_foundEntry (b q : Nat) (e : SummaryEntry) (h : Keeps o s) : Keeps o (foundEntry b q e s) := by
  unfold foundEntry
  refine keeps_seenSeq _ ?_
  split
  · exact keeps_foldl _ (fun _ _ hu => keeps_foundData _ _ _ _ _ hu) _ h
  · exact keeps_foundNote _ _ _ _ h

theorem keeps_foundSector (b q n : Nat) (x : Sector) (h : Keeps o s) : Keeps o (foundSector b q n x s) := by
  unfold foundSector
  refine keeps_seenSeq _ ?_
  split
  · exact keeps_foundData _ _ _ _ _ h
  · exact keeps_foundNote _ _ _ _ h

theorem keeps_closeRebuild (b wp : Nat) (c : Option Chain) (f : Option Finding) (h : Keeps o s) : Keeps o (closeRebuild b wp c f s) :=
  h.of_view rfl

theorem keeps_scanSectors : ∀ (n : Nat) (xs : List (Option Sector)) (r : BandRebuild) {s : State}, Keeps o s →
    Keeps o (scanSectors n xs r s).2
  | _, [], _, _, h => h
  | n, x :: xs, r, s, h => by
    simp only [scanSectors]
    split
    · exact h
    · refine keeps_scanSectors _ _ _ ?_
      split
      · exact h
      · exact keeps_foundSector _ _ _ _ h

theorem keeps_endBandScan (r : BandRebuild) (wp : Nat) (h : Keeps o s) : Keeps o (endBandScan r wp s) := by
  unfold endBandScan
  simp only
  split
  · exact keeps_closeRebuild _ _ _ _ h
  · exact keeps_closeRebuild _ _ _ _ (h.of_view rfl)

theorem keeps_buildMap (h : Keeps o s) : Keeps o (buildMap s) := by
  have hp : (buildMap s).pending = s.pending ∧ (buildMap s).custody = s.custody ∧ (buildMap s).now = s.now ∧
      (buildMap s).staging = s.staging ∧ (buildMap s).startup = s.startup ∧
      (∀ p, ((buildMap s).link p).sent = (s.link p).sent) ∧ (Safety.NoticeLaw s → Safety.NoticeLaw (buildMap s)) := by
    unfold buildMap
    simp only
    split
    · exact ⟨rfl, rfl, rfl, rfl, rfl, fun _ => rfl, id⟩
    · refine ⟨rfl, rfl, rfl, rfl, rfl, fun p => by cases p <;> rfl, fun x => ?_⟩
      exact ⟨takeNotice_bound _ _ _ x.1, takeNotice_bound _ _ _ x.2⟩
  obtain ⟨h1, h2, h3, h4, h5, h6, h7⟩ := hp
  refine ⟨h1.trans h.pending, h2.trans h.custody, h3 ▸ h.now, fun p => (h6 p).symm ▸ h.sent p, fun x => h7 (h.notices x),
    fun x => ?_, fun x => ?_, fun x => ?_⟩
  · rw [Safety.PoolLaw, h4]; exact h.pool x
  · rw [Safety.SettingsLaw, h5]; exact h.settings x
  · have := h.order x
    refine ⟨mapOk_buildMap s this.2, ?_⟩
    rw [Safety.WinnersLaw, h5]; exact this.2

theorem keeps_applyFinding (f : Finding) (h : Keeps o s) : Keeps o (applyFinding f s) := by
  have hb : Keeps o (match f.firstBreak with
      | none => s
      | some n => placeNotice .breakFound (some f.band) (recordBreak f.band n (raiseCause f.band .brk s))) := by
    split
    · exact h
    · exact keeps_placeNotice _ _ (keeps_recordBreak _ _ (keeps_raiseCause _ _ h))
  unfold applyFinding
  split
  · simp only
    split
    · exact hb
    · exact keeps_raiseCause _ _ hb
  · exact h

theorem keeps_resetCounter (h : Keeps o s) : Keeps o (resetCounter s) := by
  unfold resetCounter
  split
  · exact h.of_view rfl
  · split
    · exact h.of_view rfl
    · exact h.of_view rfl

theorem keeps_clearFound (h : Keeps o s) :
    Keeps o (updStart (fun y => { y with engine := .running, stage := .finished, found := Found.nothing }) s) :=
  ⟨h.pending, h.custody, h.now, h.sent, h.notices, h.pool, h.settings, fun x => ⟨(h.order x).1, List.Pairwise.nil⟩⟩

theorem keeps_finishRebuild (h : Keeps o s) : Keeps o (finishRebuild s) := by
  unfold finishRebuild
  exact keeps_offer (keeps_choiceDue (keeps_placeNotice _ _ (keeps_clearFound (keeps_resetCounter (keeps_freeLowTest
    (keeps_foldl (fun s f => applyFinding f s) (fun f _ hu => keeps_applyFinding f hu) _ ((keeps_buildMap h).of_view rfl)))))))

theorem keeps_nextBand (b : Nat) (h : Keeps o s) : Keeps o (nextBand b s) := by
  unfold nextBand
  split
  · exact keeps_beginBand _ h
  · exact keeps_finishRebuild h

theorem keeps_deliverStart (xs : List (Option Sector)) (h : Keeps o s) : Keeps o (deliverStart xs s) := by
  unfold deliverStart
  split
  · exact h.of_view rfl
  · exact h

theorem seenAnomaly_winners (b : Nat) (x : Option Sector) (f : Found) : (seenAnomaly b x f).winners = f.winners := by
  unfold seenAnomaly
  split
  · rfl
  · split <;> rfl

theorem seenAnomalies_winners (b : Nat) : ∀ (l : List (Option Sector)) (f : Found),
    (l.foldl (fun f x => seenAnomaly b x f) f).winners = f.winners
  | [], _ => rfl
  | x :: xs, f => by rw [List.foldl_cons, seenAnomalies_winners b xs, seenAnomaly_winners]

theorem keeps_endRebuildRead (r : BandRebuild) (h : Keeps o s) : Keeps o (endRebuildRead r s) := by
  unfold endRebuildRead
  split
  · exact h
  · simp only
    split
    · split
      · exact keeps_setStage _ (keeps_seenSeq _ (keeps_updBand _ _ h))
      · exact keeps_setStage _ h
    · have ha : Keeps o (updFound (fun f => r.buffer.foldl (fun f x => seenAnomaly r.band x f) f) s) :=
        h.of_found _ fun hw => by rw [seenAnomalies_winners]; exact hw
      refine keeps_nextBand _ (keeps_closeRebuild _ _ _ _ ?_)
      split
      · exact keeps_placeNotice _ _ ha
      · exact ha
    · split
      · exact keeps_nextBand _ (keeps_closeRebuild _ _ _ _ (keeps_updBand _ _
          (keeps_foldl _ (fun _ _ hu => keeps_foundEntry _ _ _ hu) _ h)))
      · exact keeps_setStage _ h
    · split
      · exact keeps_nextBand _ (keeps_endBandScan _ _ (keeps_scanSectors _ _ _ h))
      · split
        · exact keeps_nextBand _ (keeps_endBandScan _ _ (keeps_scanSectors _ _ _ h))
        · exact keeps_setStage _ (keeps_scanSectors _ _ _ h)

theorem keeps_endStartRead (h : Keeps o s) : Keeps o (endStartRead s) := by
  unfold endStartRead
  split
  · exact keeps_endRebuildRead _ h
  · exact h

theorem keeps_issueStart (h : Keeps o s) : Keeps o (issueStart s) := by
  unfold issueStart
  split
  · exact keeps_sendIssue _ h
  · exact h
  · exact keeps_sendIssue _ h
  · split
    · exact h
    · exact keeps_sendIssue _ h
  · exact keeps_sendIssue _ (h.of_view rfl)

theorem keeps_endSave (ok : Bool) (h : Keeps o s) : Keeps o (endSave ok s) :=
  keeps_foldl _ (fun _ _ hu => keeps_respond _ _ _ _ hu) _ (h.of_view rfl)

theorem keeps_answerHalts (st : Status) (h : Keeps o s) : Keeps o (answerHalts st s) :=
  keeps_foldl _ (fun _ _ hu => keeps_respond _ _ _ _ hu) _ (h.of_view rfl)

theorem keeps_haltedTest (h : Keeps o s) : Keeps o (haltedTest s) := by
  unfold haltedTest
  split
  · exact keeps_answerHalts _ (h.of_view rfl)
  · exact h

theorem keeps_haltTake (p : Port) (f : RequestFrame) (h : Keeps o s) : Keeps o (haltTake p f s) := by
  unfold haltTake
  split
  · exact keeps_answerHead _ _ _ _ _ h
  · exact keeps_popRequest _ (h.of_view rfl)
  · exact keeps_offer (keeps_popRequest _ (keeps_haltEngine (h.of_view rfl)))
  · exact h

theorem keeps_runTake (p : Port) (f : RequestFrame) (h : Keeps o s) : Keeps o (runTake p f s) := by
  unfold runTake
  split
  · exact keeps_choiceDue (keeps_answerHead _ _ _ _ _ h)
  · exact h
  · exact keeps_offer (keeps_resumeEngine (keeps_answerHead _ _ _ _ _ (keeps_answerHalts _ (h.of_view rfl))))

theorem keeps_refuseHeld (p : Port) (h : Keeps o s) : Keeps o (refuseHeld p s) := by
  unfold refuseHeld
  split
  · exact h
  · exact keeps_refuseHead _ _ _ h

theorem keeps_enterStarting (h : Keeps o s) : Keeps o (enterStarting s) :=
  ⟨h.pending, h.custody, h.now, h.sent, h.notices, h.pool, fun _ => default_inRange, fun _ => ⟨mapOk_nil, List.Pairwise.nil⟩⟩

theorem keeps_restartTake (p : Port) (f : RequestFrame) (h : Keeps o s) : Keeps o (restartTake p f s) := by
  unfold restartTake
  split
  · exact keeps_offer (keeps_foldl _ (fun _ _ hu => keeps_refuseHeld _ hu) _
      (keeps_foldl _ (fun _ _ hu => keeps_respond _ _ _ _ hu) _ (keeps_enterStarting (keeps_answerHead _ _ _ _ _ h))))
  · exact keeps_refuseHead _ _ _ h

theorem keeps_saveTake (p : Port) (f : RequestFrame) (h : Keeps o s) : Keeps o (saveTake p f s) :=
  keeps_offer (keeps_popRequest _ (h.of_view rfl))

/-! ### Settings -/

theorem keeps_settingEffects (id : Nat) (h : Keeps o s) : Keeps o (settingEffects id s) := by
  unfold settingEffects
  split
  · exact keeps_redivide h
  · exact keeps_choiceDue (keeps_reevaluate h)
  · exact keeps_choiceDue (keeps_freeLowTest h)
  · exact keeps_freeLowTest h
  · exact keeps_choiceDue h
  · exact h

theorem keeps_setTake (p : Port) (f : RequestFrame) (h : Keeps o s) : Keeps o (setTake p f s) := by
  unfold setTake
  simp only
  split
  · exact keeps_answerHead _ _ _ _ _ h
  · split
    · exact keeps_refuseHead _ _ _ h
    · exact keeps_answerHead _ _ _ _ _ (keeps_settingEffects _ (h.of_image _ fun hx => putSetting_clamped _ _ _ hx))

theorem keeps_loadDefaultsTake (p : Port) (f : RequestFrame) (h : Keeps o s) : Keeps o (loadDefaultsTake p f s) := by
  unfold loadDefaultsTake
  split
  · exact keeps_answerHead _ _ _ _ _ (keeps_reevaluate (keeps_freeLowTest (keeps_redivide
      (h.of_image _ fun _ => default_inRange))))
  · exact keeps_refuseHead _ _ _ h

/-! ### The media scheduler -/

theorem keeps_selectHosts : ∀ (ts : List (Fin 8)) {s : State}, Keeps o s → Keeps o (selectHosts ts s).1
  | [], _, h => h
  | t :: ts, s, h => by
    simp only [selectHosts]
    split
    · split
      · exact (keeps_selectHost t h).of_view rfl
      · exact keeps_selectHosts ts (keeps_selectHost t h)
    · exact keeps_selectHosts ts h

theorem keeps_tellIdle (h : Keeps o s) : Keeps o (tellIdle s) := by
  unfold tellIdle
  split
  · exact h
  · exact h.of_view rfl

theorem keeps_arbitrateWrites (h : Keeps o s) : Keeps o (arbitrateWrites s) := by
  unfold arbitrateWrites
  have hr := keeps_selectHosts (streamOrder s.sched.pointer) h
  simp only
  split
  · exact hr
  · split
    · exact keeps_issueReloc _ hr
    · exact keeps_tellIdle hr

theorem keeps_arbitrate (h : Keeps o s) : Keeps o (arbitrate s) := by
  unfold arbitrate
  split
  · exact h
  · split
    · exact keeps_issueStart h
    · split
      · exact keeps_issueReloc _ h
      · split
        · exact keeps_sendIssue _ h
        · split
          · exact keeps_issueSummary _ h
          · exact keeps_arbitrateWrites h

theorem keeps_deliverRead (op : Operation) (n : Nat) (xs : List (Option Sector)) (h : Keeps o s) :
    Keeps o (deliverRead op n xs s) := by
  unfold deliverRead
  split
  · refine keeps_foldl _ (fun x u hu => ?_) _ h
    split
    · exact keeps_deliverFetch _ _ _ _ hu
    · exact keeps_exceptFetch _ _ _ hu
  · exact keeps_deliverReloc _ _ h
  · exact keeps_deliverStart _ h
  · exact h

theorem keeps_endRead (op : Operation) (h : Keeps o s) : Keeps o (endRead op s) := by
  unfold endRead
  split
  · exact keeps_endReadRun _ _ h
  · exact keeps_endRelocRead h
  · exact keeps_endStartRead h
  · exact h

theorem keeps_continueRead (op : Operation) (j : Nat) (h : Keeps o s) : Keeps o (continueRead op j s) := by
  unfold continueRead
  split
  · exact keeps_offer (keeps_updReadRun _ _ _ h)
  · exact keeps_offer h

theorem keeps_commitItems (b : Nat) : ∀ (n : Nat) (is : List RunItem) {s : State}, Keeps o s → Keeps o (commitItems b n is s)
  | _, [], _, h => h
  | n, i :: is, s, h => by
    cases i <;> simp only [commitItems]
    case data p j L q =>
      split
      · exact keeps_commitItems _ _ _ (keeps_updParcel _ _ (keeps_raiseLive _ _ (h.of_records _ fun hm => mapOk_oneBlock _ _ _ hm)))
      · exact keeps_commitItems _ _ _ h
    all_goals exact keeps_commitItems _ _ _ h

theorem keeps_commitRun (b first : Nat) (is : List RunItem) (h : Keeps o s) : Keeps o (commitRun b first is s) :=
  keeps_mapChanged ((keeps_commitItems b first is h).of_view rfl)

theorem keeps_settleParcel (id n : Nat) (h : Keeps o s) : Keeps o (settleParcel id n s) := by
  unfold settleParcel
  simp only
  split
  · exact keeps_removeParcel _ (keeps_updParcel _ _ h)
  · split
    · exact keeps_removeParcel _ (keeps_updParcel _ _ (keeps_updParcel _ _ h))
    · exact keeps_updParcel _ _ (keeps_updParcel _ _ h)

theorem keeps_finishHostWrite (op : Operation) (t : Fin 8) (k : Nat) (ok : Bool) (h : Keeps o s) :
    Keeps o (finishHostWrite op t k ok s) :=
  keeps_offer (keeps_accountExposure _ _ _ (keeps_streamCompletion _ _ _ _ _ (keeps_foldl _ (fun _ _ hu => keeps_settleParcel _ _ hu) _
    (keeps_commitRun _ _ _ h))))

theorem keeps_finishRelocWrite (op : Operation) (k : Nat) (ok : Bool) (h : Keeps o s) : Keeps o (finishRelocWrite op k ok s) :=
  keeps_offer (keeps_accountExposure _ _ _ (keeps_streamCompletion _ _ _ _ _ (keeps_relocCompletion _ _ _ _ h)))

theorem keeps_finishSummaryRun (op : Operation) (k : Nat) (ok : Bool) (h : Keeps o s) : Keeps o (finishSummaryRun op k ok s) :=
  keeps_offer (keeps_accountExposure _ _ _ (keeps_finishSummary _ _ _ h))

theorem keeps_finishOperation (op : Operation) (k : Nat) (ok : Bool) (d : Delivery) (h : Keeps o s) :
    Keeps o (finishOperation op k ok d s) := by
  have hc : Keeps o (offer { s with sched := { s.sched with current := none } }) := h.of_view rfl
  unfold finishOperation
  simp only
  split
  · split
    · exact keeps_finishHostWrite _ _ _ _ hc
    · exact keeps_finishRelocWrite _ _ _ hc
    · exact hc
  · exact keeps_finishSummaryRun _ _ _ hc
  · exact keeps_endRead _ hc
  · exact keeps_endGeometry _ hc
  · exact keeps_endSettings _ hc
  · exact keeps_endSave _ hc

theorem keeps_exceptSector (op : Operation) (j : Nat) (h : Keeps o s) : Keeps o (exceptSector op j s) := by
  have hc : Keeps o (offer { s with sched := { s.sched with current := none } }) := h.of_view rfl
  unfold exceptSector
  simp only
  split
  · exact keeps_continueRead _ _ (keeps_deliverRead _ _ _ hc)
  · exact keeps_endRead _ (keeps_deliverRead _ _ _ hc)

theorem keeps_retryOperation (op : Operation) (k : Nat) (h : Keeps o s) : Keeps o (retryOperation op k s) := by
  unfold retryOperation
  split
  · exact keeps_sendIssue _ h
  · unfold spentOperation
    split
    · exact keeps_exceptSector _ _ h
    · exact keeps_finishOperation _ _ _ _ h

theorem keeps_addProgress (op : Operation) (k : Nat) (h : Keeps o s) : Keeps o (addProgress op k s) := by
  unfold addProgress
  split
  · exact keeps_writeProgress _ _ _ h
  · exact h

theorem keeps_takeOutcome (op : Operation) (r : MediaOutcome × Nat) (d : Delivery) (h : Keeps o s) : Keeps o (takeOutcome op r d s) := by
  have ha : Keeps o (addProgress op r.2 { s with sched := { s.sched with
      current := some { op with completed := op.issuedFrom + r.2, awaiting := false }, channelTimer := none } }) :=
    keeps_addProgress _ _ (h.of_view rfl)
  unfold takeOutcome
  simp only
  split <;> first
    | refine keeps_finishOperation _ _ _ _ ?_
    | refine Keeps.of_view (s := if op.kind = .readRun then _ else _) ?_ rfl
    | refine keeps_retryOperation _ _ ?_
  all_goals
    split
    · exact keeps_deliverRead _ _ _ ha
    · exact ha

theorem keeps_takeCompletion (c : Completion) (h : Keeps o s) : Keeps o (takeCompletion c s) := by
  unfold takeCompletion
  split
  · exact h
  · split
    · exact keeps_takeOutcome _ _ _ h
    · exact h

theorem keeps_timerExpires (h : Keeps o s) : Keeps o (timerExpires s) := by
  unfold timerExpires
  split
  · exact keeps_takeOutcome _ _ _ (keeps_advanceTo _ h)
  · exact h

theorem keeps_notReadyExpires (h : Keeps o s) : Keeps o (notReadyExpires s) := by
  unfold notReadyExpires
  split
  · exact h
  · split
    · exact h
    · exact keeps_sendIssue _ (keeps_advanceTo _ h)

/-! ### The end of a step -/

theorem keeps_settleChoice (h : Keeps o s) : Keeps o (settleChoice s) := keeps_chooseWork (h.of_view rfl)

theorem keeps_settleOffer (h : Keeps o s) : Keeps o (settleOffer s) := by
  have ht : Keeps o (testBeforeRead { s with agenda := { s.agenda with offered := false } }) := keeps_testBeforeRead (h.of_view rfl)
  unfold settleOffer
  simp only
  split
  · exact keeps_offer ht
  · exact keeps_arbitrate ht

theorem keeps_settleRounds : ∀ (n : Nat) {s : State}, Keeps o s → Keeps o (settleRounds n s)
  | 0, _, h => h
  | n + 1, s, h => by
    simp only [settleRounds]
    split
    · exact keeps_settleRounds n (keeps_handAll h)
    · split
      · exact keeps_settleRounds n (keeps_settleChoice h)
      · split
        · exact keeps_settleRounds n (keeps_settleOffer (keeps_haltedTest h))
        · exact keeps_haltedTest h

theorem keeps_settle (h : Keeps o s) : Keeps o (settle s) := keeps_settleRounds _ h

/-! ### Meanings -/

theorem keeps_linkDown (p : Port) (h : Keeps o s) : Keeps o (linkDown p s) := by
  unfold linkDown
  split
  · simp only
    have hl := h.setLink p (downLink (s.link p)) (List.prefix_refl _) (Nat.zero_le _)
    refine keeps_retakeVerify ?_
    split
    · exact keeps_roomReturned (hl.of_view rfl)
    · exact hl.of_view rfl
  · exact h

theorem keeps_linkUp (p : Port) (h : Keeps o s) : Keeps o (linkUp p s) :=
  h.setLink p _ (List.prefix_refl _) (Nat.le_refl _)

theorem keeps_arrive (p : Port) (f : RequestFrame) (h : Keeps o s) : Keeps o (arrive p f s) := by
  unfold arrive
  simp only
  split
  · split
    · exact h.setLink p _ (List.prefix_append _ _) (Nat.le_refl _)
    · split
      · exact h.setLink p _ (List.prefix_append _ _) (Nat.le_refl _)
      · exact h.setLink p _ (List.prefix_refl _) (Nat.le_refl _)
  · exact h

theorem keeps_takeUnknown (p : Port) (h : Keeps o s) : Keeps o (takeUnknown p s) := by
  unfold takeUnknown
  split
  · exact h
  · split
    · exact keeps_refuseHead _ _ _ h
    · exact h

theorem keeps_finishStream (t : Fin 8) (h : Keeps o s) : Keeps o (finishStream t s) := by
  unfold finishStream
  split
  · exact h
  · exact keeps_finishBand _ h

theorem keeps_streamSetNow (p : Port) (f : RequestFrame) (h : Keeps o s) : Keeps o (streamSetNow p f s) :=
  keeps_finishStream _ (keeps_answerHead _ _ _ _ _ (keeps_updHost _ _ h))

theorem keeps_streamSetBoundary (p : Port) (f : RequestFrame) (h : Keeps o s) : Keeps o (streamSetBoundary p f s) :=
  keeps_answerHead _ _ _ _ _ (keeps_updHost _ _ h)

theorem keeps_bandQueryTake (p : Port) (f : RequestFrame) (h : Keeps o s) : Keeps o (bandQueryTake p f s) := by
  unfold bandQueryTake
  split
  · exact h
  · exact keeps_answerHead _ _ _ _ _ h

theorem keeps_verifyTake (p : Port) (f : RequestFrame) (h : Keeps o s) : Keeps o (verifyTake p f s) := by
  unfold verifyTake
  split
  · exact keeps_choiceDue (keeps_popRequest _ (keeps_updEngine _ h))
  · exact keeps_holdRequest _ (keeps_updEngine _ h)

theorem keeps_noticeTake (p : Port) (f : RequestFrame) (h : Keeps o s) : Keeps o (noticeTake p f s) :=
  keeps_answerHead _ _ _ _ _ (h.setLink p _ (List.prefix_refl _) (Nat.zero_le _))

theorem keeps_staleExpires (h : Keeps o s) : Keeps o (staleExpires s) := by
  unfold staleExpires
  split
  · exact h
  · exact keeps_placeNotice _ _ (keeps_advanceTo _ (h.of_view rfl))

theorem keeps_idleExpires (h : Keeps o s) : Keeps o (idleExpires s) := by
  unfold idleExpires
  split
  · exact h
  · exact keeps_choiceDue (keeps_advanceTo _ (keeps_updEngine _ h))

theorem keeps_geometryRetryExpires (h : Keeps o s) : Keeps o (geometryRetryExpires s) := by
  unfold geometryRetryExpires
  split
  · exact keeps_setStage _ (keeps_advanceTo _ h)
  · exact h

theorem keeps_ageReached (t : Fin 8) (h : Keeps o s) : Keeps o (ageReached t s) := by
  unfold ageReached
  split
  · exact h
  · exact keeps_offer (keeps_advanceTo _ h)

end

/-- The commands whose effect on the custody unit, the time or the record of what was sent is more than `Keeps` lets pass. -/
def beyondKeeps : Instr → Bool
  | .powerOn => true
  | .fence _ => true
  | .admitPort _ => true
  | _ => false

/-- Every command but POWER_ON, FENCE and ADMIT answers a next state that is kept to. -/
theorem exec_keeps (c : Instr) (s : State) (hc : beyondKeeps c = false) : ∃ t, exec c s = .next t ∧ Keeps s t := by
  have h := Keeps.refl s
  have take : ∀ (p : Port) (k : Kind) (want : RequestFrame → Bool) (act : RequestFrame → State → State),
      (∀ f {u : State}, Keeps s u → Keeps s (act f u)) → Keeps s (takeHead p k want act s) :=
    fun p k want act ha => keeps_takeHead p k want act ha h
  cases c <;> first | (cases hc; done) | refine ⟨_, rfl, ?_⟩
  case linkUp p => exact keeps_linkUp p h
  case linkDown p => exact keeps_settle (keeps_linkDown p h)
  case requestArrival p f => exact keeps_arrive p f h
  case takeUnknownKind p => exact keeps_takeUnknown p h
  case place p => exact keeps_settle (take _ _ _ _ fun f _ hu => keeps_placeTake p f hu)
  case fetch p => exact keeps_settle (take _ _ _ _ fun f _ hu => keeps_fetchTake p f hu)
  case release p => exact keeps_settle (take _ _ _ _ fun f _ hu => keeps_releaseTake p f hu)
  case locate p => exact take _ _ _ _ fun f _ hu => keeps_locateTake p f hu
  case drain p => exact keeps_settle (take _ _ _ _ fun f _ hu => keeps_drainTake p f hu)
  case streamSetBoundary p => exact take _ _ _ _ fun f _ hu => keeps_streamSetBoundary p f hu
  case streamSetNow p => exact keeps_settle (take _ _ _ _ fun f _ hu => keeps_streamSetNow p f hu)
  case halt p => exact keeps_settle (take _ _ _ _ fun f _ hu => keeps_haltTake p f hu)
  case run p => exact keeps_settle (take _ _ _ _ fun f _ hu => keeps_runTake p f hu)
  case restart p => exact keeps_settle (take _ _ _ _ fun f _ hu => keeps_restartTake p f hu)
  case set p => exact keeps_settle (take _ _ _ _ fun f _ hu => keeps_setTake p f hu)
  case get p => exact take _ _ _ _ fun f _ hu => keeps_answerHead _ _ _ _ _ hu
  case saveSettings p => exact keeps_settle (take _ _ _ _ fun f _ hu => keeps_saveTake p f hu)
  case loadDefaults p => exact keeps_settle (take _ _ _ _ fun f _ hu => keeps_loadDefaultsTake p f hu)
  case status p => exact take _ _ _ _ fun f _ hu => keeps_answerHead _ _ _ _ _ hu
  case bandQuery p => exact take _ _ _ _ fun f _ hu => keeps_bandQueryTake p f hu
  case verifyBand p => exact keeps_settle (take _ _ _ _ fun f _ hu => keeps_verifyTake p f hu)
  case noticeFetch p => exact take _ _ _ _ fun f _ hu => keeps_noticeTake p f hu
  case channelCompletion c => exact keeps_settle (keeps_takeCompletion c h)
  case temperatureReport c => exact h.of_view rfl
  case channelTimerExpiry => exact keeps_settle (keeps_timerExpires h)
  case notReadyWaitExpiry => exact keeps_notReadyExpires h
  case stalenessTimerExpiry => exact keeps_staleExpires h
  case slotWaitTimerExpiry p => exact keeps_slotWaitExpires p h
  case idleTimerExpiry => exact keeps_settle (keeps_idleExpires h)
  case geometryRetryExpiry => exact keeps_settle (keeps_geometryRetryExpires h)
  case heldRequestHanded => exact keeps_settle (keeps_handWaiting h)
  case fetchRetake => exact keeps_settle (keeps_roomReturned h)
  case verifyBandRetake => exact keeps_settle (keeps_retakeVerify h)
  case drainAnswered => exact keeps_answerDrains h
  case haltedEntered => exact keeps_haltedTest h
  case fetchResponse => exact keeps_settle (keeps_answerEnded h)
  case heldResetLastPin b =>
    refine keeps_settle ?_
    split
    · exact h
    · exact keeps_heldReset b h
  case chooseNextWork => exact keeps_settle (keeps_chooseWork h)
  case parcelAgeLimitReached t => exact keeps_settle (keeps_ageReached t h)

end Sys2Proof.Machine
end

