-- ==== Sys2Proof/Laws/PerInstr.lean ====
section
/-! SUPPORT. The shape of each command, stated constructor by constructor: what it takes for the message it carries to be well formed. -/

namespace Sys2Proof.Laws.Shape

set_option Elab.async false

/-- A command is well formed exactly when the message it carries has the shape the spec gives it (R150, R152, R103, R1). -/
def Statement (i : Instr) : Prop :=
  i.wf = true ↔
    match i with
    | .requestArrival _ f => f.dataCount.toNat ≤ 1024 → f.data.length = f.dataCount.toNat
    | .channelCompletion c =>
      c.k ≤ 1024 ∧ (∀ l, c.delivery = .sectors l → l.length = c.k) ∧
        ∀ g, c.delivery = .geometry g →
          ∀ z ∈ g.zones, z.firstBand ≤ 131071 ∧ 1 ≤ z.bandCount ∧ z.bandCount ≤ 131072 ∧ z.firstTrack < 2 ^ 32
    | .heldResetLastPin b => b < 131072
    | _ => True

/-- A frame's data blocks are as many as its data count says, unless it is oversize. -/
theorem requestArrival (p : Port) (f : RequestFrame) : Statement (.requestArrival p f) := by
  simp only [Statement, Instr.wf, RequestFrame.wf, Bool.or_eq_true, decide_eq_true_eq, beq_iff_eq]
  omega

/-- A completion's count is at most 1,024, its sectors are as many as its count, and its zones lie in the ranges of R1. -/
theorem channelCompletion (c : Completion) : Statement (.channelCompletion c) := by
  obtain ⟨i, o, k, d⟩ := c
  cases d <;> simp [Statement, Instr.wf, Completion.wf, ZoneRecord.wf, and_assoc]

/-- A band number is at most 131,071. -/
theorem heldResetLastPin (b : Nat) : Statement (.heldResetLastPin b) := by
  simp [Statement, Instr.wf]

theorem powerOn : Statement .powerOn := by simp [Statement, Instr.wf]

theorem channelTimerExpiry : Statement .channelTimerExpiry := by simp [Statement, Instr.wf]

theorem notReadyWaitExpiry : Statement .notReadyWaitExpiry := by simp [Statement, Instr.wf]

theorem stalenessTimerExpiry : Statement .stalenessTimerExpiry := by simp [Statement, Instr.wf]

theorem idleTimerExpiry : Statement .idleTimerExpiry := by simp [Statement, Instr.wf]

theorem geometryRetryExpiry : Statement .geometryRetryExpiry := by simp [Statement, Instr.wf]

theorem heldRequestHanded : Statement .heldRequestHanded := by simp [Statement, Instr.wf]

theorem fetchRetake : Statement .fetchRetake := by simp [Statement, Instr.wf]

theorem verifyBandRetake : Statement .verifyBandRetake := by simp [Statement, Instr.wf]

theorem drainAnswered : Statement .drainAnswered := by simp [Statement, Instr.wf]

theorem haltedEntered : Statement .haltedEntered := by simp [Statement, Instr.wf]

theorem fetchResponse : Statement .fetchResponse := by simp [Statement, Instr.wf]

theorem chooseNextWork : Statement .chooseNextWork := by simp [Statement, Instr.wf]

theorem linkUp (p : Port) : Statement (.linkUp p) := by simp [Statement, Instr.wf]

theorem linkDown (p : Port) : Statement (.linkDown p) := by simp [Statement, Instr.wf]

theorem takeUnknownKind (p : Port) : Statement (.takeUnknownKind p) := by simp [Statement, Instr.wf]

theorem place (p : Port) : Statement (.place p) := by simp [Statement, Instr.wf]

theorem fetch (p : Port) : Statement (.fetch p) := by simp [Statement, Instr.wf]

theorem release (p : Port) : Statement (.release p) := by simp [Statement, Instr.wf]

theorem locate (p : Port) : Statement (.locate p) := by simp [Statement, Instr.wf]

theorem drain (p : Port) : Statement (.drain p) := by simp [Statement, Instr.wf]

theorem streamSetBoundary (p : Port) : Statement (.streamSetBoundary p) := by simp [Statement, Instr.wf]

theorem streamSetNow (p : Port) : Statement (.streamSetNow p) := by simp [Statement, Instr.wf]

theorem fence (p : Port) : Statement (.fence p) := by simp [Statement, Instr.wf]

theorem admitPort (p : Port) : Statement (.admitPort p) := by simp [Statement, Instr.wf]

theorem halt (p : Port) : Statement (.halt p) := by simp [Statement, Instr.wf]

theorem run (p : Port) : Statement (.run p) := by simp [Statement, Instr.wf]

theorem restart (p : Port) : Statement (.restart p) := by simp [Statement, Instr.wf]

theorem set (p : Port) : Statement (.set p) := by simp [Statement, Instr.wf]

theorem get (p : Port) : Statement (.get p) := by simp [Statement, Instr.wf]

theorem saveSettings (p : Port) : Statement (.saveSettings p) := by simp [Statement, Instr.wf]

theorem loadDefaults (p : Port) : Statement (.loadDefaults p) := by simp [Statement, Instr.wf]

theorem status (p : Port) : Statement (.status p) := by simp [Statement, Instr.wf]

theorem bandQuery (p : Port) : Statement (.bandQuery p) := by simp [Statement, Instr.wf]

theorem verifyBand (p : Port) : Statement (.verifyBand p) := by simp [Statement, Instr.wf]

theorem noticeFetch (p : Port) : Statement (.noticeFetch p) := by simp [Statement, Instr.wf]

theorem slotWaitTimerExpiry (p : Port) : Statement (.slotWaitTimerExpiry p) := by simp [Statement, Instr.wf]

theorem temperatureReport (c : Fin 4) : Statement (.temperatureReport c) := by simp [Statement, Instr.wf]

theorem parcelAgeLimitReached (t : Fin 8) : Statement (.parcelAgeLimitReached t) := by simp [Statement, Instr.wf]

end Sys2Proof.Laws.Shape
end

