-- ==== Sys2Proof/Laws/Replies.lean ====
section
/-! SUPPORT. What a fold of responses does to the links, and a fold of read pins to the bands (R30, R84, R168). -/

namespace Sys2Proof.Machine

/-- Late responses to a list of requesters change the links alone, and on each port they are sent in the list's order, where the link is UP and
the request not orphaned (R163). -/
theorem respond_foldl (st : Status) (b : Body) : ∀ (l : List Requester) (s : State),
    l.foldl (fun s r => respond r st b [] s) s =
      { s with links := (l.foldl (fun s r => respond r st b [] s) s).links } ∧
    ∀ p, (l.foldl (fun s r => respond r st b [] s) s).link p =
      (l.filter fun r => r.port = p ∧ r.orphaned = false).foldl
        (fun l r => if l.up then Safety.answeredLate l (Safety.lateReply s r st b []) else l) (s.link p) := by
  intro l
  induction l with
  | nil => intro s; exact ⟨rfl, fun _ => rfl⟩
  | cons r l ih =>
    intro s
    obtain ⟨h1, h2⟩ := ih (respond r st b [] s)
    have hc : (respond r st b [] s).custody = s.custody := by rw [respond_eq]
    have h0 : respond r st b [] s = { s with links := (respond r st b [] s).links } := by rw [respond_eq]
    refine ⟨?_, fun p => ?_⟩
    · rw [List.foldl_cons]
      refine h1.trans ?_
      generalize State.links (List.foldl _ _ _) = L
      rw [h0]
    · rw [List.foldl_cons, h2]
      have hl : ∀ r', Safety.lateReply (respond r st b [] s) r' st b [] = Safety.lateReply s r' st b [] := by
        intro r'; simp [Safety.lateReply, hc]
      simp only [hl]
      rw [List.filter_cons]
      by_cases hp : r.port = p
      · cases ho : r.orphaned with
        | true => simp [hp, ho, respond]
        | false =>
          simp [hp]
          congr 1
          cases hu : (s.link p).up with
          | false => simp [respond, ho, hp, hu]
          | true => simp [respond, ho, hp, hu, Safety.answeredLate, Safety.lateReply]
      · simp [hp]
        congr 1
        simp only [respond]
        split
        · rfl
        · rw [link_setLink]; simp [Ne.symm hp]

/-- Pins added for a list of read runs change the band records alone, and each band gains one pin for each run against it (R30). -/
theorem addPin_foldl (runs : List ReadRun) : ∀ s : State,
    runs.foldl (fun s r => addPin r.band s) s =
      { s with table := { s.table with bands := (runs.foldl (fun s r => addPin r.band s) s).table.bands } } ∧
    ∀ b, band? (runs.foldl (fun s r => addPin r.band s) s) b =
      (band? s b).map fun x => { x with pins := x.pins + runs.countP fun r => r.band = b } := by
  induction runs with
  | nil => intro s; exact ⟨rfl, fun b => by simp⟩
  | cons r rs ih =>
    intro s
    obtain ⟨h1, h2⟩ := ih (addPin r.band s)
    refine ⟨h1, fun b => ?_⟩
    rw [List.foldl_cons, h2, addPin, band?_updBand]
    cases hb : band? s b with
    | none => split <;> simp
    | some x =>
      by_cases h : r.band = b
      · simp [h]; omega
      · simp [h, Ne.symm h]

end Sys2Proof.Machine
end

