-- ==== Sys2Proof/Laws/Settle.lean ====
section
/-! SUPPORT. What the end of a step does where no follow-on work is due. -/

namespace Sys2Proof.Machine

/-- Where no entry to HALTED is due, the test for it changes nothing. -/
theorem haltedTest_of_not (s : State) (h : ¬(s.startup.engine = .halting ∧ quiescent s = true)) : haltedTest s = s := by
  simp only [haltedTest, if_neg h]

/-- A settled state stays as it is, whatever the rounds. -/
theorem settleRounds_of_settled (n : Nat) (s : State) (h : Safety.Settled s) : settleRounds n s = s := by
  obtain ⟨ha, hq⟩ := h
  cases n with
  | zero => rfl
  | succ n => simp [settleRounds, ha, haltedTest_of_not s hq]

/-- A settled state is its own end of a step. -/
theorem settle_of_settled (s : State) (h : Safety.Settled s) : settle s = s :=
  settleRounds_of_settled _ s h

/-- Every step has at least two rounds. -/
theorem settleFuel_eq (s : State) : ∃ n, settleFuel s = n + 2 :=
  ⟨4 * bandCount s + 62, rfl⟩

/-- Where only an arbitration is due, it is made, and the rounds go on. -/
theorem settleRounds_offered (n : Nat) (s : State) (hf : s.agenda.freed = []) (hc : s.agenda.choice = false)
    (ho : s.agenda.offered = true) (hq : ¬(s.startup.engine = .halting ∧ quiescent s = true)) :
    settleRounds (n + 1) s = settleRounds n (settleOffer s) := by
  simp [settleRounds, hf, hc, ho, haltedTest_of_not s hq]

/-- Where the relocation engine's choice is due and no resource is to be handed out, it is made, and the rounds go on. -/
theorem settleRounds_choice (n : Nat) (s : State) (hf : s.agenda.freed = []) (hc : s.agenda.choice = true) :
    settleRounds (n + 1) s = settleRounds n (settleChoice s) := by
  simp [settleRounds, hf, hc]

/-- With the channel busy an arbitration issues nothing. -/
theorem arbitrate_of_busy (s : State) (h : s.sched.current.isSome = true) : arbitrate s = s := by
  cases hc : s.sched.current <;> simp_all [arbitrate, channelFree]

/-- With no scan in hand the tests before a scan's next read change nothing. -/
theorem testBeforeRead_of_none (s : State) (h : s.engine.scan = none) : testBeforeRead s = s := by
  simp [testBeforeRead, h]

end Sys2Proof.Machine
end

