-- ==== Sys2Proof/Laws/Staging.lean ====
section
/-! SUPPORT. What a change of the map at a take can change: the map, the parcels and DRAIN records, the bands and streams' queues it removes from, the
links that a DRAIN or a notice reaches, and the agenda (R53, R77, R79). -/

namespace Sys2Proof.Machine

/-- t differs from s at most where a change of the map at a take, or its effects, may reach. -/
structure TakeFrame (s t : State) : Prop where
  eq : t =
    { s with
      links := t.links
      staging := { s.staging with parcels := t.staging.parcels, drains := t.staging.drains }
      map := t.map
      table := t.table
      alloc := { s.alloc with hosts := t.alloc.hosts }
      engine := { s.engine with recoveryWait := t.engine.recoveryWait }
      agenda := t.agenda }
  zones : t.table.zones = s.table.zones
  hosts : ∀ i : Fin 8, { t.alloc.hosts[i] with queue := s.alloc.hosts[i].queue } = s.alloc.hosts[i]
  up : ∀ p, (t.link p).up = (s.link p).up
  queue : ∀ p, (t.link p).queue = (s.link p).queue
  holding : ∀ p, (t.link p).holding = (s.link p).holding

namespace TakeFrame
variable {s t u : State}

theorem refl (s : State) : TakeFrame s s := ⟨rfl, rfl, fun _ => rfl, fun _ => rfl, fun _ => rfl, fun _ => rfl⟩

theorem trans (h : TakeFrame s t) (k : TakeFrame t u) : TakeFrame s u := by
  refine ⟨?_, k.zones.trans h.zones, fun i => ?_, fun p => (k.up p).trans (h.up p), fun p => (k.queue p).trans (h.queue p),
    fun p => (k.holding p).trans (h.holding p)⟩
  · rw [k.eq, h.eq]
  · have h1 := h.hosts i
    have h2 := k.hosts i
    rw [← h2] at h1
    exact h1

theorem pending (h : TakeFrame s t) : t.pending = s.pending := by rw [h.eq]
theorem now (h : TakeFrame s t) : t.now = s.now := by rw [h.eq]
theorem custody (h : TakeFrame s t) : t.custody = s.custody := by rw [h.eq]
theorem sched (h : TakeFrame s t) : t.sched = s.sched := by rw [h.eq]
theorem startup (h : TakeFrame s t) : t.startup = s.startup := by rw [h.eq]
theorem reloc (h : TakeFrame s t) : t.alloc.reloc = s.alloc.reloc := by rw [h.eq]
theorem engine (h : TakeFrame s t) : t.engine = { s.engine with recoveryWait := t.engine.recoveryWait } := by rw [h.eq]
theorem staging (h : TakeFrame s t) :
    t.staging = { s.staging with parcels := t.staging.parcels, drains := t.staging.drains } := by rw [h.eq]

end TakeFrame

variable (s : State)

/-- What touches only the band table touches nothing that a take's map change may not. -/
theorem OnlyBands.takeFrame {s t : State} (h : OnlyBands s t) : TakeFrame s t := by
  refine ⟨?_, h.zones, fun i => by rw [h.alloc], fun p => by rw [h.links p], fun p => by rw [h.links p], fun p => by rw [h.links p]⟩
  have e := h.eq
  rw [e]

theorem takeFrame_respond (r : Requester) (st : Status) (b : Body) (d : List Block) : TakeFrame s (respond r st b d s) := by
  simp only [respond]
  split
  · exact .refl s
  · refine ⟨rfl, rfl, fun _ => rfl, fun p => ?_, fun p => ?_, fun p => ?_⟩ <;>
      (simp only [link_setLink]; split <;> simp_all)

theorem takeFrame_foldl {α : Type} (f : State → α → State) (hf : ∀ u x, TakeFrame u (f u x)) :
    ∀ (l : List α) (s : State), TakeFrame s (l.foldl f s)
  | [], s => .refl s
  | x :: xs, s => (hf s x).trans (takeFrame_foldl f hf xs (f s x))

theorem takeFrame_answerDrains : TakeFrame s (answerDrains s) :=
  TakeFrame.trans (t := { s with staging := { s.staging with drains := s.staging.drains.filter fun d => d.count ≠ 0 } })
    ⟨rfl, rfl, fun _ => rfl, fun _ => rfl, fun _ => rfl, fun _ => rfl⟩
    (takeFrame_foldl _ (fun u _ => takeFrame_respond u _ _ _ _) _ _)

theorem takeFrame_lowerDrains (x : Parcel) : TakeFrame s (lowerDrains x s) := by
  unfold lowerDrains
  refine TakeFrame.trans ?_ (takeFrame_answerDrains _)
  exact ⟨rfl, rfl, fun _ => rfl, fun _ => rfl, fun _ => rfl, fun _ => rfl⟩

theorem takeFrame_updHost (t : Fin 8) (f : List Nat → List Nat) :
    TakeFrame s (updHost t (fun y => { y with queue := f y.queue }) s) := by
  refine ⟨rfl, rfl, fun i => ?_, fun _ => rfl, fun _ => rfl, fun _ => rfl⟩
  simp only [updHost_alloc]
  by_cases hi : t = i
  · subst hi; simp
  · have : t.val ≠ i.val := fun h => hi (Fin.ext h)
    simp [Vector.getElem_set_ne, this]

theorem takeFrame_takeOut (x : Parcel) : TakeFrame s (takeOut x s) :=
  TakeFrame.trans (takeFrame_updHost s x.stream fun q => q.erase x.id)
    ⟨rfl, rfl, fun _ => rfl, fun _ => rfl, fun _ => rfl, fun _ => rfl⟩

theorem takeFrame_dropParcel (id : Nat) : TakeFrame s (dropParcel id s) := by
  unfold dropParcel
  split
  · exact .refl s
  · exact (takeFrame_takeOut s _).trans (takeFrame_lowerDrains _ _)

theorem takeFrame_updParcel (id : Nat) (f : Parcel → Parcel) : TakeFrame s (updParcel id f s) :=
  ⟨rfl, rfl, fun _ => rfl, fun _ => rfl, fun _ => rfl, fun _ => rfl⟩

theorem takeFrame_lowerParcelLive (q m : Nat) : TakeFrame s (lowerParcelLive q m s) := by
  simp only [lowerParcelLive]
  split
  · exact (takeFrame_updParcel s _ _).trans (takeFrame_dropParcel _ _)
  · exact takeFrame_updParcel s _ _

theorem takeFrame_removalEffect (r : Extent) : TakeFrame s (removalEffect s r) := by
  unfold removalEffect
  split
  · exact (onlyBands_lowerLive s _ _).takeFrame
  · exact takeFrame_lowerParcelLive s _ _
  · exact .refl s

/-- A change of the map clears the recovery wait and makes work due, and does nothing else (R51, R144). -/
theorem mapChanged_eq :
    mapChanged s =
      { s with engine := { s.engine with recoveryWait := (mapChanged s).engine.recoveryWait }, agenda := (mapChanged s).agenda } := by
  simp only [mapChanged]
  split <;> split <;> rfl

theorem takeFrame_mapChanged : TakeFrame s (mapChanged s) := by
  rw [mapChanged_eq]
  exact ⟨rfl, rfl, fun _ => rfl, fun _ => rfl, fun _ => rfl, fun _ => rfl⟩

theorem takeFrame_setRecords (m : List Extent) : TakeFrame s (setRecords m s) :=
  TakeFrame.trans (t := { s with map := { s.map with records := m } })
    ⟨rfl, rfl, fun _ => rfl, fun _ => rfl, fun _ => rfl, fun _ => rfl⟩ (takeFrame_mapChanged _)

/-- What a change of the map at a take can change (R53, R54). -/
theorem takeFrame_takeChange (a e : Nat) (new : List Extent) : TakeFrame s (takeChange a e new s) :=
  (takeFrame_setRecords s _).trans (takeFrame_foldl _ (fun u r => takeFrame_removalEffect u r) _ _)

/-! ### The map after the change -/

theorem foldl_keeps {α β : Type} (g : State → β) (f : State → α → State) (hf : ∀ u x, g (f u x) = g u) :
    ∀ (l : List α) (s : State), g (l.foldl f s) = g s
  | [], _ => rfl
  | x :: xs, s => (foldl_keeps g f hf xs (f s x)).trans (hf s x)

theorem map_respond (r : Requester) (st : Status) (b : Body) (d : List Block) : (respond r st b d s).map = s.map := by
  simp only [respond]
  split <;> rfl

theorem map_answerDrains : (answerDrains s).map = s.map :=
  foldl_keeps State.map _ (fun u _ => map_respond u _ _ _ _) _ _

theorem map_dropParcel (id : Nat) : (dropParcel id s).map = s.map := by
  unfold dropParcel
  split
  · rfl
  · exact map_answerDrains _

theorem map_lowerParcelLive (q m : Nat) : (lowerParcelLive q m s).map = s.map := by
  simp only [lowerParcelLive]
  split
  · exact map_dropParcel _ _
  · rfl

theorem map_removalEffect (r : Extent) : (removalEffect s r).map = s.map := by
  unfold removalEffect
  split
  · exact (onlyBands_lowerLive s _ _).map
  · exact map_lowerParcelLive s _ _
  · rfl

theorem map_mapChanged : (mapChanged s).map = s.map := by rw [mapChanged_eq]

/-- The map after a change at a take. -/
theorem map_takeChange (a e : Nat) (new : List Extent) :
    (takeChange a e new s).map = { s.map with records := changeRange a e new s.map.records } := by
  rw [takeChange, foldl_keeps State.map _ (fun u r => map_removalEffect u r), setRecords, map_mapChanged]

/-- The records after a change of the map at a take. -/
theorem records_takeChange (a e : Nat) (new : List Extent) :
    (takeChange a e new s).map.records = changeRange a e new s.map.records := by rw [map_takeChange]

/-! ### Parcels and bands that the change does not meet -/

theorem parcel?_updParcel (id n : Nat) (f : Parcel → Parcel) (hf : ∀ x, (f x).id = x.id) :
    parcel? (updParcel id f s) n = if n = id then (parcel? s n).map f else parcel? s n := by
  have key : ∀ l : List Parcel, (l.map fun p => if p.id = id then f p else p).find? (fun p => p.id = n) =
      if n = id then (l.find? fun p => p.id = n).map f else l.find? fun p => p.id = n := by
    intro l
    induction l with
    | nil => simp
    | cons x l ih =>
      have hid : (if x.id = id then f x else x).id = x.id := by split <;> simp [hf]
      simp only [List.map_cons, List.find?_cons, hid, ih]
      by_cases hx : x.id = n
      · subst hx
        by_cases hi : x.id = id <;> simp [hi]
      · simp [hx]
  exact key s.staging.parcels

theorem parcels_answerDrains : (answerDrains s).staging.parcels = s.staging.parcels := by
  refine foldl_keeps (fun u => u.staging.parcels) _ (fun u d => ?_) _ _
  simp only [respond]
  split <;> rfl

theorem parcel?_takeOut (x : Parcel) (n : Nat) (h : n ≠ x.id) : parcel? (takeOut x s) n = parcel? s n := by
  show (s.staging.parcels.filter fun y => y.id ≠ x.id).find? (fun p => p.id = n) = _
  rw [List.find?_filter]
  congr 1
  funext y
  by_cases hy : y.id = n <;> simp_all

theorem parcel?_dropParcel (id n : Nat) (h : n ≠ id) : parcel? (dropParcel id s) n = parcel? s n := by
  unfold dropParcel
  split
  · rfl
  · next x hx =>
    have hid : x.id = id := by simpa [parcel?] using List.find?_some hx
    show List.find? _ (answerDrains _).staging.parcels = _
    rw [parcels_answerDrains]
    exact parcel?_takeOut s x n (hid ▸ h)

theorem parcel?_lowerParcelLive (q m n : Nat) (h : n ≠ q) : parcel? (lowerParcelLive q m s) n = parcel? s n := by
  have hu : parcel? (updParcel q (fun x => { x with live := x.live - m }) s) n = parcel? s n := by
    exact (parcel?_updParcel s q n (fun x => { x with live := x.live - m }) (fun _ => rfl)).trans (if_neg h)
  simp only [lowerParcelLive]
  split
  · rw [parcel?_dropParcel _ _ _ h, hu]
  · exact hu

theorem parcel?_removalEffect (r : Extent) (n : Nat) (h : ∀ i, r.loc ≠ .staged n i) :
    parcel? (removalEffect s r) n = parcel? s n := by
  unfold removalEffect
  split
  · unfold parcel?; rw [(onlyBands_lowerLive s _ _).staging]
  · next q i hl => exact parcel?_lowerParcelLive s _ _ _ fun hn => h i (hn ▸ hl)
  · rfl

theorem band?_respond (r : Requester) (st : Status) (b : Body) (d : List Block) (n : Nat) :
    band? (respond r st b d s) n = band? s n := by
  simp only [respond]
  split <;> rfl

theorem band?_lowerParcelLive (q m n : Nat) : band? (lowerParcelLive q m s) n = band? s n := by
  simp only [lowerParcelLive]
  split
  · unfold dropParcel
    split
    · rfl
    · exact foldl_keeps (fun u => band? u n) _ (fun u d => band?_respond u _ _ _ _ n) _ _
  · rfl

theorem band?_removalEffect (r : Extent) (n : Nat) (h : ∀ o, r.loc ≠ .media n o) : band? (removalEffect s r) n = band? s n := by
  unfold removalEffect
  split
  · next b o hl => exact band?_lowerLive_other s _ _ _ fun hn => h o (hn ▸ hl)
  · exact band?_lowerParcelLive s _ _ n
  · rfl

/-- A parcel of which no block is replaced stays as it is. -/
theorem parcel?_takeChange (a e : Nat) (new : List Extent) (n : Nat)
    (h : ∀ r ∈ recordsInside a e s.map.records, ∀ i, r.loc ≠ .staged n i) : parcel? (takeChange a e new s) n = parcel? s n := by
  have fold : ∀ (l : List Extent) (u : State), (∀ r ∈ l, ∀ i, r.loc ≠ .staged n i) → parcel? (l.foldl removalEffect u) n = parcel? u n := by
    intro l
    induction l with
    | nil => intro u _; rfl
    | cons r l ih =>
      intro u hl
      rw [List.foldl_cons, ih _ (fun x hx => hl x (List.mem_cons_of_mem _ hx)), parcel?_removalEffect u r n (hl r (by simp))]
  rw [takeChange, fold _ _ h]
  unfold parcel?
  rw [setRecords, mapChanged_eq]

/-- A band of which no block is replaced stays as it is. -/
theorem band?_takeChange (a e : Nat) (new : List Extent) (n : Nat)
    (h : ∀ r ∈ recordsInside a e s.map.records, ∀ o, r.loc ≠ .media n o) : band? (takeChange a e new s) n = band? s n := by
  have fold : ∀ (l : List Extent) (u : State), (∀ r ∈ l, ∀ o, r.loc ≠ .media n o) → band? (l.foldl removalEffect u) n = band? u n := by
    intro l
    induction l with
    | nil => intro u _; rfl
    | cons r l ih =>
      intro u hl
      rw [List.foldl_cons, ih _ (fun x hx => hl x (List.mem_cons_of_mem _ hx)), band?_removalEffect u r n (hl r (by simp))]
  rw [takeChange, fold _ _ h]
  unfold band?
  rw [setRecords, mapChanged_eq]

/-! ### Parcels and bands that lose blocks -/

open Safety (bandLess parcelLess stagedBlocks)

/-- A band's loss, made in two parts, is the loss of both. -/
theorem bandLess_bandLess (r : Band) (m n : Nat) : bandLess (bandLess r m) n = bandLess r (m + n) := by
  obtain ⟨_, _, st, _, _, live, notes, _, _, _, _, ⟨_, _, _, retire⟩, _, _, _, pins, _⟩ := r
  have hz : live - m = 0 → live - (m + n) = 0 := by omega
  have hs : live - m - n = live - (m + n) := by omega
  by_cases h : st = .filled ∧ live - m = 0 ∧ notes = 0 ∧ pins = 0
  · obtain ⟨rfl, h1, rfl, rfl⟩ := h
    cases retire <;> simp [bandLess, h1, hz h1, Band.resetRecord, Band.retireRecord]
  · simp only [bandLess, if_neg h, hs]

theorem band?_emptiedTest_same (b : Nat) : band? (emptiedTest b s) b = (band? s b).map fun r => bandLess r 0 := by
  unfold emptiedTest
  cases hb : band? s b with
  | none => simpa using hb
  | some r =>
    simp only [Option.map_some, bandLess, Nat.sub_zero]
    split
    · unfold resetOrRetire
      rw [hb]
      simp only
      split
      · rw [band?_retireBand, if_pos rfl, hb]; rfl
      · rw [band?_resetBand, if_pos rfl, hb]; rfl
    · exact hb

/-- A fall of a band's live count, with the test it may meet (R27, R31). -/
theorem band?_lowerLive_same (b m : Nat) : band? (lowerLive b m s) b = (band? s b).map fun r => bandLess r m := by
  rw [lowerLive, band?_emptiedTest_same, band?_updBand, if_pos rfl, Option.map_map]
  congr 1

open Classical in
/-- What the removal of records leaves of a band's record. -/
theorem band?_removals (n : Nat) : ∀ (l : List Extent) (s : State),
    band? (l.foldl removalEffect s) n =
      if ∃ r ∈ l, ∃ o, r.loc = .media n o then (band? s n).map fun r => bandLess r (mediaBlocks l n) else band? s n
  | [], s => by simp
  | x :: l, s => by
    rw [List.foldl_cons, band?_removals n l]
    by_cases hx : ∃ o, x.loc = .media n o
    · obtain ⟨o, ho⟩ := hx
      have hb : band? (removalEffect s x) n = (band? s n).map fun r => bandLess r x.len := by
        rw [removalEffect, ho]; exact band?_lowerLive_same s n x.len
      have hm : mediaBlocks (x :: l) n = x.len + mediaBlocks l n := by simp [mediaBlocks, ho]
      rw [if_pos (show ∃ r ∈ x :: l, ∃ o, r.loc = .media n o from ⟨x, by simp, o, ho⟩), hb, hm]
      split
      · rw [Option.map_map]
        congr 1
        funext r
        exact bandLess_bandLess r _ _
      · next hl =>
        have : mediaBlocks l n = 0 := by
          simp only [mediaBlocks, List.sum_eq_zero_iff_forall_eq_nat, List.mem_map]
          rintro _ ⟨r, hr, rfl⟩
          split
          · next b' o' h =>
            split
            · next hb' => exact absurd ⟨r, hr, o', hb' ▸ h⟩ hl
            · rfl
          · rfl
        rw [this]; rfl
    · have hb : band? (removalEffect s x) n = band? s n := band?_removalEffect s x n fun o h => hx ⟨o, h⟩
      have hm : mediaBlocks (x :: l) n = mediaBlocks l n := by
        simp only [mediaBlocks, List.map_cons, List.sum_cons]
        split
        · next b' o' h =>
          rw [if_neg (show ¬b' = n from fun hb' => hx ⟨o', hb' ▸ h⟩)]; simp
        · simp
      rw [hb, hm]
      refine if_congr ?_ rfl rfl
      simp [hx]

/-- What a change of the map at a take leaves of the record of a band that loses blocks (R27, R53, R54). -/
theorem band?_takeChange_less (a e : Nat) (new : List Extent) (n : Nat) (h : 0 < mediaBlocks (recordsInside a e s.map.records) n) :
    band? (takeChange a e new s) n = (band? s n).map fun r => bandLess r (mediaBlocks (recordsInside a e s.map.records) n) := by
  rw [takeChange, band?_removals, if_pos]
  · congr 1
    unfold band?
    rw [setRecords, mapChanged_eq]
  · by_contra hno
    refine absurd h (Nat.not_lt.mpr (Nat.le_of_eq ?_))
    simp only [mediaBlocks, List.sum_eq_zero_iff_forall_eq_nat, List.mem_map]
    rintro _ ⟨r, hr, rfl⟩
    split
    · next b' o' hl =>
      split
      · next hb' => exact absurd ⟨r, hr, o', hb' ▸ hl⟩ hno
      · rfl
    · rfl

/-- A parcel's loss, made in two parts, is the loss of both. -/
theorem parcelLess_bind (x : Parcel) (m n : Nat) : ((parcelLess x m).bind fun y => parcelLess y n) = parcelLess x (m + n) := by
  obtain ⟨_, k, _, _, _, _, _, live, written, st, _⟩ := x
  have hz : live - m = 0 → live - (m + n) = 0 := by omega
  have hs : live - m - n = live - (m + n) := by omega
  by_cases h : k = .data ∧ st = .queued ∧ written = 0 ∧ live - m = 0
  · have h' : k = .data ∧ st = .queued ∧ written = 0 ∧ live - (m + n) = 0 := ⟨h.1, h.2.1, h.2.2.1, hz h.2.2.2⟩
    simp only [parcelLess, if_pos h, if_pos h', Option.bind_none]
  · simp only [parcelLess, if_neg h, Option.bind_some, hs]

theorem parcel?_dropParcel_same (id : Nat) : parcel? (dropParcel id s) id = none := by
  unfold dropParcel
  split
  · next h => exact h
  · next x hx =>
    have hid : x.id = id := by simpa [parcel?] using List.find?_some hx
    show List.find? _ (answerDrains _).staging.parcels = _
    rw [parcels_answerDrains]
    show (s.staging.parcels.filter fun y => y.id ≠ x.id).find? (fun p => p.id = id) = none
    simp [hid]

theorem parcel?_lowerParcelLive_same (q m : Nat) :
    parcel? (lowerParcelLive q m s) q = (parcel? s q).bind fun x => parcelLess x m := by
  have hu : parcel? (updParcel q (fun x => { x with live := x.live - m }) s) q =
      (parcel? s q).map fun x => { x with live := x.live - m } :=
    (parcel?_updParcel s q q (fun x => { x with live := x.live - m }) (fun _ => rfl)).trans (if_pos rfl)
  simp only [lowerParcelLive]
  rw [hu]
  cases hp : parcel? s q with
  | none => rw [hp] at hu; simpa using hu
  | some x =>
    rw [hp] at hu
    simp only [Option.map_some, Option.any_some, Option.bind_some, unwanted, parcelLess, Bool.and_eq_true, beq_iff_eq]
    split
    · next h => rw [parcel?_dropParcel_same, if_pos ⟨h.1.1.1, h.1.1.2, h.1.2, h.2⟩]
    · next h => rw [hu, if_neg fun k => h ⟨⟨⟨k.1, k.2.1⟩, k.2.2.1⟩, k.2.2.2⟩]; rfl

open Classical in
/-- What the removal of records leaves of a parcel's record. -/
theorem parcel?_removals (n : Nat) : ∀ (l : List Extent) (s : State),
    parcel? (l.foldl removalEffect s) n =
      if ∃ r ∈ l, ∃ i, r.loc = .staged n i then (parcel? s n).bind fun x => parcelLess x (stagedBlocks l n) else parcel? s n
  | [], s => by simp
  | x :: l, s => by
    rw [List.foldl_cons, parcel?_removals n l]
    by_cases hx : ∃ i, x.loc = .staged n i
    · obtain ⟨i, hi⟩ := hx
      have hb : parcel? (removalEffect s x) n = (parcel? s n).bind fun y => parcelLess y x.len := by
        rw [removalEffect, hi]; exact parcel?_lowerParcelLive_same s n x.len
      have hm : stagedBlocks (x :: l) n = x.len + stagedBlocks l n := by simp [stagedBlocks, hi]
      rw [if_pos (show ∃ r ∈ x :: l, ∃ i, r.loc = .staged n i from ⟨x, by simp, i, hi⟩), hb, hm]
      split
      · rw [Option.bind_assoc]
        congr 1
        funext y
        exact parcelLess_bind y _ _
      · next hl =>
        have : stagedBlocks l n = 0 := by
          simp only [stagedBlocks, List.sum_eq_zero_iff_forall_eq_nat, List.mem_map]
          rintro _ ⟨r, hr, rfl⟩
          split
          · next q i' h =>
            split
            · next hq => exact absurd ⟨r, hr, i', hq ▸ h⟩ hl
            · rfl
          · rfl
        rw [this]; rfl
    · have hb : parcel? (removalEffect s x) n = parcel? s n := parcel?_removalEffect s x n fun i h => hx ⟨i, h⟩
      have hm : stagedBlocks (x :: l) n = stagedBlocks l n := by
        simp only [stagedBlocks, List.map_cons, List.sum_cons]
        split
        · next q i' h =>
          rw [if_neg (show ¬q = n from fun hq => hx ⟨i', hq ▸ h⟩)]; simp
        · simp
      rw [hb, hm]
      refine if_congr ?_ rfl rfl
      simp [hx]

/-- What a change of the map at a take leaves of the record of a parcel that loses blocks (R53, R54, R72, R77). -/
theorem parcel?_takeChange_less (a e : Nat) (new : List Extent) (n : Nat) (h : 0 < stagedBlocks (recordsInside a e s.map.records) n) :
    parcel? (takeChange a e new s) n =
      (parcel? s n).bind fun x => parcelLess x (stagedBlocks (recordsInside a e s.map.records) n) := by
  rw [takeChange, parcel?_removals, if_pos]
  · congr 1
    unfold parcel?
    rw [setRecords, mapChanged_eq]
  · by_contra hno
    refine absurd h (Nat.not_lt.mpr (Nat.le_of_eq ?_))
    simp only [stagedBlocks, List.sum_eq_zero_iff_forall_eq_nat, List.mem_map]
    rintro _ ⟨r, hr, rfl⟩
    split
    · next q i hl =>
      split
      · next hq => exact absurd ⟨r, hr, i, hq ▸ hl⟩ hno
      · rfl
    · rfl

/-! ### The resources that dropped parcels free -/

theorem agenda_answerDrains : (answerDrains s).agenda = s.agenda :=
  foldl_keeps State.agenda _ (fun u d => by simp only [respond]; split <;> rfl) _ _

theorem freed_dropParcel (id : Nat) (x : Parcel) (h : parcel? s id = some x) :
    (dropParcel id s).agenda.freed = s.agenda.freed ++ [parcelResource s x] := by
  unfold dropParcel
  rw [h]
  show (answerDrains _).agenda.freed = _
  rw [agenda_answerDrains]
  rfl

/-- The removal of a record frees resources at the end of the list, if any (R79). -/
theorem freed_removalEffect (r : Extent) : s.agenda.freed <+: (removalEffect s r).agenda.freed := by
  unfold removalEffect
  split
  · rw [(onlyBands_lowerLive s _ _).freed]
  · next q _ _ =>
    simp only [lowerParcelLive]
    split
    · next h =>
      cases hx : parcel? (updParcel q (fun x => { x with live := x.live - r.len }) s) q with
      | none => rw [hx] at h; exact absurd h (by simp)
      | some x =>
        rw [freed_dropParcel _ _ _ hx]
        exact List.prefix_append _ _
    · exact List.prefix_refl _
  · exact List.prefix_refl _

theorem freed_removals : ∀ (l : List Extent) (s : State), s.agenda.freed <+: (l.foldl removalEffect s).agenda.freed
  | [], _ => List.prefix_refl _
  | r :: l, s => (freed_removalEffect s r).trans (freed_removals l _)

/-- A DATA parcel that the removals bring to 0 frees its slot (R77, R79). -/
theorem freed_dropped (q : Nat) (x : Parcel) : ∀ (l : List Extent) (s : State), parcel? s q = some x → 0 < stagedBlocks l q →
    parcelLess x (stagedBlocks l q) = none → Resource.slot q ∈ (l.foldl removalEffect s).agenda.freed := by
  intro l
  induction l generalizing x with
  | nil => intro s _ h; simp [stagedBlocks] at h
  | cons r l ih =>
    intro s hp hpos hnone
    rw [List.foldl_cons]
    by_cases hr : ∃ i, r.loc = .staged q i
    · obtain ⟨i, hi⟩ := hr
      have hm : stagedBlocks (r :: l) q = r.len + stagedBlocks l q := by simp [stagedBlocks, hi]
      rw [hm, ← parcelLess_bind] at hnone
      have hid : x.id = q := by simpa [parcel?] using List.find?_some hp
      cases hx : parcelLess x r.len with
      | none =>
        refine (freed_removals l _).subset ?_
        have hu : parcel? (updParcel q (fun y => { y with live := y.live - r.len }) s) q = some { x with live := x.live - r.len } := by
          rw [parcel?_updParcel s q q (fun y => { y with live := y.live - r.len }) fun _ => rfl, if_pos rfl, hp]; rfl
        have hc : x.kind = .data ∧ x.state = .queued ∧ x.written = 0 ∧ x.live - r.len = 0 := by
          by_contra hno
          rw [parcelLess, if_neg hno] at hx
          exact absurd hx (by simp)
        have hw : (parcel? (updParcel q (fun y => { y with live := y.live - r.len }) s) q).any unwanted = true := by
          rw [hu]
          simp [unwanted, hc.1, hc.2.1, hc.2.2.1, hc.2.2.2]
        rw [removalEffect, hi]
        simp only [lowerParcelLive, hw, if_true]
        rw [freed_dropParcel _ _ _ hu]
        simp [parcelResource, hc.1, hid]
      | some y =>
        rw [hx, Option.bind_some] at hnone
        refine ih y _ ?_ ?_ hnone
        · rw [removalEffect, hi]
          exact (parcel?_lowerParcelLive_same s q r.len).trans (by rw [hp, Option.bind_some, hx])
        · by_contra h0
          have h0 : stagedBlocks l q = 0 := by omega
          rw [h0] at hnone
          have hc : y.kind = .data ∧ y.state = .queued ∧ y.written = 0 ∧ y.live - 0 = 0 := by
            by_contra hno
            rw [parcelLess, if_neg hno] at hnone
            exact absurd hnone (by simp)
          rw [parcelLess] at hx
          split at hx
          · exact absurd hx (by simp)
          · next hno =>
            cases hx
            exact hno ⟨hc.1, hc.2.1, hc.2.2.1, by simpa using hc.2.2.2⟩
    · have hm : stagedBlocks (r :: l) q = stagedBlocks l q := by
        simp only [stagedBlocks, List.map_cons, List.sum_cons]
        split
        · next q' i' h =>
          rw [if_neg (show ¬q' = q from fun hq => hr ⟨i', hq ▸ h⟩)]; simp
        · simp
      rw [hm] at hpos hnone
      exact ih x _ ((parcel?_removalEffect s r q fun i h => hr ⟨i, h⟩).trans hp) hpos hnone

/-- A DATA parcel that a change of the map at a take brings to 0 frees its slot, which is handed out once the take is whole (R74, R77, R79). -/
theorem freed_takeChange (a e : Nat) (new : List Extent) (q : Nat) (x : Parcel) (hp : parcel? s q = some x)
    (hpos : 0 < stagedBlocks (recordsInside a e s.map.records) q)
    (hnone : parcelLess x (stagedBlocks (recordsInside a e s.map.records) q) = none) :
    Resource.slot q ∈ (takeChange a e new s).agenda.freed := by
  refine freed_dropped q x _ _ ?_ hpos hnone
  rw [← hp]
  unfold parcel?
  rw [setRecords, mapChanged_eq]

end Sys2Proof.Machine
end

