-- ==== Sys2Proof/Laws/Takes.lean ====
section
/-! SUPPORT. What a take does: with the head request of its kind, it refuses by the first check that fails or executes; and the small operations on
the head of a queue. -/

namespace Sys2Proof.Machine

/-- A take whose head request passes its checks executes it. -/
theorem takeHead_takes {s : State} {p : Port} {k : Kind} {f : RequestFrame} (h : Safety.Takes s p k f)
    (want : RequestFrame → Bool) (hw : want f = true) (act : RequestFrame → State → State) :
    takeHead p k want act s = act f s := by
  obtain ⟨_, h2, h3, h4⟩ := h
  simp [takeHead, h2, h3, h4, hw]

/-- A take whose head request fails a check answers it with the status of the first that fails. -/
theorem takeHead_refused {s : State} {p : Port} {k : Kind} {f : RequestFrame} {st : Status} (hu : (s.link p).up = true)
    (hh : headRequest p s = some f) (hk : requestKind f = some k) (hc : takeCheck s p k f = some st)
    (want : RequestFrame → Bool) (hw : want f = true) (act : RequestFrame → State → State) :
    takeHead p k want act s = s.setLink p (Safety.answered (s.link p) (Safety.reply s f st .none [])) := by
  simp only [takeHead, hh, hk, hw, and_self, if_true, hc, refuseHead]
  exact answerHead_eq p f st .none [] s hu

/-- The request that leaves the head unanswered changes nothing but its link. -/
theorem popRequest_eq (p : Port) (s : State) : popRequest p s = s.setLink p (Safety.taken (s.link p)) := rfl

/-- The request held at the head changes nothing but its link. -/
theorem holdRequest_eq (p : Port) (s : State) : holdRequest p s = s.setLink p (Safety.heldAtHead (s.link p)) := rfl

/-- A take finds its head request at the head of the queue. -/
theorem queue_of_headRequest {s : State} {p : Port} {f : RequestFrame} (h : headRequest p s = some f) :
    (s.link p).queue.head? = some f ∧ (s.link p).holding = false := by
  simp only [headRequest] at h
  split at h
  · simp at h
  · exact ⟨h, by simp_all⟩

/-- The checks of a list all pass exactly when none of them fails. -/
theorem firstFailure_eq_none (l : List (Option Status)) : firstFailure l = none ↔ ∀ x ∈ l, x = none := by
  induction l with
  | nil => simp [firstFailure]
  | cons x l ih => cases x <;> simp [firstFailure, ih]

/-- A condition that holds refuses nothing. -/
theorem need_eq_none (b : Bool) (st : Status) : need b st = none ↔ b = true := by
  cases b <;> simp [need]

/-- The field checks of a kind other than PLACE that pass say that the frame is not oversize. -/
theorem kindFields_of_fieldCheck {s : State} {k : Kind} {f : RequestFrame} (h : fieldCheck s k f = none) :
    (k ≠ .place → oversize f = false) ∧ ∀ x ∈ kindFields s f k, x = none := by
  rw [fieldCheck, firstFailure_eq_none] at h
  simp only [List.mem_cons, forall_eq_or_imp, need_eq_none] at h
  refine ⟨fun hk => ?_, h.2⟩
  cases k <;> simp_all

/-- A take that passes checks 2 to 7 passes each of them. -/
theorem checks_of_takeCheck {s : State} {p : Port} {k : Kind} {f : RequestFrame} (h : takeCheck s p k f = none) :
    engineCheck s k = none ∧ fieldCheck s k f = none ∧ admissionCheck s p k = none ∧ custodyCheck s k f = none ∧
      headroomCheck s k = none ∧ conflictCheck s p k f = none := by
  rw [takeCheck, firstFailure_eq_none] at h
  simpa using h

end Sys2Proof.Machine
end

