-- ==== Sys2Proof/Tests/Slice0.lean ====
section
/-! SUPPORT. The package's own tests: ill-formed commands that the check refuses, the worked cases of spec/, and for every statement
with hypotheses a named witness that meets them together. -/

namespace Sys2Proof.Tests

set_option Elab.async false

open Sys2Proof.Machine Sys2Proof.Safety

/-! ### Small frames and states -/

/-- A request frame with every field zero but its tag, kind, custody number, stream, LBN, length, and as many zero blocks as dc. -/
def frame (kind custody stream lbn length dc : Nat) : RequestFrame where
  tag := 7
  kind := BitVec.ofNat 8 kind
  custody := BitVec.ofNat 16 custody
  dataCount := BitVec.ofNat 16 dc
  stream := BitVec.ofNat 8 stream
  zoneOrder := 0
  coldPlacement := 0
  apply := 0
  band := 0
  lbn := BitVec.ofNat 64 lbn
  length := BitVec.ofNat 32 length
  param := 0
  value := 0
  data := List.replicate dc zeroBlock

/-- A zone of C = 1,024 sectors a band. -/
def zone : ZoneRecord :=
  { firstBand := 0, bandCount := 64, tpb := 8, spt := 128, firstTrack := 0 }

/-- A band record in a state, with a write pointer and a live count. -/
def bandRec (n : Nat) (st : BandState) (wp live : Nat) : Band where
  number := n
  zone := 0
  state := st
  stamp := 1
  wp := wp
  live := live
  notes := 0
  chain := none
  openSeq := none
  minSeq := none
  exposure := 0
  causes := Causes.none
  neglected := false
  breakOffset := none
  summaryPresent := false
  pins := 0
  owner := none

/-- A part in an engine state with 1,000 logical blocks and three bands: 0 FILLED with 100 live blocks, 1 DRAINING, 2 EMPTY. -/
def part (e : EngineState) : State :=
  { State.reset with
    table :=
      { zones := [zone], due := [], critical := false
        bands := [bandRec 0 .filled 200 100, bandRec 1 .draining 50 0, bandRec 2 .empty 0 0] }
    startup := { State.reset.startup with engine := e, nLog := 1000, stage := .finished } }

/-- The link of a port that is UP with one request at the head of its queue. -/
def linkWith (f : RequestFrame) : Link :=
  { up := true, queue := [f], holding := false, outstanding := [f.tag], notices := [], sent := [] }

/-- That part with a request at the head of port A. -/
def ready (e : EngineState) (f : RequestFrame) : State :=
  (part e).setLink .A (linkWith f)

/-- A part with blocks 10 to 19 in band 0 from offset 1, and a request at the head of port A. -/
def mapped (f : RequestFrame) : State :=
  { ready .running f with map := { records := [{ start := 10, len := 10, loc := .media 0 1 }], held := false } }

/-- An operation of one kind, of 4 sectors in band 0, awaited as issue 5. -/
def operation (k : OpKind) (o : Owner) (count : Nat) : Operation where
  kind := k
  owner := o
  band := 0
  zone := zone
  first := 1
  count := count
  issue := 5
  completed := 0
  retries := 0
  issuedFrom := 0
  awaiting := true
  wait := none
  items := []
  sectors := []

/-- A part in an engine state with an operation current. -/
def busy (e : EngineState) (op : Operation) : State :=
  { part e with sched := { Scheduler.reset with current := some op, channelTimer := some 30000 } }

/-- A completion of issue 5. -/
def completion (o : MediaOutcome) (k : Nat) (d : Delivery) : Completion :=
  { issue := 5, outcome := o, k := k, delivery := d }

/-- A sector with one byte of payload. -/
def sector : Sector :=
  { payload := 3, trailer := { kind := 2, stamp := 1, band := 0, logical := 10, sequence := 9, chain := 77 } }

/-! ### Ill-formed commands are refused -/

theorem test_wf_frame_short : RequestFrame.wf { frame 1 1 0 10 2 2 with data := [zeroBlock] } = false := by decide
theorem test_wf_frame : RequestFrame.wf (frame 1 1 0 10 2 2) = true := by decide
theorem test_wf_zone_track : ZoneRecord.wf { zone with firstTrack := 2 ^ 32 } = false := by decide
theorem test_wf_zone_bands : ZoneRecord.wf { zone with bandCount := 0 } = false := by decide
theorem test_wf_zone_first : ZoneRecord.wf { zone with firstBand := 131072 } = false := by decide
theorem test_wf_completion_count : Completion.wf (completion .complete 1025 .nothing) = false := by decide
theorem test_wf_completion_sectors : Completion.wf (completion .complete 2 (.sectors [sector])) = false := by decide
theorem test_wf_instr_band : Instr.wf (.heldResetLastPin 131072) = false := by decide
theorem test_wf_instr_frame : Instr.wf (.requestArrival .A { frame 1 1 0 10 2 2 with data := [] }) = false := by decide
theorem test_wf_instr_completion : Instr.wf (.channelCompletion (completion .notReady 1025 .nothing)) = false := by decide
theorem test_wf_take : Instr.wf (.place .B) = true := by decide

/-! ### Worked cases of spec/ -/

/-- Zone 3 of the worked case "positions in zone 3" (chapter 1). -/
def zone3 : ZoneRecord :=
  { firstBand := 4000, bandCount := 100, tpb := 64, spt := 512, firstTrack := 210000 }

/-- Worked case of chapter 1: band 4,005, offset 20,000. -/
theorem test_position : physicalTrack zone3 4005 20000 = 210364 ∧ sectorInTrack zone3 20000 = 32 := by decide
/-- Worked case of chapter 1: the two-zone drive, its total data sectors, and N_log at seven eighths of them (R170). -/
theorem test_two_zones :
    totalDataSectors
        [{ firstBand := 0, bandCount := 1000, tpb := 32, spt := 1024, firstTrack := 2000 },
          { firstBand := 1000, bandCount := 3000, tpb := 64, spt := 256, firstTrack := 35000 }] = 81900000 ∧
      geometryAccepted
        { capacity := 1
          zones :=
            [{ firstBand := 0, bandCount := 1000, tpb := 32, spt := 1024, firstTrack := 2000 },
              { firstBand := 1000, bandCount := 3000, tpb := 64, spt := 256, firstTrack := 35000 }] } = true := by decide
/-- Worked case of chapter 1: the chain through two sectors (R15, R16), by the payload checks it gives. -/
theorem test_chain :
    bandSeed 4005 3 = 200616 ∧ 33#32 * 200616 + 1000000 = 7620328 ∧ 33#32 * 7620328 + 4294000000 = 250503528 := by decide
/-- Worked case of chapter 1: the seed at the top of the range. -/
theorem test_seed_top : bandSeed 131071 65535 = 131070 ∧ bandSeed 131071 (nextStamp 65535) = 196608 := by decide
/-- Worked case of chapter 3, step 1: a PLACE of 100 blocks inside a MEDIA record cuts it in three. -/
theorem test_map_cut :
    changeRange 1000 1100 [{ start := 1000, len := 100, loc := .staged 7 0 }]
        [{ start := 900, len := 300, loc := .media 6120 301 }] =
      [{ start := 900, len := 100, loc := .media 6120 301 }, { start := 1000, len := 100, loc := .staged 7 0 },
        { start := 1100, len := 100, loc := .media 6120 501 }] := by decide
/-- Worked case of chapter 3, step 3: the second PLACE crosses two records. -/
theorem test_map_cross :
    changeRange 1050 1150 [{ start := 1050, len := 100, loc := .staged 12 0 }]
        [{ start := 900, len := 100, loc := .media 6120 301 }, { start := 1000, len := 100, loc := .staged 7 0 },
          { start := 1100, len := 100, loc := .media 6120 501 }] =
      [{ start := 900, len := 100, loc := .media 6120 301 }, { start := 1000, len := 50, loc := .staged 7 0 },
        { start := 1050, len := 100, loc := .staged 12 0 }, { start := 1150, len := 50, loc := .media 6120 551 }] := by decide
/-- A cut that shortens a LOST record lets it join the LOST record after it, when the two now fit into one (R46). -/
theorem test_map_lost_joins :
    changeRange 0 10 [{ start := 0, len := 10, loc := .staged 7 0 }]
        [{ start := 0, len := 16777216, loc := .lost }, { start := 16777216, len := 10, loc := .lost }] =
      [{ start := 0, len := 10, loc := .staged 7 0 }, { start := 10, len := 16777216, loc := .lost }] := by decide
/-- A geometry record with a zone of no band, or of a first band past 131,071, is not accepted (R1, R2). -/
theorem test_geometry_ranges :
    geometryAccepted { capacity := 1, zones := [zone] } = true ∧
      geometryAccepted { capacity := 1, zones := [zone, { zone with firstBand := 64, bandCount := 0 }] } = false ∧
      geometryAccepted { capacity := 1, zones := [{ zone with bandCount := 131073 }] } = false := by decide
/-- Worked case of chapter 7: the cold groups of 120,000 bands (R41). -/
theorem test_cold_groups :
    coldGroup 120000 300 = 0 ∧ coldGroup 120000 2000 = 1 ∧ coldGroup 120000 5000 = 2 ∧ coldGroup 120000 7000 = 3 ∧
      coldGroup 120000 9000 = 4 := by decide

/-- Port A's list of the worked case "a full list" (chapter 9). -/
def fullList : List Notice :=
  ((List.range 14).map fun i => { kind := .bandDue, band := some (100 + i), count := 1 }) ++
    [{ kind := .breakFound, band := some 500, count := 1 }, { kind := .freeLow, band := none, count := 1 }]

/-- Worked case of chapter 9: the notices placed one after another on the full list. -/
theorem test_notices :
    let l :=
      takeNotice .custodyChanged none
        (takeNotice .temperatureStale none
          (takeNotice .bandDue (some 901) (takeNotice .bandDue (some 900) (takeNotice .bandDue (some 105) fullList))))
    l.length = 16 ∧ l[0]? = some { kind := .bandDue, band := none, count := 3 } ∧
      l[5]? = some { kind := .bandDue, band := some 105, count := 2 } ∧
      l[15]? = some { kind := .several, band := none, count := 3 } := by decide

/-- The payload check of R14 on payloads with a single word that is not zero, the first or the last. -/
theorem test_payload_check : payloadCheck 1000000 = 1000000 ∧ payloadCheck (BitVec.ofNat 32768 (5 * 2 ^ 32736)) = 5 := by
  decide +kernel

/-- The outcome is a next state of which a test holds. -/
def nextHas (o : Host.Outcome State Fault Refusal) (test : State → Bool) : Bool :=
  match o with
  | .next t => test t
  | .fault _ => false
  | .refused _ => false

/-- A PLACE in RUNNING is accepted with sequence 1 in slot 0 (R69, R73, R74). -/
theorem test_place_sequence :
    nextHas (exec (.place .A) (ready .running (frame 1 1 0 10 2 2)))
      (fun t => t.staging.seqCounter == 2 && t.staging.freeSlots.head? == some 1) = true := by decide +kernel

/-- A HALT of a quiescent part ends in HALTED in the same step (R168). -/
theorem test_halt :
    nextHas (exec (.halt .A) (ready .running (frame 9 1 0 0 0 0))) (fun t => t.startup.engine == .halted) = true := by
  decide +kernel

/-- A geometry record that fails R2, for want of zones, is asked for again 1,000 ms later. -/
theorem test_geometry_refused :
    nextHas
      (exec (.channelCompletion (completion .complete 1 (.geometry { capacity := 5, zones := [] })))
        (busy .starting (operation .geometry .startUp 1)))
      (fun t => t.startup.stage == .geometryWait 1000) = true := by decide +kernel

/-! ### Witnesses: the step, power-on and the links -/

theorem witness_idleStep : State.reset.pending = [] := by decide
theorem witness_linkDown :
    let s := ready .running (frame 2 0 0 10 2 0)
    (s.link .A).up = true ∧ s.sched.readWait = [] ∧ s.engine.verifyHeld = [] := by decide

/-- Port A with the queue and the outstanding tags given. -/
def queued (q : List RequestFrame) (tags : List (BitVec 16)) : State :=
  (part .running).setLink .A { linkWith (frame 2 0 0 10 2 0) with queue := q, outstanding := tags }

/-- The premises of an arrival. -/
def arrives (s : State) : Prop :=
  (s.link .A).up = true ∧ (s.link .A).queue.length < 32 ∧ ((s.link .A).queue.map fun g => g.data.length).sum + 1024 ≤ 2048

theorem witness_arrival_joins :
    arrives (queued (List.replicate 31 (frame 2 0 0 10 2 0)) (List.replicate 31 9)) ∧ 7 ∉ List.replicate 31 (9 : BitVec 16) := by
  unfold arrives; decide +kernel
theorem witness_arrival_blocks : arrives (queued [frame 1 1 0 0 1024 1024] [3]) := by unfold arrives; decide +kernel
theorem witness_arrival_tagInUse : arrives (queued [frame 2 0 0 10 2 0] [7]) := by unfold arrives; decide +kernel
theorem witness_arrival_queueFull : arrives (queued [] (List.replicate 32 9)) := by unfold arrives; decide +kernel

/-! ### Witnesses: the checks of a take -/

theorem witness_unknownKind_low :
    let s := ready .running (frame 0 1 0 0 0 0)
    (s.link .A).up = true ∧ headRequest .A s = some (frame 0 1 0 0 0 0) ∧ ¬(1 ≤ (frame 0 1 0 0 0 0).kind.toNat ∧
      (frame 0 1 0 0 0 0).kind.toNat ≤ 19) := by
  decide +kernel
theorem witness_unknownKind_high :
    let s := ready .running (frame 20 1 0 0 0 0)
    headRequest .A s = some (frame 20 1 0 0 0 0) ∧ ¬(1 ≤ (frame 20 1 0 0 0 0).kind.toNat ∧ (frame 20 1 0 0 0 0).kind.toNat ≤ 19) := by
  decide +kernel

/-- The premises of a refusal at the take. -/
def refusedAs (s : State) (k : Kind) (f : RequestFrame) (st : Status) : Prop :=
  (s.link .A).up = true ∧ headRequest .A s = some f ∧ requestKind f = some k ∧ takeCheck s .A k f = some st ∧ Settled s

theorem witness_refused_state : refusedAs (ready .halted (frame 1 1 0 10 2 2)) .place (frame 1 1 0 10 2 2) .notRunning := by
  unfold refusedAs; decide +kernel
theorem witness_refused_range : refusedAs (ready .running (frame 2 0 0 999 2 0)) .fetch (frame 2 0 0 999 2 0) .badRange := by
  unfold refusedAs; decide +kernel
theorem witness_refused_length : refusedAs (ready .running (frame 1 1 0 0 129 129)) .place (frame 1 1 0 0 129 129) .tooLong := by
  unfold refusedAs; decide +kernel
theorem witness_refused_stale : refusedAs (ready .running (frame 7 2 0 0 0 0)) .fence (frame 7 2 0 0 0 0) .staleCustody := by
  unfold refusedAs; decide +kernel
/-- A PLACE of a whole slot that ends with the last logical block passes. -/
theorem witness_placePasses : takeCheck (ready .running (frame 1 1 7 872 128 128)) .A .place (frame 1 1 7 872 128 128) = none := by
  decide +kernel

/-- That part with port A FENCED. -/
def fencedPart (f : RequestFrame) : State :=
  { ready .running f with custody := { number := 1, admission := { a := .fenced, b := .active } } }

theorem witness_fenced :
    let f := frame 10 1 0 0 0 0
    engineCheck (fencedPart f) .run = none ∧ fieldCheck (fencedPart f) .run f = none ∧ Kind.run.mutating = true ∧
      (fencedPart f).custody.admission.get .A = .fenced := by decide +kernel
theorem witness_stale :
    let f := frame 10 0 0 0 0 0
    engineCheck (ready .running f) .run = none ∧ fieldCheck (ready .running f) .run f = none ∧ Kind.run.mutating = true ∧
      (ready .running f).custody.admission.get .A = .active ∧ f.custody.toNat ≠ (ready .running f).custody.number := by
  decide +kernel
theorem witness_notMutating :
    let f := frame 2 0 0 0 1000 0
    engineCheck (fencedPart { f with length := 1 }) .fetch = none ∧
      fieldCheck (fencedPart { f with length := 1 }) .fetch { f with length := 1 } = none ∧
      Kind.fetch.mutating = false := by decide +kernel

/-! ### Witnesses: PLACE, FETCH, RELEASE, LOCATE, DRAIN -/

/-- That part with its staging block changed. -/
def staged (g : Staging → Staging) (s : State) : State :=
  { s with staging := g s.staging }

theorem witness_placeSupersedes :
    let f := frame 1 1 7 872 128 128
    let s := staged (fun x => { x with seqCounter := 2 ^ 48 - 2 }) (ready .running f)
    Takes s .A .place f ∧ s.staging.seqCounter < 2 ^ 48 - 1 ∧ s.staging.freeSlots = 0 :: List.range' 1 127 ∧ parcel? s 0 = none ∧
      s.map.records = [] ∧ poolWf s.staging.pool = true := by decide +kernel
theorem witness_placeSupersedes_media :
    let f := frame 1 1 0 12 2 2
    Takes (mapped f) .A .place f ∧ (mapped f).staging.freeSlots = 0 :: List.range' 1 127 ∧
      (recordsInside 12 14 (mapped f).map.records).map (fun r => r.loc) = [.media 0 3] := by decide +kernel
/-- A DATA parcel of port A at LBN 10, of two blocks with as many live as given, of which `written` are written. -/
def parcelOf (live written : Nat) : Parcel :=
  { id := 5, kind := .data, port := .A, stream := 7, start := 10, length := 2, seq := 1, live := live, written := written, state := .queued
    acceptedAt := 0 }

/-- A part with blocks 10 and 11 in a parcel and blocks 12 to 19 in band 0, of 8 live blocks, and a request at the head of port A. -/
def layered (q : Parcel) (f : RequestFrame) : State :=
  { staged (fun x => { x with parcels := [q], freeSlots := [0, 1] }) (ready .running f) with
    map := { records := [{ start := 10, len := 2, loc := .staged 5 0 }, { start := 12, len := 8, loc := .media 0 1 }], held := false }
    table := { (part .running).table with bands := [bandRec 0 .filled 200 8] } }

theorem witness_placeSupersedes_losses :
    let s := layered (parcelOf 2 0) (frame 1 1 0 11 2 2)
    Takes s .A .place (frame 1 1 0 11 2 2) ∧ band? s 0 = some (bandRec 0 .filled 200 8) ∧
      mediaBlocks (recordsInside 11 13 s.map.records) 0 = 1 ∧ bandLess (bandRec 0 .filled 200 8) 1 = bandRec 0 .filled 200 7 ∧
      parcel? s 5 = some (parcelOf 2 0) ∧ stagedBlocks (recordsInside 11 13 s.map.records) 5 = 1 ∧
      parcelLess (parcelOf 2 0) 1 = some (parcelOf 1 0) := by decide +kernel
theorem witness_placeSupersedes_drops :
    let s := layered (parcelOf 2 0) (frame 1 1 0 10 10 10)
    Takes s .A .place (frame 1 1 0 10 10 10) ∧ mediaBlocks (recordsInside 10 20 s.map.records) 0 = 8 ∧
      (bandLess (bandRec 0 .filled 200 8) 8).state = .empty ∧ stagedBlocks (recordsInside 10 20 s.map.records) 5 = 2 ∧
      parcelLess (parcelOf 2 0) 2 = none ∧ parcelLess (parcelOf 2 1) 2 = some (parcelOf 0 1) := by decide +kernel
theorem witness_placeWaits :
    let f := frame 1 1 0 10 2 2
    let s := staged (fun x => { x with freeSlots := [], seqCounter := 2 ^ 48 - 1 }) (ready .running f)
    Takes s .A .place f ∧ s.staging.freeSlots = [] := by decide +kernel
theorem witness_placeSpent :
    let f := frame 1 1 0 10 2 2
    let s := staged (fun x => { x with freeSlots := [127], seqCounter := 2 ^ 48 - 1 }) (ready .running f)
    Takes s .A .place f ∧ s.staging.freeSlots ≠ [] ∧ 2 ^ 48 - 1 ≤ s.staging.seqCounter := by decide +kernel
theorem witness_fetchWithoutRuns :
    let f := frame 2 0 0 20 980 0
    Takes (mapped f) .A .fetch f ∧ mediaRuns (mapped f) (requestStart f) (requestEnd f) = [] := by decide +kernel

/-- That part with its scheduler changed. -/
def scheduled (g : Scheduler → Scheduler) (s : State) : State :=
  { s with sched := g s.sched }

/-- A queued read run of one sector. -/
def readRun : ReadRun :=
  { fetch := 9, pos := 0, lbn := 0, band := 0, stamp := 1, zone := zone, first := 1, count := 1, completed := 0, pinned := true }

/-- A FETCH record of port B that has reserved n blocks and awaits as many runs as given. -/
def fetchRecord (runs n : Nat) : FetchRecord where
  id := 9
  requester := { port := .A, tag := 7, kind := 2, orphaned := false }
  answers := [.data zeroBlock, .unmapped, .excepted .lost]
  resume := none
  runsLeft := runs
  reserved := n

/-- The premises of a FETCH that has no room. -/
def noRoom (s : State) (f : RequestFrame) : Prop :=
  Takes s .A .fetch f ∧ fetchRuns s f ≠ [] ∧
    (s.sched.readWait ≠ [] ∨ 64 < s.sched.readQueue.length + (fetchRuns s f).length ∨ readBufferFree s < runBlocks (fetchRuns s f))

theorem witness_fetchWaits_behind :
    noRoom (scheduled (fun x => { x with readWait := [.B] }) (mapped (frame 2 0 0 10 10 0))) (frame 2 0 0 10 10 0) := by
  unfold noRoom; decide +kernel
theorem witness_fetchWaits_queue :
    noRoom (scheduled (fun x => { x with readQueue := List.replicate 64 readRun }) (mapped (frame 2 0 0 10 10 0)))
      (frame 2 0 0 10 10 0) := by
  unfold noRoom; decide +kernel
theorem witness_fetchWaits_buffer :
    noRoom (scheduled (fun x => { x with fetches := [fetchRecord 1 2039] }) (mapped (frame 2 0 0 10 10 0))) (frame 2 0 0 10 10 0) := by
  unfold noRoom; decide +kernel
/-- The parts of the MEDIA records of a map that lie in the range [a, e). -/
def mediaSpans (m : List Extent) (a e : Nat) : List Extent :=
  m.filterMap fun r =>
    let lo := max r.start a
    let hi := min (r.start + r.len) e
    match r.loc with
    | .media b o => if lo < hi then some { start := lo, len := hi - lo, loc := .media b (o + (lo - r.start)) } else none
    | _ => none

/-- The read runs of a FETCH at LBN a over parts of MEDIA records. -/
def runsOver (s : State) (a : Nat) (spans : List Extent) : List ReadRun :=
  (spans.take 64).filterMap fun r =>
    match r.loc with
    | .media b o =>
      (band? s b).map fun x =>
        { fetch := s.sched.nextFetch, pos := r.start - a, lbn := r.start, band := b, stamp := x.stamp
          zone := bandZone s x, first := o, count := r.len, completed := 0, pinned := true }
    | _ => none

theorem witness_fetchQueues :
    let f := frame 2 0 0 10 10 0
    let s := scheduled (fun x => { x with readQueue := List.replicate 63 readRun, fetches := [fetchRecord 1 2038] }) (mapped f)
    let runs := runsOver s 10 (mediaSpans s.map.records 10 20)
    Takes s .A .fetch f ∧ mapOrdered s.map.records = true ∧ s.sched.readWait = [] ∧ runs ≠ [] ∧
      s.sched.readQueue.length + runs.length ≤ 64 ∧ (runs.map fun r => r.count).sum ≤ readBufferFree s := by decide +kernel
/-- Over 65 MEDIA records 64 make read runs, and the 65th gives the resume LBN. -/
theorem witness_fetchQueues_resume :
    let f := frame 2 0 0 10 100 0
    let s := { mapped f with
      map := { records := (List.range 65).map fun i => { start := 10 + i, len := 1, loc := .media 0 (1 + 2 * i) }, held := false } }
    let spans := mediaSpans s.map.records 10 110
    Takes s .A .fetch f ∧ mapOrdered s.map.records = true ∧ (runsOver s 10 spans).length = 64 ∧
      (spans[64]?.map fun r => r.start) = some 74 := by decide +kernel
theorem witness_release :
    let f := frame 3 1 0 19 1 0
    Takes (mapped f) .A .release f ∧ unitMapped (mapped f) f = true ∧ (mapped f).staging.seqCounter < 2 ^ 48 - 1 ∧
      (mapped f).staging.freeNotes = 0 :: List.range' 1 63 ∧ parcel? (mapped f) 5 = none := by decide +kernel
theorem witness_releaseUnmapped :
    let f := frame 3 1 0 20 1 0
    Takes (mapped f) .A .release f ∧ unitMapped (mapped f) f = false := by decide +kernel
theorem witness_release_losses :
    let s := layered (parcelOf 2 0) (frame 3 1 0 10 10 0)
    Takes s .A .release (frame 3 1 0 10 10 0) ∧ unitMapped s (frame 3 1 0 10 10 0) = true ∧
      mediaBlocks (recordsInside 10 20 s.map.records) 0 = 8 ∧ stagedBlocks (recordsInside 10 20 s.map.records) 5 = 2 ∧
      band? s 0 = some (bandRec 0 .filled 200 8) ∧ parcel? s 5 = some (parcelOf 2 0) := by decide +kernel
theorem witness_releaseWaits :
    let f := frame 3 1 0 19 1 0
    let s := staged (fun x => { x with freeNotes := [], seqCounter := 2 ^ 48 - 1 }) (mapped f)
    Takes s .A .release f ∧ unitMapped s f = true ∧ s.staging.freeNotes = [] := by decide +kernel
theorem witness_releaseSpent :
    let f := frame 3 1 0 19 1 0
    let s := staged (fun x => { x with freeNotes := [63], seqCounter := 2 ^ 48 - 1 }) (mapped f)
    Takes s .A .release f ∧ unitMapped s f = true ∧ s.staging.freeNotes ≠ [] ∧ 2 ^ 48 - 1 ≤ s.staging.seqCounter := by decide +kernel
theorem witness_locate : Takes (mapped (frame 4 0 0 0 1000 0)) .A .locate (frame 4 0 0 0 1000 0) := by decide +kernel
theorem witness_drain : Takes (mapped (frame 5 0 255 0 0 0)) .A .drain (frame 5 0 255 0 0 0) := by decide +kernel
theorem witness_drain_stream : Takes (mapped (frame 5 0 7 0 0 0)) .A .drain (frame 5 0 7 0 0 0) := by decide +kernel

/-! ### Witnesses: streams -/

theorem witness_streamSetBoundary :
    let f := { frame 6 1 7 0 0 0 with zoneOrder := 2, coldPlacement := 1 }
    Takes (ready .running f) .A .streamSet f ∧ f.apply = 0 := by decide +kernel

/-- A STREAM_SET of stream 7 with apply NOW. -/
def setNow : RequestFrame :=
  { frame 6 1 7 0 0 0 with apply := 1 }

/-- The band record that stream 7 owns. -/
def owned : Band :=
  { bandRec 0 .opened 5 4 with owner := some (.host 7) }

/-- A part whose stream 7 has band 0 OPEN. -/
def opened : State :=
  let s := ready .running setNow
  { s with
    table := { s.table with bands := [owned] }
    alloc := { s.alloc with hosts := s.alloc.hosts.set 7 { s.alloc.hosts[7] with openBand := some 0 } } }

theorem witness_streamSetNow_without :
    Takes (ready .running setNow) .A .streamSet setNow ∧ setNow.apply = 1 ∧ openBandOf (ready .running setNow) (.host 7) = none := by
  decide +kernel
theorem witness_streamSetNow :
    Takes opened .A .streamSet setNow ∧ setNow.apply = 1 ∧ requestStream setNow = 7 ∧ openBandOf opened (.host 7) = some owned ∧
      opened.table.bands[0]? = some owned ∧ owned.owner = some (.host 7) := by decide +kernel

/-- That part with a write run in flight on its band 0, which the owner given owns. -/
def writing (o : StreamId) : State :=
  { opened with
    table := { opened.table with bands := [{ owned with owner := some o }] }
    sched := { opened.sched with current := some (operation .writeRun .startUp 4) } }

theorem witness_finishBand :
    opened.table.bands[0]? = some owned ∧ writeInFlight 0 opened = false ∧ writeInFlight 0 (writing (.host 7)) = true ∧
      ((writing (.host 7)).table.bands[0]?).bind (fun r => r.owner) = some (.host 7) ∧ writeInFlight 0 (writing .relocation) = true ∧
      ((writing .relocation).table.bands[0]?).bind (fun r => r.owner) = some .relocation := by decide +kernel

/-- A builder with entries of one DATA sector each, at even offsets. -/
def builder (n : Nat) (mark : Bool) : Stream :=
  { openBand := some 0, queue := [], setting := { order := .outer, cold := false }, pendingSetting := none, finish := false
    entries := (List.range n).map fun i => { kind := .data, offset := 2 * i, start := 4 * i, length := 1, seq := 3 }, overflow := mark }

theorem witness_builder_marked : (builder 1024 true).entries.length ≤ 1024 ∧ (builder 1024 true).overflow = true := by decide +kernel
theorem witness_builder_lengthens :
    let e : SummaryEntry := { kind := .data, offset := 2047, start := 4093, length := 1, seq := 3 }
    let last : SummaryEntry := { kind := .data, offset := 2046, start := 4092, length := 1, seq := 3 }
    (builder 1024 false).entries.length ≤ 1024 ∧ (builder 1024 false).entries.getLast? = some last ∧ last.offset + last.length = e.offset ∧
      last.start + last.length = e.start ∧ last.seq = e.seq := by decide +kernel
theorem witness_builder_begins :
    (builder 1023 false).entries.length < 1024 ∧ (builder 1024 false).entries.length = 1024 ∧
      (builder 1023 false).entries.getLast? = some { kind := .data, offset := 2044, start := 4088, length := 1, seq := 3 } := by
  decide +kernel

/-- That part with the band record given as its band 0, and the finish mark of stream 7. -/
def streaming (r : Band) (finish : Bool) : State :=
  { opened with
    table := { opened.table with bands := [r] }
    alloc := { opened.alloc with hosts := opened.alloc.hosts.set 7 { opened.alloc.hosts[7] with openBand := some 0, finish := finish } } }

theorem witness_streamEnds_stays :
    let s := streaming { owned with wp := 1019 } false
    band? s 0 = some { owned with wp := 1019 } ∧ bandC s owned - 4 = 1020 ∧ (stream s (.host 7)).finish = false := by decide +kernel
theorem witness_streamEnds_closes :
    band? (streaming { owned with wp := 1020 } false) 0 = some { owned with wp := 1020 } ∧
      bandC (streaming { owned with wp := 1020 } false) owned - 4 = 1020 ∧ band? (streaming owned true) 0 = some owned ∧
      (stream (streaming owned true) (.host 7)).finish = true := by decide +kernel
theorem witness_streamEnds_fails :
    let bare := { owned with live := 0 }
    band? (streaming bare false) 0 = some bare ∧ (bare.live = 0 ∧ bare.notes = 0 ∧ bare.pins = 0) ∧ owned.live ≠ 0 ∧
      0 ∉ (streaming bare false).table.due := by decide +kernel

/-- The record of a CLOSING band of stream 7. -/
def closing (live : Nat) (retire : Bool) : Band :=
  { owned with state := .closing, wp := 1020, live := live, causes := { Causes.none with retire := retire } }

theorem witness_summaryEnds :
    band? (streaming (closing 4 false) false) 0 = some (closing 4 false) ∧ (closing 4 false).state = .closing ∧
      (closing 4 false).owner = some (.host 7) ∧ (closing 4 false).live ≠ 0 ∧
      band? (streaming (closing 0 true) false) 0 = some (closing 0 true) ∧ (closing 0 true).causes.retire = true ∧
      ((closing 0 false).live = 0 ∧ (closing 0 false).notes = 0 ∧ (closing 0 false).pins = 0) ∧
      (closing 0 false).causes.retire = false := by decide +kernel

/-! ### Witnesses: custody, engine state and settings -/

theorem witness_fence : Takes (ready .running (frame 7 1 0 0 0 0)) .A .fence (frame 7 1 0 0 0 0) := by decide +kernel
theorem witness_admit :
    let f := frame 8 65535 0 0 0 0
    let s : State := { ready .running f with custody := { number := 65535, admission := { a := .active, b := .fenced } } }
    Takes s .A .admitPort f := by decide +kernel
theorem witness_halt_idle :
    Takes (ready .running (frame 9 1 0 0 0 0)) .A .halt (frame 9 1 0 0 0 0) ∧
      (ready .running (frame 9 1 0 0 0 0)).engine.activity = .idle := by
  decide +kernel
theorem witness_halt_reading :
    let s := scheduled (fun x => { x with current := some (operation .readRun .relocRead 4) }) (ready .running (frame 9 1 0 0 0 0))
    Takes s .A .halt (frame 9 1 0 0 0 0) ∧ s.sched.current = some (operation .readRun .relocRead 4) := by decide +kernel
/-- A scan of band 0 that has read the first n sectors of its read in hand. -/
def scanning (n : Nat) : Scan where
  band := 0
  stamp := 1
  state := .filled
  next := 1
  reads := [(0, 200)]
  readDone := n
  begun := true
  pred := none
  firstBreak := none
  unreadable := []
  runUnreadable := []

/-- A part whose relocation engine has the activity given and a scan of band 0, and a request at the head of port A. -/
def engaged (a : Activity) (n : Nat) (f : RequestFrame) : State :=
  let s := ready .running f
  { s with engine := { s.engine with activity := a, scan := some (scanning n) } }

theorem witness_halt_drain :
    Takes (engaged .drain 0 (frame 9 1 0 0 0 0)) .A .halt (frame 9 1 0 0 0 0) ∧
      (engaged .drain 0 (frame 9 1 0 0 0 0)).engine.activity = .drain := by decide +kernel
theorem witness_halt_rest :
    let s := engaged .patrol 1 (frame 9 1 0 0 0 0)
    Takes s .A .halt (frame 9 1 0 0 0 0) ∧ s.engine.scan = some (scanning 1) ∧ 0 < (scanning 1).readDone := by decide +kernel
theorem witness_halt_between :
    let s := engaged .verify 0 (frame 9 1 0 0 0 0)
    Takes s .A .halt (frame 9 1 0 0 0 0) ∧ s.engine.activity = .verify ∧ s.sched.current = none ∧ s.engine.scan = some (scanning 0) ∧
      (scanning 0).readDone = 0 ∧ Takes (engaged .patrol 0 (frame 9 1 0 0 0 0)) .A .halt (frame 9 1 0 0 0 0) ∧
      (engaged .patrol 0 (frame 9 1 0 0 0 0)).engine.scan = some (scanning 0) ∧ (scanning 0).firstBreak = none := by decide +kernel
theorem witness_halt_stopped :
    Takes (ready .halted (frame 9 1 0 0 0 0)) .A .halt (frame 9 1 0 0 0 0) ∧
      Takes (ready .halting (frame 9 1 0 0 0 0)) .A .halt (frame 9 1 0 0 0 0) := by decide +kernel
theorem witness_run :
    Takes (ready .running (frame 10 1 0 0 0 0)) .A .run (frame 10 1 0 0 0 0) ∧
      Takes (ready .halting (frame 10 1 0 0 0 0)) .A .run (frame 10 1 0 0 0 0) ∧
      (ready .halting (frame 10 1 0 0 0 0)).startup.engine ≠ .running ∧ (ready .halting (frame 10 1 0 0 0 0)).engine.activity = .idle := by
  decide +kernel
/-- A HALTED part that has stopped work of the relocation engine in hand, with the scan and the chunk given. -/
def stopped (a : Activity) (c : Option Scan) (k : Option Chunk) : State :=
  let s := ready .halted (frame 10 1 0 0 0 0)
  { s with engine := { s.engine with activity := a, victim := some 1, scan := c, chunk := k } }

theorem witness_run_drain :
    let k : Chunk := { first := 1, last := 11, stage := .writing, buffer := [], copies := [] }
    Takes (stopped .drain (some (scanning 0)) (some k)) .A .run (frame 10 1 0 0 0 0) ∧
      Takes (stopped .drain (some { scanning 0 with next := 49 }) none) .A .run (frame 10 1 0 0 0 0) ∧
      (stopped .drain (some { scanning 0 with next := 49 }) none).engine.victim = some 1 ∧
      band? (stopped .drain (some { scanning 0 with next := 49 }) none) 1 = some (bandRec 1 .draining 50 0) ∧
      (49 < (bandRec 1 .draining 50 0).wp ∧ ¬50 < (bandRec 1 .draining 50 0).wp) := by decide +kernel
theorem witness_run_scans :
    Takes (stopped .verify none none) .A .run (frame 10 1 0 0 0 0) ∧ (stopped .verify none none).engine.activity = .verify ∧
      (stopped .verify none none).engine.scan = none ∧ Takes (stopped .verify (some (scanning 1)) none) .A .run (frame 10 1 0 0 0 0) ∧
      Takes (stopped .patrol (some (scanning 1)) none) .A .run (frame 10 1 0 0 0 0) ∧
      (stopped .patrol (some (scanning 1)) none).engine.activity = .patrol := by decide +kernel
/-- A HALTED part in which port A has a RESTART at its head, port B's FETCH is held, and a VERIFY_BAND of port B is queued. -/
def restarting : State :=
  let s := (ready .halted (frame 11 1 0 0 0 0)).setLink .B { linkWith (frame 2 0 0 10 10 0) with holding := true }
  { scheduled (fun x => { x with readWait := [.B] }) s with
    engine :=
      { s.engine with verifyQueue := [{ requester := { port := .B, tag := 1, kind := 18, orphaned := false }, band := 1 }] } }

theorem witness_restart :
    Takes restarting .A .restart (frame 11 1 0 0 0 0) ∧ restarting.startup.engine = .halted ∧ restarting.startup.savesQueued = [] ∧
      restarting.startup.savesInFlight = [] ∧ (∀ r ∈ restarting.table.bands, r.state ≠ .closing) ∧ restarting.sched.readWait = [.B] ∧
      restarting.engine.verifyQueue ≠ [] := by decide +kernel
theorem witness_restart_refused :
    let f := frame 11 1 0 0 0 0
    let s : State := { ready .halted f with table := { (part .halted).table with bands := [bandRec 0 .closing 200 8] } }
    Takes (ready .running f) .A .restart f ∧ (ready .running f).startup.engine ≠ .halted ∧ Takes s .A .restart f ∧
      s.startup.engine = .halted ∧ ∃ r ∈ s.table.bands, r.state = .closing := by decide +kernel

/-- A SET or GET of a parameter. -/
def setting (kind param value : Nat) : RequestFrame :=
  { frame kind 1 0 0 0 0 with param := BitVec.ofNat 16 param, value := BitVec.ofNat 64 value }

/-- The premises of a SET. -/
def sets (f : RequestFrame) : Prop :=
  Takes (ready .running f) .A .set f ∧ 2 ≤ f.param.toNat ∧ f.param.toNat ≤ 14 ∧ f.param.toNat ≠ 5 ∧
    (ready .running f).startup.image.inRange = true

theorem witness_set_low : sets (setting 12 2 0) := by unfold sets; decide +kernel
theorem witness_set_marks : sets (setting 12 9 1) := by unfold sets; decide +kernel
theorem witness_set_high : sets (setting 12 14 1) := by unfold sets; decide +kernel
theorem witness_setSlotCode :
    Takes (ready .halted (setting 12 1 7)) .A .set (setting 12 1 7) ∧ Takes (ready .running (setting 12 1 7)) .A .set (setting 12 1 7) := by
  decide +kernel
theorem witness_setReadOnly :
    Takes (ready .running (setting 12 32 7)) .A .set (setting 12 32 7) ∧
      Takes (ready .running (setting 12 39 7)) .A .set (setting 12 39 7) := by
  decide +kernel
/-- A part that takes a SET of T, with cold group masks and five bands: OPEN, CLOSING, FILLED and DRAINING ones at the exposure given, and
a FILLED one just below it. With `current` a write run is in flight on the OPEN one. -/
def crossing (mask : BitVec 64) (v e : Nat) (current : Option Operation) : State :=
  let s := ready .running (setting 12 5 v)
  { scheduled (fun x => { x with current := current }) s with
    table :=
      { s.table with
        bands :=
          [{ bandRec 0 .opened 200 100 with exposure := e, owner := some (.host 7) }, { bandRec 1 .closing 200 100 with exposure := e },
            { bandRec 2 .filled 200 100 with exposure := e }, { bandRec 3 .draining 200 100 with exposure := e },
            { bandRec 4 .filled 200 100 with exposure := e - 1 }] }
    startup := { s.startup with image := { s.startup.image with coldMask := mask } } }

/-- The bands of a part that cross a threshold x and meet a test. -/
def crossers (s : State) (x : Nat) (test : Nat → Band → Bool) : List Nat :=
  (List.range s.table.bands.length).filter fun n =>
    (band? s n).any fun r => (exposable r.state && decide (x ≤ r.exposure) && !r.causes.exposure) && test n r

theorem witness_setThreshold_takes :
    Takes (crossing 0 999 1000 none) .A .set (setting 12 5 999) ∧ Takes (crossing 1 65001 65000 none) .A .set (setting 12 5 65001) ∧
      (setting 12 5 999).param = 5 := by decide +kernel
theorem witness_setThreshold_crosses :
    let s := crossing 0 999 1000 none
    let busy := crossing 0 999 1000 (some (operation .writeRun (.hostWrite 7) 4))
    crossers s 1000 (fun _ _ => true) = [0, 1, 2, 3] ∧ crossers s 1000 (joinsDue s) = [0, 1, 2] ∧
      crossers s 1000 (closesAtOnce s) = [0] ∧ crossers busy 1000 (closesAtOnce busy) = [] ∧ crossers busy 1000 (finishesLater busy) = [0] ∧
      crossers (crossing 1 999 1000 none) 1000 (joinsDue (crossing 1 999 1000 none)) = [1, 2] := by decide +kernel
theorem witness_get :
    Takes (ready .running (setting 13 14 0)) .A .get (setting 13 14 0) ∧
      Takes (ready .running (setting 13 39 0)) .A .get (setting 13 39 0) := by
  decide +kernel
theorem witness_save : Takes (ready .running (frame 14 1 0 0 0 0)) .A .saveSettings (frame 14 1 0 0 0 0) := by decide +kernel
/-- A part whose channel is free and in which saves of both ports wait. -/
def saving : State :=
  let r : Requester := { port := .A, tag := 1, kind := 14, orphaned := false }
  { part .running with startup := { (part .running).startup with savesQueued := [r, { r with port := .B }] } }

theorem witness_saveIssues :
    saving.sched.current = none ∧ saving.startup.stage = .finished ∧ saving.startup.savesQueued ≠ [] := by decide +kernel
theorem witness_saveEnds :
    let op := operation .systemWrite .startUp 1
    Awaits (busy .running op) op ∧ op.kind = .systemWrite ∧ op.issue = (completion .complete 1 .nothing).issue ∧
      (completion .writeFault 0 .nothing).outcome = .writeFault ∧ (completion .unreadable 0 .nothing).outcome = .unreadable := by
  decide +kernel
theorem witness_saveEnds_spent :
    let op := { operation .systemWrite .startUp 1 with retries := 3 }
    Awaits (busy .running op) op ∧ (completion .offTrack 0 .nothing).outcome = .offTrack ∧
      (busy .running op).startup.image.retryLimit ≤ op.retries ∧ (busy .running op).sched.channelTimer = some 30000 := by decide +kernel
theorem witness_loadDefaults_crosses :
    let f := frame 15 1 0 0 0 0
    let s : State :=
      { ready .halted f with
        table := { (part .halted).table with bands := [{ bandRec 0 .opened 200 100 with exposure := 40000 }, bandRec 1 .filled 9 1] } }
    Takes s .A .loadDefaults f ∧ s.startup.engine = .halted ∧ s.staging.parcels = [] ∧ crossers s 40000 (joinsDue s) = [0] ∧
      crossers s 40000 (closesAtOnce s) = [0] ∧ freeBands s ≤ 6 ∧ s.table.critical = false := by decide +kernel
theorem witness_loadDefaults :
    let f := frame 15 1 0 0 0 0
    Takes (ready .halted f) .A .loadDefaults f ∧ (ready .halted f).startup.engine = .halted ∧ (ready .halted f).staging.parcels = [] := by
  decide +kernel
theorem witness_loadDefaults_refused :
    Takes (ready .running (frame 15 1 0 0 0 0)) .A .loadDefaults (frame 15 1 0 0 0 0) := by decide +kernel

/-! ### Witnesses: STATUS, BAND_QUERY, VERIFY_BAND, NOTICE_FETCH and notices -/

theorem witness_status : Takes (ready .starting (frame 16 0 0 0 0 0)) .A .status (frame 16 0 0 0 0 0) := by decide +kernel
theorem witness_bandQuery :
    let f := { frame 17 0 0 0 0 0 with band := 2 }
    Takes (ready .running f) .A .bandQuery f := by decide +kernel
theorem witness_verifyBand :
    let f := { frame 18 0 0 0 0 0 with band := 2 }
    Takes (ready .running f) .A .verifyBand f ∧ (ready .running f).engine.verifyQueue.length < 4 := by decide +kernel

/-- A part with n entries in its VERIFY_BAND queue and port A's VERIFY_BAND held. -/
def verifying (n : Nat) : State :=
  let s := ready .running (frame 18 0 0 0 0 0)
  { s with
    engine :=
      { s.engine with
        verifyQueue := List.replicate n { requester := { port := .B, tag := 1, kind := 18, orphaned := false }, band := 1 }
        verifyHeld := [.A] } }

theorem witness_verifyHeld :
    Takes (verifying 4) .A .verifyBand (frame 18 0 0 0 0 0) ∧ ¬(verifying 4).engine.verifyQueue.length < 4 := by decide +kernel
theorem witness_verifyRetake :
    (verifying 3).engine.verifyHeld = [.A] ∧ ((verifying 3).link .A).queue.head? = some (frame 18 0 0 0 0 0) ∧
      (verifying 4).engine.verifyHeld = [.A] ∧ ((verifying 4).link .A).queue.head? = some (frame 18 0 0 0 0 0) := by decide +kernel
/-- A part with the head of the VERIFY_BAND queue for a band, in an activity and with a scan. -/
def examining (b : Nat) (bands : List Band) (a : Activity) (c : Option Scan) : State :=
  let s := part .running
  { s with
    table := { s.table with bands := bands }
    engine :=
      { s.engine with
        activity := a, scan := c
        verifyQueue := [{ requester := { port := .B, tag := 1, kind := 18, orphaned := false }, band := b }] } }

theorem witness_verifyExamined :
    let bands := [bandRec 0 .filled 200 100, bandRec 1 .retired 50 0, bandRec 2 .empty 0 0, bandRec 3 .opened 0 0]
    let s := fun b => examining b bands .idle none
    (s 0).engine.verifyQueue.length = 1 ∧ (s 0).engine.verifyHeld = [] ∧ band? (s 0) 0 = some (bandRec 0 .filled 200 100) ∧
      band? (s 1) 1 = some (bandRec 1 .retired 50 0) ∧ band? (s 2) 2 = some (bandRec 2 .empty 0 0) ∧
      (beginVerify (s 0)).engine.scan.map (fun c => c.reads) = some [(0, 200)] ∧
      band? (s 3) 3 = some (bandRec 3 .opened 0 0) ∧ (beginVerify (s 3)).engine.verifyQueue = [] := by decide +kernel
theorem witness_verifyScanned :
    let s := examining 0 [bandRec 0 .filled 200 100] .verify (some (scanning 200))
    s.engine.scan = some (scanning 200) ∧ s.startup.engine = .running ∧ s.engine.activity = .verify ∧ (scanning 200).reads.tail = [] ∧
      { scanning 200 with reads := [(0, 200), (1020, 4)] }.reads.tail ≠ [] := by decide +kernel
theorem witness_verifyTested :
    let s := fun r => examining 0 [r] .verify (some (scanning 0))
    (scanning 0).begun = true ∧ (scanning 0).readDone = 0 ∧ (s (bandRec 0 .filled 200 100)).sched.current = none ∧
      band? (s (bandRec 0 .filled 200 100)) 0 = some (bandRec 0 .filled 200 100) ∧ (bandRec 0 .filled 200 100).stamp = (scanning 0).stamp ∧
      band? (s { bandRec 0 .opened 5 0 with stamp := 2 }) 0 = some { bandRec 0 .opened 5 0 with stamp := 2 } ∧
      band? (s (bandRec 0 .retired 200 0)) 0 = some (bandRec 0 .retired 200 0) := by decide +kernel
theorem witness_noticeFetch :
    let f := frame 19 0 0 0 0 0
    ((ready .starting f).link .A).up = true ∧ headRequest .A (ready .starting f) = some f ∧ requestKind f = some .noticeFetch ∧
      f.dataCount.toNat ≤ 1024 := by decide +kernel
theorem witness_attention :
    ((ready .running (frame 19 0 0 0 0 0)).link .A).up = true ∧ ((ready .running (frame 19 0 0 0 0 0)).link .A).notices = [] ∧
      ((placeNotice .freeLow none State.reset).link .A).notices ≠ [] := by decide +kernel
theorem witness_notice_same :
    fullList = (fullList.take 5) ++ { kind := .bandDue, band := some 105, count := 1 } :: fullList.drop 6 ∧
      ∀ m ∈ fullList.take 5, ¬(m.kind = .bandDue ∧ m.band = some 105) := by decide +kernel
theorem witness_notice_joins : (fullList.take 15).length < 16 ∧ ∀ n ∈ fullList.take 15, ¬(n.kind = .retired ∧ n.band = some 9) := by
  decide +kernel
theorem witness_notice_kind :
    16 ≤ fullList.length ∧ (∀ n ∈ fullList, ¬(n.kind = .bandDue ∧ n.band = some 900)) ∧
      fullList = [] ++ { kind := .bandDue, band := some 100, count := 1 } :: fullList.tail := by decide +kernel
theorem witness_notice_several :
    16 ≤ fullList.length ∧ (∀ n ∈ fullList, n.kind ≠ .temperatureStale) ∧
      fullList = fullList.dropLast ++ [{ kind := .freeLow, band := none, count := 1 }] ∧
      ∀ n ∈ fullList, n.count ≤ 65535 := by decide +kernel

/-! ### Witnesses: the channel -/

theorem witness_unawaited :
    Settled (part .running) ∧ ∀ op, Awaits (part .running) op → op.issue ≠ (completion .complete 1 .nothing).issue := by
  refine ⟨by decide +kernel, fun op h => ?_⟩
  exact absurd h.1 (by simp [part, State.reset, Scheduler.reset])
theorem witness_notReady :
    let op := operation .writeRun (.hostWrite 0) 4
    Awaits (busy .running op) op ∧ op.kind = .writeRun ∧ op.issue = (completion .notReady 3 .nothing).issue ∧
      (completion .notReady 3 .nothing).k < op.count - op.issuedFrom := by decide +kernel
theorem witness_offTrack :
    let op := { operation .readRun .relocRead 4 with retries := 2 }
    Awaits (busy .running op) op ∧ op.issue = (completion .offTrack 0 .nothing).issue ∧ op.issuedFrom < op.count ∧
      op.retries < (busy .running op).startup.image.retryLimit := by decide +kernel
theorem witness_writeProgress :
    band? (part .running) 0 = some (bandRec 0 .filled 200 100) ∧ [RunItem.data 0 0 10 9].length = [sector].length ∧
      [sector].getLast? = some sector := by decide +kernel
theorem witness_flush_dead : resolve (mapped (frame 2 0 0 10 10 0)).map.records 10 ≠ some (.staged 7 0) := by decide +kernel
theorem witness_flush_commits :
    resolve [{ start := 1000, len := 100, loc := .staged 7 0 }] 1099 = some (.staged 7 99) := by decide +kernel
/-- A write operation of 4 sectors whose issue began at its second, with r retries. -/
def ending (k : OpKind) (o : Owner) (r : Nat) : Operation :=
  { operation k o 4 with issuedFrom := 1, retries := r }

/-- The completion ends the operation, under a retry limit of 3, with k sectors added and success or failure. -/
def endsWith (op : Operation) (o : MediaOutcome) (n k : Nat) (ok : Bool) : Bool :=
  decide (EndsWrite op 3 (completion o n .nothing) k ok)

theorem witness_endsWrite_success :
    let op := ending .writeRun (.hostWrite 7) 2
    endsWith op .complete 3 3 true = true ∧ endsWith op .notReady 3 3 true = true ∧ endsWith op .offTrack 3 3 true = true ∧
      endsWith op .offTrack 3 3 false = false := by decide +kernel
theorem witness_endsWrite_failure :
    let op := ending .writeRun (.hostWrite 7) 3
    endsWith op .writeFault 3 3 false = true ∧ endsWith op .unreadable 0 0 false = true ∧ endsWith op .offTrack 3 3 false = true ∧
      endsWith op .complete 2 2 false = true ∧ endsWith op .complete 4 0 false = true ∧ endsWith op .offTrack 3 3 true = false := by
  decide +kernel
theorem witness_writeEnds :
    let op := ending .writeRun (.hostWrite 7) 3
    Awaits (busy .running op) op ∧ op.kind = .writeRun ∧ op.issue = (completion .complete 3 .nothing).issue ∧
      (busy .running op).startup.image.retryLimit = 3 ∧ (busy .running op).sched.channelTimer = some 30000 ∧
      (ending .writeRun .relocWrite 3).owner = .relocWrite := by decide +kernel
/-- A part in whose table the parcel given stands, with nothing waiting for a slot or a note entry. -/
def carrying (x : Parcel) : State :=
  staged (fun g => { g with parcels := [x] }) (part .running)

theorem witness_settles :
    let item := RunItem.data 5 1 11 1
    parcel? (carrying (parcelOf 2 0)) (parcelOf 2 0).id = some (parcelOf 2 0) ∧
      ([item].countP fun i => itemParcel i == some 5) = 1 ∧ (parcelOf 2 0).written + 1 ≠ (parcelOf 2 0).length := by decide +kernel
theorem witness_settles_removes :
    let note := { parcelOf 0 0 with kind := .note, length := 9 }
    parcel? (carrying (parcelOf 1 1)) 5 = some (parcelOf 1 1) ∧ (parcelOf 1 1).written + 1 = (parcelOf 1 1).length ∧
      parcel? (carrying (parcelOf 0 0)) 5 = some (parcelOf 0 0) ∧ (parcelOf 0 0).written = 0 ∧ (parcelOf 0 0).live = 0 ∧
      parcel? (carrying note) 5 = some note ∧ note.written + ([RunItem.note 5 10 9 1].countP fun i => itemParcel i == some 5) = 1 ∧
      (carrying note).agenda.freed = [] ∧ (carrying note).staging.slotWait = [] ∧ (carrying note).staging.noteWait = [] := by
  decide +kernel
/-- The read run of one FETCH over blocks 10 to 13, at offsets 1 to 4 of band 0. -/
def fetchRun : ReadRun :=
  { fetch := 9, pos := 2, lbn := 10, band := 0, stamp := 1, zone := zone, first := 1, count := 4, completed := 0, pinned := true }

theorem witness_checkFetched :
    checkFetched fetchRun 0 sector = .data 3 ∧ checkFetched fetchRun 1 sector = .excepted .mismatch ∧
      checkFetched fetchRun 0 { sector with trailer := { sector.trailer with stamp := 2 } } = .excepted .mismatch := by decide +kernel

/-- A part with a read operation of that FETCH current, retried r times from its sector n on, and band 0 pinned twice. -/
def fetching (n r : Nat) : State :=
  { scheduled
      (fun x => { x with readQueue := [fetchRun], fetches := [{ fetchRecord 2 4 with answers := List.replicate 6 .waiting }] })
      (busy .running { operation .readRun (.fetch 9 2) 4 with issuedFrom := n, retries := r }) with
    table := { (part .running).table with bands := [{ bandRec 0 .filled 200 100 with pins := 2 }] } }

theorem witness_fetchedRun :
    let op := { operation .readRun (.fetch 9 2) 4 with issuedFrom := 3 }
    let s := fetching 3 0
    Awaits s op ∧ op.owner = .fetch fetchRun.fetch fetchRun.pos ∧ op.issue = (completion .complete 1 (.sectors [sector])).issue ∧
      op.issuedFrom ≤ op.count ∧ (completion .complete 1 (.sectors [sector])).k = op.count - op.issuedFrom ∧
      readRun? s fetchRun.fetch fetchRun.pos = some fetchRun ∧
      s.sched.fetches = [{ fetchRecord 2 4 with answers := List.replicate 6 .waiting }] ∧ (fetchRecord 2 4).id = fetchRun.fetch ∧
      2 ≤ (fetchRecord 2 4).runsLeft ∧ s.sched.readWait = [] ∧ fetchRun.pinned = true ∧
      band? s fetchRun.band = some { bandRec 0 .filled 200 100 with pins := 2 } := by decide +kernel
theorem witness_fetchedException :
    let op := { operation .readRun (.fetch 9 2) 4 with issuedFrom := 2, retries := 3 }
    Awaits (fetching 2 3) op ∧ op.issue = (completion .unreadable 0 .nothing).issue ∧ (completion .unreadable 0 .nothing).k = 0 ∧
      (fetching 2 3).startup.image.retryLimit ≤ op.retries ∧ op.issuedFrom + 1 < op.count := by decide +kernel
theorem witness_geometry :
    let op := operation .geometry .startUp 1
    let g : GeometryRecord := { capacity := 58000, zones := [zone] }
    Awaits (busy .starting op) op ∧ op.issue = (completion .complete 1 (.geometry g)).issue ∧ op.issuedFrom = 0 ∧ op.count = 1 ∧
      geometryAccepted g = true ∧ geometryClamped g = true ∧ geometryAccepted { g with capacity := 0 } = false := by decide +kernel
theorem witness_systemRead :
    let op := operation .systemRead .startUp 1
    Awaits (busy .starting op) op ∧ op.issue = (completion .complete 1 (.record zeroBlock)).issue ∧ op.issuedFrom = 0 ∧ op.count = 1 ∧
      recordValid zeroBlock = false := by decide +kernel
theorem witness_settingsRecord :
    Settings.default.inRange = true ∧ recordValid (settingsRecord Settings.default) = true ∧
      recordImage (settingsRecord Settings.default) = Settings.default := by decide +kernel
theorem witness_staleness : State.reset.sched.staleTimer = some 4000 := by decide

/-! ### Witnesses: arbitration and write runs -/

/-- Eighty EMPTY bands after three. -/
def emptyBands : List Band :=
  (List.range 80).map fun i => bandRec (3 + i) .empty 0 0

theorem witness_busyChannel : (busy .running (operation .readRun .relocRead 4)).sched.current ≠ none := by decide +kernel
/-- A part in STARTING with a stage, the channel free. -/
def starting (x : StartStage) : State :=
  { part .starting with startup := { (part .starting).startup with stage := x } }

theorem witness_rank1 :
    let r : BandRebuild :=
      { band := 0, phase := .header, first := 0, count := 1, buffer := [], stamp := 0, openSeq := 0, lastChain := none, pred := none
        firstBreak := none, unreadable := [] }
    (starting .geometry).sched.current = none ∧ (starting .settings).startup.stage = .settings ∧
      (starting (.rebuild r)).startup.stage = .rebuild r ∧ band? (starting (.rebuild r)) r.band = some (bandRec 0 .filled 200 100) ∧
      saving.startup.stage = .finished ∧ saving.startup.savesQueued ≠ [] := by decide +kernel

/-- A part that drains band 0 with the chunk given, of which the relocation stream has a band or none, with EMPTY bands in number. -/
def relocating (k : Chunk) (band : Option Nat) (empty : List Band) : State :=
  let s := part .running
  { s with
    table := { s.table with bands := [bandRec 0 .draining 12 10, { bandRec 1 .opened 1018 0 with owner := some .relocation }] ++ empty }
    alloc := { s.alloc with reloc := { s.alloc.reloc with openBand := band } }
    engine := { s.engine with activity := .drain, victim := some 0, chunk := some k } }

/-- A chunk in a stage, with three DATA copies to be written. -/
def copying (st : ChunkStage) : Chunk :=
  { first := 1, last := 11, stage := st, buffer := []
    copies := (List.range 3).map fun i =>
      { kind := .data, victimOffset := 1 + i, lbn := 10 + i, length := 1, seq := 9, payload := 3, check := 3, state := .unwritten } }

theorem witness_rank2 :
    let s := relocating (copying .reading) none []
    s.sched.current = none ∧ s.startup.stage = .finished ∧ s.startup.savesQueued = [] ∧ freeBands s ≤ s.startup.image.criticalMark ∧
      relocPending s = some (.read 0 1 11 0) ∧ band? s 0 = some (bandRec 0 .draining 12 10) := by decide +kernel
theorem witness_rank3 :
    let s := scheduled (fun x => { x with readQueue := [readRun, { readRun with completed := 1 }] }) (part .running)
    relocPending s = none ∧ (s.sched.readQueue.find? fun r => 1 ≤ r.completed) = some { readRun with completed := 1 } ∧
      ([readRun].find? fun r => 1 ≤ r.completed) = none ∧ [readRun].head? = some readRun := by decide +kernel
theorem witness_rank4 :
    let s := scheduled (fun x => { x with summaries := [0] }) (streaming (closing 4 false) false)
    s.sched.summaries = [0] ∧ band? s 0 = some (closing 4 false) ∧ (closing 4 false).owner = some (.host 7) ∧
      s.sched.readQueue = [] ∧ s.sched.current = none := by decide +kernel

/-- A parcel of two blocks in slot n, of stream 7. -/
def slotParcel (n live : Nat) : Parcel :=
  { id := n, kind := .data, port := .A, stream := 7, start := 10 * n, length := 2, seq := 1, live := live, written := 0, state := .queued
    acceptedAt := 0 }

/-- A part with parcels in the queue of stream 7, whose band has the record given, or with none, in HALTING. -/
def flushing (band : Option Nat) (bands : List Band) (ps : List Parcel) : State :=
  let s := part .halting
  { s with
    table := { s.table with bands := bands }
    staging := { s.staging with parcels := ps }
    alloc :=
      { s.alloc with hosts := s.alloc.hosts.set 7 { s.alloc.hosts[7] with openBand := band, queue := ps.map fun x => x.id } } }

/-- What the host streams answer in rank 5. -/
def hostsOf (s : State) : State × Bool :=
  selectHosts ((List.finRange 8).map fun i => s.sched.pointer + i + 1) s

theorem witness_rank5 :
    (hostsOf (flushing (some 0) [owned] [slotParcel 0 2])).2 = true ∧
      (hostsOf (flushing (some 0) [owned] [slotParcel 0 0])).2 = false ∧
      relocPending (hostsOf (flushing (some 0) [owned] [slotParcel 0 0])).1 = none := by decide +kernel
theorem witness_rank6 :
    let s := relocating (copying .reading) none emptyBands
    s.startup.image.criticalMark < freeBands s ∧ s.table.due.length < s.startup.image.backlogLimit ∧ (hostsOf s).2 = false ∧
      relocPending (hostsOf s).1 = some (.read 0 1 11 0) := by decide +kernel
theorem witness_selectHosts :
    let s := flushing (some 0) [owned] [slotParcel 0 2]
    flushEligible s 7 = true ∧ 1 ≤ freeRecords s ∧ (selectHost 7 s).2 = true ∧ flushEligible s 0 = false ∧
      flushEligible (flushing (some 0) [owned] [slotParcel 0 0]) 7 = true ∧
      (selectHost 7 (flushing (some 0) [owned] [slotParcel 0 0])).2 = false := by decide +kernel
theorem witness_relocPending :
    let s := engaged .patrol 1 (frame 19 0 0 0 0 0)
    s.startup.engine ≠ .halted ∧ s.engine.scan = some (scanning 1) ∧ (scanning 1).reads = (0, 200) :: [] ∧
      (∃ c ∈ (copying .writing).copies, c.state = .unwritten) ∧ freeBands (relocating (copying .writing) none []) = 0 ∧
      (relocating (copying .writing) none (emptyBands.take 1)).alloc.reloc.openBand = none ∧
      freeBands (relocating (copying .writing) none (emptyBands.take 1)) = 1 := by decide +kernel
theorem witness_composerDrops :
    let s := flushing (some 0) [owned] [slotParcel 0 0, slotParcel 1 2]
    s.alloc.hosts[(7 : Fin 8)].queue.head? = some 0 ∧ parcel? s 0 = some (slotParcel 0 0) ∧ (slotParcel 0 0).live = 0 ∧
      (removeParcel 0 s).alloc.hosts[(7 : Fin 8)].queue = [1] ∧ parcel? s 1 = some (slotParcel 1 2) ∧ (slotParcel 1 2).live ≠ 0 ∧
      (flushing none [] []).alloc.hosts[(7 : Fin 8)].queue = [] := by decide +kernel
/-- Of candidates in three zones, one in each of 0 and 2 and two in 1, SPREAD takes the first of zone 1, OUTER of zone 0, INNER of zone 2. -/
theorem witness_bandChoice :
    let r := fun n z : Nat => { bandRec n .empty 0 0 with zone := z }
    let s := flushing none [r 0 2, r 1 1, r 2 1, r 3 0] []
    2 < freeBands s ∧ chooseHostBand s { order := .spread, cold := false } = some 1 ∧
      chooseHostBand s { order := .outer, cold := false } = some 3 ∧ chooseHostBand s { order := .inner, cold := true } = some 0 ∧
      freeBands (flushing none [r 0 2, r 1 1] []) ≤ 2 := by decide +kernel

/-- The sectors left and the room of a run of parcels of two blocks into band 0 from wp, of which n are placed whole. -/
def fits (wp n : Nat) : Prop :=
  let s := flushing (some 0) [{ owned with wp := wp }] [slotParcel 0 2, slotParcel 1 2]
  s.alloc.hosts[(7 : Fin 8)].openBand = some 0 ∧ band? s 0 = some { owned with wp := wp } ∧
    2 * n ≤ (if wp = 0 then min (bandC s owned - 5) 1023 else min (bandC s owned - 4 - wp) 1024)

theorem witness_hostRun :
    let s := flushing (some 0) [{ owned with wp := 1017 }] [slotParcel 0 2, slotParcel 1 2]
    s.alloc.hosts[(7 : Fin 8)].queue = [0, 1] ∧ parcel? s 0 = some (slotParcel 0 2) ∧ parcel? s 1 = some (slotParcel 1 2) ∧ fits 0 2 ∧
      fits 1016 2 ∧ ¬fits 1017 2 ∧ fits 1017 1 ∧ ¬fits 1019 1 ∧ fits 1019 0 := by unfold fits; decide +kernel
/-- From wp 1,017 the second parcel is split, a note behind a first parcel that fills the run ends it, and at wp 0 a header leads. -/
theorem witness_hostRun_items :
    let run := fun wp ps => ((selectHost 7 (flushing (some 0) [{ owned with wp := wp }] ps)).1.sched.current.map fun op => op.items)
    run 1017 [slotParcel 0 2, slotParcel 1 2] = some [.data 0 0 0 1, .data 0 1 1 1, .data 1 0 10 1] ∧
      run 1018 [slotParcel 0 2, { slotParcel 1 0 with kind := .note }] = some [.data 0 0 0 1, .data 0 1 1 1] ∧
      run 0 [slotParcel 0 2] = some [.header, .data 0 0 0 1, .data 0 1 1 1] := by decide +kernel
theorem witness_hostTakesBand :
    let s := flushing none emptyBands [slotParcel 0 2]
    s.alloc.hosts[(7 : Fin 8)].openBand = none ∧ (takeHostBand 7 s).isSome = true ∧
      ((takeHostBand 7 s).bind fun u => (u.alloc.hosts[(7 : Fin 8)].openBand)) = some 3 ∧
      takeHostBand 7 (flushing none [bandRec 0 .empty 0 0, bandRec 1 .empty 0 0] [slotParcel 0 2]) = none := by decide +kernel
theorem witness_relocRun :
    let s := relocating (copying .writing) (some 1) []
    s.alloc.reloc.openBand = some 1 ∧ band? s 1 = some { bandRec 1 .opened 1018 0 with owner := some .relocation } ∧
      s.engine.chunk = some (copying .writing) ∧
      ((issueReloc .write s).sched.current.map fun op => op.items) = some [.copy 1 10 9, .copy 2 11 9] := by decide +kernel
theorem witness_relocTakesBand :
    let s := relocating (copying .writing) none [bandRec 2 .empty 0 0]
    s.alloc.reloc.openBand = none ∧ chooseRelocBand s = some 2 ∧ band? s 2 = some (bandRec 2 .empty 0 0) := by decide +kernel

/-! ### Witnesses: timers -/

theorem witness_channelTimer :
    let op := { operation .summary .summaryRun 4 with retries := 2, issuedFrom := 3 }
    Awaits (busy .running op) op ∧ (busy .running op).sched.channelTimer = some 30000 ∧ op.issuedFrom < op.count ∧
      op.retries < (busy .running op).startup.image.retryLimit := by decide +kernel
theorem witness_notReadyWait :
    let op := { operation .writeRun (.hostWrite 0) 4 with awaiting := false, wait := some 1000 }
    (busy .running op).sched.current = some op ∧ op.wait = some 1000 := by decide +kernel

/-- A part in which port A's PLACE waits for a slot, with the free slots given. -/
def waiting (custody : Nat) (free : List Nat) : State :=
  let s := ready .running (frame 1 custody 0 10 2 2)
  { staged (fun x => { x with freeSlots := free, slotWait := [{ port := .A, deadline := 2000 }] }) s with
    links := s.links.set .A { s.link .A with holding := true } }

theorem witness_slotWait :
    ((waiting 1 []).link .A).up = true ∧ ((waiting 1 []).link .A).queue.head? = some (frame 1 1 0 10 2 2) ∧
      ((waiting 1 []).staging.slotWait ++ (waiting 1 []).staging.noteWait).find? (fun w => w.port = .A) =
        some { port := .A, deadline := 2000 } := by decide +kernel

/-- A DATA parcel of port A at LBN 10. -/
def parcel : Parcel :=
  { id := 0, kind := .data, port := .A, stream := 7, start := 10, length := 2, seq := 1, live := 2, written := 0, state := .queued
    acceptedAt := 0 }

/-- That part with stream 7's band OPEN, a parcel queued on it, and the idle timer running. -/
def aging : State :=
  { opened with
    staging := { opened.staging with parcels := [parcel] }
    alloc := { opened.alloc with hosts := opened.alloc.hosts.set 7 { opened.alloc.hosts[7] with queue := [0] } }
    engine := { opened.engine with idleTimer := some 500 } }

theorem witness_idleTimer : aging.engine.idleTimer = some 500 := by decide +kernel
theorem witness_ageLimit :
    (queueParcels aging 7).head? = some parcel ∧ aging.alloc.hosts[(7 : Fin 8)].openBand = some 0 ∧ band? aging 0 = some owned ∧
      owned.state = .opened := by decide +kernel
theorem witness_geometryRetry :
    let s : State := { State.reset with startup := { State.reset.startup with stage := .geometryWait 1000 } }
    s.startup.stage = .geometryWait 1000 ∧ s.startup.engine = .starting ∧ s.sched.current = none ∧
      s.agenda = { freed := [], offered := false, choice := false } ∧ s.engine.scan = none := by decide +kernel

/-! ### Witnesses: follow-on steps -/

theorem witness_handed :
    (waiting 1 [3, 4]).staging.slotWait = [{ port := .A, deadline := 2000 }] ∧ (waiting 1 [3, 4]).staging.freeSlots = 3 :: [4] ∧
      ((waiting 1 [3, 4]).link .A).queue.head? = some (frame 1 1 0 10 2 2) ∧ ((waiting 1 [3, 4]).link .A).up = true ∧
      (waiting 1 [3, 4]).staging.seqCounter < 2 ^ 48 - 1 ∧
      retakeCheck (waiting 1 [3, 4]) .A .place (frame 1 1 0 10 2 2) = none := by decide +kernel
theorem witness_handed_refused :
    (waiting 2 [3]).staging.slotWait = [{ port := .A, deadline := 2000 }] ∧ (waiting 2 [3]).staging.freeSlots = [3] ∧
      ((waiting 2 [3]).link .A).queue.head? = some (frame 1 2 0 10 2 2) ∧ (waiting 2 [3]).staging.seqCounter < 2 ^ 48 - 1 ∧
      retakeCheck (waiting 2 [3]) .A .place (frame 1 2 0 10 2 2) = some .staleCustody := by decide +kernel

theorem witness_handed_spent :
    let s := staged (fun x => { x with seqCounter := 2 ^ 48 - 1 }) (waiting 1 [3])
    s.staging.slotWait = [{ port := .A, deadline := 2000 }] ∧ s.staging.freeSlots = [3] ∧
      (s.link .A).queue.head? = some (frame 1 1 0 10 2 2) ∧ retakeCheck s .A .place (frame 1 1 0 10 2 2) = none ∧
      2 ^ 48 - 1 ≤ s.staging.seqCounter := by decide +kernel

/-- A part in which port A's RELEASE from block l on waits for a note entry, with entries 3 and 4 free. -/
def waitingNote (custody l q : Nat) : State :=
  let s := mapped (frame 3 custody 0 l 1 0)
  { staged (fun x => { x with freeNotes := [3, 4], noteWait := [{ port := .A, deadline := 2000 }], seqCounter := q }) s with
    links := s.links.set .A { s.link .A with holding := true } }

/-- The premises of a RELEASE that is handed a note entry. -/
def noteHanded (custody l q : Nat) : Prop :=
  let s := waitingNote custody l q
  s.staging.slotWait = [] ∧ s.staging.noteWait = [{ port := .A, deadline := 2000 }] ∧ s.staging.freeNotes = 3 :: [4] ∧
    (s.link .A).queue.head? = some (frame 3 custody 0 l 1 0) ∧ (s.link .A).up = true

/-- What the checks of its take give again. -/
def noteRetake (custody l q : Nat) : Option Status :=
  retakeCheck (waitingNote custody l q) .A .release (frame 3 custody 0 l 1 0)

theorem witness_noteHanded :
    noteHanded 1 19 (2 ^ 48 - 2) ∧ noteRetake 1 19 (2 ^ 48 - 2) = none ∧
      unitMapped (waitingNote 1 19 (2 ^ 48 - 2)) (frame 3 1 0 19 1 0) = true := by unfold noteHanded; decide +kernel
theorem witness_noteHanded_unmapped :
    noteHanded 1 20 1 ∧ noteRetake 1 20 1 = none ∧ unitMapped (waitingNote 1 20 1) (frame 3 1 0 20 1 0) = false := by
  unfold noteHanded; decide +kernel
theorem witness_noteHanded_refused :
    noteHanded 2 19 1 ∧ noteRetake 2 19 1 = some .staleCustody ∧ noteHanded 1 19 (2 ^ 48 - 1) ∧ noteRetake 1 19 (2 ^ 48 - 1) = none := by
  unfold noteHanded; decide +kernel

/-- A part with port A's FETCH on the read wait list, behind n queued read runs. -/
def fetchHeld (n : Nat) : State :=
  scheduled (fun x => { x with readWait := [.A], readQueue := List.replicate n readRun }) (mapped (frame 2 0 0 10 10 0))

theorem witness_heldFetch :
    (fetchHeld 63).sched.readWait = [.A] ∧ ((fetchHeld 63).link .A).queue.head? = some (frame 2 0 0 10 10 0) ∧
      fetchRuns (fetchHeld 63) (frame 2 0 0 10 10 0) ≠ [] ∧
      (fetchHeld 63).sched.readQueue.length + (fetchRuns (fetchHeld 63) (frame 2 0 0 10 10 0)).length ≤ 64 ∧
      runBlocks (fetchRuns (fetchHeld 63) (frame 2 0 0 10 10 0)) ≤ readBufferFree (fetchHeld 63) := by decide +kernel
theorem witness_heldFetch_stays :
    (fetchHeld 64).sched.readWait = [.A] ∧ ((fetchHeld 64).link .A).queue.head? = some (frame 2 0 0 10 10 0) ∧
      fetchRuns (fetchHeld 64) (frame 2 0 0 10 10 0) ≠ [] ∧
      ¬(fetchHeld 64).sched.readQueue.length + (fetchRuns (fetchHeld 64) (frame 2 0 0 10 10 0)).length ≤ 64 := by decide +kernel
theorem witness_halted :
    (part .halting).engine.chunk = none ∧ (part .halting).startup.engine = .halting ∧ (part .halting).staging.parcels = [] ∧
      (part .halting).sched.summaries = [] ∧ (part .halting).sched.current = none ∧ (part .halting).engine.scan = none := by decide +kernel
theorem witness_notHalted :
    let s := { part .halting with engine := { (part .halting).engine with activity := .patrol, scan := some (scanning 1) } }
    s.engine.chunk = none ∧ s.startup.engine = .halting ∧ s.engine.scan = some (scanning 1) ∧ (scanning 1).readDone ≠ 0 := by
  decide +kernel
theorem witness_endedFetch :
    let s := scheduled (fun x => { x with fetches := [fetchRecord 0 10] }) (mapped (frame 19 0 0 0 0 0))
    s.sched.fetches = [fetchRecord 0 10] ∧ (fetchRecord 0 10).runsLeft = 0 ∧ (fetchRecord 0 10).requester.orphaned = false ∧
      (s.link .A).up = true ∧ s.sched.readWait = [] := by decide +kernel
theorem witness_lastPin :
    band? (part .running) 1 = some (bandRec 1 .draining 50 0) ∧ (bandRec 1 .draining 50 0).pins = 0 ∧
      (bandRec 1 .draining 50 0).causes.retire = false ∧ (part .running).engine.victim ≠ some 1 := by decide +kernel
theorem witness_lastPin_retires :
    let r := { bandRec 0 .draining 50 0 with causes := { Causes.none with retire := true } }
    let s : State := { part .running with table := { (part .running).table with bands := [r] } }
    band? s 0 = some r ∧ r.state = .draining ∧ r.pins = 0 ∧ r.causes.retire = true ∧ s.engine.victim ≠ some 0 := by decide +kernel
theorem witness_lastPin_filled :
    let s : State := { part .running with table := { (part .running).table with bands := [bandRec 0 .filled 200 0] } }
    s.startup.engine ≠ .starting ∧ band? s 0 = some (bandRec 0 .filled 200 0) ∧ (bandRec 0 .filled 200 0).pins = 0 ∧
      (bandRec 0 .filled 200 0).state = .filled ∧ (bandRec 0 .filled 200 0).live = 0 ∧ (bandRec 0 .filled 200 0).notes = 0 := by
  decide +kernel
theorem witness_lastPin_nothing :
    (part .starting).startup.engine = .starting ∧ band? (part .running) 3 = none ∧
      band? (part .running) 0 = some (bandRec 0 .filled 200 100) ∧ (bandRec 0 .filled 200 100).live ≠ 0 ∧
      { bandRec 1 .draining 50 0 with pins := 1 }.pins ≠ 0 := by decide +kernel

/-! ### Witnesses: the choice of work -/

/-- A part with the idle flag set, whose patrol pointer stands at a band. -/
def idle (pointer : Nat) (bands : List Band) : State :=
  { part .running with
    table := { (part .running).table with bands := bands }
    engine := { (part .running).engine with idleFlag := true, patrolPointer := pointer } }

/-- An IDLE part in RUNNING, with its bands and its due list. -/
def choosing (bands : List Band) (due : List Nat) (wait : Bool) : State :=
  { part .running with
    table := { (part .running).table with bands := bands, due := due }
    engine := { (part .running).engine with recoveryWait := wait } }

theorem witness_dueVictim :
    let s := choosing (part .running).table.bands [1, 0] false
    s.engine.activity = .idle ∧ s.startup.engine = .running ∧ s.engine.recoveryWait = false ∧
      (s.table.due.find? fun n => (s.table.bands[n]?.any fun x => x.state = .filled)) = some 0 ∧
      s.table.bands[0]? = some (bandRec 0 .filled 200 100) ∧ 2 ≤ (bandRec 0 .filled 200 100).wp := by decide +kernel
theorem witness_dueVictim_least : 2 ≤ (bandRec 0 .filled 2 1).wp ∧ ¬2 ≤ (bandRec 0 .filled 1 0).wp := by decide
/-- Of bands of equal live + notes the first is cleaned; a band without dead sectors, but with live blocks, is not. -/
theorem witness_cleaned :
    let pre := [bandRec 0 .filled 200 100, bandRec 1 .filled 41 40]
    let s := choosing (pre ++ bandRec 2 .filled 200 50 :: [bandRec 3 .filled 200 50]) [] false
    (s.table.due.find? fun n => (s.table.bands[n]?.any fun x => x.state = .filled)) = none ∧ freeBands s ≤ s.startup.image.lowMark ∧
      (bandRec 2 .filled 200 50).number = pre.length ∧ 1 ≤ (bandRec 2 .filled 200 50).wp - 1 - 50 - 0 ∧
      ¬(1 ≤ (bandRec 1 .filled 41 40).wp - 1 - 40 - 0 ∨ (bandRec 1 .filled 41 40).live = 0) ∧ cleaningVictim s = some 2 := by
  decide +kernel
theorem witness_verifyChosen :
    let s := examining 0 ([bandRec 0 .filled 200 199, bandRec 1 .retired 50 0, bandRec 2 .empty 0 0] ++ emptyBands) .idle none
    s.engine.verifyQueue ≠ [] ∧ s.startup.image.lowMark < freeBands s ∧
      (s.table.due.find? fun n => (s.table.bands[n]?.any fun x => x.state = .filled)) = none := by decide +kernel
/-- Of bands of equal exposure, at the pull-in mark, the first is pulled in. -/
theorem witness_pulledIn :
    let r := fun n e : Nat => { bandRec n .filled 200 199 with exposure := e }
    let pre := [r 0 29999]
    let s := idle 0 (pre ++ r 1 30000 :: (r 2 30000 :: emptyBands))
    s.engine.recoveryWait = false ∧ s.startup.image.lowMark < freeBands s ∧ s.engine.verifyQueue = [] ∧ s.engine.idleFlag = true ∧
      s.table.due = [] ∧ (r 1 30000).number = pre.length ∧ coldMasked s 1 = false ∧ 3 * s.startup.image.threshold / 4 = 30000 ∧
      (r 1 30000).causes = { exposure := false, brk := false, media := false, retire := false } ∧ pullInTest s = some 1 := by
  decide +kernel
theorem witness_nothingChosen :
    let s := choosing (part .running).table.bands [0] true
    s.engine.recoveryWait = true ∧ s.engine.verifyQueue = [] ∧ s.engine.idleFlag = false ∧ s.table.due ≠ [] := by decide +kernel

/-! ### Witnesses: the relocation engine -/

/-- A DATA copy of the sector at victim offset 1. -/
def copyOf (st : CopyState) : Copy :=
  { kind := .data, victimOffset := 1, lbn := 10, length := 1, seq := 9, payload := 3, check := 3, state := st }

/-- A part that drains band 0, of 10 blocks at offsets 1 to 10, with offset 11 unreadable, and writes into band 1. -/
def draining (k : Chunk) (m : List Extent) : State :=
  { part .running with
    map := { records := m, held := false }
    table := { (part .running).table with bands := [bandRec 0 .draining 12 10, bandRec 1 .opened 1 0] }
    engine :=
      { (part .running).engine with
        activity := .drain, victim := some 0, reason := some .due
        scan := some { scanning 0 with state := .draining, reads := [], unreadable := [11], runUnreadable := [11] }
        chunk := some k } }

/-- The chunk of a drain, with what has been read and the copies made from it. -/
def chunkOf (st : ChunkStage) (buffer : List (Option Sector)) (copies : List Copy) : Chunk :=
  { first := 1, last := 11, stage := st, buffer := buffer, copies := copies }

/-- Blocks 10 to 19 at offsets 1 to 10 of band 0. -/
def tenBlocks : List Extent :=
  [{ start := 10, len := 10, loc := .media 0 1 }]

/-- A map of n records that leaves no room for a cut of its first one: three blocks in band 0, and LOST blocks that do not touch. -/
def fullMap (n : Nat) : List Extent :=
  { start := 10, len := 3, loc := .media 0 1 } ::
    (List.range n).map fun i => { start := 2 * i + 14, len := 1, loc := .lost }

theorem fullMap_ok (n : Nat) : mapOrdered (fullMap n) = true := by
  refine (mapOrdered_iff _).mpr ⟨by simp [fullMap], List.isChain_cons.mpr ⟨fun y hy => ?_, List.Pairwise.isChain ?_⟩⟩
  · obtain ⟨i, -, rfl⟩ := List.mem_map.mp (List.mem_of_mem_head? hy)
    exact ⟨by simp only; omega, by simp [mergeable]⟩
  · rw [List.pairwise_map]
    refine List.Pairwise.imp (fun {i j} hij => ?_) List.pairwise_lt_range
    exact ⟨by simp only; omega, by simp only [mergeable, Bool.and_eq_false_iff, decide_eq_false_iff_not]; left; omega⟩

theorem fullMap_cut (n : Nat) (loc : Location) (h : ∀ b o, loc = .media b o → b ≠ 0) :
    (changeRange 11 12 [{ start := 11, len := 1, loc := loc }] (fullMap (n + 1))).length = n + 4 := by
  have h1 : ∀ r ∈ (List.range (n + 1)).map fun i => ({ start := 2 * i + 14, len := 1, loc := .lost } : Extent), 14 ≤ r.start := by
    intro r hr; obtain ⟨i, -, rfl⟩ := List.mem_map.mp hr; simp only; omega
  simp only [changeRange, if_neg (show ¬12 ≤ 11 by decide)]
  rw [filter_before 11 12 (by decide), filter_after 11 12 (by decide), fullMap, beforePart, afterPart,
    beforePart_nil 11 _ (fun r hr => Nat.le_trans (by decide) (h1 r hr)),
    afterPart_all 12 _ (fun r hr => Nat.le_trans (by decide) (h1 r hr)),
    List.range_succ_eq_map]
  cases loc with
  | media b o =>
    have hb := h b o rfl
    simp [sealBefore, sealAfter, glue, mergeable, Location.shift, hb, Ne.symm hb]
  | staged q i => simp [sealBefore, sealAfter, glue, mergeable, Location.shift]
  | lost => simp [sealBefore, sealAfter, glue, mergeable, Location.shift]

theorem witness_decide_copies :
    let s := draining (chunkOf .reading [some sector] []) tenBlocks
    mapOrdered s.map.records = true ∧ band? s 0 = some (bandRec 0 .draining 12 10) ∧ searchLocation s.map.records 0 1 = some 10 ∧
      sector.trailer.kind = 2 ∧ sector.trailer.band.toNat = 0 ∧ sector.trailer.stamp.toNat = 1 ∧ sector.trailer.logical.toNat = 10 := by
  decide +kernel
theorem witness_decide_loses :
    let s := draining (chunkOf .reading [none] []) tenBlocks
    searchLocation s.map.records 0 10 = some 19 ∧ sector.trailer.logical.toNat ≠ 19 ∧
      (lostBlock 19 s.map.records).length ≤ s.map.records.length + freeRecords s := by decide +kernel
/-- A map of 1,048,576 records has no room for the two that a cut inside its first record adds. -/
theorem fullMap_noRoom (k : Chunk) (loc : Location) (hl : ∀ b o, loc = .media b o → b ≠ 0) :
    ∃ m, mapOrdered m = true ∧ searchLocation m 0 2 = some 11 ∧ resolve m 11 = some (.media 0 2) ∧
      ¬(changeRange 11 12 [{ start := 11, len := 1, loc := loc }] m).length ≤ m.length + freeRecords (draining k m) := by
  obtain ⟨n, h⟩ : ∃ n, n + 2 = Config.mapCapacity := ⟨Config.mapCapacity - 2, by decide⟩
  refine ⟨fullMap (n + 1), fullMap_ok _, by simp [fullMap, searchLocation], by simp [fullMap, resolve_cons, Location.shift], ?_⟩
  have hc := fullMap_cut n loc hl
  have hn : (fullMap (n + 1)).length = n + 2 := by simp [fullMap]
  show ¬_ ≤ (fullMap (n + 1)).length + (Config.mapCapacity - ((fullMap (n + 1)).length + 0))
  rw [hc, hn, ← h]
  omega

theorem witness_decide_ends :
    ∃ m, mapOrdered m = true ∧ searchLocation m 0 2 = some 11 ∧
      ¬(lostBlock 11 m).length ≤ m.length + freeRecords (draining (chunkOf .reading [none] []) m) :=
  have ⟨m, h1, h2, _, h3⟩ := fullMap_noRoom (chunkOf .reading [none] []) .lost (by simp)
  ⟨m, h1, h2, h3⟩

/-- A NOTE sector of band 0's life, of sequence 9. -/
def noteRead : Sector :=
  { sector with trailer := { sector.trailer with kind := 3 } }

theorem witness_decide_notes :
    searchLocation tenBlocks 0 11 = none ∧ searchLocation tenBlocks 0 0 = none ∧ noteRead.trailer.kind = 3 ∧
      noteRead.trailer.band.toNat = 0 ∧ noteRead.trailer.stamp.toNat = 1 ∧ 9 ≤ noteRead.trailer.sequence.toNat ∧
      ¬10 ≤ noteRead.trailer.sequence.toNat := by decide +kernel

/-- A NOTE sector of another life of band 0. -/
def noteStale : Sector :=
  { noteRead with trailer := { noteRead.trailer with stamp := 2 } }

theorem witness_decide_noteFails :
    noteStale.trailer.kind = 3 ∧ noteStale.trailer.band.toNat = 0 ∧ noteStale.trailer.stamp.toNat ≠ 1 ∧
      searchLocation tenBlocks 0 11 = none := by decide +kernel
/-- A note of another life at offset 11, of which the map places no block, is not copied, and gives the victim MEDIA (R138, R143). -/
theorem test_failing_note_raises_media :
    let k := chunkOf .reading (List.replicate 10 (some sector) ++ [some noteStale]) []
    let s := draining k tenBlocks
    let s := { s with engine := { s.engine with scan := s.engine.scan.map fun c => { c with unreadable := [], runUnreadable := [] } } }
    (band? (endChunkRead s) 0).map (fun r => r.causes.media) = some true ∧
      ((endChunkRead s).engine.scan.map fun c => c.unreadable) = some [11] := by decide +kernel
theorem witness_chunkEnds :
    let k := chunkOf .reading (some sector :: List.replicate 10 none) []
    let s := draining k tenBlocks
    let t := decideChunk 0 1 (lowWaterOf 0 s) 1 k.buffer [] { s with engine := { s.engine with lowWater := some (lowWaterOf 0 s) } }
    s.engine.victim = some 0 ∧ s.engine.chunk = some k ∧ t.1 = [copyOf .unwritten] ∧ t.2.1 = false ∧ t.2.2.engine.scan.isSome ∧
      band? t.2.2 0 = some (bandRec 0 .draining 12 1) := by decide +kernel
theorem witness_lowWater :
    let s := staged (fun x => { x with parcels := [{ parcelOf 2 0 with seq := 4 }] }) (draining (chunkOf .reading [] []) tenBlocks)
    (∃ x ∈ s.staging.parcels, x.seq = 4) ∧ lowWaterOf 0 s = 4 ∧
      (draining (chunkOf .reading [] []) tenBlocks).staging.parcels = [] ∧
      ∀ r ∈ (draining (chunkOf .reading [] []) tenBlocks).table.bands, r.minSeq = none := by decide +kernel
theorem witness_commit :
    let s := draining (chunkOf .writing [] [copyOf .inFlight]) tenBlocks
    resolve s.map.records 10 = some (.media 0 1) ∧ resolve s.map.records 10 ≠ some (.media 0 2) ∧
      band? s 0 = some (bandRec 0 .draining 12 10) ∧
      band? s 1 = some (bandRec 1 .opened 1 0) ∧ (commitBlock 10 1 1 s.map.records).length ≤ s.map.records.length + freeRecords s := by
  decide +kernel
theorem witness_commit_notMade :
    ∃ m, resolve m 11 = some (.media 0 2) ∧
      ¬(commitBlock 11 1 1 m).length ≤ m.length + freeRecords (draining (chunkOf .writing [] [copyOf .inFlight]) m) :=
  have ⟨m, _, _, h2, h3⟩ := fullMap_noRoom (chunkOf .writing [] [copyOf .inFlight]) (.media 1 1) (by simp)
  ⟨m, h2, h3⟩

/-- What the commits of a run answer that writes the copy at offset 1 of band 1 and then one more. -/
def committed (m : List Extent) : Bool × State :=
  commitCopies 0 1 1 [.copy 1 10 9]
    (draining (chunkOf .writing [] [copyOf .inFlight, { copyOf .inFlight with victimOffset := 2, lbn := 11 }]) m)

theorem witness_relocCompletion :
    (committed tenBlocks).1 = false ∧
      (committed tenBlocks).2.engine.chunk =
        some (chunkOf .writing [] [copyOf .committed, { copyOf .inFlight with victimOffset := 2, lbn := 11 }]) ∧
      ([RunItem.copy 2 11 9].filterMap itemCopy) = [2] := by decide +kernel
theorem witness_abandons :
    let s := draining (chunkOf .writing [] []) tenBlocks
    s.engine.victim = some 0 ∧
      s.engine.scan = some { scanning 0 with state := .draining, reads := [], unreadable := [11], runUnreadable := [11] } ∧
      band? s 0 = some (bandRec 0 .draining 12 10) ∧ (bandRec 0 .draining 12 10).stamp = 1 ∧ 0 ∉ s.table.due := by decide +kernel
theorem witness_recoveryWait :
    let s : State := { part .running with engine := { (part .running).engine with recoveryWait := true } }
    s.engine.recoveryWait = true ∧ s.engine.activity ≠ .drain := by decide +kernel
theorem witness_chainBreak :
    checkSector 65537 0 (some { sector with trailer := { sector.trailer with chain := 65537 } }) none none = (some 65537, none) ∧
      checkSector 65537 0 (some sector) none none = (some 77, some 0) ∧ checkSector 65537 5 (some sector) none none = (some 77, none) := by
  decide +kernel

/-- The premises of a patrol choice. -/
def patrols (s : State) : Prop :=
  s.engine.activity = .idle ∧ s.startup.engine = .running ∧ s.engine.idleFlag = true ∧ s.table.due = [] ∧ cleaningVictim s = none ∧
    s.engine.verifyQueue = [] ∧ pullInTest s = none ∧ s.engine.patrolPointer < s.table.bands.length

theorem witness_patrol :
    let s := idle 2 ([bandRec 0 .filled 200 199, bandRec 1 .retired 50 0, bandRec 2 .empty 0 0] ++ emptyBands)
    patrols s ∧ (∀ j < 81, (band? s ((2 + j) % 83)).any (fun r => r.state = .opened ∨ r.state = .closing ∨ r.state = .filled) = false) ∧
      (2 + 81) % 83 = 0 ∧ band? s 0 = some (bandRec 0 .filled 200 199) ∧ 1 ≤ (bandRec 0 .filled 200 199).wp := by
  unfold patrols; decide +kernel
theorem witness_patrol_none :
    let s := idle 0 ([bandRec 0 .draining 200 199, bandRec 1 .retired 50 0, bandRec 2 .empty 0 0] ++ emptyBands)
    patrols s ∧
      ∀ i < s.table.bands.length, (band? s (i % 83)).any (fun r => r.state = .opened ∨ r.state = .closing ∨ r.state = .filled) = false := by
  unfold patrols; decide +kernel
theorem witness_patrol_run :
    let s := engaged .patrol 200 (frame 19 0 0 0 0 0)
    s.engine.scan = some (scanning 200) ∧ s.startup.engine = .running ∧ s.engine.activity = .patrol ∧ (scanning 200).reads.tail = [] ∧
      { scanning 200 with reads := [(0, 200), (1020, 4)] }.reads.tail ≠ [] := by decide +kernel
theorem witness_patrol_findings :
    band? (part .running) 0 = some (bandRec 0 .filled 200 100) ∧ (bandRec 0 .filled 200 100).stamp = 1 ∧ 0 ∉ (part .running).table.due ∧
      band? (part .running) 2 = some (bandRec 2 .empty 0 0) ∧ (bandRec 0 .filled 200 100).stamp ≠ 2 := by decide +kernel

/-! ### Witnesses: bands and exposure -/

theorem witness_summaryAccounted_spent :
    let op := ending .summary .summaryRun 3
    Awaits (busy .running op) op ∧ op.kind = .summary ∧ (busy .running op).startup.image.retryLimit ≤ op.retries ∧
      (busy .running op).sched.channelTimer = some 30000 ∧ EndsWrite op 3 (completion .offTrack 0 .nothing) 0 false := by
  decide +kernel
theorem witness_leavesDue : band? (part .running) 0 = some (bandRec 0 .filled 200 100) := by decide +kernel
theorem witness_takenBand :
    band? (part .running) 2 = some (bandRec 2 .empty 0 0) ∧ (bandRec 2 .empty 0 0).state = .empty ∧
      { bandRec 2 .empty 0 0 with stamp := 65535 }.stamp ≤ 65535 := by decide +kernel

/-- A part with cold group masks and band 0 in a state, at the exposure given. -/
def exposed (mask : BitVec 64) (st : BandState) (e : Nat) : State :=
  let s := part .running
  { s with
    table := { s.table with bands := [{ bandRec 0 st 200 100 with exposure := e }] }
    startup := { s.startup with image := { s.startup.image with coldMask := mask } } }

/-- A gain g takes band 0 across the threshold. -/
def crossesBy (s : State) (e g : Nat) : Bool :=
  decide (e < s.startup.image.threshold) && decide (s.startup.image.threshold ≤ min (e + g) 65535)

theorem witness_gain_below :
    band? (exposed 0 .filled 39995) 0 = some { bandRec 0 .filled 200 100 with exposure := 39995 } ∧
      crossesBy (exposed 0 .filled 39995) 39995 4 = false ∧ crossesBy (exposed 0 .filled 65530) 65530 32 = false ∧
      (bandRec 0 .filled 200 100).zone = 0 ∧ band? (exposed 0 .filled 0) 1 = none := by decide +kernel
theorem witness_gain_notGaining :
    band? (exposed 0 .empty 0) 0 = some (bandRec 0 .empty 200 100) ∧
      band? (exposed 0 .retired 39995) 0 = some { bandRec 0 .retired 200 100 with exposure := 39995 } := by
  decide +kernel
theorem witness_gain_crosses :
    crossesBy (exposed 0 .filled 39995) 39995 5 = true ∧ joinsDue (exposed 0 .filled 39995) 0 (bandRec 0 .filled 200 100) = true ∧
      closesAtOnce (exposed 0 .opened 39995) 0 (bandRec 0 .opened 200 100) = true ∧
      joinsDue (exposed 0 .draining 39995) 0 (bandRec 0 .draining 200 100) = false ∧
      finishesLater (writing (.host 7)) 0 owned = true ∧ joinsDue (exposed 1 .filled 39995) 0 (bandRec 0 .filled 200 100) = false := by
  decide +kernel

/-- Sectors of a band of 8 tracks of 128 that touch track 0 alone, track 7 alone, both, or neither. -/
theorem witness_edgeTracks :
    band? (part .running) 1 = some (bandRec 1 .draining 50 0) ∧ bandZone (part .running) (bandRec 1 .draining 50 0) = zone ∧
      127 / zone.spt = 0 ∧ 128 / zone.spt = 1 ∧ 895 / zone.spt = 6 ∧ 896 / zone.spt = zone.tpb - 1 ∧ 1 ≤ zone.spt ∧ 1 ≤ zone.tpb ∧
      896 + 128 ≤ zone.tpb * zone.spt := by decide +kernel
theorem witness_summaryAccounted :
    let op := ending .summary .summaryRun 0
    Awaits (busy .running op) op ∧ op.kind = .summary ∧ op.issue = (completion .complete 3 .nothing).issue ∧
      EndsWrite op 3 (completion .complete 3 .nothing) 3 true ∧ EndsWrite op 3 (completion .writeFault 0 .nothing) 0 false := by
  decide +kernel

/-! ### Witnesses: the rebuild -/

/-- The rebuild of band 0 in a phase, with what its read has delivered. -/
def rebuild (ph : RebuildPhase) (first count : Nat) (buffer : List (Option Sector)) : BandRebuild where
  band := 0
  phase := ph
  first := first
  count := count
  buffer := buffer
  stamp := 1
  openSeq := 5
  lastChain := none
  pred := none
  firstBreak := none
  unreadable := []

/-- A part that rebuilds its bands, of 1,000 logical blocks. -/
def rebuilding (r : BandRebuild) : State :=
  let s := busy .starting (operation .readRun .startUp 4)
  { s with startup := { s.startup with stage := .rebuild r } }

/-- A sector of band 0's life with a kind, a logical field, a sequence and a chain. -/
def sectorOf (kind : BitVec 8) (logical seq : Nat) (chain : Chain) : Sector :=
  { payload := 0
    trailer :=
      { kind := kind, stamp := 1, band := 0, logical := BitVec.ofNat 64 logical, sequence := BitVec.ofNat 48 seq, chain := chain } }

theorem witness_header :
    band? (rebuilding (rebuild .header 0 1 [])) 0 = some (bandRec 0 .filled 200 100) ∧ (sectorOf 1 0 5 9).trailer.kind = 1 ∧
      (sectorOf 1 0 5 9).trailer.band.toNat = 0 ∧ 1 ≤ (sectorOf 1 0 5 9).trailer.stamp.toNat ∧ (sectorOf 2 0 5 9).trailer.kind ≠ 1 := by
  decide +kernel
theorem witness_anomaly :
    let s := rebuilding (rebuild .anomaly 1 1019 [none, some sector])
    band? s 0 = some (bandRec 0 .filled 200 100) ∧ (∃ h, some h ∈ [none, some sector] ∧ h.trailer.band.toNat = 0 ∧
      1 ≤ h.trailer.kind.toNat ∧ h.trailer.kind.toNat ≤ 4) ∧
      (sectorOf 5 0 0 0).trailer.kind.toNat = 5 := by
  refine ⟨by decide +kernel, ⟨sector, by simp, ?_⟩, by decide⟩
  decide +kernel

/-- The four parts of a summary of n entries, chained. -/
def summaryParts (n : Nat) : List (Option Sector) :=
  (List.range 4).map fun i => some (sectorOf 4 (i + n * 2 ^ 16) 5 (33 ^ i))

theorem witness_summary :
    usableSummary (rebuild .summary 1020 4 (summaryParts 0)) = some ([], 35937) ∧
      (usableSummary (rebuild .summary 1020 4 (summaryParts 65535))).map (fun x => x.1.length) = some 1024 ∧
      usableSummary (rebuild .summary 1020 4 ((summaryParts 0).take 3 ++ [some (sectorOf 4 3 5 0)])) = none ∧
      usableSummary (rebuild .summary 1020 4 ((summaryParts 0).take 3 ++ [none])) = none ∧
      band? (rebuilding (rebuild .summary 1020 4 (summaryParts 0))) 0 = some (bandRec 0 .filled 200 100) := by decide +kernel
theorem witness_rebuildRead :
    let r := rebuild .summary 1020 4 []
    let op := { operation .readRun .startUp 4 with first := 1020 }
    let s := busy .starting op
    Awaits { s with startup := { s.startup with stage := .rebuild r } } op ∧ op.owner = .startUp ∧
      op.issue = (completion .complete 4 (.sectors (List.replicate 4 sector))).issue ∧ op.issuedFrom ≤ op.count ∧
      (completion .complete 4 (.sectors (List.replicate 4 sector))).k = op.count - op.issuedFrom := by decide +kernel
theorem witness_scanSectors :
    (sectorOf 2 10 9 77).trailer.kind = 2 ∧ (sectorOf 3 0 9 77).trailer.kind = 3 ∧ (sectorOf 4 0 9 77).trailer.kind ≠ 2 ∧
      (sectorOf 4 0 9 77).trailer.kind ≠ 3 ∧ (sectorOf 2 10 9 77).trailer.band.toNat = (rebuild .scan 1 3 []).band ∧
      (sectorOf 2 10 9 77).trailer.stamp.toNat = (rebuild .scan 1 3 []).stamp ∧
      band? (rebuilding (rebuild .scan 1 3 [])) 0 = some (bandRec 0 .filled 200 100) := by decide +kernel

/-- What the scan of a rebuild gives from its read: the offset of the stop, and the record of the rebuild. -/
def scanned (r : BandRebuild) : BandRebuild × Option Nat :=
  (scanSectors r.first r.buffer r (rebuilding r)).1

theorem witness_scanStops :
    (scanned (rebuild .scan 1 3 [none, some (sectorOf 2 10 9 77), some (sectorOf 0 0 0 0)])).2 = some 3 ∧
      (scanned (rebuild .scan 1 3 [none, some (sectorOf 2 10 9 77), some (sectorOf 0 0 0 0)])).1.lastChain = some 77 ∧
      (scanned (rebuild .scan 1 3 [none, some (sectorOf 2 10 9 77), some (sectorOf 0 0 0 0)])).1.unreadable = [1] := by decide +kernel
theorem witness_scanEnds :
    let r := rebuild .scan 1018 2 [some (sectorOf 2 10 9 77), none]
    (scanned r).2 = none ∧ (scanned r).1.lastChain = none ∧ (scanned r).1.band = 0 ∧
      bandC (rebuilding r) (bandRec 0 .filled 200 100) - 4 ≤ r.first + r.count ∧
      (rebuild .scan 1017 2 []).first + (rebuild .scan 1017 2 []).count < bandC (rebuilding r) (bandRec 0 .filled 200 100) - 4 := by
  decide +kernel

/-- A damaged note whose payload says sequence 50 and whose trailer says 9: the trailer's sequence counts for the sequence counter (R175),
and a sector of another life behind it stops the scan and does not count (assumption 37). -/
theorem test_rebuild_counts_note_trailer :
    let note := { sectorOf 3 0 9 77 with payload := notePayload 0 1 50 }
    let other := sectorOf 2 10 60 77
    let xs := [some note, some { other with trailer := { other.trailer with stamp := 2 } }]
    let r := rebuild .scan 1 2 xs
    (scanSectors 1 xs r (rebuilding r)).1.2 = some 2 ∧
      (scanSectors 1 xs r (rebuilding r)).2.startup.found.highest = some 9 := by decide +kernel

/-- A copy of LBN L. -/
def foundCopy (L seq band offset : Nat) : FoundCopy :=
  { lbn := L, seq := seq, band := band, offset := offset, openSeq := 5 }

/-- A part that has found copies of the first and the last logical block, a note over the last, and the findings given. -/
def found (fs : List Finding) : State :=
  let s := rebuilding (rebuild .scan 1 3 [])
  { s with
    startup :=
      { s.startup with
        found :=
          { winners := [foundCopy 0 7 0 1, foundCopy 999 8 0 2], notes := [{ first := 999, length := 1, seq := 9 }]
            findings := fs, highest := some 9 } } }

theorem witness_mapBuild :
    WinnersLaw (found []) ∧ (∀ x ∈ (found []).startup.found.winners, x.lbn < (found []).startup.nLog) ∧
      (found []).startup.nLog ≤ 2 ^ 36 ∧ (found []).startup.found.winners.length ≤ 1044480 := by unfold WinnersLaw; decide +kernel
theorem witness_copyWins :
    copyWins (foundCopy 0 7 0 2) (foundCopy 0 7 0 1) = true ∧ copyWins (foundCopy 0 7 1 0) (foundCopy 0 7 0 1) = true ∧
      copyWins (foundCopy 0 7 0 1) (foundCopy 0 7 0 1) = false := by decide +kernel
theorem witness_rebuildEnds :
    let s := found [{ band := 0, firstBreak := some 3, unreadable := [] }, { band := 2, firstBreak := none, unreadable := [4] }]
    s.table.due = [] ∧ (s.startup.found.findings.Pairwise fun f g => f.band < g.band) ∧ s.startup.found.highest = some 9 ∧
      mediaBlocks (buildMap s).map.records 0 = 1 ∧ (finishRebuild s).table.due = [0] := by decide +kernel
theorem witness_rebuildEnds_none :
    let s := { found [] with startup := { (found []).startup with found := Found.nothing } }
    s.table.due = [] ∧ s.startup.found.findings = [] ∧ s.startup.found.highest = none := by decide +kernel

/-! ### Witnesses: laws kept by every step -/

/-- That part with a command waiting. -/
def sent (c : Instr) (s : State) : State :=
  { s with pending := [c] }

theorem witness_custodyLaw :
    CustodyLaw (sent (.fence .A) (ready .running (frame 7 1 0 0 0 0))) ∧
      nextHas (step (sent (.fence .A) (ready .running (frame 7 1 0 0 0 0)))) (fun t => t.custody.number == 2) = true := by
  unfold CustodyLaw; decide +kernel
theorem witness_noticePoolSettings :
    let s := sent (.place .A) (ready .running (frame 1 1 0 10 2 2))
    NoticeLaw s ∧ PoolLaw s ∧ SettingsLaw s ∧ nextHas (step s) (fun t => t.staging.seqCounter == 2) = true := by
  unfold NoticeLaw PoolLaw SettingsLaw; decide +kernel
theorem witness_mapLaw :
    let s := sent (.release .A) (mapped (frame 3 1 0 12 2 0))
    MapLaw s ∧ WinnersLaw s ∧ nextHas (step s) (fun t => t.map.records.length == 2) = true := by
  unfold MapLaw WinnersLaw; decide +kernel
theorem witness_stepTakes : (sent (.place .A) State.reset).pending.head? ≠ some .powerOn := by decide +kernel

end Sys2Proof.Tests
end

section
/-! PROOFS. LOCATE: its range check, the descriptors of its range, and its answer (R66, R156). -/

namespace Sys2Proof.Machine
open Sys2Proof.Safety

/-- LOCATE's arm of the dispatch. -/
theorem exec_locate : ∀ (p : Port) (s : State), exec (.locate p) s = execLocate p s := by
  intros; rfl

/-- The range check of R156 as arithmetic. -/
theorem rangeInside_iff (s : State) (f : RequestFrame) :
    rangeInside s f = true ↔ 1 ≤ requestLength f ∧ requestEnd f ≤ s.startup.nLog := by
  simp [rangeInside]

/-- A LOCATE that passes its checks has passed the range check. -/
theorem rangeInside_of_takes_locate {s : State} {p : Port} {f : RequestFrame} (h : Takes s p .locate f) :
    rangeInside s f = true := by
  obtain ⟨_, _, _, hcheck⟩ := h
  obtain ⟨_, hfields, _⟩ := checks_of_takeCheck hcheck
  obtain ⟨_, hall⟩ := kindFields_of_fieldCheck hfields
  rw [← need_eq_none _ .badRange]
  exact hall _ (by simp [kindFields])

/-- The records clipped to a range are those that meet it, in the map's order, each cut to it. -/
theorem clippedRecords_eq_map_filter (a e : Nat) (m : List Extent) :
    clippedRecords a e m =
      (m.filter fun r => max r.start a < min (r.start + r.len) e).map fun r =>
        { start := max r.start a, len := min (r.start + r.len) e - max r.start a
          loc := r.loc.shift (max r.start a - r.start) } := by
  induction m with
  | nil => rfl
  | cons r m ih =>
    simp only [clippedRecords] at ih ⊢
    by_cases hr : max r.start a < min (r.start + r.len) e
    · simp only [List.filterMap_cons, List.filter_cons, if_pos, hr, decide_true, List.map_cons, ih]
    · simp only [List.filterMap_cons, List.filter_cons, hr, decide_false, Bool.false_eq_true, if_false, ih]

/-- The descriptors of a LOCATE, straight from the map's records (R66). -/
theorem locateAll_eq_map_filter (s : State) (f : RequestFrame) :
    locateAll s f =
      (s.map.records.filter fun r => max r.start (requestStart f) < min (r.start + r.len) (requestEnd f)).map fun r =>
        { start := max r.start (requestStart f), len := min (r.start + r.len) (requestEnd f) - max r.start (requestStart f)
          loc := r.loc.shift (max r.start (requestStart f) - r.start) } := by
  rw [locateAll, clippedRecords_eq_map_filter, List.map_map]
  rfl

/-- LOCATE answers its head request and changes nothing else: with every descriptor when one response holds them, and otherwise with the
first 64 and the start of the next (R66). -/
theorem locateTake_eq (p : Port) (f : RequestFrame) (s : State) (h : (s.link p).up = true) :
    locateTake p f s =
      s.setLink p
        (answered (s.link p)
          (if (locateAll s f).length ≤ 64 then reply s f .done (.locate (locateAll s f) none) []
          else reply s f .partially (.locate ((locateAll s f).take 64) ((locateAll s f)[64]?.map fun d => d.start)) [])) := by
  rw [locateTake, answerHead_eq p f _ _ _ s h]
  by_cases hfits : (locateAll s f).length ≤ 64
  · have hnone : (locateAll s f)[Config.locateDescriptors]? = none := List.getElem?_eq_none hfits
    rw [if_pos hfits, hnone, List.take_of_length_le hfits]
    rfl
  · have hsome : (locateAll s f)[Config.locateDescriptors]? = some (locateAll s f)[64] :=
      List.getElem?_eq_getElem (Nat.lt_of_not_le hfits)
    rw [if_neg hfits, hsome]
    rfl

/-- Settles O15: the descriptors are the clipped records in the map's order, and the answer splits at 64 of them. -/
theorem locateListsRecords : Obligations.LocateListsRecords := by
  intro s p f htakes
  have hup : (s.link p).up = true := htakes.1
  obtain ⟨hpos, hend⟩ := (rangeInside_iff s f).mp (rangeInside_of_takes_locate htakes)
  have hmax : f.length.toNat ≤ 2 ^ 32 - 1 := Nat.le_sub_one_of_lt f.length.isLt
  refine ⟨⟨hpos, hmax, hend⟩, ?_⟩
  rw [exec_locate, execLocate, takeHead_takes htakes _ rfl, locateTake_eq p f s hup, locateAll_eq_map_filter]

end Sys2Proof.Machine
end

section
/-! PROOFS. NOTICE_FETCH: the checks of its take and its answer; the attention line (R155, R165, R166). -/

namespace Sys2Proof.Machine
open Sys2Proof.Safety

/-! ### Notices and links -/

/-- An empty list takes a notice as its only record: case 2 of R164. -/
@[simp] theorem takeNotice_nil (k : NoticeKind) (b : Option Nat) :
    takeNotice k b [] = [{ kind := k, band := b, count := 1 }] := rfl

/-- Of two replacements of one port's link, the second stands. -/
@[simp] theorem setLink_setLink (s : State) (p : Port) (l m : Link) : (s.setLink p l).setLink p m = s.setLink p m := by
  simp [State.setLink]

@[simp] theorem link_setLink_other (s : State) (p : Port) (l : Link) : (s.setLink p l).link p.other = s.link p.other := by
  rw [link_setLink, if_neg (Port.other_ne p)]

@[simp] theorem link_linkUp_same (p : Port) (s : State) : (linkUp p s).link p = { s.link p with up := true } := by
  rw [linkUp, link_setLink_same]

/-- A notice placed on an empty list is its only record, and the link stays as it was otherwise (R164). -/
theorem link_placeNotice_of_nil (k : NoticeKind) (b : Option Nat) {s : State} {p : Port} (h : (s.link p).notices = []) :
    (placeNotice k b s).link p = { s.link p with notices := [{ kind := k, band := b, count := 1 }] } := by
  rw [link_placeNotice, h, takeNotice_nil]

/-! ### The attention line -/

/-- The attention line is high exactly while the link is UP and a record waits (R165). -/
theorem attention_iff (s : State) (p : Port) :
    attention s p = true ↔ (s.link p).up = true ∧ (s.link p).notices ≠ [] := by
  simp [attention]

/-- The attention line is low while no record waits (R165). -/
theorem attention_of_notices_nil {s : State} {p : Port} (h : (s.link p).notices = []) : attention s p = false := by
  simp [attention, h]

/-- The attention line is low while the link is DOWN (R165). -/
theorem attention_of_down {s : State} {p : Port} (h : (s.link p).up = false) : attention s p = false := by
  simp [attention, h]

/-- A notice placed on the empty list of an UP link raises the attention line (R165). -/
theorem attention_placeNotice_of_nil (k : NoticeKind) (b : Option Nat) {s : State} {p : Port} (hup : (s.link p).up = true)
    (h : (s.link p).notices = []) : attention (placeNotice k b s) p = true := by
  rw [attention_iff, link_placeNotice_of_nil k b h]
  exact ⟨hup, List.cons_ne_nil _ _⟩

/-! ### The take of NOTICE_FETCH -/

/-- NOTICE_FETCH's arm of the dispatch. -/
theorem exec_noticeFetch : ∀ (p : Port) (s : State), exec (.noticeFetch p) s = execNoticeFetch p s := by
  intros; rfl

/-- Of checks 2 to 7 only the oversize check can refuse a NOTICE_FETCH: every engine state serves it, and it is not mutating (R155). -/
theorem takeCheck_noticeFetch (s : State) (p : Port) (f : RequestFrame) (h : f.dataCount.toNat ≤ 1024) :
    takeCheck s p .noticeFetch f = none := by
  have hengine : engineCheck s .noticeFetch = none := by
    cases hs : s.startup.engine <;> simp [engineCheck, hs, need]
  have hfield : fieldCheck s .noticeFetch f = none := by
    have hfits : oversize f = false := decide_eq_false (Nat.not_lt.mpr h)
    simp [fieldCheck, kindFields, firstFailure, need, hfits]
  rw [takeCheck, hengine, hfield]
  rfl

/-- NOTICE_FETCH answers its head request with the port's list and empties it, and changes nothing else (R166). -/
theorem noticeTake_eq (p : Port) (f : RequestFrame) (s : State) (h : (s.link p).up = true) :
    noticeTake p f s =
      s.setLink p { answered (s.link p) (reply s f .done (.notices (s.link p).notices) []) with notices := [] } := by
  have hup : ((s.setLink p { s.link p with notices := [] }).link p).up = true := by rw [link_setLink_same]; exact h
  rw [noticeTake, answerHead_eq p f _ _ _ _ hup, setLink_setLink, link_setLink_same]
  rfl

/-- Settles O29: the take of NOTICE_FETCH passes its checks and empties the list, and the attention line follows the link and the list. -/
theorem noticesAreFetchedAndAttended : Obligations.NoticesAreFetchedAndAttended := by
  refine ⟨fun s p f hup hhead hkind hcount => ?served,
    fun s p => ⟨?high, fun k b hup hnil => ?placed, fun hwait => ?linkUp, ?emptied, ?down⟩⟩
  case served =>
    have htakes : Takes s p .noticeFetch f := ⟨hup, hhead, hkind, takeCheck_noticeFetch s p f hcount⟩
    refine ⟨noticeTake p f s, ?_, noticeTake_eq p f s hup, ?_⟩
    · rw [exec_noticeFetch, execNoticeFetch, takeHead_takes htakes _ rfl]
    · rw [noticeTake_eq p f s hup]
      generalize ht : s.setLink p _ = t
      have hnil : (t.link p).notices = [] := by rw [← ht, link_setLink_same]
      have hstays : (t.link p).up = true := by rw [← ht, link_setLink_same]; exact hup
      refine ⟨attention_of_notices_nil hnil, ?_, fun k b =>
        ⟨link_placeNotice_of_nil k b hnil, attention_placeNotice_of_nil k b hstays hnil⟩⟩
      rw [← ht, link_setLink_other]
  case high => rw [attention_iff, Nat.one_le_iff_ne_zero, ne_eq, ne_eq, List.length_eq_zero_iff]
  case placed => exact ⟨attention_of_notices_nil hnil, attention_placeNotice_of_nil k b hup hnil⟩
  case linkUp => exact (attention_iff _ p).mpr (by rw [link_linkUp_same]; exact ⟨rfl, hwait⟩)
  case emptied => exact attention_of_notices_nil (by rw [link_setLink_same])
  case down => exact attention_of_down (by rw [link_setLink_same])

end Sys2Proof.Machine
end

section
/-! PROOFS. The laws that every step keeps: custody, notices, pool, settings, map order, the command queue, time and what is sent (R43, R46, R67,
R150, R160, R164). -/

namespace Sys2Proof.Machine
open Sys2Proof.Safety

/-! ### The commands beyond `Keeps` -/

/-- POWER_ON's arm of the dispatch. -/
theorem exec_powerOn : ∀ s : State, exec .powerOn s = execPowerOn s := by
  intros; rfl

/-- FENCE's arm of the dispatch. -/
theorem exec_fence : ∀ (p : Port) (s : State), exec (.fence p) s = execFence p s := by
  intros; rfl

/-- ADMIT's arm of the dispatch. -/
theorem exec_admitPort : ∀ (p : Port) (s : State), exec (.admitPort p) s = execAdmit p s := by
  intros; rfl

/-- The power-on values beside the command queue and the free-value counter, which POWER_ON keeps (R167; assumption 26). -/
def powerOnBase (s : State) : State :=
  { State.reset with pending := s.pending, freeCount := s.freeCount }

/-- The custody unit after a FENCE or ADMIT of port p that gives the other port the admission state x (R160, R161). -/
def custodyAfter (s : State) (p : Port) (x : Admission) : CustodyUnit :=
  { number := nextCustody s.custody.number, admission := s.custody.admission.set p.other x }

/-- The states to which a step's work may be held by `Keeps`: the state before it, that state with the custody unit that an ACTIVE port has
changed, or power-on. -/
inductive StepBase (s : State) : State → Prop where
  | same : StepBase s s
  | custody (p : Port) (x : Admission) (hp : s.custody.admission.get p = .active) : StepBase s { s with custody := custodyAfter s p x }
  | powerOn : StepBase s (powerOnBase s)

/-- A mutating request that passes its checks comes from an ACTIVE port (check 4 of R155). -/
theorem active_of_takeCheck {s : State} {p : Port} {k : Kind} {f : RequestFrame} (hk : k.mutating = true)
    (h : takeCheck s p k f = none) : s.custody.admission.get p = .active := by
  obtain ⟨_, _, hadm, _⟩ := checks_of_takeCheck h
  simpa [admissionCheck, need_eq_none, hk] using hadm

/-- A FENCE or ADMIT keeps to the state it finds, or to that state with the custody number advanced. -/
theorem takeHead_changeCustody_base (p : Port) (k : Kind) (x : Admission) (s : State) (hk : k.mutating = true) :
    ∃ o, StepBase s o ∧ o.pending = s.pending ∧ o.now = s.now ∧ o.links = s.links ∧
      Keeps o (takeHead p k (fun _ => true) (changeCustody p x) s) := by
  unfold takeHead
  split
  · exact ⟨s, .same, rfl, rfl, rfl, .refl s⟩
  · split
    · split
      · exact ⟨s, .same, rfl, rfl, rfl, keeps_refuseHead _ _ _ (.refl s)⟩
      · next hc => exact ⟨_, .custody p x (active_of_takeCheck hk hc), rfl, rfl, rfl, keeps_answerHead _ _ _ _ _ (keeps_placeNotice _ _ (.refl _))⟩
    · exact ⟨s, .same, rfl, rfl, rfl, .refl s⟩

/-- Every command answers a next state that keeps to one of the base states; every command but POWER_ON to one with the time and the links it
found. -/
theorem exec_keeps_base (c : Instr) (s : State) :
    ∃ o t, StepBase s o ∧ exec c s = .next t ∧ Keeps o t ∧ o.pending = s.pending ∧
      (c ≠ .powerOn → o.now = s.now ∧ o.links = s.links) := by
  cases hc : beyondKeeps c with
  | false =>
    obtain ⟨t, ht, hk⟩ := exec_keeps c s hc
    exact ⟨s, t, .same, ht, hk, rfl, fun _ => ⟨rfl, rfl⟩⟩
  | true =>
    cases c with
    | powerOn =>
      refine ⟨_, _, .powerOn, exec_powerOn s, ?_, rfl, fun h => absurd rfl h⟩
      exact keeps_settle (keeps_offer (Keeps.refl (powerOnBase s)))
    | fence p =>
      obtain ⟨o, hb, hp, hn, hl, hk⟩ := takeHead_changeCustody_base p .fence .fenced s rfl
      exact ⟨o, _, hb, exec_fence p s, hk, hp, fun _ => ⟨hn, hl⟩⟩
    | admitPort p =>
      obtain ⟨o, hb, hp, hn, hl, hk⟩ := takeHead_changeCustody_base p .admitPort .active s rfl
      exact ⟨o, _, hb, exec_admitPort p s, hk, hp, fun _ => ⟨hn, hl⟩⟩
    | _ => cases hc

/-- Every step answers a next state that keeps to a base state of the state it finds behind the front of the queue, up to the time that an idle
step lets pass. -/
theorem step_keeps_base (s : State) :
    ∃ o t, StepBase { s with pending := s.pending.tail } o ∧ step s = .next t ∧ Keeps o t ∧ o.pending = s.pending.tail ∧
      (s.pending.head? ≠ some .powerOn → o.now = s.now ∧ o.links = s.links) := by
  cases hp : s.pending with
  | nil =>
    refine ⟨_, { s with now := s.now + 1 }, .same, by simp [step, hp], ?_, rfl, fun _ => ⟨rfl, rfl⟩⟩
    rw [List.tail_nil, ← hp]
    exact ⟨rfl, rfl, Nat.le_succ _, fun _ => List.prefix_refl _, id, id, id, id⟩
  | cons c rest =>
    obtain ⟨o, t, hb, ht, hk, hop, hon⟩ := exec_keeps_base c { s with pending := rest }
    refine ⟨o, t, hb, by simpa [step, hp] using ht, hk, hop, fun h => hon fun hc => h ?_⟩
    rw [hc]; rfl

/-! ### The laws of the base states -/

/-- The custody number stays within 1 to 65,535 as it advances (R160). -/
theorem nextCustody_mem {n : Nat} (h : n ≤ 65535) : 1 ≤ nextCustody n ∧ nextCustody n ≤ 65535 := by
  unfold nextCustody
  split <;> omega

/-- A base state meets the custody law with the state it is made of: an ACTIVE port changes the other port's admission alone (R160). -/
theorem StepBase.custodyLaw {s o : State} (hb : StepBase s o) (h : CustodyLaw s) : CustodyLaw o := by
  cases hb with
  | same => exact h
  | powerOn => exact ⟨Nat.le_refl 1, by simp [powerOnBase, State.reset], by simp [powerOnBase, State.reset]⟩
  | custody p x hp =>
    obtain ⟨_, hle, _⟩ := h
    obtain ⟨hge', hle'⟩ := nextCustody_mem hle
    refine ⟨hge', hle', ?_⟩
    cases p <;> simp_all [custodyAfter, Both.set, Both.get, Port.other]

/-- A base state meets the notice law with the state it is made of. -/
theorem StepBase.noticeLaw {s o : State} (hb : StepBase s o) (h : NoticeLaw s) : NoticeLaw o := by
  cases hb with
  | same => exact h
  | powerOn => exact ⟨Nat.zero_le _, Nat.zero_le _⟩
  | custody => exact h

/-- A base state's pool is in canonical form with that of the state it is made of. -/
theorem StepBase.poolLaw {s o : State} (hb : StepBase s o) (h : PoolLaw s) : PoolLaw o := by
  cases hb with
  | same => exact h
  | powerOn => rfl
  | custody => exact h

/-- A base state's settings are in range with those of the state it is made of. -/
theorem StepBase.settingsLaw {s o : State} (hb : StepBase s o) (h : SettingsLaw s) : SettingsLaw o := by
  cases hb with
  | same => exact h
  | powerOn => exact default_inRange
  | custody => exact h

/-- A base state's map and found copies are in order with those of the state it is made of. -/
theorem StepBase.order {s o : State} (hb : StepBase s o) (h : MapOk s.map.records ∧ WinnersLaw s) :
    MapOk o.map.records ∧ WinnersLaw o := by
  cases hb with
  | same => exact h
  | powerOn => exact ⟨mapOk_nil, List.Pairwise.nil⟩
  | custody => exact h

/-! ### The laws -/

/-- Settles O57: an ACTIVE port alone changes the custody unit, and only the other port's part of it. -/
theorem stepKeepsCustodyLaw : Obligations.StepKeepsCustodyLaw := by
  intro s t hs ht
  obtain ⟨o, t', hb, hstep, hk, _⟩ := step_keeps_base s
  obtain rfl : t' = t := by simpa [hstep] using ht
  rw [CustodyLaw, hk.custody]
  exact hb.custodyLaw hs

/-- Settles O58: every shared operation keeps the three laws, and the base states meet them. -/
theorem stepKeepsNoticePoolAndSettingsLaws : Obligations.StepKeepsNoticePoolAndSettingsLaws := by
  intro s t ht
  obtain ⟨o, t', hb, hstep, hk, _⟩ := step_keeps_base s
  obtain rfl : t' = t := by simpa [hstep] using ht
  exact ⟨fun h => hk.notices (hb.noticeLaw h), fun h => hk.pool (hb.poolLaw h), fun h => hk.settings (hb.settingsLaw h)⟩

/-- Settles O59: every shared operation keeps the order of the map with that of the found copies, and the base states meet it. -/
theorem stepKeepsMapOrder : Obligations.StepKeepsMapOrder := by
  intro s t hmap hwin ht
  obtain ⟨o, t', hb, hstep, hk, _⟩ := step_keeps_base s
  obtain rfl : t' = t := by simpa [hstep] using ht
  rw [MapLaw, mapOrdered_iff] at hmap ⊢
  exact hk.order (hb.order ⟨hmap, hwin⟩)

/-- Settles O60: a step keeps to its base state, which has the rest of the queue and, but for POWER_ON, the time and links of the state before. -/
theorem stepTakesOneCommand : Obligations.StepTakesOneCommand := by
  intro s
  obtain ⟨o, t, _, hstep, hk, hpending, hbase⟩ := step_keeps_base s
  refine ⟨t, hstep, hk.pending.trans hpending, fun hc => ?_⟩
  obtain ⟨hnow, hlinks⟩ := hbase hc
  refine ⟨hnow ▸ hk.now, fun p => ?_⟩
  have hlink : s.link p = o.link p := by rw [State.link, State.link, hlinks]
  rw [hlink]
  exact hk.sent p

end Sys2Proof.Machine
end

section
/-! PROOFS. The commands whose take executes, the step, and the two fixed states: power-on and reset (R104, R112, R155, R167). -/

namespace Sys2Proof.Machine
open Sys2Proof.Safety

/-! ### Commands whose take executes -/

section
variable {s : State} {p : Port} {f : RequestFrame}

theorem exec_place_of_takes (h : Takes s p .place f) : exec (.place p) s = .next (settle (placeTake p f s)) :=
  congrArg (fun u => Host.Outcome.next (settle u)) (takeHead_takes h _ rfl _)

theorem exec_fetch_of_takes (h : Takes s p .fetch f) : exec (.fetch p) s = .next (settle (fetchTake p f s)) :=
  congrArg (fun u => Host.Outcome.next (settle u)) (takeHead_takes h _ rfl _)

theorem exec_release_of_takes (h : Takes s p .release f) : exec (.release p) s = .next (settle (releaseTake p f s)) :=
  congrArg (fun u => Host.Outcome.next (settle u)) (takeHead_takes h _ rfl _)

theorem exec_drain_of_takes (h : Takes s p .drain f) : exec (.drain p) s = .next (settle (drainTake p f s)) :=
  congrArg (fun u => Host.Outcome.next (settle u)) (takeHead_takes h _ rfl _)

theorem exec_streamSetBoundary_of_takes (h : Takes s p .streamSet f) (hf : applyNow f = false) :
    exec (.streamSetBoundary p) s = .next (streamSetBoundary p f s) :=
  congrArg Host.Outcome.next (takeHead_takes h (fun f => !applyNow f) (by simp [hf]) _)

theorem exec_streamSetNow_of_takes (h : Takes s p .streamSet f) (hf : applyNow f = true) :
    exec (.streamSetNow p) s = .next (settle (streamSetNow p f s)) :=
  congrArg (fun u => Host.Outcome.next (settle u)) (takeHead_takes h _ hf _)

theorem exec_fence_of_takes (h : Takes s p .fence f) : exec (.fence p) s = .next (changeCustody p .fenced f s) :=
  congrArg Host.Outcome.next (takeHead_takes h _ rfl _)

theorem exec_admitPort_of_takes (h : Takes s p .admitPort f) : exec (.admitPort p) s = .next (changeCustody p .active f s) :=
  congrArg Host.Outcome.next (takeHead_takes h _ rfl _)

theorem exec_halt_of_takes (h : Takes s p .halt f) : exec (.halt p) s = .next (settle (haltTake p f s)) :=
  congrArg (fun u => Host.Outcome.next (settle u)) (takeHead_takes h _ rfl _)

theorem exec_run_of_takes (h : Takes s p .run f) : exec (.run p) s = .next (settle (runTake p f s)) :=
  congrArg (fun u => Host.Outcome.next (settle u)) (takeHead_takes h _ rfl _)

theorem exec_restart_of_takes (h : Takes s p .restart f) : exec (.restart p) s = .next (settle (restartTake p f s)) :=
  congrArg (fun u => Host.Outcome.next (settle u)) (takeHead_takes h _ rfl _)

theorem exec_set_of_takes (h : Takes s p .set f) : exec (.set p) s = .next (settle (setTake p f s)) :=
  congrArg (fun u => Host.Outcome.next (settle u)) (takeHead_takes h _ rfl _)

theorem exec_get_of_takes (h : Takes s p .get f) : exec (.get p) s = .next (getTake p f s) :=
  congrArg Host.Outcome.next (takeHead_takes h _ rfl _)

theorem exec_saveSettings_of_takes (h : Takes s p .saveSettings f) : exec (.saveSettings p) s = .next (settle (saveTake p f s)) :=
  congrArg (fun u => Host.Outcome.next (settle u)) (takeHead_takes h _ rfl _)

theorem exec_loadDefaults_of_takes (h : Takes s p .loadDefaults f) :
    exec (.loadDefaults p) s = .next (settle (loadDefaultsTake p f s)) :=
  congrArg (fun u => Host.Outcome.next (settle u)) (takeHead_takes h _ rfl _)

theorem exec_status_of_takes (h : Takes s p .status f) : exec (.status p) s = .next (statusTake p f s) :=
  congrArg Host.Outcome.next (takeHead_takes h _ rfl _)

theorem exec_bandQuery_of_takes (h : Takes s p .bandQuery f) : exec (.bandQuery p) s = .next (bandQueryTake p f s) :=
  congrArg Host.Outcome.next (takeHead_takes h _ rfl _)

theorem exec_verifyBand_of_takes (h : Takes s p .verifyBand f) : exec (.verifyBand p) s = .next (settle (verifyTake p f s)) :=
  congrArg (fun u => Host.Outcome.next (settle u)) (takeHead_takes h _ rfl _)

end

/-- The command that takes a request makes the take of its kind, with or without the follow-on work of a step. -/
theorem exec_takeCommand (p : Port) (f : RequestFrame) (k : Kind) (s : State) :
    ∃ want act, want f = true ∧
      (exec (takeCommand p f k) s = .next (takeHead p k want act s) ∨
        exec (takeCommand p f k) s = .next (settle (takeHead p k want act s))) := by
  cases k with
  | place => exact ⟨_, placeTake p, rfl, .inr rfl⟩
  | fetch => exact ⟨_, fetchTake p, rfl, .inr rfl⟩
  | release => exact ⟨_, releaseTake p, rfl, .inr rfl⟩
  | locate => exact ⟨_, locateTake p, rfl, .inl rfl⟩
  | drain => exact ⟨_, drainTake p, rfl, .inr rfl⟩
  | streamSet =>
    rw [takeCommand]
    cases hf : applyNow f with
    | true => exact ⟨_, streamSetNow p, hf, .inr rfl⟩
    | false => exact ⟨fun f => !applyNow f, streamSetBoundary p, by simp [hf], .inl rfl⟩
  | fence => exact ⟨_, changeCustody p .fenced, rfl, .inl rfl⟩
  | admitPort => exact ⟨_, changeCustody p .active, rfl, .inl rfl⟩
  | halt => exact ⟨_, haltTake p, rfl, .inr rfl⟩
  | run => exact ⟨_, runTake p, rfl, .inr rfl⟩
  | restart => exact ⟨_, restartTake p, rfl, .inr rfl⟩
  | set => exact ⟨_, setTake p, rfl, .inr rfl⟩
  | get => exact ⟨_, getTake p, rfl, .inl rfl⟩
  | saveSettings => exact ⟨_, saveTake p, rfl, .inr rfl⟩
  | loadDefaults => exact ⟨_, loadDefaultsTake p, rfl, .inr rfl⟩
  | status => exact ⟨_, statusTake p, rfl, .inl rfl⟩
  | bandQuery => exact ⟨_, bandQueryTake p, rfl, .inl rfl⟩
  | verifyBand => exact ⟨_, verifyTake p, rfl, .inr rfl⟩
  | noticeFetch => exact ⟨_, noticeTake p, rfl, .inl rfl⟩

/-! ### The step and power-on -/

/-- Settles O1: the two branches of a step. -/
theorem stepRunsFrontCommand : Obligations.StepRunsFrontCommand :=
  ⟨fun _ _ _ => rfl, fun s hp => by rw [step, hp]⟩

/-- The state whose due arbitration is being made. -/
def offerTaken (s : State) : State :=
  { s with agenda := { s.agenda with offered := false } }

/-- The tests before a scan's next read come first, and a choice that they make due comes before the arbitration (assumption 20). -/
theorem settleOffer_eq (s : State) :
    settleOffer s =
      if (testBeforeRead (offerTaken s)).agenda.choice then offer (testBeforeRead (offerTaken s))
      else arbitrate (testBeforeRead (offerTaken s)) := rfl

/-- Where no scan is in hand and no choice is due, an arbitration that is due is made. -/
theorem settleOffer_of_noScan {s : State} (hscan : s.engine.scan = none) (hc : s.agenda.choice = false) :
    settleOffer s = arbitrate (offerTaken s) := by
  have hchoice : (offerTaken s).agenda.choice = false := hc
  rw [settleOffer_eq, testBeforeRead_of_none (offerTaken s) hscan, hchoice, if_neg Bool.false_ne_true]

/-- Where only an arbitration is due, with no scan in hand, the step ends with that arbitration, when it leaves a settled state. -/
theorem settle_of_offered {s : State} (ha : s.agenda = { freed := [], offered := true, choice := false }) (hscan : s.engine.scan = none)
    (hq : ¬(s.startup.engine = .halting ∧ quiescent s = true)) (hs : Settled (arbitrate (offerTaken s))) :
    settle s = arbitrate (offerTaken s) := by
  obtain ⟨n, hn⟩ := settleFuel_eq s
  rw [settle, hn, settleRounds_offered _ _ (by rw [ha]) (by rw [ha]) (by rw [ha]) hq, settleOffer_of_noScan hscan (by rw [ha]),
    settleRounds_of_settled _ _ hs]

/-- In STARTING, with the channel free, GEOMETRY asked for and an arbitration due, the step ends with the issue of GEOMETRY (R2, R112, R167). -/
theorem settle_of_geometry_due {s : State} (ha : s.agenda = { freed := [], offered := true, choice := false })
    (hscan : s.engine.scan = none) (he : s.startup.engine = .starting) (hc : s.sched.current = none) (hg : s.startup.stage = .geometry) :
    settle s = sendIssue (systemOperation .geometry []) (offerTaken s) := by
  have hissue : arbitrate (offerTaken s) = sendIssue (systemOperation .geometry []) (offerTaken s) := by
    simp [arbitrate, channelFree, startPending, issueStart, offerTaken, hc, hg]
  have hnot : ¬(s.startup.engine = .halting) := by rw [he]; decide
  rw [← hissue]
  refine settle_of_offered ha hscan (fun h => hnot h.1) ?_
  rw [hissue]
  exact ⟨by simp [sendIssue, offerTaken, ha], fun h => hnot h.1⟩

/-- Settles O2: POWER_ON offers the power-on values, and the arbitration issues GEOMETRY. -/
theorem powerOnStartsGeometry : Obligations.PowerOnStartsGeometry := by
  intro s
  have hpower : exec .powerOn s = .next (settle (offer (powerOnBase s))) := rfl
  rw [hpower, settle_of_geometry_due rfl rfl rfl rfl rfl]
  simp [sendIssue, systemOperation, newOperation, opMessage, OpKind.isRun, offerTaken, offer, powerOnBase, State.reset,
    Scheduler.reset, Engine.reset]

theorem readBufferFree_reset : readBufferFree State.reset = 2048 := by
  simp [readBufferFree, State.reset, Scheduler.reset]

/-- Settles O3: State.reset is a fixed state, so each value is read off it. -/
theorem resetHoldsPowerOnValues : Obligations.ResetHoldsPowerOnValues := by
  refine ⟨⟨rfl, rfl, rfl, fun p => by cases p <;> exact ⟨rfl, rfl, rfl, rfl, rfl⟩, rfl, rfl, rfl, rfl, rfl, rfl, rfl, rfl, rfl, rfl,
    fun i => ?_, rfl, rfl, rfl, rfl, rfl, rfl, rfl, rfl, rfl, rfl, readBufferFree_reset, rfl, rfl, rfl, rfl, rfl, rfl, rfl, rfl⟩, ?_⟩
  · cases i with
    | host t => simp [stream, State.reset, Stream.reset]
    | relocation => exact ⟨rfl, rfl, rfl⟩
  · exact ⟨⟨by decide, by decide, by decide⟩, ⟨by decide, by decide⟩, rfl, default_inRange, rfl, List.Pairwise.nil⟩

end Sys2Proof.Machine
end

section
/-! PROOFS. The links, the arrival of a frame, and the checks of a take (R151 to R156, R160, R163, R176). -/

namespace Sys2Proof.Machine
open Sys2Proof.Safety

/-! ### Kind codes -/

/-- The kind codes of section 11.1 are 1 to 19. -/
theorem ofCode_eq_none_iff : ∀ c : BitVec 8, Kind.ofCode c = none ↔ ¬(1 ≤ c.toNat ∧ c.toNat ≤ 19) := by
  decide

/-- PLACE is the kind of code 1. -/
theorem ofCode_eq_place_iff : ∀ c : BitVec 8, Kind.ofCode c = some .place ↔ c = 1 := by
  decide

/-! ### LINK_UP and LINK_DOWN -/

/-- What the retaking of another port's held requests leaves alone: port p's link, and the blocks that no FETCH or VERIFY_BAND changes at its
take. -/
def offPortView (p : Port) (s : State) :=
  (s.link p, s.staging, s.custody, s.map, s.alloc, s.now, s.pending)

theorem offPortView_setLink {p q : Port} (h : q ≠ p) (l : Link) (s : State) : offPortView p (s.setLink q l) = offPortView p s := by
  simp only [offPortView, State.link, State.setLink]
  cases p <;> cases q <;> first | rfl | exact absurd rfl h

theorem offPortView_popRequest {p q : Port} (h : q ≠ p) (s : State) : offPortView p (popRequest q s) = offPortView p s :=
  offPortView_setLink h _ s

theorem offPortView_answerHead {p q : Port} (h : q ≠ p) (f : RequestFrame) (st : Status) (b : Body) (d : List Block) (s : State) :
    offPortView p (answerHead q f st b d s) = offPortView p s := by
  simp only [answerHead, respond]
  split
  · exact offPortView_popRequest h s
  · exact (offPortView_setLink h _ _).trans (offPortView_popRequest h s)

theorem offPortView_admitFetch {p q : Port} (h : q ≠ p) (f : RequestFrame) (s : State) :
    offPortView p (admitFetch q f s) = offPortView p s := by
  simp only [admitFetch]
  split
  · exact offPortView_answerHead h f _ _ _ s
  · rw [(addPin_foldl _ _).1]
    exact offPortView_popRequest h s

/-- FETCHes of other ports that are taken again leave port p alone (R116). -/
theorem offPortView_retakeFetches {p : Port} : ∀ (ps : List Port) (s : State), p ∉ ps → offPortView p (retakeFetches ps s) = offPortView p s
  | [], _, _ => rfl
  | q :: ps, s, h => by
    obtain ⟨hq, hps⟩ : p ≠ q ∧ p ∉ ps := by simpa using h
    rw [retakeFetches]
    split
    · rfl
    · dsimp only
      split
      · exact (offPortView_retakeFetches ps _ hps).trans (offPortView_admitFetch (Ne.symm hq) _ _)
      · rfl

/-- A VERIFY_BAND of another port that is taken again leaves port p alone (R149). -/
theorem offPortView_retakeVerify {p : Port} (s : State) (h : p ∉ s.engine.verifyHeld) : offPortView p (retakeVerify s) = offPortView p s := by
  unfold retakeVerify
  split
  · rfl
  · next q ps hheld =>
    have hq : q ≠ p := fun hqp => h (by rw [hheld, hqp]; exact List.mem_cons_self)
    split
    · split
      · rfl
      · exact offPortView_popRequest hq s
    · rfl

theorem engine_admitFetch (p : Port) (f : RequestFrame) (s : State) : (admitFetch p f s).engine = s.engine := by
  simp only [admitFetch]
  split
  · rw [answerHead, respond_eq]; rfl
  · rw [(addPin_foldl _ _).1]; rfl

theorem engine_retakeFetches : ∀ (ps : List Port) (s : State), (retakeFetches ps s).engine = s.engine
  | [], _ => rfl
  | p :: ps, s => by
    rw [retakeFetches]
    split
    · rfl
    · dsimp only
      split
      · rw [engine_retakeFetches ps, engine_admitFetch]
      · rfl

/-- The state as the DOWN of port p leaves it before held requests of the other port are taken again (R163). -/
def downState (p : Port) (s : State) : State :=
  { s with
    links := s.links.set p (downLink (s.link p))
    staging := downStaging p s.staging
    sched :=
      { s.sched with
        readWait := s.sched.readWait.filter fun q => q ≠ p
        fetches := s.sched.fetches.map fun x => { x with requester := orphan p x.requester } }
    engine :=
      { s.engine with
        verifyQueue := downVerify p s.engine.verifyQueue, verifyHeld := s.engine.verifyHeld.filter fun q => q ≠ p }
    startup :=
      { s.startup with
        haltWaiters := s.startup.haltWaiters.map (orphan p)
        savesQueued := s.startup.savesQueued.map (orphan p)
        savesInFlight := s.startup.savesInFlight.map (orphan p) } }

/-- With no FETCH and no VERIFY_BAND held, the DOWN leaves both lists of held requests as they are. -/
theorem downState_of_none_held {s : State} (p : Port) (hwait : s.sched.readWait = []) (hheld : s.engine.verifyHeld = []) :
    downState p s =
      { s with
        links := s.links.set p (downLink (s.link p))
        staging := downStaging p s.staging
        sched := { s.sched with fetches := s.sched.fetches.map fun x => { x with requester := orphan p x.requester } }
        engine := { s.engine with verifyQueue := downVerify p s.engine.verifyQueue }
        startup := (downState p s).startup } := by
  have hreads : s.sched.readWait.filter (fun q => q ≠ p) = s.sched.readWait := by rw [hwait, List.filter_nil]
  have hverifies : s.engine.verifyHeld.filter (fun q => q ≠ p) = s.engine.verifyHeld := by rw [hheld, List.filter_nil]
  rw [downState, hreads, hverifies]

theorem linkDown_eq (p : Port) (s : State) (h : (s.link p).up = true) :
    linkDown p s =
      retakeVerify (if s.sched.readWait.head? = some p then roomReturned (downState p s) else downState p s) := by
  simp only [linkDown, h, if_true, decide_eq_true_eq]
  rfl

/-- Of the parts that a link reset of port p settles, the requests of the other port change nothing. -/
theorem offPortView_linkDown (p : Port) (s : State) (h : (s.link p).up = true) :
    offPortView p (linkDown p s) = offPortView p (downState p s) := by
  have hwait : p ∉ (downState p s).sched.readWait := by simp [downState]
  have hheld : p ∉ (downState p s).engine.verifyHeld := by simp [downState]
  rw [linkDown_eq p s h]
  split
  · refine (offPortView_retakeVerify _ ?_).trans (offPortView_retakeFetches _ _ hwait)
    rw [roomReturned, engine_retakeFetches]
    exact hheld
  · exact offPortView_retakeVerify _ hheld

/-- Settles O4: the other port's held requests leave alone what the reset discards, orphans and keeps. -/
theorem linksGoUpAndDown : Obligations.LinksGoUpAndDown := by
  refine ⟨fun s p => ⟨rfl, ?_⟩, fun s p hup => ⟨linkDown p s, rfl, ?_⟩⟩
  · rw [attention, link_setLink_same, Bool.true_and]
  · have hview := offPortView_linkDown p s hup
    simp only [offPortView, Prod.mk.injEq] at hview
    obtain ⟨hlink, hstaging, hcustody, hmap, halloc, hnow, hpending⟩ := hview
    have hdown : (downState p s).link p = downLink (s.link p) := Both.get_set_same _ p _
    refine ⟨hlink.trans hdown, ?_, hstaging, hcustody, hmap, halloc, hnow, hpending, fun hwait hheld => ?_⟩
    · exact attention_of_down (by rw [hlink, hdown]; rfl)
    · have hnone : (downState p s).engine.verifyHeld = [] := by simp [downState, hheld]
      have heq : linkDown p s = downState p s := by
        rw [linkDown_eq p s hup, hwait, if_neg (by simp), retakeVerify, hnone]
      rw [heq]
      exact downState_of_none_held p hwait hheld

/-! ### Arrival -/

/-- Settles O5: the three branches of an arrival, with the room of R152. -/
theorem arrivalJoinsQueueOrIsRefused : Obligations.ArrivalJoinsQueueOrIsRefused := by
  intro s p f hup hframes hblocks
  have hroom : inboundRoom (s.link p) = true := by
    rw [inboundRoom, inboundBlocks, Bool.and_eq_true, decide_eq_true_eq, decide_eq_true_eq]
    exact ⟨hframes, hblocks⟩
  have hkept : keptFrame f = if f.kind = 1 ∧ f.dataCount.toNat ≤ 1024 then f else { f with data := [] } := by
    simp only [keptFrame, requestKind, ofCode_eq_place_iff, oversize, decide_eq_false_iff_not, Nat.not_lt]
  change Host.Outcome.next (arrive p f s) = _
  simp only [arrive]
  rw [if_pos (by rw [hup, hroom]; rfl), ← hkept]
  split
  · rfl
  · split
    · rfl
    · rfl

/-! ### Refused takes -/

/-- A change of a link alone leaves a settled state settled. -/
theorem settled_setLink {s : State} (p : Port) (l : Link) (h : Settled s) : Settled (s.setLink p l) := h

/-- Settles O6: a refusal answers the head request, and a settled state owes nothing more. -/
theorem refusedTakeChangesNothing : Obligations.RefusedTakeChangesNothing := by
  refine ⟨fun s p f hup hhead hcode => ?_, fun s p k f st hup hhead hkind hcheck => ?_⟩
  · have hkind : requestKind f = none := (ofCode_eq_none_iff f.kind).mpr hcode
    change Host.Outcome.next (takeUnknown p s) = _
    simp only [takeUnknown, hhead, hkind, if_true, refuseHead]
    rw [answerHead_eq p f _ _ _ s hup]
  · obtain ⟨want, act, hwant, hexec⟩ := exec_takeCommand p f k s
    rw [takeHead_refused hup hhead hkind hcheck want hwant act] at hexec
    rcases hexec with hexec | hexec
    · exact ⟨_, hexec, .inl rfl, fun _ => rfl⟩
    · exact ⟨_, hexec, .inr rfl, fun hs => settle_of_settled _ (settled_setLink p _ hs)⟩

/-! ### The checks of a take -/

/-- Settles O7: each of checks 2 to 7 of a PLACE as arithmetic. -/
theorem placePassesChecksExactlyWhen : Obligations.PlacePassesChecksExactlyWhen := by
  intro s p f
  have hengine : engineCheck s .place = none ↔ s.startup.engine = .running := by
    cases he : s.startup.engine <;> simp [engineCheck, he, need]
  have hfields : fieldCheck s .place f = none ↔
      f.stream.toNat < 8 ∧ (1 ≤ f.length.toNat ∧ f.lbn.toNat + f.length.toNat ≤ s.startup.nLog) ∧
        (f.dataCount.toNat ≤ 1024 ∧ f.length.toNat ≤ 1024 / 2 ^ s.startup.image.slotCode) ∧ f.dataCount.toNat = f.length.toNat := by
    simp [fieldCheck, firstFailure_eq_none, kindFields, need_eq_none, rangeInside, oversize, requestStart,
      requestLength, requestEnd, Config.frameBlocks]
    simp only [slotSize, slotSizeOf, implies_true]
  have hheadroom : headroomCheck s .place = none ↔ 64 + (s.map.records.length + if s.map.held then 1 else 0) ≤ 1048576 := by
    simp only [headroomCheck, need_eq_none, beq_self_eq_true, Bool.true_or, Bool.not_true, Bool.false_or, decide_eq_true_eq]
    simp only [freeRecords, recordsInUse, Config.mapReserve, Config.mapCapacity]
    omega
  have hconflict : conflictCheck s p .place f = none ↔
      ¬(s.startup.image.collisionRefusal = true ∧ 0 < stagedOf s p.other f.lbn.toNat (f.lbn.toNat + f.length.toNat)) := by
    simp [conflictCheck, need_eq_none, requestStart, requestLength, requestEnd, imp_iff_not_or]
  rw [takeCheck, firstFailure_eq_none]
  simp only [List.mem_cons, List.not_mem_nil, or_false, forall_eq_or_imp, forall_eq, hengine, hfields, hheadroom, hconflict,
    admissionCheck, custodyCheck, need_eq_none, Kind.mutating, Bool.not_true, Bool.false_or, beq_iff_eq]
  tauto

/-- Settles O8: with checks 2 and 3 passed, check 4 and then check 5 decide for a mutating kind; of the others none is left. -/
theorem fencedOrStaleRequestsAreRefused : Obligations.FencedOrStaleRequestsAreRefused := by
  intro s p k f hengine hfields
  rw [takeCheck, hengine, hfields]
  refine ⟨fun hm hfenced => ?_, fun hm hactive hnumber => ?_, fun hm => ?_⟩
  · simp [firstFailure, admissionCheck, need, hm, hfenced]
  · simp [firstFailure, admissionCheck, custodyCheck, need, hm, hactive, hnumber]
  · have hkind : k ≠ .place ∧ k ≠ .release := by constructor <;> rintro rfl <;> cases hm
    simp [firstFailure, admissionCheck, custodyCheck, headroomCheck, conflictCheck, need, hm, hkind]

end Sys2Proof.Machine
end

section
/-! PROOFS. The acceptance of PLACE and RELEASE, at their takes and when a resource is handed to them (R53, R54, R69 to R75, R80 to R83). -/

namespace Sys2Proof.Machine
open Sys2Proof.Safety

/-! ### The records that a change removes -/

theorem loc_of_mem_cutAt {K : Nat} {m : List Extent} {r : Extent} (h : r ∈ cutAt K m) : ∃ x ∈ m, ∃ d, r.loc = x.loc.shift d := by
  simp only [cutAt, List.mem_flatMap] at h
  obtain ⟨x, hx, hr⟩ := h
  refine ⟨x, hx, ?_⟩
  rw [cutRecord] at hr
  split at hr
  · rcases List.mem_cons.mp hr with rfl | hr
    · exact ⟨0, (Location.shift_zero _).symm⟩
    · rw [List.mem_singleton.mp hr]
      exact ⟨_, rfl⟩
  · rw [List.mem_singleton.mp hr]
    exact ⟨0, (Location.shift_zero _).symm⟩

/-- The records inside a range are parts of records of the map (R52). -/
theorem loc_of_mem_recordsInside {a e : Nat} {m : List Extent} {r : Extent} (h : r ∈ recordsInside a e m) :
    ∃ x ∈ m, ∃ d, r.loc = x.loc.shift d := by
  obtain ⟨y, hy, d, hd⟩ := loc_of_mem_cutAt (List.mem_of_mem_filter h)
  obtain ⟨x, hx, c, hc⟩ := loc_of_mem_cutAt hy
  exact ⟨x, hx, c + d, by rw [hd, hc, Location.shift_shift]⟩

/-- Where no record names a parcel, none inside a range does. -/
theorem recordsInside_not_staged {a e n : Nat} {m : List Extent} (h : ∀ r ∈ m, ∀ i, r.loc ≠ .staged n i) :
    ∀ r ∈ recordsInside a e m, ∀ i, r.loc ≠ .staged n i := by
  intro r hr i hl
  obtain ⟨x, hx, d, hd⟩ := loc_of_mem_recordsInside hr
  rw [hl] at hd
  cases hxl : x.loc with
  | staged q j =>
    rw [hxl] at hd
    obtain ⟨rfl, _⟩ : n = q ∧ i = j + d := by simpa [Location.shift] using hd
    exact h x hx j hxl
  | media b o => rw [hxl] at hd; cases hd
  | lost => rw [hxl] at hd; cases hd

/-! ### What the answer to an accepted request leaves -/

/-- The end of an acceptance in state t: parcel x joins its stream's queue, and the head request f of port p is answered (R74, R80). -/
def queuedAndAnswered (p : Port) (f : RequestFrame) (st : Status) (b : Body) (x : Parcel) (t : State) : State :=
  offer ((joinQueue x t).setLink p (answered (t.link p) (reply t f st b [])))

section
variable (p : Port) (f : RequestFrame) (st : Status) (b : Body) (x : Parcel) (t : State)

theorem answerHead_joinQueue (h : (t.link p).up = true) :
    offer (answerHead p f st b [] (joinQueue x t)) = queuedAndAnswered p f st b x t :=
  congrArg offer (answerHead_eq p f st b [] (joinQueue x t) h)

@[simp] theorem link_queuedAndAnswered : (queuedAndAnswered p f st b x t).link p = answered (t.link p) (reply t f st b []) :=
  Both.get_set_same _ _ _

@[simp] theorem link_other_queuedAndAnswered : (queuedAndAnswered p f st b x t).link p.other = t.link p.other :=
  Both.get_set_other _ _ _

@[simp] theorem staging_queuedAndAnswered : (queuedAndAnswered p f st b x t).staging = t.staging := rfl
@[simp] theorem map_queuedAndAnswered : (queuedAndAnswered p f st b x t).map = t.map := rfl
@[simp] theorem table_queuedAndAnswered : (queuedAndAnswered p f st b x t).table = t.table := rfl
@[simp] theorem custody_queuedAndAnswered : (queuedAndAnswered p f st b x t).custody = t.custody := rfl
@[simp] theorem sched_queuedAndAnswered : (queuedAndAnswered p f st b x t).sched = t.sched := rfl
@[simp] theorem startup_queuedAndAnswered : (queuedAndAnswered p f st b x t).startup = t.startup := rfl
@[simp] theorem engine_queuedAndAnswered : (queuedAndAnswered p f st b x t).engine = t.engine := rfl
@[simp] theorem now_queuedAndAnswered : (queuedAndAnswered p f st b x t).now = t.now := rfl
@[simp] theorem pending_queuedAndAnswered : (queuedAndAnswered p f st b x t).pending = t.pending := rfl
@[simp] theorem reloc_queuedAndAnswered : (queuedAndAnswered p f st b x t).alloc.reloc = t.alloc.reloc := rfl
@[simp] theorem freed_queuedAndAnswered : (queuedAndAnswered p f st b x t).agenda.freed = t.agenda.freed := rfl
theorem band?_queuedAndAnswered (n : Nat) : band? (queuedAndAnswered p f st b x t) n = band? t n := rfl
theorem parcel?_queuedAndAnswered (n : Nat) : parcel? (queuedAndAnswered p f st b x t) n = parcel? t n := rfl

theorem queue_queuedAndAnswered : (queuedAndAnswered p f st b x t).alloc.hosts[x.stream].queue.getLast? = some x.id := by
  simp [queuedAndAnswered, joinQueue, State.setLink]

theorem hosts_queuedAndAnswered (i : Fin 8) :
    { (queuedAndAnswered p f st b x t).alloc.hosts[i] with queue := t.alloc.hosts[i].queue } = t.alloc.hosts[i] :=
  (takeFrame_updHost t x.stream fun q => q ++ [x.id]).hosts i

end

/-! ### What an acceptance leaves unchanged, and what the records it removes do -/

/-- What an acceptance by port p, of which parcel x joins its stream's queue, leaves of s in u. -/
structure TakenFrame (s : State) (p : Port) (x : Parcel) (u : State) : Prop where
  queue : (u.link p).queue = (s.link p).queue.tail
  holding : (u.link p).holding = false
  joined : u.alloc.hosts[x.stream].queue.getLast? = some x.id
  custody : u.custody = s.custody
  sched : u.sched = s.sched
  startup : u.startup = s.startup
  now : u.now = s.now
  pending : u.pending = s.pending
  zones : u.table.zones = s.table.zones
  reloc : u.alloc.reloc = s.alloc.reloc
  hosts : ∀ t : Fin 8, { u.alloc.hosts[t] with queue := s.alloc.hosts[t].queue } = s.alloc.hosts[t]
  engine : u.engine = { s.engine with recoveryWait := u.engine.recoveryWait }
  slotWait : u.staging.slotWait = s.staging.slotWait
  noteWait : u.staging.noteWait = s.staging.noteWait
  other_up : (u.link p.other).up = (s.link p.other).up
  other_queue : (u.link p.other).queue = (s.link p.other).queue
  other_holding : (u.link p.other).holding = (s.link p.other).holding

/-- The change of the map leads from s, with its staging unit as g, to t. -/
theorem takenFrame_queuedAndAnswered {s t : State} {g : Staging} (p : Port) (f : RequestFrame) (st : Status) (b : Body) (x : Parcel)
    (h : TakeFrame { s with staging := g } t) (hslot : g.slotWait = s.staging.slotWait) (hnote : g.noteWait = s.staging.noteWait) :
    TakenFrame s p x (queuedAndAnswered p f st b x t) where
  queue := by rw [link_queuedAndAnswered]; exact congrArg List.tail (h.queue p)
  holding := by rw [link_queuedAndAnswered]; rfl
  joined := queue_queuedAndAnswered p f st b x t
  custody := h.custody
  sched := h.sched
  startup := h.startup
  now := h.now
  pending := h.pending
  zones := h.zones
  reloc := h.reloc
  hosts := fun i => by
    have h1 := hosts_queuedAndAnswered p f st b x t i
    have h2 := h.hosts i
    rw [← h1] at h2
    exact h2
  engine := h.engine
  slotWait := by rw [staging_queuedAndAnswered, h.staging]; exact hslot
  noteWait := by rw [staging_queuedAndAnswered, h.staging]; exact hnote
  other_up := by rw [link_other_queuedAndAnswered]; exact h.up _
  other_queue := by rw [link_other_queuedAndAnswered]; exact h.queue _
  other_holding := by rw [link_other_queuedAndAnswered]; exact h.holding _

/-- What the removal of the range [a, e) from the map of s does to the bands, and to the parcels but for number n (R27, R53, R72, R77). -/
structure RangeRemoved (s : State) (a e n : Nat) (u : State) : Prop where
  held : u.map.held = s.map.held
  parcel_kept : ∀ id, id ≠ n → (∀ r ∈ recordsInside a e s.map.records, ∀ i, r.loc ≠ .staged id i) → parcel? u id = parcel? s id
  band_kept : ∀ b, (∀ r ∈ recordsInside a e s.map.records, ∀ o, r.loc ≠ .media b o) → band? u b = band? s b
  band_less : ∀ b r, band? s b = some r → 0 < mediaBlocks (recordsInside a e s.map.records) b →
    band? u b = some (bandLess r (mediaBlocks (recordsInside a e s.map.records) b))
  parcel_less : ∀ id x, id ≠ n → parcel? s id = some x → 0 < stagedBlocks (recordsInside a e s.map.records) id →
    parcel? u id = parcelLess x (stagedBlocks (recordsInside a e s.map.records) id) ∧
      (parcelLess x (stagedBlocks (recordsInside a e s.map.records) id) = none → .slot id ∈ u.agenda.freed)

/-- The change is made in v, which has the map and the bands of s, and its parcels but for number n. -/
theorem rangeRemoved_takeChange {s v : State} {a e n : Nat} (new : List Extent) (hmap : v.map = s.map) (htable : v.table = s.table)
    (hparcel : ∀ id, id ≠ n → parcel? v id = parcel? s id) : RangeRemoved s a e n (takeChange a e new v) where
  held := by rw [map_takeChange, hmap]
  parcel_kept := fun id hid hrec => by
    rw [← hmap] at hrec
    rw [parcel?_takeChange v a e new id hrec, hparcel id hid]
  band_kept := fun b hrec => by
    rw [← hmap] at hrec
    rw [band?_takeChange v a e new b hrec, band?, htable, band?]
  band_less := fun b r hb hpos => by
    have hb' : band? v b = some r := by rw [band?, htable]; exact hb
    rw [← hmap] at hpos ⊢
    rw [band?_takeChange_less v a e new b hpos, hb', Option.map_some]
  parcel_less := fun id x hid hx hpos => by
    have hx' := (hparcel id hid).trans hx
    rw [← hmap] at hpos ⊢
    refine ⟨?_, freed_takeChange v a e new id x hx' hpos⟩
    rw [parcel?_takeChange_less v a e new id hpos, hx', Option.bind_some]

/-- A state with the same map, bands and agenda, and the same parcels but for number n, has the same part of the removal. -/
theorem RangeRemoved.of_same {s t u : State} {a e n : Nat} (h : RangeRemoved s a e n t) (hmap : u.map = t.map) (htable : u.table = t.table)
    (hfreed : u.agenda.freed = t.agenda.freed) (hparcel : ∀ id, id ≠ n → parcel? u id = parcel? t id) : RangeRemoved s a e n u where
  held := by rw [hmap, h.held]
  parcel_kept := fun id hid hrec => (hparcel id hid).trans (h.parcel_kept id hid hrec)
  band_kept := fun b hrec => by rw [band?, htable]; exact h.band_kept b hrec
  band_less := fun b r hb hpos => by rw [band?, htable]; exact h.band_less b r hb hpos
  parcel_less := fun id x hid hx hpos => by rw [hparcel id hid, hfreed]; exact h.parcel_less id x hid hx hpos

theorem parcel?_addParcel (x : Parcel) (s : State) (id : Nat) :
    parcel? (addParcel x s) id = (parcel? s id).or (if x.id = id then some x else none) := by
  change (s.staging.parcels ++ [x]).find? (fun y => y.id = id) = _
  rw [List.find?_append]
  congr 1
  by_cases h : x.id = id <;> simp [h]

theorem parcel?_addParcel_other {x : Parcel} {s : State} {id : Nat} (h : id ≠ x.id) : parcel? (addParcel x s) id = parcel? s id := by
  rw [parcel?_addParcel, if_neg (Ne.symm h), Option.or_none]

/-! ### The acceptance of a PLACE -/

/-- The state with the new parcel in the table and its data in the slot, before the map changes (R74 steps 1 to 4). -/
def placeStored (p : Port) (f : RequestFrame) (n : Nat) (s : State) : State :=
  { addParcel (placeParcel p f n s) s with
    staging :=
      { (addParcel (placeParcel p f n s) s).staging with
        pool := poolWriteRun (n * slotSize s) (requestLength f) f.data s.staging.pool } }

/-- The record that a PLACE gives the map (R53). -/
def placeExtent (f : RequestFrame) (n : Nat) : Extent := { start := requestStart f, len := requestLength f, loc := .staged n 0 }

/-- The state with the map changed over the range of the PLACE (R53, R74 step 5). -/
def placeMapped (p : Port) (f : RequestFrame) (n : Nat) (s : State) : State :=
  takeChange (requestStart f) (requestEnd f) [placeExtent f n] (placeStored p f n s)

/-- The body of the answer to an accepted PLACE (R75). -/
def placeBody (p : Port) (f : RequestFrame) (s : State) : Body :=
  .place s.staging.seqCounter (stagedOf s p.other (requestStart f) (requestEnd f))

section
variable (p : Port) (f : RequestFrame) (n : Nat) (s : State)

@[simp] theorem map_placeStored : (placeStored p f n s).map = s.map := rfl
@[simp] theorem table_placeStored : (placeStored p f n s).table = s.table := rfl

theorem parcel?_placeStored (id : Nat) :
    parcel? (placeStored p f n s) id = (parcel? s id).or (if n = id then some (placeParcel p f n s) else none) :=
  parcel?_addParcel (placeParcel p f n s) s id

theorem takeFrame_placeMapped : TakeFrame (placeStored p f n s) (placeMapped p f n s) := takeFrame_takeChange _ _ _ _

/-- An accepted PLACE stores its parcel, changes the map, and is queued and answered. -/
theorem acceptPlace_eq (h : (s.link p).up = true) :
    acceptPlace p f n s = queuedAndAnswered p f .done (placeBody p f s) (placeParcel p f n s) (placeMapped p f n s) :=
  answerHead_joinQueue _ _ _ _ _ _ (((takeFrame_placeMapped p f n s).up p).trans h)

theorem staging_placeMapped : (placeMapped p f n s).staging =
    { (placeStored p f n s).staging with
      parcels := (placeMapped p f n s).staging.parcels, drains := (placeMapped p f n s).staging.drains } :=
  (takeFrame_placeMapped p f n s).staging

theorem reply_placeMapped (st : Status) (b : Body) (d : List Block) : reply (placeMapped p f n s) f st b d = reply s f st b d := by
  rw [reply, (takeFrame_placeMapped p f n s).custody]
  rfl

theorem resolve_placeMapped (L : Nat) : resolve (placeMapped p f n s).map.records L =
    if requestStart f ≤ L ∧ L < requestEnd f then some (.staged n (L - requestStart f)) else resolve s.map.records L := by
  rw [placeMapped, records_takeChange, map_placeStored, placeExtent, requestEnd, resolve_changeRange_one]
  simp only [Location.shift, Nat.zero_add]

theorem parcel?_placeMapped (hnone : parcel? s n = none) (hrec : ∀ r ∈ s.map.records, ∀ i, r.loc ≠ .staged n i) :
    parcel? (placeMapped p f n s) n = some (placeParcel p f n s) := by
  rw [placeMapped, parcel?_takeChange (placeStored p f n s) _ _ _ n (recordsInside_not_staged hrec), parcel?_placeStored, hnone,
    if_pos rfl, Option.none_or]

theorem poolBlock_placeMapped (h : PoolLaw s) (a : Nat) : poolBlock (placeMapped p f n s) a =
    if n * slotSize s ≤ a ∧ a < n * slotSize s + f.length.toNat then f.data.getD (a - n * slotSize s) zeroBlock else poolBlock s a := by
  rw [poolBlock, staging_placeMapped]
  exact poolRead_poolWriteRun _ _ _ _ a h

theorem rangeRemoved_placeMapped : RangeRemoved s (requestStart f) (requestEnd f) n (placeMapped p f n s) :=
  rangeRemoved_takeChange _ (map_placeStored p f n s) (table_placeStored p f n s) fun id hid => by
    rw [parcel?_placeStored, if_neg (Ne.symm hid), Option.or_none]

end

/-- What the acceptance of the PLACE f of port p in slot n leaves of s (R53, R73 to R75). -/
structure PlaceAccepted (s : State) (p : Port) (f : RequestFrame) (n : Nat) (u : State) : Prop
    extends TakenFrame s p (placeParcel p f n s) u, RangeRemoved s (requestStart f) (requestEnd f) n u where
  sent : (u.link p).sent.getLast? = some (reply s f .done (placeBody p f s) [])
  seqCounter : u.staging.seqCounter = s.staging.seqCounter + 1
  freeSlots : u.staging.freeSlots = s.staging.freeSlots
  freeNotes : u.staging.freeNotes = s.staging.freeNotes
  parcel : parcel? s n = none → (∀ r ∈ s.map.records, ∀ i, r.loc ≠ .staged n i) → parcel? u n = some (placeParcel p f n s)
  resolves : ∀ L, resolve u.map.records L =
    if requestStart f ≤ L ∧ L < requestEnd f then some (.staged n (L - requestStart f)) else resolve s.map.records L
  pool : PoolLaw s → ∀ a, poolBlock u a =
    if n * slotSize s ≤ a ∧ a < n * slotSize s + f.length.toNat then f.data.getD (a - n * slotSize s) zeroBlock else poolBlock s a

theorem placeAccepted_acceptPlace (p : Port) (f : RequestFrame) (n : Nat) (s : State) (h : (s.link p).up = true) :
    PlaceAccepted s p f n (acceptPlace p f n s) := by
  rw [acceptPlace_eq p f n s h]
  exact
    { takenFrame_queuedAndAnswered p f _ _ _ (takeFrame_placeMapped p f n s) rfl rfl,
      (rangeRemoved_placeMapped p f n s).of_same rfl rfl rfl fun _ _ => rfl with
      sent := by
        rw [link_queuedAndAnswered, reply_placeMapped]
        exact List.getLast?_concat ..
      seqCounter := by rw [staging_queuedAndAnswered, staging_placeMapped]; rfl
      freeSlots := by rw [staging_queuedAndAnswered, staging_placeMapped]; rfl
      freeNotes := by rw [staging_queuedAndAnswered, staging_placeMapped]; rfl
      parcel := parcel?_placeMapped p f n s
      resolves := resolve_placeMapped p f n s
      pool := poolBlock_placeMapped p f n s }

/-! ### The acceptance of a RELEASE -/

/-- The state with the unit unmapped and the note in the table (R54, R80 steps 1 to 3). -/
def releaseNoted (p : Port) (f : RequestFrame) (n : Nat) (s : State) : State :=
  addParcel (noteParcel p f n (takeChange (requestStart f) (unitEnd f) [] s)) (takeChange (requestStart f) (unitEnd f) [] s)

section
variable (p : Port) (f : RequestFrame) (n : Nat) (s : State)

theorem noteParcel_takeChange : noteParcel p f n (takeChange (requestStart f) (unitEnd f) [] s) = noteParcel p f n s := by
  have frame := takeFrame_takeChange s (requestStart f) (unitEnd f) []
  rw [noteParcel, slotCount, frame.startup, frame.staging, frame.now]
  rfl

theorem releaseNoted_eq :
    releaseNoted p f n s = addParcel (noteParcel p f n s) (takeChange (requestStart f) (unitEnd f) [] s) := by
  rw [releaseNoted, noteParcel_takeChange]

/-- An accepted RELEASE changes the map, stores its note, and is queued and answered. -/
theorem acceptRelease_eq (h : (s.link p).up = true) :
    acceptRelease p f n s =
      queuedAndAnswered p f (releaseStatus f) (.release (some s.staging.seqCounter) (releaseResume f)) (noteParcel p f n s)
        (releaseNoted p f n s) := by
  have hup : ((releaseNoted p f n s).link p).up = true := ((takeFrame_takeChange s (requestStart f) (unitEnd f) []).up p).trans h
  have hx := noteParcel_takeChange p f n s
  have heq := answerHead_joinQueue p f (releaseStatus f) (.release (some s.staging.seqCounter) (releaseResume f)) (noteParcel p f n s)
    (releaseNoted p f n s) hup
  rw [← heq, releaseNoted_eq, acceptRelease, hx]
  rfl

theorem takeFrame_releaseNoted : TakeFrame { s with staging := { s.staging with seqCounter := s.staging.seqCounter + 1 } } (releaseNoted p f n s) := by
  have frame := takeFrame_takeChange s (requestStart f) (unitEnd f) []
  refine ⟨?_, frame.zones, frame.hosts, frame.up, frame.queue, frame.holding⟩
  rw [releaseNoted, addParcel, frame.eq]

theorem reply_releaseNoted (st : Status) (b : Body) (d : List Block) : reply (releaseNoted p f n s) f st b d = reply s f st b d := by
  rw [reply, (takeFrame_releaseNoted p f n s).custody]
  rfl

theorem resolve_releaseNoted (L : Nat) : resolve (releaseNoted p f n s).map.records L =
    if requestStart f ≤ L ∧ L < unitEnd f then none else resolve s.map.records L := by
  change resolve (takeChange (requestStart f) (unitEnd f) [] s).map.records L = _
  rw [records_takeChange, resolve_changeRange_none]

theorem parcels_releaseNoted : (releaseNoted p f n s).staging.parcels.getLast? = some (noteParcel p f n s) := by
  rw [releaseNoted_eq]
  exact List.getLast?_concat ..

theorem rangeRemoved_releaseNoted : RangeRemoved s (requestStart f) (unitEnd f) (slotCount s + n) (releaseNoted p f n s) :=
  RangeRemoved.of_same (rangeRemoved_takeChange [] rfl rfl fun _ _ => rfl) rfl rfl rfl fun id hid => by
    rw [releaseNoted_eq, parcel?_addParcel_other hid]

theorem staging_releaseNoted : (releaseNoted p f n s).staging =
    { s.staging with
      seqCounter := s.staging.seqCounter + 1
      parcels := (releaseNoted p f n s).staging.parcels
      drains := (releaseNoted p f n s).staging.drains } :=
  (takeFrame_releaseNoted p f n s).staging

end

/-- What the acceptance of the RELEASE f of port p with note entry n leaves of s (R54, R80). -/
structure ReleaseAccepted (s : State) (p : Port) (f : RequestFrame) (n : Nat) (u : State) : Prop
    extends TakenFrame s p (noteParcel p f n s) u, RangeRemoved s (requestStart f) (unitEnd f) (slotCount s + n) u where
  sent : (u.link p).sent.getLast? =
    some (reply s f (releaseStatus f) (.release (some s.staging.seqCounter) (releaseResume f)) [])
  seqCounter : u.staging.seqCounter = s.staging.seqCounter + 1
  freeSlots : u.staging.freeSlots = s.staging.freeSlots
  freeNotes : u.staging.freeNotes = s.staging.freeNotes
  pool : u.staging.pool = s.staging.pool
  parcel : u.staging.parcels.getLast? = some (noteParcel p f n s)
  resolves : ∀ L, resolve u.map.records L = if requestStart f ≤ L ∧ L < unitEnd f then none else resolve s.map.records L

theorem releaseAccepted_acceptRelease (p : Port) (f : RequestFrame) (n : Nat) (s : State) (h : (s.link p).up = true) :
    ReleaseAccepted s p f n (acceptRelease p f n s) := by
  rw [acceptRelease_eq p f n s h]
  exact
    { takenFrame_queuedAndAnswered p f _ _ _ (takeFrame_releaseNoted p f n s) rfl rfl,
      (rangeRemoved_releaseNoted p f n s).of_same rfl rfl rfl fun _ _ => rfl with
      sent := by
        rw [link_queuedAndAnswered, reply_releaseNoted]
        exact List.getLast?_concat ..
      seqCounter := by rw [staging_queuedAndAnswered, staging_releaseNoted]
      freeSlots := by rw [staging_queuedAndAnswered, staging_releaseNoted]
      freeNotes := by rw [staging_queuedAndAnswered, staging_releaseNoted]
      pool := by rw [staging_queuedAndAnswered, staging_releaseNoted]
      parcel := parcels_releaseNoted p f n s
      resolves := resolve_releaseNoted p f n s }

/-! ### PLACE and RELEASE at their takes -/

theorem releaseStatus_eq (f : RequestFrame) : releaseStatus f = if f.length.toNat ≤ 65536 then .done else .partially := by
  simp only [releaseStatus, Config.releaseUnit, requestLength, ← Nat.not_le]
  split <;> simp_all

theorem releaseResume_eq (f : RequestFrame) :
    releaseResume f = if f.length.toNat ≤ 65536 then none else some (f.lbn.toNat + 65536) := by
  simp only [releaseResume, unitEnd, unitLength, Config.releaseUnit, requestLength, requestStart]
  split <;> rename_i h
  · rw [if_neg (Nat.not_le.mpr h), Nat.min_eq_right (Nat.le_of_lt h)]
  · rw [if_pos (Nat.not_lt.mp h)]

theorem sequenceSpent_eq_false {s : State} (h : s.staging.seqCounter < 2 ^ 48 - 1) : sequenceSpent s = false :=
  decide_eq_false (Nat.not_le.mpr h)

theorem sequenceSpent_eq_true {s : State} (h : 2 ^ 48 - 1 ≤ s.staging.seqCounter) : sequenceSpent s = true :=
  decide_eq_true h

/-- Settles O9: the take is an acceptance in the lowest free slot. -/
theorem placeSupersedesRange : Obligations.PlaceSupersedesRange := by
  intro s p f n rest ht hseq hfree
  have htake : placeTake p f s = acceptPlace p f n { s with staging := { s.staging with freeSlots := rest } } := by
    simp only [placeTake, hfree, sequenceSpent_eq_false hseq, Bool.false_eq_true, if_false]
  refine ⟨_, exec_place_of_takes ht, ?_⟩
  rw [htake]
  have h := placeAccepted_acceptPlace p f n { s with staging := { s.staging with freeSlots := rest } } ht.1
  exact ⟨h.sent, h.queue, h.holding, h.seqCounter, h.freeSlots, h.parcel, h.joined, h.resolves, h.pool, h.custody, h.sched, h.startup,
    h.now, h.pending, h.zones, h.reloc, h.hosts, h.engine, h.slotWait, h.noteWait, h.freeNotes, h.parcel_kept, h.band_kept, h.band_less,
    h.parcel_less, h.held, h.other_up, h.other_queue, h.other_holding⟩

/-- Settles O13: the take is an acceptance with the lowest free note entry. -/
theorem releaseUnmapsUnit : Obligations.ReleaseUnmapsUnit := by
  intro s p f n rest ht hmapped hseq hfree
  have htake : releaseTake p f s = acceptRelease p f n { s with staging := { s.staging with freeNotes := rest } } := by
    simp only [releaseTake, hmapped, hfree, sequenceSpent_eq_false hseq, Bool.not_true, Bool.false_eq_true, if_false]
  refine ⟨_, exec_release_of_takes ht, ?_⟩
  rw [htake, ← releaseStatus_eq, ← releaseResume_eq]
  have h := releaseAccepted_acceptRelease p f n { s with staging := { s.staging with freeNotes := rest } } ht.1
  exact ⟨h.resolves, h.parcel, h.seqCounter, h.freeNotes, h.sent, h.queue, h.holding, h.pool, h.custody, h.sched, h.startup, h.now,
    h.pending, h.zones, h.reloc, h.hosts, h.engine, h.slotWait, h.noteWait, h.freeSlots, h.parcel_kept, h.band_kept, h.joined, h.band_less,
    h.parcel_less, h.held, h.other_up, h.other_queue, h.other_holding⟩

/-- Settles O10: check 8 of R155 comes before the sequence limit. -/
theorem placeWaitsOrIsRefusedAtLimit : Obligations.PlaceWaitsOrIsRefusedAtLimit := by
  intro s p f ht
  rw [exec_place_of_takes ht]
  refine ⟨fun hnone => ?_, fun hfree hseq => ?_⟩
  · simp only [placeTake, hnone, holdRequest_eq]
    rfl
  · obtain ⟨n, rest, hslots⟩ := List.exists_cons_of_ne_nil hfree
    simp only [placeTake, hslots, sequenceSpent_eq_true hseq, if_true, refuseHead, answerHead_eq _ _ _ _ _ _ ht.1]

theorem releaseUnmapped_eq (p : Port) (f : RequestFrame) (s : State) (h : (s.link p).up = true) :
    releaseUnmapped p f s =
      s.setLink p
        (answered (s.link p)
          (reply s f (if f.length.toNat ≤ 65536 then .done else .partially)
            (.release none (if f.length.toNat ≤ 65536 then none else some (f.lbn.toNat + 65536))) [])) := by
  rw [releaseUnmapped, answerHead_eq _ _ _ _ _ _ h, releaseStatus_eq, releaseResume_eq]

/-- Settles O14: the map decides first, then check 8 of R155, then the sequence limit. -/
theorem releaseIsAnsweredWaitsOrIsRefused : Obligations.ReleaseIsAnsweredWaitsOrIsRefused := by
  intro s p f ht
  rw [exec_release_of_takes ht]
  refine ⟨fun hun => ?_, fun hmapped hnone => ?_, fun hmapped hfree hseq => ?_⟩
  · rw [releaseTake, hun, ← releaseUnmapped_eq p f s ht.1]
    rfl
  · simp only [releaseTake, hmapped, hnone, holdRequest_eq, Bool.not_true, Bool.false_eq_true, if_false]
    rfl
  · obtain ⟨n, rest, hnotes⟩ := List.exists_cons_of_ne_nil hfree
    simp only [releaseTake, hmapped, hnotes, sequenceSpent_eq_true hseq, Bool.not_true, Bool.false_eq_true, if_true, if_false,
      refuseHead, answerHead_eq _ _ _ _ _ _ ht.1]

/-! ### The handing of a free resource to the one request that waits for it (R83) -/

/-- The state in which slot n is handed to the last PLACE that waits. -/
def slotTaken (rest : List Nat) (s : State) : State :=
  { s with staging := { s.staging with freeSlots := rest, slotWait := [] } }

/-- The state in which a note entry is handed to the last RELEASE that waits. -/
def noteTaken (rest : List Nat) (s : State) : State :=
  { s with staging := { s.staging with freeNotes := rest, noteWait := [] } }

section
variable {s : State} {w : Waiter} {f : RequestFrame} {n : Nat} {rest : List Nat}

theorem handWaiting_slot (hw : s.staging.slotWait = [w]) (hfree : s.staging.freeSlots = n :: rest)
    (hq : (s.link w.port).queue.head? = some f) :
    handWaiting s =
      match retakeCheck s w.port .place f with
      | some st => freeSlot n (refuseHead w.port f st (slotTaken rest s))
      | none =>
        if sequenceSpent s then freeSlot n (refuseHead w.port f .notRunning (slotTaken rest s))
        else acceptPlace w.port f n (slotTaken rest s) := by
  have hhand : handWaiting s = handSlot n [w] { s with staging := { s.staging with freeSlots := rest } } := by
    simp only [handWaiting, hw, hfree, handResource]
  have hq' : ((slotTaken rest s).link w.port).queue.head? = some f := hq
  rw [hhand, handSlot]
  change (match ((slotTaken rest s).link w.port).queue.head? with
    | none => _
    | some f => _) = _
  rw [hq']
  rfl

theorem handWaiting_note (hslot : s.staging.slotWait = []) (hw : s.staging.noteWait = [w]) (hfree : s.staging.freeNotes = n :: rest)
    (hq : (s.link w.port).queue.head? = some f) :
    handWaiting s =
      match retakeCheck s w.port .release f with
      | some st => freeNote n (refuseHead w.port f st (noteTaken rest s))
      | none =>
        if !unitMapped s f then freeNote n (releaseUnmapped w.port f (noteTaken rest s))
        else if sequenceSpent s then freeNote n (refuseHead w.port f .notRunning (noteTaken rest s))
        else acceptRelease w.port f n (noteTaken rest s) := by
  have hhand : handWaiting s = handNote n [w] { s with staging := { s.staging with freeNotes := rest } } := by
    simp only [handWaiting, hslot, hw, hfree, handResource]
  have hq' : ((noteTaken rest s).link w.port).queue.head? = some f := hq
  rw [hhand, handNote]
  change (match ((noteTaken rest s).link w.port).queue.head? with
    | none => _
    | some f => _) = _
  rw [hq']
  rfl

end

/-- Settles O40: the retake is the take of the request with the resource that is handed to it. -/
theorem handedRequestIsTakenAgain : Obligations.HandedRequestIsTakenAgain := by
  have exec_eq : ∀ s, exec .heldRequestHanded s = .next (settle (handWaiting s)) := fun _ => rfl
  refine ⟨fun s w f n rest hw hfree hq hup => ?_, fun s w f n rest hslot hw hfree hq hup => ?_⟩
  · have hup' : ((slotTaken rest s).link w.port).up = true := hup
    simp only [exec_eq, handWaiting_slot hw hfree hq]
    refine ⟨fun st hst => ?_, fun hcheck hseq => ?_⟩
    · rcases hst with hcheck | ⟨hcheck, hseq, rfl⟩
      · simp only [hcheck, refuseHead, answerHead_eq _ _ _ _ _ _ hup']
        rfl
      · simp only [hcheck, sequenceSpent_eq_true hseq, if_true, refuseHead, answerHead_eq _ _ _ _ _ _ hup']
        rfl
    · simp only [hcheck, sequenceSpent_eq_false hseq, Bool.false_eq_true, if_false]
      have h := placeAccepted_acceptPlace w.port f n (slotTaken rest s) hup'
      exact ⟨_, rfl, h.resolves, h.sent, h.queue, h.holding, h.slotWait, h.freeSlots, h.seqCounter, h.parcel, h.joined, h.pool, h.custody,
        h.sched, h.startup, h.now, h.pending⟩
  · have hup' : ((noteTaken rest s).link w.port).up = true := hup
    simp only [exec_eq, handWaiting_note hslot hw hfree hq]
    refine ⟨fun st hst => ?_, fun hcheck hun => ?_, fun hcheck hmapped hseq => ?_⟩
    · rcases hst with hcheck | ⟨hcheck, hmapped, hseq, rfl⟩
      · simp only [hcheck, refuseHead, answerHead_eq _ _ _ _ _ _ hup']
        rfl
      · simp only [hcheck, hmapped, sequenceSpent_eq_true hseq, Bool.not_true, Bool.false_eq_true, if_true, if_false, refuseHead,
          answerHead_eq _ _ _ _ _ _ hup']
        rfl
    · simp only [hcheck, hun, Bool.not_false, if_true, releaseUnmapped_eq _ _ _ hup']
      rfl
    · simp only [hcheck, hmapped, sequenceSpent_eq_false hseq, Bool.not_true, Bool.false_eq_true, if_false]
      rw [← releaseStatus_eq, ← releaseResume_eq]
      have h := releaseAccepted_acceptRelease w.port f n (noteTaken rest s) hup'
      exact ⟨_, rfl, h.resolves, h.parcel, h.joined, h.seqCounter, h.freeNotes, h.noteWait, h.sent, h.queue, h.holding, h.pool, h.custody,
        h.sched, h.startup, h.now, h.pending⟩

end Sys2Proof.Machine
end

section
/-! PROOFS. FETCH and DRAIN: the snapshot, its read runs and the room for them, the response, the DRAIN records (R62 to R64, R84, R115 to R117). -/

namespace Sys2Proof.Machine
open Sys2Proof.Safety

/-! ### The MEDIA parts of a range -/

/-- The part of a MEDIA record inside the range [a, e). -/
def mediaPart (a e : Nat) (r : Extent) : Option Extent :=
  if r.isMedia = true ∧ max r.start a < min (r.start + r.len) e then
    some { start := max r.start a, len := min (r.start + r.len) e - max r.start a, loc := r.loc.shift (max r.start a - r.start) }
  else none

/-- The MEDIA parts of a list of records inside the range [a, e). -/
def mediaParts (a e : Nat) (m : List Extent) : List Extent :=
  m.filterMap (mediaPart a e)

theorem isMedia_shift (r : Extent) (a n d : Nat) : Extent.isMedia { start := a, len := n, loc := r.loc.shift d } = r.isMedia := by
  cases h : r.loc <;> simp [Extent.isMedia, Location.shift, h]

theorem mediaParts_cons (a e : Nat) (r : Extent) (m : List Extent) :
    mediaParts a e (r :: m) = (mediaPart a e r).toList ++ mediaParts a e m := by
  rw [mediaParts, mediaParts, List.filterMap_cons]
  cases mediaPart a e r <;> rfl

theorem mediaRuns_eq (s : State) (a e : Nat) : mediaRuns s a e = mediaParts a e s.map.records := by
  rw [mediaRuns, clippedRecords]
  induction s.map.records with
  | nil => rfl
  | cons r m ih =>
    rw [mediaParts_cons, ← ih, List.filterMap_cons, mediaPart]
    by_cases hmeet : max r.start a < min (r.start + r.len) e
    · cases hmedia : r.isMedia <;>
        simp [hmeet, hmedia, isMedia_shift]
    · simp [hmeet]

theorem mediaPart_start {a e : Nat} {r x : Extent} (h : mediaPart a e r = some x) :
    x.start = max r.start a ∧ max r.start a < min (r.start + r.len) e := by
  rw [mediaPart] at h
  split at h
  case isTrue hmeet => cases h; exact ⟨rfl, hmeet.2⟩
  case isFalse => cases h

/-- A record all of which lies before block k of the range has the same part in the range cut at k. -/
theorem mediaPart_cut {a e k : Nat} {r : Extent} (hend : r.start + r.len ≤ k) (hk : k ≤ e) : mediaPart a k r = mediaPart a e r := by
  rw [mediaPart, mediaPart, Nat.min_eq_left hend, Nat.min_eq_left (Nat.le_trans hend hk)]

theorem mediaPart_shorter {a e k : Nat} {r : Extent} (h : mediaPart a e r = none) (hk : k ≤ e) : mediaPart a k r = none := by
  rw [mediaPart] at h ⊢
  split at h
  case isTrue => cases h
  case isFalse hno => rw [if_neg fun hyes => hno ⟨hyes.1, by omega⟩]

/-- A range cut at block k has no MEDIA part of records that begin at k or later. -/
theorem mediaParts_nil {a k : Nat} {m : List Extent} (h : ∀ r ∈ m, k ≤ max r.start a) : mediaParts a k m = [] := by
  rw [mediaParts, List.filterMap_eq_nil_iff]
  intro r hr
  have := h r hr
  rw [mediaPart, if_neg (by omega)]

/-- In a map in order, the range cut at the start of the MEDIA part number k has the k parts before it (R63). -/
theorem mediaParts_take {a e : Nat} : ∀ {m : List Extent} {k : Nat} {x : Extent}, MapOk m → (mediaParts a e m)[k]? = some x →
    mediaParts a x.start m = (mediaParts a e m).take k := by
  intro m
  induction m with
  | nil => intro k x _ hx; simp [mediaParts] at hx
  | cons r m ih =>
    intro k x hm hx
    have later : ∀ y ∈ mediaParts a e m, r.start + r.len ≤ y.start ∧ y.start < e := by
      intro y hy
      obtain ⟨q, hq, hpart⟩ := List.mem_filterMap.mp hy
      obtain ⟨hs, hlt⟩ := mediaPart_start hpart
      have := hm.starts q hq
      omega
    rw [mediaParts_cons] at hx ⊢
    cases hr : mediaPart a e r with
    | none =>
      rw [hr] at hx
      have hlt := (later x (List.mem_of_getElem? hx)).2
      rw [mediaPart_shorter hr (Nat.le_of_lt hlt), mediaParts_cons, hr]
      exact ih hm.tail hx
    | some y =>
      rw [hr] at hx
      rw [mediaParts_cons a e, hr]
      cases k with
      | zero =>
        obtain rfl : y = x := by simpa using hx
        obtain ⟨hs, hlt⟩ := mediaPart_start hr
        have hnone : mediaPart a y.start r = none := by rw [mediaPart, if_neg (by omega)]
        have hrest : mediaParts a y.start m = [] := mediaParts_nil fun q hq => by
          have := hm.starts q hq
          omega
        rw [hnone, hrest]
        rfl
      | succ k =>
        have hx' : (mediaParts a e m)[k]? = some x := by simpa using hx
        obtain ⟨hend, hlt⟩ := later x (List.mem_of_getElem? hx')
        rw [mediaPart_cut hend (Nat.le_of_lt hlt), hr, ih hm.tail hx']
        rfl

/-- The read runs of a FETCH are those of the first 64 MEDIA parts of its range (R63). -/
theorem fetchRuns_eq {s : State} (f : RequestFrame) (h : MapLaw s) :
    fetchRuns s f =
      ((mediaParts (requestStart f) (requestEnd f) s.map.records).take 64).filterMap
        (readRunOf s s.sched.nextFetch (requestStart f)) := by
  rw [fetchRuns, mediaRuns_eq, servedEnd, fetchResume, mediaRuns_eq]
  congr 1
  change mediaParts _ (Option.getD (Option.map _ ((mediaParts (requestStart f) (requestEnd f) s.map.records)[64]?)) _) _ = _
  cases hx : (mediaParts (requestStart f) (requestEnd f) s.map.records)[64]? with
  | none => exact (List.take_of_length_le (List.getElem?_eq_none_iff.mp hx)).symm
  | some x => exact mediaParts_take ((mapOrdered_iff _).mp h) hx

/-! ### A FETCH that is taken -/

/-- The record of a FETCH of port p taken with read runs (R115). -/
def fetchRecord (p : Port) (f : RequestFrame) (s : State) : FetchRecord :=
  { id := s.sched.nextFetch, requester := requesterOf p f, answers := snapshotAnswers s f, resume := fetchResume s f
    runsLeft := (fetchRuns s f).length, reserved := runBlocks (fetchRuns s f) }

/-- A FETCH with read runs leaves the head, and its runs are queued and pinned (R30, R115). -/
theorem admitFetch_runs {p : Port} {f : RequestFrame} {s : State} (h : fetchRuns s f ≠ []) :
    admitFetch p f s =
      offer
        { s with
          links := s.links.set p (taken (s.link p))
          table := { s.table with bands := (admitFetch p f s).table.bands }
          sched :=
            { s.sched with
              readQueue := s.sched.readQueue ++ fetchRuns s f
              fetches := s.sched.fetches ++ [fetchRecord p f s]
              nextFetch := s.sched.nextFetch + 1 } } ∧
    ∀ b, band? (admitFetch p f s) b = (band? s b).map fun x => { x with pins := x.pins + (fetchRuns s f).countP fun r => r.band = b } := by
  have hne : (fetchRuns s f).isEmpty = false := by simpa using h
  obtain ⟨hfold, hpins⟩ := addPin_foldl (fetchRuns s f) (popRequest p s)
  simp only [admitFetch, hne, Bool.false_eq_true, if_false]
  refine ⟨?_, hpins⟩
  rw [hfold]
  rfl

theorem hasRoom_eq_true {s : State} {runs : List ReadRun} :
    hasRoom s runs = true ↔ s.sched.readQueue.length + runs.length ≤ 64 ∧ runBlocks runs ≤ readBufferFree s := by
  rw [hasRoom, Bool.and_eq_true, decide_eq_true_iff, decide_eq_true_iff]

/-- The answer of a block that the map places at x, when x is not MEDIA (R62). -/
theorem snapshotAnswers_eq {s : State} {f : RequestFrame} (hresume : fetchResume s f = none) :
    snapshotAnswers s f = (List.range (requestLength f)).map fun i => snapshotBlock s (requestStart f + i) := by
  rw [snapshotAnswers, servedEnd, hresume]
  simp [requestEnd]

/-- The answer of a block that the map places at x, other than on the media (R62). -/
def answerAt (s : State) : Option Location → Answer
  | none => .unmapped
  | some .lost => .excepted .lost
  | some (.staged q j) => .data (slotBlock s q j)
  | some (.media _ _) => .waiting

theorem snapshotBlock_eq (s : State) (L : Nat) : snapshotBlock s L = answerAt s (resolve s.map.records L) := by
  rw [snapshotBlock]
  rcases resolve s.map.records L with _ | (_ | _ | _) <;> rfl

/-- Where a block lies, and what its answer says, with no MEDIA block among them (R62, R64). -/
theorem fetchBody_answerAt (s : State) (blocks : List (Option Location)) (resume : Option Nat) :
    fetchBody (blocks.map (answerAt s)) resume =
      .fetch (blocks.countP fun x => x = some .lost) (blocks.findIdx? fun x => x = some .lost)
        (if some Location.lost ∈ blocks then some .lost else none) (blocks.countP fun x => x = none) resume := by
  have hreason : ∀ x, (answerAt s x).reason = if x = some .lost then some .lost else none := by
    rintro (_ | (_ | _ | _)) <;> rfl
  have hlost : (fun x => (answerAt s x).reason.isSome) = fun x => decide (x = some .lost) := by
    funext x
    rw [hreason]
    by_cases hx : x = some .lost <;> simp [hx]
  have hunmapped : (fun x => answerAt s x == .unmapped) = fun x => decide (x = none) := by
    funext x
    rcases x with _ | (_ | _ | _) <;> rfl
  have hsome : blocks.findSome? (fun x => (answerAt s x).reason) = if some Location.lost ∈ blocks then some .lost else none := by
    induction blocks with
    | nil => rfl
    | cons x xs ih =>
      rw [List.findSome?_cons, hreason, ih]
      by_cases hx : x = some .lost <;> simp [hx, eq_comm]
  rw [fetchBody, List.countP_map, List.findIdx?_map, List.findSome?_map, List.countP_map]
  simp only [Function.comp_def, hlost, hunmapped, hsome]

/-- Settles O11: without MEDIA blocks the snapshot is the answer; without room the request is held. -/
theorem fetchWithoutRunsOrRoom : Obligations.FetchWithoutRunsOrRoom := by
  refine ⟨fun s p f ht hnone => ?_, fun s p f ht hruns hroom => ?_⟩
  · have hresume : fetchResume s f = none := by rw [fetchResume, hnone]; rfl
    have hempty : fetchRuns s f = [] := by rw [fetchRuns, servedEnd, hresume, Option.getD_none, hnone]; rfl
    have htake : fetchTake p f s = admitFetch p f s := by simp [fetchTake, hempty]
    have hanswers : snapshotAnswers s f =
        ((List.range (requestLength f)).map fun i => resolve s.map.records (requestStart f + i)).map (answerAt s) := by
      rw [snapshotAnswers_eq hresume, List.map_map]
      exact List.map_congr_left fun i _ => snapshotBlock_eq s _
    rw [exec_fetch_of_takes ht, htake, admitFetch, hempty, hresume, hanswers, List.isEmpty_nil, if_pos rfl,
      answerHead_eq _ _ _ _ _ _ ht.1, fetchBody_answerAt, List.map_map]
    have hblock : ∀ x, (answerAt s x).block = match x with
        | some (.staged q j) => poolBlock s (q * slotSize s + j)
        | _ => zeroBlock := by rintro (_ | (_ | _ | _)) <;> rfl
    simp only [Function.comp_def, hblock]
    rfl
  · have htake : fetchTake p f s =
        holdRequest p { s with sched := { s.sched with readWait := s.sched.readWait ++ [p] } } := by
      have hne : (fetchRuns s f).isEmpty = false := by simpa using hruns
      have hno : (hasRoom s (fetchRuns s f) && s.sched.readWait.isEmpty) = false := by
        rw [Bool.eq_false_iff, Ne, Bool.and_eq_true, hasRoom_eq_true, List.isEmpty_iff]
        rintro ⟨⟨hqueue, hbuffer⟩, hwait⟩
        rcases hroom with h | h | h
        · exact h hwait
        · omega
        · omega
      simp only [fetchTake, hne, hno, Bool.or_self, Bool.false_eq_true, if_false]
    rw [exec_fetch_of_takes ht, htake, holdRequest_eq]
    rfl

/-- Settles O12: the runs and the resume LBN are those of the MEDIA parts of the range. -/
theorem fetchQueuesReadRuns : Obligations.FetchQueuesReadRuns := by
  intro s p f ht hmap hwait spans resume runs answers hne hqueue hbuffer
  have hspans : spans = mediaParts (requestStart f) (requestEnd f) s.map.records := by
    refine congrArg (List.filterMap · s.map.records) (funext fun r => ?_)
    rw [mediaPart]
    cases hl : r.loc <;> simp [Extent.isMedia, hl, Location.shift]
  have hruns : fetchRuns s f = runs := by
    rw [fetchRuns_eq f hmap, ← hspans]
    rfl
  have hresume : fetchResume s f = resume := by
    rw [fetchResume, mediaRuns_eq, ← hspans]
  have hanswers : snapshotAnswers s f = answers := by
    rw [snapshotAnswers, servedEnd, hresume]
    rfl
  have htake : fetchTake p f s = admitFetch p f s := by
    have hroom : hasRoom s (fetchRuns s f) = true := hasRoom_eq_true.mpr (by rw [hruns]; exact ⟨hqueue, hbuffer⟩)
    simp only [fetchTake, hroom, hwait, List.isEmpty_nil, Bool.and_self, Bool.or_true, if_true]
  have hrecord : fetchRecord p f s =
      { id := s.sched.nextFetch, requester := requesterOf p f, answers := answers, resume := resume
        runsLeft := runs.length, reserved := (runs.map fun r => r.count).sum } := by
    rw [fetchRecord, hanswers, hresume, hruns, runBlocks]
  obtain ⟨heq, hpins⟩ := admitFetch_runs (p := p) (hruns ▸ hne)
  rw [hruns] at heq hpins
  rw [hrecord] at heq
  exact ⟨_, exec_fetch_of_takes ht, by rw [htake]; exact heq, by rw [htake]; exact hpins⟩

/-! ### A held FETCH, and a FETCH whose runs have ended -/

theorem roomReturned_nil {s : State} (h : s.sched.readWait = []) : roomReturned s = s := by
  rw [roomReturned, h]
  rfl

theorem roomReturned_one {s : State} {p : Port} {f : RequestFrame} (hwait : s.sched.readWait = [p]) (hq : (s.link p).queue.head? = some f)
    (hruns : fetchRuns s f ≠ []) :
    roomReturned s =
      if hasRoom s (fetchRuns s f) then admitFetch p f { s with sched := { s.sched with readWait := [] } } else s := by
  have hne : (fetchRuns s f).isEmpty = false := by simpa using hruns
  rw [roomReturned, hwait, retakeFetches, hq]
  simp only [hne, Bool.false_or]
  rfl

/-- The one FETCH of the part is answered when its runs have ended (R64, R117). -/
theorem answerEnded_one {s : State} {x : FetchRecord} (hx : s.sched.fetches = [x]) (hleft : x.runsLeft = 0)
    (hwait : s.sched.readWait = []) :
    answerEnded s =
      respond x.requester (fetchStatus x.resume) (fetchBody x.answers x.resume) (x.answers.map Answer.block)
        { s with sched := { s.sched with fetches := [] } } := by
  have hfilter : [x].filter (fun y => y.id ≠ x.id) = [] := by simp
  rw [answerEnded, hx, List.foldl_cons, List.foldl_nil, if_pos hleft, answerFetch, hx, hfilter, roomReturned_nil]
  rw [respond_eq]
  exact hwait

theorem fetchStatus_eq (resume : Option Nat) : fetchStatus resume = if resume = none then .done else .partially := by
  cases resume <;> rfl

/-- Settles O41: the held FETCH is admitted as at its take; the ended one is answered. -/
theorem heldAndEndedFetchesGoOn : Obligations.HeldAndEndedFetchesGoOn := by
  refine ⟨fun s p f hwait hq hruns => ⟨roomReturned s, rfl, fun hroom => ?_, fun hroom => ?_⟩, fun s x hx hleft horphan hup hwait => ?_⟩
  · rw [roomReturned_one hwait hq hruns, if_pos (hasRoom_eq_true.mpr hroom)]
    exact admitFetch_runs (s := { s with sched := { s.sched with readWait := [] } }) hruns
  · rw [roomReturned_one hwait hq hruns, if_neg (mt hasRoom_eq_true.mp hroom)]
  · have hexec : exec .fetchResponse s = .next (settle (answerEnded s)) := rfl
    rw [hexec, answerEnded_one hx hleft hwait, respond_eq, if_neg (by simp [horphan]; exact hup), fetchStatus_eq]
    have hexcepted : (fun a : Answer => a.reason.isSome) = fun a => match a with
        | .excepted _ => true
        | _ => false := by funext a; cases a <;> rfl
    have hreason : Answer.reason = fun a => match a with
        | .excepted r => some r
        | _ => none := by funext a; cases a <;> rfl
    have hunmapped : (fun a : Answer => a == .unmapped) = fun a => decide (a = .unmapped) := by funext a; rfl
    have hblock : Answer.block = fun a => match a with
        | .data b => b
        | _ => zeroBlock := by funext a; cases a <;> rfl
    rw [fetchBody, hexcepted, hreason, hunmapped, hblock]
    rfl

/-! ### DRAIN -/

theorem drainCounts_iff (d : DrainRecord) (x : Parcel) :
    drainCounts d x = true ↔ x.port = d.requester.port ∧ (d.stream = none ∨ d.stream = some x.stream) ∧ x.seq < d.mark := by
  simp only [drainCounts, Bool.and_eq_true, Bool.or_eq_true, beq_iff_eq, decide_eq_true_iff, and_assoc]

theorem drainCount_eq (p : Port) (f : RequestFrame) (s : State) :
    (newDrain p f s).count = s.staging.parcels.countP fun x =>
      x.port = p ∧ (f.stream = 255 ∨ x.stream = requestStream f) ∧ x.seq < s.staging.seqCounter := by
  refine congrArg (List.countP · s.staging.parcels) (funext fun x => ?_)
  rw [Bool.eq_iff_iff, drainCounts_iff, decide_eq_true_iff]
  refine and_congr_right fun _ => and_congr_left fun _ => ?_
  by_cases hall : f.stream = 255
  · simp only [hall, if_true, true_or]
  · simp only [hall, if_false, false_or, reduceCtorEq, Option.some.injEq, eq_comm]

theorem newDrain_eq (p : Port) (f : RequestFrame) (s : State) :
    newDrain p f s =
      { requester := requesterOf p f
        stream := if f.stream = 255 then none else some (requestStream f)
        mark := s.staging.seqCounter
        count := s.staging.parcels.countP fun x =>
          x.port = p ∧ (f.stream = 255 ∨ x.stream = requestStream f) ∧ x.seq < s.staging.seqCounter } := by
  rw [← drainCount_eq]
  rfl

/-- Settles O16: a DRAIN record is made with its count, and the records whose count is 0 are answered in their order. -/
theorem drainWaitsForEarlierParcels : Obligations.DrainWaitsForEarlierParcels := by
  refine ⟨fun s p f ht => ?_, fun s => ⟨_, rfl, ?_⟩⟩
  · rw [exec_drain_of_takes ht, drainTake, newDrain_eq, answerHead_eq _ _ _ _ _ _ ht.1]
    rfl
  · rw [answerDrains]
    have h := respond_foldl .done .none ((s.staging.drains.filter fun d => d.count = 0).map DrainRecord.requester)
      { s with staging := { s.staging with drains := s.staging.drains.filter fun d => d.count ≠ 0 } }
    simp only [List.foldl_map, List.filter_map] at h
    refine ⟨h.1, fun p => (h.2 p).trans ?_⟩
    rw [List.filter_filter]
    refine congrArg (List.foldl _ _) (List.filter_congr fun d _ => ?_)
    rw [Function.comp_apply, ← Bool.decide_and, decide_eq_decide]
    exact and_comm

end Sys2Proof.Machine
end

section
/-! PROOFS. Streams, the summary builder, bands taken and written, custody, notice lists and the chain check of a scan (R15 to R22, R89, R90,
R98, R99, R101, R160, R161, R164). -/

namespace Sys2Proof.Machine
open Sys2Proof.Safety

/-! ### STREAM_SET and the finish of a band -/

/-- A STREAM_SET that passes its checks carries a zone order of the table (R156). -/
theorem requestSetting_of_takes {s : State} {p : Port} {f : RequestFrame} (h : Takes s p .streamSet f) :
    requestSetting f =
      { order := if f.zoneOrder = 0 then .outer else if f.zoneOrder = 1 then .inner else .spread, cold := f.coldPlacement == 1 } := by
  have hfields := (kindFields_of_fieldCheck (checks_of_takeCheck h.2.2.2).2.1).2
  have horder : (zoneOrderOf f.zoneOrder).isSome = true :=
    (need_eq_none _ _).mp (hfields _ (List.mem_cons_of_mem _ (List.mem_cons_self ..)))
  rw [zoneOrderOf] at horder
  rw [requestSetting, zoneOrderOf]
  have hcode : ∀ c : Nat, c < 256 → (f.zoneOrder = BitVec.ofNat 8 c ↔ f.zoneOrder.toNat = c) := fun c hc => by
    rw [← BitVec.toNat_inj, BitVec.toNat_ofNat, Nat.mod_eq_of_lt hc]
  have h0 : f.zoneOrder = 0 ↔ f.zoneOrder.toNat = 0 := hcode 0 (by decide)
  have h1 : f.zoneOrder = 1 ↔ f.zoneOrder.toNat = 1 := hcode 1 (by decide)
  simp only [h0, h1]
  split at horder
  · next hc => simp [hc]
  · next hc => simp [hc]
  · next hc => simp [hc]
  · cases horder

theorem finishBand_of_free {s : State} {b : Nat} {r : Band} (h : band? s b = some r) (hfree : writeInFlight b s = false) :
    finishBand b s =
      offer
        { s with
          table := { s.table with bands := s.table.bands.set b { r with state := .closing } }
          sched := { s.sched with summaries := s.sched.summaries ++ [b] } } := by
  rw [finishBand, hfree, if_neg (by decide), closeBand, updBand_eq_set s h]

theorem finishBand_of_flight {s : State} {b : Nat} {r : Band} {i : StreamId} (h : band? s b = some r) (hflight : writeInFlight b s = true)
    (howner : r.owner = some i) : finishBand b s = updStream i (fun x => { x with finish := true }) s := by
  rw [finishBand, if_pos hflight, h, Option.bind_some, howner]

theorem openBandOf_setLink (s : State) (p : Port) (l : Link) (i : StreamId) : openBandOf (s.setLink p l) i = openBandOf s i := by
  cases i <;> rfl

/-- A change of a host stream that leaves its open band leaves the band's record. -/
theorem openBandOf_updHost (s : State) (t : Fin 8) (g : Stream → Stream) (h : ∀ x, (g x).openBand = x.openBand) :
    openBandOf (updHost t g s) (.host t) = openBandOf s (.host t) := by
  have hopen : (stream (updHost t g s) (.host t)).openBand = (stream s (.host t)).openBand := by
    rw [stream, stream, updHost]
    simp [h]
  rw [openBandOf, hopen, openBandOf]
  rfl

/-- Settles O17: the setting is stored or replaced, and the stream's OPEN band is finished. -/
theorem streamSetStoresOrReplacesSetting : Obligations.StreamSetStoresOrReplacesSetting := by
  refine ⟨fun s p f ht happly => ?_, fun s p f ht happly => ?_, fun s b r hb => ⟨?_, fun t hflight howner => ?_, fun hflight howner => ?_⟩⟩
  · rw [exec_streamSetBoundary_of_takes ht (by rw [applyNow, happly]; rfl), streamSetBoundary, requestSetting_of_takes ht,
      answerHead_eq _ _ _ _ _ (updHost _ _ s) ht.1]
    rfl
  · rw [exec_streamSetNow_of_takes ht (by rw [applyNow, happly]; rfl), streamSetNow, requestSetting_of_takes ht]
    rw [finishStream, answerHead_eq _ _ _ _ _ (updHost _ _ s) ht.1, openBandOf_setLink, openBandOf_updHost]
    · rfl
    · exact fun _ => rfl
  · exact finishBand_of_free hb
  · exact finishBand_of_flight hb hflight howner
  · exact finishBand_of_flight hb hflight howner

/-! ### The summary builder -/

theorem builderTake_empty {x : Stream} {e : SummaryEntry} (hover : x.overflow = false) (hx : x.entries = []) :
    builderTake e x = { x with entries := [e] } := by
  simp [builderTake, hover, hx]

theorem builderTake_last {x : Stream} {e last : SummaryEntry} (hover : x.overflow = false) (hx : x.entries.getLast? = some last) :
    builderTake e x =
      if entryExtends last e then { x with entries := x.entries.dropLast ++ [{ last with length := last.length + 1 }] }
      else if x.entries.length < 1024 then { x with entries := x.entries ++ [e] } else { x with overflow := true } := by
  simp [builderTake, hover, hx, Config.summaryEntries]

theorem entryExtends_iff {last e : SummaryEntry} :
    entryExtends last e = true ↔
      e.kind = .data ∧ last.kind = .data ∧ last.offset + last.length = e.offset ∧ last.start + last.length = e.start ∧
        last.seq = e.seq := by
  simp only [entryExtends, Bool.and_eq_true, beq_iff_eq, and_assoc]

theorem builderTake_bound (x : Stream) (e : SummaryEntry) (h : x.entries.length ≤ 1024) : (builderTake e x).entries.length ≤ 1024 := by
  cases hover : x.overflow with
  | true => simpa [builderTake, hover] using h
  | false =>
    cases hx : x.entries.getLast? with
    | none => rw [builderTake_empty hover (List.getLast?_eq_none_iff.mp hx)]; exact Nat.one_le_two_pow (n := 10)
    | some last =>
      rw [builderTake_last hover hx]
      have hpos : x.entries.length ≠ 0 := fun h0 => by simp [List.eq_nil_of_length_eq_zero h0] at hx
      split
      · simp only [List.length_append, List.length_dropLast, List.length_singleton]
        omega
      · split
        · simp only [List.length_append, List.length_singleton]
          omega
        · exact h

/-- Settles O18: the builder's three cases, and the entries that the items of a run begin. -/
theorem summaryBuilderTakesSector : Obligations.SummaryBuilderTakesSector := by
  refine ⟨fun x e hbound => ⟨builderTake_bound x e hbound, fun hover => ?_, fun hover => ⟨?_, fun hno => ?_⟩⟩, fun o is x => ?_⟩
  · simp [builderTake, hover]
  · intro last hlast hk hlk hoff hstart hseq
    rw [builderTake_last hover hlast, if_pos (entryExtends_iff.mpr ⟨hk, hlk, hoff, hstart, hseq⟩)]
  · cases hx : x.entries.getLast? with
    | none =>
      have hnil := List.getLast?_eq_none_iff.mp hx
      rw [builderTake_empty hover hnil, hnil]
      rfl
    | some last => rw [builderTake_last hover hx, if_neg (mt entryExtends_iff.mp (hno last hx))]
  · exact ⟨rfl, rfl, fun _ _ _ _ => rfl, fun _ _ _ => rfl, fun _ _ _ _ => rfl, fun _ _ _ _ => rfl⟩

/-! ### Bands taken and written -/

theorem leastOf_le {q : Nat} : ∀ {l : List (Option Nat)}, some q ∈ l → ∃ m, leastOf l = some m ∧ m ≤ q
  | none :: xs, h => leastOf_le (l := xs) (by simpa using h)
  | some x :: xs, h => by
    rw [leastOf]
    rcases List.mem_cons.mp h with hq | hq
    · obtain rfl := Option.some.inj hq
      cases leastOf xs with
      | none => exact ⟨q, rfl, Nat.le_refl q⟩
      | some y => exact ⟨min q y, rfl, Nat.min_le_left ..⟩
    · obtain ⟨m, hm, hle⟩ := leastOf_le hq
      rw [hm]
      exact ⟨min x m, rfl, Nat.le_trans (Nat.min_le_right ..) hle⟩

theorem leastOf_mem {m : Nat} : ∀ {l : List (Option Nat)}, leastOf l = some m → some m ∈ l
  | none :: xs, h => List.mem_cons_of_mem _ (leastOf_mem (l := xs) h)
  | some x :: xs, h => by
    rw [leastOf] at h
    cases hxs : leastOf xs with
    | none =>
      rw [hxs] at h
      exact h ▸ List.mem_cons_self ..
    | some y =>
      rw [hxs] at h
      obtain rfl := Option.some.inj h
      rcases Nat.le_total x y with hle | hle
      · rw [Nat.min_eq_left hle]; exact List.mem_cons_self ..
      · rw [Nat.min_eq_right hle]; exact List.mem_cons_of_mem _ (leastOf_mem hxs)

theorem writeProgress_nil (b : Nat) (items : List RunItem) (s : State) : writeProgress b items [] s = s := rfl

theorem writeProgress_some {sectors : List Sector} {last : Sector} (h : sectors.getLast? = some last) (b : Nat) (items : List RunItem)
    (s : State) :
    writeProgress b items sectors s =
      updBand b
        (fun x =>
          { x with
            wp := x.wp + sectors.length
            chain := some last.trailer.chain
            notes := x.notes + items.countP isNoteItem
            minSeq := leastOf (x.minSeq :: items.map itemSeq) })
        s := by
  rw [writeProgress, h]

theorem nextStamp_mem {n : Nat} (h : n ≤ 65535) : 1 ≤ nextStamp n ∧ nextStamp n ≤ 65535 := nextCustody_mem h

/-- Settles O49: the taken band's record and F, and the progress of a written one. -/
theorem bandOpensAndAdvances : Obligations.BandOpensAndAdvances := by
  refine ⟨fun s b i r hb hempty hstamp => ?_, fun s b r items sectors hb _ => ⟨?_, fun last hlast => ?_, fun n hn => ?_⟩⟩
  · obtain ⟨hge, hle⟩ := nextStamp_mem hstamp
    refine ⟨?_, hge, hle, ?_, (onlyBands_takeBand s b i).staging, fun n hn => ?_⟩
    · rw [takeBand, band?_freeChanged, band?_updBand, if_pos rfl, hb]
      rfl
    · rw [takeBand, freeBands_freeChanged]
      have := freeBands_updBand s b r
        (fun x =>
          { x with
            state := .opened
            stamp := nextStamp x.stamp
            openSeq := some s.staging.seqCounter
            wp := 0
            chain := some (bandSeed x.number (nextStamp x.stamp))
            owner := some i
            summaryPresent := false }) hb
      rwa [if_pos hempty, if_neg BandState.noConfusion] at this
    · rw [takeBand, band?_freeChanged, band?_updBand, if_neg hn]
  · rintro rfl
    rfl
  · rw [writeProgress_some hlast, band?_updBand, if_pos rfl, hb]
    refine ⟨_, rfl, rfl, rfl, fun q hq => leastOf_le ?_, fun m hm => ?_⟩
    · rcases hq with hq | ⟨i, hi, hq⟩
      · exact hq ▸ List.mem_cons_self ..
      · exact List.mem_cons_of_mem _ (hq ▸ List.mem_map_of_mem hi)
    · rcases List.mem_cons.mp (leastOf_mem hm) with hm | hm
      · exact .inl hm.symm
      · obtain ⟨i, hi, hm⟩ := List.mem_map.mp hm
        exact .inr ⟨i, hi, hm⟩
  · cases hlast : sectors.getLast? with
    | none => rw [List.getLast?_eq_none_iff.mp hlast, writeProgress_nil]
    | some last => rw [writeProgress_some hlast, band?_updBand, if_neg hn]

/-! ### Custody -/

theorem changeCustody_eq {p : Port} (x : Admission) (f : RequestFrame) {s : State} (hup : (s.link p).up = true) :
    changeCustody p x f s =
      let noted := fun l : Link => { l with notices := takeNotice .custodyChanged none l.notices }
      { s with
        custody := custodyAfter s p x
        links :=
          ({ a := noted s.links.a, b := noted s.links.b } : Both Link).set p
            (answered (noted (s.link p)) { reply s f .done .none [] with custody := nextCustody s.custody.number }) } := by
  have hup' : ((placeNotice .custodyChanged none { s with custody := custodyAfter s p x }).link p).up = true := by
    rw [link_placeNotice]
    exact hup
  have hanswer := answerHead_eq p f .done .none [] (placeNotice .custodyChanged none { s with custody := custodyAfter s p x }) hup'
  rw [link_placeNotice] at hanswer
  exact hanswer

/-- Settles O20: one meaning serves FENCE and ADMIT, with the admission state they give. -/
theorem fenceAndAdmitChangeCustody : Obligations.FenceAndAdmitChangeCustody := by
  rintro s p k f (rfl | rfl) ht
  · exact (exec_fence_of_takes ht).trans (congrArg Host.Outcome.next (changeCustody_eq .fenced f ht.1))
  · exact (exec_admitPort_of_takes ht).trans (congrArg Host.Outcome.next (changeCustody_eq .active f ht.1))

/-! ### Notice lists -/

theorem noticeSame_split {k : NoticeKind} {b : Option Nat} {n : Notice} {post : List Notice} (hk : n.kind = k) (hb : n.band = b) :
    ∀ {pre : List Notice}, (∀ m ∈ pre, ¬(m.kind = k ∧ m.band = b)) →
      noticeSame k b (pre ++ n :: post) = some (pre ++ { n with count := bumpCount n.count } :: post)
  | [], _ => by rw [List.nil_append, noticeSame, if_pos ⟨hk, hb⟩, List.nil_append]
  | m :: pre, h => by
    rw [List.cons_append, noticeSame, if_neg (h m (List.mem_cons_self ..)),
      noticeSame_split hk hb fun x hx => h x (List.mem_cons_of_mem _ hx)]
    rfl

theorem noticeSame_none {k : NoticeKind} {b : Option Nat} : ∀ {l : List Notice}, (∀ n ∈ l, ¬(n.kind = k ∧ n.band = b)) →
    noticeSame k b l = none
  | [], _ => rfl
  | n :: l, h => by
    rw [noticeSame, if_neg (h n (List.mem_cons_self ..)), noticeSame_none fun x hx => h x (List.mem_cons_of_mem _ hx)]
    rfl

theorem noticeKindOnly_split {k : NoticeKind} {n : Notice} {post : List Notice} (hk : n.kind = k) :
    ∀ {pre : List Notice}, (∀ m ∈ pre, m.kind ≠ k) →
      noticeKindOnly k (pre ++ n :: post) = some (pre ++ { n with band := none, count := bumpCount n.count } :: post)
  | [], _ => by rw [List.nil_append, noticeKindOnly, if_pos hk, List.nil_append]
  | m :: pre, h => by
    rw [List.cons_append, noticeKindOnly, if_neg (h m (List.mem_cons_self ..)),
      noticeKindOnly_split hk fun x hx => h x (List.mem_cons_of_mem _ hx)]
    rfl

theorem noticeKindOnly_none {k : NoticeKind} : ∀ {l : List Notice}, (∀ n ∈ l, n.kind ≠ k) → noticeKindOnly k l = none
  | [], _ => rfl
  | n :: l, h => by
    rw [noticeKindOnly, if_neg (h n (List.mem_cons_self ..)), noticeKindOnly_none fun x hx => h x (List.mem_cons_of_mem _ hx)]
    rfl

theorem noticeSeveral_concat (n : Notice) : ∀ pre : List Notice,
    noticeSeveral (pre ++ [n]) = pre ++ [{ kind := .several, band := none, count := bumpCount n.count }]
  | [] => rfl
  | [_] => rfl
  | m :: x :: pre => by
    have := noticeSeveral_concat n (x :: pre)
    simp only [List.cons_append, noticeSeveral] at this ⊢
    rw [this]

theorem bumpCount_le (n : Nat) : bumpCount n ≤ 65535 := Nat.min_le_right ..

theorem noticeSame_counts {k : NoticeKind} {b : Option Nat} : ∀ {l l' : List Notice}, (∀ n ∈ l, n.count ≤ 65535) →
    noticeSame k b l = some l' → ∀ n ∈ l', n.count ≤ 65535
  | n :: l, l', h, hsame => by
    obtain ⟨hn, hl⟩ := List.forall_mem_cons.mp h
    rw [noticeSame] at hsame
    split at hsame
    · cases hsame
      exact List.forall_mem_cons.mpr ⟨bumpCount_le _, hl⟩
    · obtain ⟨m, hm, rfl⟩ := Option.map_eq_some_iff.mp hsame
      exact List.forall_mem_cons.mpr ⟨hn, noticeSame_counts hl hm⟩

theorem noticeKindOnly_counts {k : NoticeKind} : ∀ {l l' : List Notice}, (∀ n ∈ l, n.count ≤ 65535) →
    noticeKindOnly k l = some l' → ∀ n ∈ l', n.count ≤ 65535
  | n :: l, l', h, honly => by
    obtain ⟨hn, hl⟩ := List.forall_mem_cons.mp h
    rw [noticeKindOnly] at honly
    split at honly
    · cases honly
      exact List.forall_mem_cons.mpr ⟨bumpCount_le _, hl⟩
    · obtain ⟨m, hm, rfl⟩ := Option.map_eq_some_iff.mp honly
      exact List.forall_mem_cons.mpr ⟨hn, noticeKindOnly_counts hl hm⟩

theorem noticeSeveral_counts : ∀ {l : List Notice}, (∀ n ∈ l, n.count ≤ 65535) → ∀ n ∈ noticeSeveral l, n.count ≤ 65535
  | [], h => h
  | [_], _ => List.forall_mem_cons.mpr ⟨bumpCount_le _, nofun⟩
  | _ :: _ :: _, h => by
    obtain ⟨hn, hl⟩ := List.forall_mem_cons.mp h
    exact List.forall_mem_cons.mpr ⟨hn, noticeSeveral_counts hl⟩

/-- The record that a notice changes or adds counts at most 65,535; the others stay. -/
theorem takeNotice_counts {k : NoticeKind} {b : Option Nat} {l : List Notice} (h : ∀ n ∈ l, n.count ≤ 65535) :
    ∀ n ∈ takeNotice k b l, n.count ≤ 65535 := by
  rw [takeNotice]
  cases hsame : noticeSame k b l with
  | some l' => exact noticeSame_counts h hsame
  | none =>
    dsimp only
    split
    · intro n hn
      rcases List.mem_append.mp hn with hn | hn
      · exact h n hn
      · rw [List.mem_singleton.mp hn]; exact Nat.le_of_ble_eq_true rfl
    · cases honly : noticeKindOnly k l with
      | some l' => exact noticeKindOnly_counts h honly
      | none => exact noticeSeveral_counts h

/-- Settles O30: the split of the list at the record that the case names. -/
theorem noticeListTakesFirstCase : Obligations.NoticeListTakesFirstCase := by
  intro k b l
  refine ⟨takeNotice_bound k b l, takeNotice_counts, ?_, fun hno => ⟨fun hlt => ?_, ?_, ?_⟩⟩
  · rintro pre n post rfl hpre hk hb
    rw [takeNotice, noticeSame_split hk hb hpre]
    rfl
  · rw [takeNotice, noticeSame_none hno]
    exact if_pos hlt
  · rintro hfull pre n post rfl hpre hk
    rw [takeNotice, noticeSame_none hno, noticeKindOnly_split hk hpre]
    exact if_neg (Nat.not_lt.mpr hfull)
  · rintro hfull hkinds pre n rfl
    rw [takeNotice, noticeSame_none hno, noticeKindOnly_none hkinds, noticeSeveral_concat]
    exact if_neg (Nat.not_lt.mpr hfull)

/-! ### The chain check of a scan -/

theorem checkSectors_append (seed : Chain) (ys : List (Option Sector)) : ∀ (xs : List (Option Sector)) (o : Nat) (pred : Option Chain)
    (brk : Option Nat),
    checkSectors seed o (xs ++ ys) pred brk =
      checkSectors seed (o + xs.length) ys (checkSectors seed o xs pred brk).1 (checkSectors seed o xs pred brk).2
  | [], _, _, _ => rfl
  | x :: xs, o, pred, brk => by
    rw [List.cons_append, checkSectors, checkSectors_append seed ys xs, List.length_cons, Nat.add_assoc, Nat.add_comm 1]
    rfl

theorem mem_unreadableOffsets {n : Nat} : ∀ {xs : List (Option Sector)} {o : Nat},
    n ∈ unreadableOffsets o xs ↔ ∃ i, xs[i]? = some none ∧ n = o + i
  | [], o => by simp [unreadableOffsets]
  | none :: xs, o => by
    rw [unreadableOffsets, List.mem_cons, mem_unreadableOffsets]
    constructor
    · rintro (rfl | ⟨i, hi, rfl⟩)
      · exact ⟨0, rfl, rfl⟩
      · exact ⟨i + 1, hi, by omega⟩
    · rintro ⟨_ | i, hi, rfl⟩
      · exact .inl rfl
      · exact .inr ⟨i, hi, by omega⟩
  | some x :: xs, o => by
    rw [unreadableOffsets, mem_unreadableOffsets]
    constructor
    · rintro ⟨i, hi, rfl⟩
      exact ⟨i + 1, hi, by omega⟩
    · rintro ⟨_ | i, hi, rfl⟩
      · cases hi
      · exact ⟨i, hi, by omega⟩

/-- Settles O47: one sector, then a sequence of them, then what the scan keeps. -/
theorem scanChecksBandChain : Obligations.ScanChecksBandChain := by
  refine ⟨fun _ _ _ _ => rfl, fun seed o x pred brk => ?_, fun seed o xs ys pred brk => checkSectors_append seed ys xs o pred brk,
    fun c o xs => ⟨rfl, fun n => ⟨?_, ?_⟩⟩⟩
  · rw [checkSector]
    simp only [chainNext]
    have some_or : ∀ e, (if (e != x.trailer.chain) = true then some (brk.getD o) else brk) =
        if some e = none ∨ some e = some x.trailer.chain then brk else brk.or (some o) := by
      intro e
      by_cases he : e = x.trailer.chain
      · simp [he]
      · cases brk <;> simp [he]
    by_cases ho : o = 0
    · subst ho
      simp only [if_true, some_or]
    · cases pred with
      | none => simp [ho]
      | some c => simp only [ho, if_false, Option.map_some, some_or]
  · exact List.mem_append.trans (or_congr_right mem_unreadableOffsets)
  · exact List.mem_append.trans (or_congr_right mem_unreadableOffsets)

end Sys2Proof.Machine
end

section
/-! PROOFS. GET, STATUS and BAND_QUERY; SET and LOAD_DEFAULTS: the value applied, the FREE_LOW test and the re-evaluation (R28, R43, R44, R68,
R129, R157 to R159, R172, R178). -/

namespace Sys2Proof.Machine
open Sys2Proof.Safety

/-! ### Queries -/

theorem param_eq_iff (f : RequestFrame) {n : Nat} (h : n < 65536) : f.param = BitVec.ofNat 16 n ↔ f.param.toNat = n := by
  rw [← BitVec.toNat_inj, BitVec.toNat_ofNat, Nat.mod_eq_of_lt h]

theorem paramValue_eq (s : State) (id : Nat) :
    paramValue s id =
      if id = 32 then slotCount s else if id = 33 then slotSize s else if id = 34 then 1048576 else if id = 35 then s.startup.nLog
      else if id = 36 then bandCount s else if id = 37 then s.table.zones.length else if id = 38 then 30000 else if id = 39 then 4000
      else settingOf s.startup.image id := by
  unfold paramValue
  split <;> simp_all [Config.mapCapacity, Config.channelTimeout, Config.stalenessPeriod]

theorem paramValue_writable {s : State} {id : Nat} (h : id ≤ 14) : paramValue s id = settingOf s.startup.image id := by
  rw [paramValue_eq]
  repeat rw [if_neg (by omega)]

theorem duePosition_eq (b : Nat) (s : State) :
    duePosition b s = (s.table.due.findIdx? fun n => n = b).map fun i => i + 1 := by
  have hpred : (fun n => decide (n = b)) = fun n => n == b := by funext n; rfl
  rw [duePosition, hpred, List.findIdx?_eq_guard_findIdx_lt, List.idxOf]
  by_cases hb : b ∈ s.table.due
  · have hlt : s.table.due.findIdx (fun n => n == b) < s.table.due.length := List.idxOf_lt_length_iff.mpr hb
    simp [hb, Option.guard, hlt]
  · have hlt : ¬ s.table.due.findIdx (fun n => n == b) < s.table.due.length := mt List.idxOf_lt_length_iff.mp hb
    simp [hb, Option.guard, hlt]

theorem classInForce_eq (s : State) : classInForce s = if s.sched.stale then 3 else s.sched.tempClass.getD 3 := by
  rw [classInForce]
  cases s.sched.tempClass <;> rfl

theorem band?_of_takes {s : State} {p : Port} {k : Kind} {f : RequestFrame} (hk : k = .bandQuery ∨ k = .verifyBand) (h : Takes s p k f) :
    ∃ b, band? s f.band.toNat = some b := by
  have hfields := (kindFields_of_fieldCheck (checks_of_takeCheck h.2.2.2).2.1).2
  have hlt : f.band.toNat < bandCount s := by
    rcases hk with rfl | rfl <;> exact of_decide_eq_true ((need_eq_none _ _).mp (hfields _ (List.mem_cons_self ..)))
  exact ⟨_, List.getElem?_eq_getElem hlt⟩

/-- Settles O27: the reports are read off the state. -/
theorem queriesReportValuesInForce : Obligations.QueriesReportValuesInForce := by
  refine ⟨fun s p f ht => ?_, fun s p f ht => ⟨statusReport p s, ?_, ?_⟩, fun s p f ht => ?_⟩
  · have value : paramValue s f.param.toNat = if f.param = 0x20 then 16 * 2 ^ s.startup.image.slotCode
        else if f.param = 0x21 then 1024 / 2 ^ s.startup.image.slotCode
        else if f.param = 0x22 then 1048576
        else if f.param = 0x23 then s.startup.nLog
        else if f.param = 0x24 then s.table.bands.length
        else if f.param = 0x25 then s.table.zones.length
        else if f.param = 0x26 then 30000
        else if f.param = 0x27 then 4000
        else settingOf s.startup.image f.param.toNat := by
      rw [paramValue_eq]
      simp only [← param_eq_iff f (show 32 < 65536 by decide), ← param_eq_iff f (show 33 < 65536 by decide),
        ← param_eq_iff f (show 34 < 65536 by decide), ← param_eq_iff f (show 35 < 65536 by decide),
        ← param_eq_iff f (show 36 < 65536 by decide), ← param_eq_iff f (show 37 < 65536 by decide),
        ← param_eq_iff f (show 38 < 65536 by decide), ← param_eq_iff f (show 39 < 65536 by decide)]
      rfl
    rw [exec_get_of_takes ht, getTake, answerHead_eq _ _ _ _ _ _ ht.1, value]
  · rw [exec_status_of_takes ht, statusTake, answerHead_eq _ _ _ _ _ _ ht.1]
  · refine ⟨rfl, rfl, rfl, rfl, rfl, fun q => ?_, ?_⟩
    · cases q <;> exact ⟨rfl, rfl⟩
    · refine ⟨rfl, rfl, rfl, rfl, rfl, rfl, rfl, rfl, rfl, rfl, rfl, rfl, rfl, rfl, rfl, rfl, rfl, rfl, classInForce_eq s, rfl, rfl, rfl,
        rfl, rfl, rfl, ?_, fun t => ?_⟩
      · simp [statusReport]
      · simp [statusReport, List.getElem?_append_left, streamReport, stream]
  · obtain ⟨b, hb⟩ := band?_of_takes (.inl rfl) ht
    refine ⟨b, hb, ?_⟩
    rw [exec_bandQuery_of_takes ht, bandQueryTake, hb, ← duePosition_eq]
    exact congrArg Host.Outcome.next (answerHead_eq _ _ _ _ _ _ ht.1)

/-! ### The value that a SET applies -/

theorem settingOf_putSetting_same {x : Settings} {id v : Nat} (hid : 1 ≤ id ∧ id ≤ 14)
    (hv : v ≤ (settingRange x.lowMark id).2) : settingOf (putSetting x id v) id = v := by
  by_cases h13 : id = 13
  · subst h13
    exact (BitVec.toNat_ofNat v 64).trans (Nat.mod_eq_of_lt (Nat.lt_of_le_pred (by decide) hv))
  by_cases h14 : id = 14
  · subst h14
    have : v = 0 ∨ v = 1 := by simp only [settingRange] at hv; omega
    rcases this with rfl | rfl <;> rfl
  obtain ⟨hlo, hhi⟩ := hid
  interval_cases id <;> first | rfl | contradiction

theorem settingOf_putSetting_other {x : Settings} {id v n : Nat} (hn : n ≠ id) (hmark : ¬(id = 9 ∧ n = 10)) :
    settingOf (putSetting x id v) n = settingOf x n := by
  unfold putSetting
  split <;> first | rfl | (unfold settingOf; split <;> simp_all)

theorem criticalMark_putSetting (x : Settings) (v : Nat) :
    (putSetting x 9 v).criticalMark = min x.criticalMark ((putSetting x 9 v).lowMark - 1) := by
  simp only [putSetting]
  split <;> omega

/-! ### SET of the parameters other than 1 and 5 -/

theorem writable_not_readOnly {id : Nat} (h : id ≤ 14) : readOnlyParam id = false :=
  decide_eq_false (by omega)

theorem settingEffects_eq {id : Nat} (s : State) (hone : id ≠ 1) (hfive : id ≠ 5) :
    settingEffects id s =
      if id = 9 then choiceDue (freeLowTest s) else if id = 10 then freeLowTest s else if id = 13 then choiceDue s else s := by
  unfold settingEffects
  split <;> first | contradiction | rfl | simp_all

/-- A SET of a writable parameter other than the slot division code (R157). -/
theorem setTake_writable {p : Port} {f : RequestFrame} {s : State} (hup : (s.link p).up = true) (hid : 2 ≤ f.param.toNat ∧ f.param.toNat ≤ 14)
    {v : State}
    (hv : settingEffects f.param.toNat (setImage
      (putSetting s.startup.image f.param.toNat (clampTo (settingRange s.startup.image.lowMark f.param.toNat) f.value.toNat)) s) = v)
    (honly : OnlyBands (setImage
      (putSetting s.startup.image f.param.toNat (clampTo (settingRange s.startup.image.lowMark f.param.toNat) f.value.toNat)) s) v) :
    setTake p f s =
      v.setLink p
        (answered (v.link p)
          (reply s f
            (if (settingRange s.startup.image.lowMark f.param.toNat).1 ≤ f.value.toNat ∧
                f.value.toNat ≤ (settingRange s.startup.image.lowMark f.param.toNat).2 then .done else .clamped)
            (.setting f.param.toNat
              (settingOf
                (putSetting s.startup.image f.param.toNat
                  (clampTo (settingRange s.startup.image.lowMark f.param.toNat) f.value.toNat)) f.param.toNat)) [])) := by
  have hone : ¬(f.param.toNat = 1 ∧ slotQuiescent s = false) := by omega
  rw [setTake]
  simp only [writable_not_readOnly hid.2, Bool.false_eq_true, if_false, if_neg hone, hv]
  rw [answerHead_eq _ _ _ _ _ _ (by rw [honly.links p]; exact hup), paramValue_writable hid.2, honly.startup, reply,
    honly.custody]
  rfl

/-- Settles O24: the image takes the clamped value, and the effects follow the marks and the mask. -/
theorem setAppliesClampedValue : Obligations.SetAppliesClampedValue := by
  intro s p f ht hlo hhi hne hlaw
  have hrange : InRange s.startup.image := (inRange_iff _).mp hlaw
  have hclamp := clampTo_mem (settingRange s.startup.image.lowMark f.param.toNat) f.value.toNat (settingRange_le _ hrange _)
  have h9 : f.param = 9 ↔ f.param.toNat = 9 := param_eq_iff f (by decide)
  have h10 : f.param = 10 ↔ f.param.toNat = 10 := param_eq_iff f (by decide)
  have h13 : f.param = 13 ↔ f.param.toNat = 13 := param_eq_iff f (by decide)
  refine ⟨putSetting s.startup.image f.param.toNat (clampTo (settingRange s.startup.image.lowMark f.param.toNat) f.value.toNat), ?_,
    settingOf_putSetting_same ⟨by omega, hhi⟩ hclamp.2, fun id hid hmark => ?_, fun hmark => ?_, putSetting_clamped _ _ _ hlaw⟩
  · rw [exec_set_of_takes ht]
    refine congrArg (fun u => Host.Outcome.next (settle u)) (setTake_writable ht.1 ⟨hlo, hhi⟩ ?_ ?_)
    · rw [settingEffects_eq _ (by omega) hne]
      simp only [h9, h10, h13]
      rfl
    · split
      · exact (onlyBands_freeLowTest _).trans (onlyBands_choiceDue _)
      · split
        · exact onlyBands_freeLowTest _
        · split
          · exact onlyBands_choiceDue _
          · exact .refl _
  · exact settingOf_putSetting_other hid fun h => hmark ⟨h9.mpr h.1, h.2⟩
  · rw [h9.mp hmark]
    exact criticalMark_putSetting _ _

/-! ### SET of the slot division code, of the threshold, and of a read-only parameter -/

theorem slotQuiescent_iff (s : State) : slotQuiescent s = true ↔ s.startup.engine = .halted ∧ s.staging.parcels = [] := by
  rw [slotQuiescent, Bool.and_eq_true, beq_iff_eq, stagingEmpty, List.isEmpty_iff]

theorem clampTo_six (v : Nat) : clampTo (0, 6) v = min v 6 := by
  simp only [clampTo]
  split
  · omega
  · split <;> omega

/-- The bands that the re-evaluation makes cross, each with its record after the crossing. -/
theorem band?_reevaluate (s : State) (n : Nat) :
    band? (reevaluate s) n =
      (band? s n).map fun r => if crossesAt s.startup.image.threshold r then crossedRecord s n r else r := by
  rw [(crossed_reevaluate s).bands]
  cases hb : band? s n with
  | none => rfl
  | some r =>
    have hlt : n ∈ List.range s.table.bands.length := List.mem_range.mpr (List.getElem?_eq_some_iff.mp hb).1
    simp only [Option.map_some, hlt, true_and]

/-- A SET of the threshold (R129, R157). -/
theorem setTake_threshold {p : Port} {f : RequestFrame} {s v : State} (hup : (s.link p).up = true) (hid : f.param.toNat = 5)
    (hv : choiceDue (reevaluate (setImage { s.startup.image with threshold := clampTo (1000, 65000) f.value.toNat } s)) = v) :
    setTake p f s =
      v.setLink p
        (answered (v.link p)
          (reply s f (if 1000 ≤ f.value.toNat ∧ f.value.toNat ≤ 65000 then .done else .clamped)
            (.setting 5 (clampTo (1000, 65000) f.value.toNat)) [])) := by
  have hframe := causeFrame_reevaluate (setImage { s.startup.image with threshold := clampTo (1000, 65000) f.value.toNat } s)
  have hvup : (v.link p).up = true := by
    rw [← hv]
    change ((reevaluate _).link p).up = true
    rw [hframe.links p]
    exact hup
  have hstart : v.startup.image.threshold = clampTo (1000, 65000) f.value.toNat := by
    rw [← hv]
    change (reevaluate _).startup.image.threshold = _
    rw [hframe.eq]
    rfl
  have hcustody : v.custody = s.custody := by
    rw [← hv]
    change (reevaluate _).custody = _
    rw [hframe.eq]
    rfl
  have hone : ¬(5 = 1 ∧ slotQuiescent s = false) := by omega
  rw [setTake]
  simp only [hid, writable_not_readOnly (show 5 ≤ 14 by decide), Bool.false_eq_true, if_false, if_neg hone]
  change answerHead p f _ (.setting 5 (paramValue (choiceDue (reevaluate _)) 5)) [] (choiceDue (reevaluate _)) = _
  have heffect : choiceDue (reevaluate (setImage (putSetting s.startup.image 5 (clampTo (settingRange s.startup.image.lowMark 5)
      f.value.toNat)) s)) = v := hv
  rw [heffect, answerHead_eq _ _ _ _ _ _ hvup, paramValue_writable (by decide), settingOf, hstart, reply, hcustody]
  rfl

/-- Settles O25: the cases of `setTake`; the crossings are those of the re-evaluation under the new threshold. -/
theorem setOfSlotCodeThresholdAndReadOnly : Obligations.SetOfSlotCodeThresholdAndReadOnly := by
  intro s p f ht
  rw [exec_set_of_takes ht]
  refine ⟨fun hid => ?_, fun hid => ?_, fun hid => ?_⟩
  · have h1 : f.param.toNat = 1 := by rw [hid]; rfl
    by_cases hq : s.startup.engine = .halted ∧ s.staging.parcels = []
    · have hquiet := (slotQuiescent_iff s).mpr hq
      rw [if_pos hq, setTake]
      simp only [h1, writable_not_readOnly (show 1 ≤ 14 by decide), hquiet, Bool.false_eq_true, if_false, and_false, reduceCtorEq]
      simp only [settingRange, clampTo_six, Nat.zero_le, true_and, putSetting, settingEffects]
      have hup : ∀ x, ((redivide (setImage x s)).link p).up = true := fun _ => ht.1
      rw [answerHead_eq _ _ _ _ _ _ (hup _)]
      rfl
    · have hquiet := Bool.eq_false_iff.mpr (mt (slotQuiescent_iff s).mp hq)
      rw [if_neg hq, setTake]
      simp only [h1, writable_not_readOnly (show 1 ≤ 14 by decide), hquiet, Bool.false_eq_true, if_false, and_self, if_true, refuseHead,
        answerHead_eq _ _ _ _ _ _ ht.1]
  · have h5 : f.param.toNat = 5 := by rw [hid]; rfl
    intro x crosses crossing
    have h := crossed_reevaluate (setImage { s.startup.image with threshold := x } s)
    refine ⟨choiceDue (reevaluate (setImage { s.startup.image with threshold := x } s)), ?_, ?_, fun n => ?_, fun q => ?_, fun i => ?_⟩
    · exact congrArg (fun u => Host.Outcome.next (settle u)) (setTake_threshold ht.1 h5 rfl)
    · rw [h.eq]
      rfl
    · exact band?_reevaluate _ n
    · exact h.links q
    · exact h.streams i
  · have hread : readOnlyParam f.param.toNat = true := by
      have hfields := (kindFields_of_fieldCheck (checks_of_takeCheck ht.2.2.2).2.1).2
      have hp := (need_eq_none _ _).mp (hfields _ (List.mem_cons_self ..))
      have hw : writableParam f.param.toNat = false := decide_eq_false (by omega)
      rwa [hw, Bool.false_or] at hp
    rw [setTake]
    simp only [hread, if_true, answerHead_eq _ _ _ _ _ _ ht.1]

end Sys2Proof.Machine
end

section
/-! PROOFS. Completions, timers and reports: what a completion of each kind of operation is taken for, reissue and waits, the geometry record,
the settings record, and the saves (R2, R20, R82, R94, R104 to R108, R118, R119, R135, R170 to R172). -/

namespace Sys2Proof.Machine
open Sys2Proof.Safety

/-! ### Completions and expiries of the awaited issue -/

section
variable {s : State} {op : Operation}

theorem awaited_eq (h : Awaits s op) : awaited s = some op := by
  rw [awaited, h.1, Option.filter_some, if_pos h.2]

/-- The count with which a completion is taken (R103; assumption 10). -/
def reportedCount (op : Operation) (c : Completion) : Nat :=
  if issueCount op < c.k then c.k else deliveredCount op c.delivery c.k

theorem takeCompletion_awaits (h : Awaits s op) {c : Completion} (hc : op.issue = c.issue) :
    takeCompletion c s =
      takeOutcome op (takenAs op s.startup.image.retryLimit c.outcome (reportedCount op c)) c.delivery s := by
  simp only [takeCompletion, awaited_eq h, if_pos hc, reportedCount]

theorem takeCompletion_discarded {c : Completion} (h : ∀ op, Awaits s op → op.issue ≠ c.issue) : takeCompletion c s = s := by
  rw [takeCompletion]
  cases ha : awaited s with
  | none => rfl
  | some op =>
    obtain ⟨hcur, haw⟩ := Option.filter_eq_some_iff.mp ha
    exact if_neg (h op ⟨hcur, haw⟩)

theorem timerExpires_awaits (h : Awaits s op) {d : Nat} (hd : s.sched.channelTimer = some d) :
    timerExpires s = takeOutcome op (.offTrack, 0) .nothing { s with now := max s.now d } := by
  simp only [timerExpires, awaited_eq h, hd]
  rfl

theorem reportedCount_eq (hk : op.kind ≠ .readRun) (c : Completion) : reportedCount op c = c.k := by
  rw [reportedCount, deliveredCount.eq_def]
  split
  · rfl
  · cases hop : op.kind <;> simp_all

/-! ### What an outcome does -/

/-- The operation as a completion with k more sectors leaves it, its issue no longer awaited. -/
def completedBy (op : Operation) (k : Nat) : Operation :=
  { op with completed := op.issuedFrom + k, awaiting := false }

/-- The state in which an outcome of an operation that is no read run acts: the timer is stopped and the added sectors are in the band table
(R105, R109). -/
def outcomeTaken (op : Operation) (k : Nat) (s : State) : State :=
  addProgress op k { s with sched := { s.sched with current := some (completedBy op k), channelTimer := none } }

theorem takeOutcome_eq (hk : op.kind ≠ .readRun) (r : MediaOutcome × Nat) (d : Delivery) :
    takeOutcome op r d s =
      match r.1 with
      | .complete => finishOperation (completedBy op r.2) (op.issuedFrom + r.2) true d (outcomeTaken op r.2 s)
      | .notReady => waitNotReady (completedBy op r.2) (outcomeTaken op r.2 s)
      | .writeFault => finishOperation (completedBy op r.2) (op.issuedFrom + r.2) false .nothing (outcomeTaken op r.2 s)
      | .offTrack => retryOperation (completedBy op r.2) (op.issuedFrom + r.2) (outcomeTaken op r.2 s)
      | .unreadable => retryOperation (completedBy op r.2) (op.issuedFrom + r.2) (outcomeTaken op r.2 s) := by
  simp only [takeOutcome, if_neg hk]
  rfl

/-- A completion with no sector delivered changes nothing of its read run's owner. -/
theorem deliverRead_nil (op : Operation) (start : Nat) (s : State) : deliverRead op start [] s = s := by
  have feed : ∀ (o : Nat) (c : Scan), c.feed o [] = c := fun o c => by
    simp only [Scan.feed, checkSectors, unreadableOffsets, List.append_nil]
  rw [deliverRead]
  split
  · rfl
  · rw [deliverReloc]
    have scan : ∀ g : Scan → Scan, (∀ c, g c = c) → updScan g s = s := fun g hg => by
      have : s.engine.scan.map g = s.engine.scan := by cases s.engine.scan <;> simp [hg]
      rw [updScan, updEngine, this]
    have chunk : updChunk (fun k => { k with buffer := k.buffer ++ [] }) s = s := by
      have : s.engine.chunk.map (fun k => { k with buffer := k.buffer ++ [] }) = s.engine.chunk := by cases s.engine.chunk <;> simp
      rw [updChunk, updEngine, this]
    simp only [scan _ (feed _)]
    split
    · exact chunk
    · exact scan _ fun _ => rfl
  · rw [deliverStart]
    cases hs : s.startup.stage with
    | rebuild r =>
      have : StartStage.rebuild { r with buffer := r.buffer ++ [] } = s.startup.stage := by rw [List.append_nil, hs]
      simp only [updStart, this]
    | _ => rfl
  · rfl

/-- A reissue from the completed count (R107). -/
theorem sendIssue_eq (s : State) (op : Operation) :
    sendIssue op s = { s with sched := issued s op, engine := busyEngine s } := rfl

theorem issueCount_pos (h : op.issuedFrom < op.count) : 0 < issueCount op := Nat.sub_pos_of_lt h

/-- A retryable completion of a read run without sectors, with retries left, reissues the run. -/
theorem takeOutcome_read_retry (hk : op.kind = .readRun) (d : Delivery) {o : MediaOutcome} (ho : o = .offTrack ∨ o = .unreadable)
    (hleft : op.retries < s.startup.image.retryLimit) :
    takeOutcome op (o, 0) d s =
      { s with
        sched := issued s { op with completed := op.issuedFrom, retries := op.retries + 1 }
        engine := busyEngine s } := by
  have hprogress : addProgress op 0 = id := by funext u; rw [addProgress, hk]; rfl
  have hretry : takeOutcome op (o, 0) d s =
      retryOperation (completedBy op 0) op.issuedFrom
        { s with sched := { s.sched with current := some (completedBy op 0), channelTimer := none } } := by
    rcases ho with rfl | rfl <;>
      · simp only [takeOutcome, hprogress, id, if_pos hk, List.take_zero, List.map_nil, deliverRead_nil]
        rfl
  rw [hretry, retryOperation]
  exact if_pos hleft

theorem reportedCount_zero {c : Completion} (h : c.k = 0) : reportedCount op c = 0 := by
  rw [reportedCount, h, if_neg (Nat.not_lt_zero _), deliveredCount.eq_def]
  split
  · exact Nat.zero_min _
  · rfl
  · rfl

/-- NOT_READY of a write run: the added sectors are in the band table, and the operation waits (R22, R108). -/
theorem waitNotReady_outcomeTaken (hk : op.kind = .writeRun) (k : Nat) :
    waitNotReady (completedBy op k) (outcomeTaken op k s) =
      writeProgress op.band ((op.items.drop op.issuedFrom).take k) ((op.sectors.drop op.issuedFrom).take k)
        { s with
          sched :=
            { s.sched with
              channelTimer := none
              current := some { op with completed := op.issuedFrom + k, awaiting := false, wait := some (s.now + 1000) } } } := by
  have htaken : outcomeTaken op k s =
      writeProgress op.band ((op.items.drop op.issuedFrom).take k) ((op.sectors.drop op.issuedFrom).take k)
        { s with sched := { s.sched with current := some (completedBy op k), channelTimer := none } } := by
    rw [outcomeTaken, addProgress, hk]
  rw [waitNotReady, htaken]
  cases hx : ((op.sectors.drop op.issuedFrom).take k).getLast? with
  | none => rw [List.getLast?_eq_none_iff.mp hx]; rfl
  | some last => rw [writeProgress_some hx, writeProgress_some hx]; rfl

end

/-- Settles O31: the three ways in which a completion leaves the operation as it stands, or goes on with it. -/
theorem completionsAreDiscardedOrContinue : Obligations.CompletionsAreDiscardedOrContinue := by
  have exec_eq : ∀ c s, exec (.channelCompletion c) s = .next (settle (takeCompletion c s)) := fun _ _ => rfl
  refine ⟨fun s c hno => ⟨?_, settle_of_settled s⟩, fun s op c ha hk hc hout hlt => ?_, fun s op c ha hk hc hout hzero hlt hleft => ?_⟩
  · rw [exec_eq, takeCompletion_discarded hno]
  · have hrun : op.kind ≠ .readRun := by rw [hk]; decide
    have htaken : takenAs op s.startup.image.retryLimit c.outcome (reportedCount op c) = (.notReady, c.k) := by
      rw [takenAs, if_pos (by rw [hk]; rfl), reportedCount_eq hrun, hout, takenRun, issueCount, if_neg (by omega), if_pos hlt]
    rw [exec_eq, takeCompletion_awaits ha hc, htaken, takeOutcome_eq hrun]
    exact congrArg (fun u => Host.Outcome.next (settle u)) (waitNotReady_outcomeTaken hk c.k)
  · have htaken : ∃ o, (o = .offTrack ∨ o = .unreadable) ∧
        takenAs op s.startup.image.retryLimit c.outcome (reportedCount op c) = (o, 0) := by
      refine ⟨c.outcome, hout, ?_⟩
      have hpos := issueCount_pos hlt
      rw [takenAs, if_pos (by rw [hk]; rfl), reportedCount_zero hzero]
      rcases hout with hout | hout
      · simp [hout, takenRun, hpos]
      · simp [hout, takenRun, hpos, hk, OpKind.isWrite]
    obtain ⟨o, ho, htaken⟩ := htaken
    rw [exec_eq, takeCompletion_awaits ha hc, htaken, takeOutcome_read_retry hk _ ho hleft]

end Sys2Proof.Machine
end

section
/-! PROOFS. Timers and reports; the ends of GEOMETRY, SYSTEM_READ and SYSTEM_WRITE; LOAD_DEFAULTS (R2, R20, R82, R94, R104 to R108, R118, R119,
R135, R170 to R172). -/

namespace Sys2Proof.Machine
open Sys2Proof.Safety

/-! ### Timers -/

section
variable {s : State} {op : Operation}

theorem outcomeTaken_other (hk : op.kind ≠ .writeRun) (k : Nat) :
    outcomeTaken op k s = { s with sched := { s.sched with current := some (completedBy op k), channelTimer := none } } := by
  rw [outcomeTaken, addProgress]
  split
  · contradiction
  · rfl

theorem outcomeTaken_zero : outcomeTaken op 0 s = { s with sched := { s.sched with current := some (completedBy op 0), channelTimer := none } } := by
  rw [outcomeTaken, addProgress]
  split <;> rfl

end

theorem retryOperation_left (op : Operation) (k : Nat) (s : State) (h : op.retries < s.startup.image.retryLimit) :
    retryOperation op k s =
      { s with sched := issued s { op with retries := op.retries + 1 }, engine := busyEngine s } := by
  rw [retryOperation, if_pos h, sendIssue_eq]

theorem retryOperation_spent (op : Operation) (k : Nat) (s : State) (h : s.startup.image.retryLimit ≤ op.retries) :
    retryOperation op k s = spentOperation op k s := by
  rw [retryOperation, if_neg (Nat.not_lt.mpr h)]

/-- Settles O38: an expired issue, an expired wait, and an expired delay each issue an operation. -/
theorem channelAndGeometryWaitsEndInIssue : Obligations.ChannelAndGeometryWaitsEndInIssue := by
  refine ⟨fun s op d ha hk hd _ hleft => ?_, fun s op d hcur hwait => ?_, fun s d hstage hstart hcur hagenda hscan => ?_⟩
  · have hrun : op.kind ≠ .readRun := by rcases hk with hk | hk <;> rw [hk] <;> decide
    have hexec : exec .channelTimerExpiry s = .next (settle (timerExpires s)) := rfl
    rw [hexec, timerExpires_awaits ha hd, takeOutcome_eq hrun]
    dsimp only
    rw [outcomeTaken_zero]
    exact congrArg (fun u => Host.Outcome.next (settle u)) (retryOperation_left (completedBy op 0) _ _ hleft)
  · have hexec : exec .notReadyWaitExpiry s = .next (notReadyExpires s) := rfl
    rw [hexec, notReadyExpires, hcur]
    simp only [hwait]
    rfl
  · have hexec : exec .geometryRetryExpiry s = .next (settle (geometryRetryExpires s)) := rfl
    have hdue : geometryRetryExpires s = setStage .geometry (advanceTo d s) := by rw [geometryRetryExpires, hstage]
    have hoffered : (setStage .geometry (advanceTo d s)).agenda = { freed := [], offered := true, choice := false } := by
      simp [setStage, updStart, advanceTo, offer, hagenda]
    rw [hexec, hdue, settle_of_geometry_due (s := setStage .geometry (advanceTo d s)) hoffered hscan hstart hcur rfl, sendIssue_eq]
    have htaken : offerTaken (setStage .geometry (advanceTo d s)) =
        { s with now := max s.now d, startup := { s.startup with stage := .geometry } } := by
      simp [offerTaken, setStage, updStart, advanceTo, offer, hagenda]
    rw [htaken]
    rfl

/-- Settles O39: each report and each expiry. -/
theorem reportsAndTimersTakeEffect : Obligations.ReportsAndTimersTakeEffect := by
  refine ⟨fun s c => ⟨rfl, rfl⟩, fun s d hd => ?_, fun s p f w hup hq hw => ?_, fun s d hd => ?_, fun s t x b r hx => ⟨?_, fun hopen hb hstate => ?_⟩⟩
  · refine ⟨staleExpires s, rfl, ?_, ?_⟩
    · rw [staleExpires, hd]; rfl
    · rw [staleExpires, hd]; rfl
  · have hexec : exec (.slotWaitTimerExpiry p) s = .next (slotWaitExpires p s) := rfl
    rw [hexec, slotWaitExpires, hw, hq]
    dsimp only
    rw [refuseHead]
    exact congrArg Host.Outcome.next (answerHead_eq p f .noSlot .none [] _ hup)
  · have hexec : exec .idleTimerExpiry s = .next (settle (idleExpires s)) := rfl
    rw [hexec, idleExpires, hd]
    rfl
  · have hexec : exec (.parcelAgeLimitReached t) s = .next (settle (ageReached t s)) := rfl
    rw [hexec, ageReached, hx]
    rfl
  · have hne : (queueParcels s t).isEmpty = false := by
      cases hnil : queueParcels s t with
      | nil => rw [hnil] at hx; cases hx
      | cons y ys => rfl
    have hmay : mayWrite s t = true := by rw [mayWrite, hopen]; simp [hb, hstate]
    have hage : oldestAge (offer { s with now := max s.now (x.acceptedAt + s.startup.image.ageLimit) }) t =
        some (max s.now (x.acceptedAt + s.startup.image.ageLimit) - x.acceptedAt) := congrArg (Option.map _) hx
    have hold : s.startup.image.ageLimit ≤ max s.now (x.acceptedAt + s.startup.image.ageLimit) - x.acceptedAt := by omega
    have hqueue : (queueParcels (offer { s with now := max s.now (x.acceptedAt + s.startup.image.ageLimit) }) t).isEmpty = false := hne
    have hmay' : mayWrite (offer { s with now := max s.now (x.acceptedAt + s.startup.image.ageLimit) }) t = true := hmay
    rw [flushEligible, hqueue, hmay', hage]
    simp [hold]

/-! ### The ends of the start-up unit's operations -/

theorem takenAs_whole {op : Operation} (hk : op.kind.isRun = false) (limit : Nat) (o : MediaOutcome) (k : Nat) :
    takenAs op limit o k = takenWhole op o := by
  rw [takenAs, if_neg (by rw [hk]; decide)]

/-- The state in which an operation that is no write run has ended: the channel is free (R104). -/
def operationEnded (s : State) : State :=
  offer { s with sched := { s.sched with current := none, channelTimer := none } }

/-- The state in which the completion of an operation without a run acts: its issue is answered (R105). -/
def issueAnswered (op : Operation) (k : Nat) (s : State) : State :=
  { s with sched := { s.sched with current := some (completedBy op k), channelTimer := none } }

theorem takeOutcome_whole {s : State} {op : Operation} (hk : op.kind.isRun = false) (r : MediaOutcome × Nat) (d : Delivery) :
    takeOutcome op r d s =
      match r.1 with
      | .complete => finishOperation (completedBy op r.2) (op.issuedFrom + r.2) true d (issueAnswered op r.2 s)
      | .notReady => waitNotReady (completedBy op r.2) (issueAnswered op r.2 s)
      | .writeFault => finishOperation (completedBy op r.2) (op.issuedFrom + r.2) false .nothing (issueAnswered op r.2 s)
      | .offTrack => retryOperation (completedBy op r.2) (op.issuedFrom + r.2) (issueAnswered op r.2 s)
      | .unreadable => retryOperation (completedBy op r.2) (op.issuedFrom + r.2) (issueAnswered op r.2 s) := by
  have hread : op.kind ≠ .readRun := fun h => by rw [h] at hk; cases hk
  have hwrite : op.kind ≠ .writeRun := fun h => by rw [h] at hk; cases hk
  rw [takeOutcome_eq hread, outcomeTaken_other hwrite]
  rfl

/-- A COMPLETE of an operation without a run ends it (R103, R109, R111). -/
theorem takeCompletion_complete {s : State} {op : Operation} {c : Completion} (ha : Awaits s op) (hc : op.issue = c.issue)
    (hk : op.kind.isRun = false) (ho : c.outcome = .complete) :
    takeCompletion c s = finishOperation (completedBy op 1) (op.issuedFrom + 1) true c.delivery (issueAnswered op 1 s) := by
  rw [takeCompletion_awaits ha hc, takenAs_whole hk, ho, takeOutcome_whole hk]
  rfl

section
variable {op x : Operation}

theorem finishOperation_geometry (h : op.kind = .geometry) (k : Nat) (ok : Bool) (d : Delivery) (n : Nat) (s : State) :
    finishOperation (completedBy op n) k ok d (issueAnswered op n s) =
      endGeometry (if ok then deliveredGeometry d else none) (operationEnded s) := by
  simp only [finishOperation, completedBy, h]
  rfl

theorem finishOperation_systemRead (h : op.kind = .systemRead) (k : Nat) (ok : Bool) (d : Delivery) (n : Nat) (s : State) :
    finishOperation (completedBy op n) k ok d (issueAnswered op n s) =
      endSettings (if ok then deliveredRecord d else none) (operationEnded s) := by
  simp only [finishOperation, completedBy, h]
  rfl

theorem finishOperation_systemWrite (h : op.kind = .systemWrite) (k : Nat) (ok : Bool) (d : Delivery) (n : Nat) (s : State) :
    finishOperation (completedBy op n) k ok d (issueAnswered op n s) = endSave ok (operationEnded s) := by
  simp only [finishOperation, completedBy, h]
  rfl

end

/-! ### Geometry -/

theorem zonesContiguous_iff : ∀ (zs : List ZoneRecord) (b : Nat),
    zonesContiguous b zs = true ↔
      (∀ z, zs[0]? = some z → z.firstBand = b) ∧
        ∀ (i : Nat) y z, zs[i]? = some y → zs[i + 1]? = some z → z.firstBand = y.firstBand + y.bandCount
  | [], b => by simp [zonesContiguous]
  | z :: zs, b => by
    rw [zonesContiguous, Bool.and_eq_true, beq_iff_eq, zonesContiguous_iff zs]
    constructor
    · rintro ⟨rfl, hfirst, hnext⟩
      refine ⟨fun y hy => by cases hy; rfl, fun i y x hy hx => ?_⟩
      cases i with
      | zero => cases hy; exact hfirst x hx
      | succ i => exact hnext i y x hy hx
    · rintro ⟨hfirst, hnext⟩
      obtain rfl := hfirst z rfl
      exact ⟨rfl, fun y hy => hnext 0 z y rfl hy, fun i y x hy hx => hnext (i + 1) y x hy hx⟩

theorem zonesApart_iff : ∀ zs : List ZoneRecord,
    zonesApart zs = true ↔
      ∀ (i : Nat) y z, zs[i]? = some y → zs[i + 1]? = some z → y.firstTrack + y.bandCount * (y.tpb + 1) ≤ z.firstTrack
  | [] => by simp [zonesApart]
  | [x] => by
    refine ⟨fun _ i y z _ hz => ?_, fun _ => rfl⟩
    simp at hz
  | x :: y :: zs => by
    rw [zonesApart, Bool.and_eq_true, decide_eq_true_iff, zonesApart_iff (y :: zs)]
    constructor
    · rintro ⟨hfirst, hnext⟩ i v w hv hw
      cases i with
      | zero => cases hv; cases hw; exact hfirst
      | succ i => exact hnext i v w hv hw
    · exact fun h => ⟨h 0 x y rfl rfl, fun i v w hv hw => h (i + 1) v w hv hw⟩

theorem zone_wf_iff (z : ZoneRecord) :
    z.wf = true ↔ z.firstBand ≤ 131071 ∧ 1 ≤ z.bandCount ∧ z.bandCount ≤ 131072 ∧ z.firstTrack ≤ 2 ^ 32 - 1 := by
  simp only [ZoneRecord.wf, Bool.and_eq_true, decide_eq_true_iff, and_assoc]
  refine and_congr_right fun _ => and_congr_right fun _ => and_congr_right fun _ => ?_
  omega

theorem geometryAccepted_iff (g : GeometryRecord) :
    geometryAccepted g = true ↔
      (1 ≤ g.zones.length ∧ g.zones.length ≤ 32) ∧ zonesContiguous 0 g.zones = true ∧
        (64 ≤ totalBands g.zones ∧ totalBands g.zones ≤ 131072) ∧
        (∀ z ∈ g.zones, 8 ≤ z.tpb ∧ z.tpb ≤ 128 ∧ 128 ≤ z.spt ∧ z.spt ≤ 1024) ∧ zonesApart g.zones = true ∧ 1 ≤ g.capacity ∧
        ∀ z ∈ g.zones, z.wf = true := by
  simp only [geometryAccepted, Bool.and_eq_true, decide_eq_true_iff, List.all_eq_true]
  tauto

theorem logicalCapacity_eq (g : GeometryRecord) :
    logicalCapacity g = min (min g.capacity (2 ^ 36)) (7 * totalDataSectors g.zones / 8) := by
  simp only [logicalCapacity, Config.logicalLimit]
  generalize 7 * totalDataSectors g.zones / 8 = n
  split <;> omega

theorem buildTable_bands {zones : List ZoneRecord} {b : Nat} {r : Band} (h : (buildTable zones).bands[b]? = some r) :
    r = freshBand zones b := by
  obtain ⟨hlt, rfl⟩ := List.getElem?_eq_some_iff.mp h
  simp [buildTable]

/-- What the acceptance of a geometry record leaves (R1, R20, R170). -/
theorem acceptGeometry_eq (g : GeometryRecord) (s : State) :
    acceptGeometry g s =
      offer
        { s with
          table := buildTable g.zones
          startup := { s.startup with nLog := logicalCapacity g, stage := .settings }
          links := (acceptGeometry g s).links } ∧
    ∀ p, ((acceptGeometry g s).link p).notices =
      if logicalCapacity g = g.capacity then (s.link p).notices else takeNotice .geometryClamped none (s.link p).notices := by
  rw [acceptGeometry, geometryClamped]
  by_cases hcap : logicalCapacity g = g.capacity
  · simp only [hcap, bne_self_eq_false, Bool.false_eq_true, if_false, if_true]
    exact ⟨rfl, fun p => rfl⟩
  · simp only [bne_iff_ne.mpr hcap, if_true, if_neg hcap]
    exact ⟨rfl, fun p => by cases p <;> rfl⟩

/-- Settles O34: the record's checks, and what an accepted and another record leave. -/
theorem geometryRecordBuildsTables : Obligations.GeometryRecordBuildsTables := by
  refine ⟨fun g => ?_, fun s op c g ha hk hc _ _ ho _ hd => ⟨endGeometry (some g) (operationEnded s), ?_, ?_⟩⟩
  · rw [geometryAccepted_iff, zonesContiguous_iff, zonesApart_iff]
    simp only [zone_wf_iff]
    rfl
  · have hexec : exec (.channelCompletion c) s = .next (settle (takeCompletion c s)) := rfl
    rw [hexec, takeCompletion_complete ha hc (by rw [hk]; rfl) ho, finishOperation_geometry hk, hd]
    rfl
  · cases hacc : geometryAccepted g with
    | false =>
      have hend : endGeometry (some g) (operationEnded s) = failGeometry (operationEnded s) := by
        rw [endGeometry, hacc, if_neg (by decide)]
      rw [hend]
      exact ⟨rfl, rfl, rfl, rfl, rfl, rfl, nofun, fun _ => ⟨rfl, rfl, rfl⟩⟩
    | true =>
      have hend : endGeometry (some g) (operationEnded s) = acceptGeometry g (operationEnded s) := by
        rw [endGeometry, hacc, if_pos rfl]
      obtain ⟨heq, hnotices⟩ := acceptGeometry_eq g (operationEnded s)
      rw [hend]
      generalize acceptGeometry g (operationEnded s) = u at heq hnotices ⊢
      rw [heq]
      refine ⟨rfl, rfl, rfl, rfl, rfl, rfl, fun _ => ⟨rfl, rfl, rfl, ?_, fun b r hb => ?_, ?_, ?_⟩, nofun⟩
      · simp [offer, buildTable, totalBands]
      · rw [buildTable_bands hb]
        exact ⟨rfl, rfl, rfl, rfl, rfl, rfl, rfl, rfl⟩
      · change ({ s.startup with nLog := logicalCapacity g, stage := .settings } : StartUp) = _
        rw [logicalCapacity_eq]
        rfl
      · intro p
        have := hnotices p
        rw [heq] at this
        exact this

/-! ### The settings record -/

/-- The image that a SYSTEM_READ's record gives (R171). -/
theorem endSettings_eq (b : Block) (s : State) :
    endSettings (some b) s =
      beginBand 0
        (redivide
          (if recordValid b then setImage (recordImage b) s
          else placeNotice .settingsDefaulted none (setImage Settings.default s))) := by
  rw [endSettings, Option.filter_some]
  cases recordValid b <;> rfl

/-- Settles O35: the record is the image or not, and the rebuild begins. -/
theorem settingsRecordBecomesImage : Obligations.SettingsRecordBecomesImage := by
  intro s op c b ha hk hc _ _ ho _ hd
  have hexec : exec (.channelCompletion c) s = .next (settle (takeCompletion c s)) := rfl
  refine ⟨endSettings (some b) (operationEnded s), ?_, ?_⟩
  · rw [hexec, takeCompletion_complete ha hc (by rw [hk]; rfl) ho, finishOperation_systemRead hk, hd]
    rfl
  · rw [endSettings_eq]
    cases recordValid b with
    | true =>
      simp only [if_true]
      exact ⟨rfl, rfl, ⟨_, rfl, rfl, rfl, rfl, rfl⟩, fun p => rfl, rfl, rfl, rfl, rfl, rfl, rfl⟩
    | false =>
      simp only [Bool.false_eq_true, if_false]
      exact ⟨rfl, rfl, ⟨_, rfl, rfl, rfl, rfl, rfl⟩, fun p => by cases p <;> rfl, rfl, rfl, rfl, rfl, rfl, rfl⟩

/-! ### Saves and defaults -/

theorem endSave_eq (ok : Bool) (s : State) :
    endSave ok s = { s with links := (endSave ok s).links, startup := { s.startup with savesInFlight := [] } } ∧
    ∀ p, (endSave ok s).link p =
      (s.startup.savesInFlight.filter fun r => r.port = p ∧ r.orphaned = false).foldl
        (fun l r => if l.up then answeredLate l (lateReply s r .done (.save ok) []) else l) (s.link p) :=
  respond_foldl .done (.save ok) s.startup.savesInFlight (updStart (fun y => { y with savesInFlight := [] }) s)

/-- A SYSTEM_WRITE that has ended answers its saves, whatever the way in which it ended (R106, R107, R111, R172). -/
theorem takeOutcome_systemWrite {s : State} {op : Operation} (hk : op.kind = .systemWrite) {r : MediaOutcome × Nat} {ok : Bool}
    (hr : r.1 = .complete ∧ ok = true ∨
      (r.1 = .writeFault ∨ r.1 = .offTrack ∧ s.startup.image.retryLimit ≤ op.retries) ∧ ok = false) (d : Delivery) :
    takeOutcome op r d s = endSave ok (operationEnded s) := by
  rw [takeOutcome_whole (by rw [hk]; rfl)]
  rcases hr with ⟨hr, rfl⟩ | ⟨hr | ⟨hr, hspent⟩, rfl⟩
  · rw [hr]; exact finishOperation_systemWrite hk ..
  · rw [hr]; exact finishOperation_systemWrite hk ..
  · rw [hr]
    refine (retryOperation_spent (completedBy op r.2) _ (issueAnswered op r.2 s) hspent).trans ?_
    rw [spentOperation]
    have : (completedBy op r.2).kind = .systemWrite := hk
    rw [this]
    exact finishOperation_systemWrite hk ..

/-- The FREE_LOW test sets the critical flag by the count F, with a notice where it was clear (R44). -/
theorem freeLowTest_eq (s : State) :
    freeLowTest s =
      { s with
        links := (freeLowTest s).links
        table := { s.table with critical := decide (freeBands s ≤ s.startup.image.criticalMark) } } ∧
    ∀ p, (freeLowTest s).link p =
      { s.link p with
        notices :=
          if freeBands s ≤ s.startup.image.criticalMark ∧ s.table.critical = false then takeNotice .freeLow none (s.link p).notices
          else (s.link p).notices } := by
  by_cases hlow : freeBands s ≤ s.startup.image.criticalMark
  · cases hcrit : s.table.critical with
    | true =>
      have htest : freeLowTest s = s := by simp only [freeLowTest, hlow, hcrit, if_true]
      have htable : { s.table with critical := true } = s.table := by rw [← hcrit]
      rw [htest, decide_eq_true hlow, htable]
      exact ⟨rfl, fun p => by rw [if_neg (by simp)]⟩
    | false =>
      rw [freeLowTest, if_pos hlow, if_neg (by rw [hcrit]; decide), decide_eq_true hlow]
      exact ⟨rfl, fun p => by rw [if_pos ⟨hlow, rfl⟩]; cases p <;> rfl⟩
  · rw [freeLowTest, if_neg hlow, decide_eq_false hlow]
    exact ⟨rfl, fun p => by rw [if_neg fun h => hlow h.1]; rfl⟩

/-- The SYSTEM_WRITE is issued before all else while a save waits (R112, R172). -/
theorem arbitrate_save {s : State} (hcur : s.sched.current = none) (hstage : s.startup.stage = .finished)
    (hsaves : s.startup.savesQueued ≠ []) :
    arbitrate s =
      sendIssue (systemOperation .systemWrite [settingsSector s.startup.image])
        (updStart (fun y => { y with savesInFlight := y.savesQueued, savesQueued := [] }) s) := by
  have hfree : channelFree s = true := by rw [channelFree, hcur]; rfl
  have hpending : startPending s = true := by
    rw [startPending, hstage]
    simpa using hsaves
  rw [arbitrate, hfree, hpending, issueStart, hstage]
  rfl

theorem settingsSector_kind (x : Settings) : 1 ≤ (settingsSector x).trailer.kind.toNat ∧ (settingsSector x).trailer.kind.toNat ≤ 4 := by
  simp only [settingsSector, BitVec.toNat_ofNat]
  omega

/-- Settles O26: the save waits, is issued, and is answered; the defaults take effect as a SET of the marks and of the threshold. -/
theorem savesWaitAndDefaultsAreRestored : Obligations.SavesWaitAndDefaultsAreRestored := by
  refine ⟨fun s p f ht => ?_, fun s hcur hstage hsaves => ⟨settingsSector s.startup.image, rfl, (settingsSector_kind _).1,
    (settingsSector_kind _).2, ?_⟩, fun s op ha hk => ⟨fun c ok hc hout => ?_, fun d hd hspent => ?_⟩,
    fun s p f ht => ⟨fun hhalted hempty => ?_, fun hno => ?_⟩⟩
  · rw [exec_saveSettings_of_takes ht]
    rfl
  · rw [arbitrate_save hcur hstage hsaves, sendIssue_eq]
    rfl
  · have hexec : exec (.channelCompletion c) s = .next (settle (takeCompletion c s)) := rfl
    refine ⟨endSave ok (operationEnded s), ?_, endSave_eq ok (operationEnded s)⟩
    rw [hexec, takeCompletion_awaits ha hc, takenAs_whole (by rw [hk]; rfl), takeOutcome_systemWrite hk (ok := ok)]
    rcases hout with ⟨ho, rfl⟩ | ⟨ho | ho | ⟨ho, hspent⟩, rfl⟩
    · rw [ho]; exact .inl ⟨rfl, rfl⟩
    · rw [ho]; exact .inr ⟨.inl rfl, rfl⟩
    · rw [ho, takenWhole, hk]; exact .inr ⟨.inl rfl, rfl⟩
    · rw [ho]; exact .inr ⟨.inr ⟨rfl, hspent⟩, rfl⟩
  · have hexec : exec .channelTimerExpiry s = .next (settle (timerExpires s)) := rfl
    refine ⟨endSave false (operationEnded { s with now := max s.now d }), ?_, endSave_eq false (operationEnded { s with now := max s.now d })⟩
    rw [hexec, timerExpires_awaits ha hd]
    exact congrArg (fun u => Host.Outcome.next (settle u)) (takeOutcome_systemWrite (s := { s with now := max s.now d }) hk
      (.inr ⟨.inr ⟨rfl, hspent⟩, rfl⟩) _)
  · intro d crosses crossing
    obtain ⟨hw, hnotices⟩ := freeLowTest_eq (redivide d)
    have hframe := causeFrame_reevaluate (freeLowTest (redivide d))
    have hcrossed := crossed_reevaluate (freeLowTest (redivide d))
    have hband := band?_reevaluate (freeLowTest (redivide d))
    generalize hv : reevaluate (freeLowTest (redivide d)) = v at hframe hcrossed hband
    have htake : loadDefaultsTake p f s = answerHead p f .done .none [] v := by
      rw [loadDefaultsTake, (slotQuiescent_iff s).mpr ⟨hhalted, hempty⟩, if_pos rfl, ← hv]
      rfl
    generalize freeLowTest (redivide d) = w at hw hnotices hframe hcrossed hband
    obtain ⟨ls, hw⟩ : ∃ ls, w = { redivide d with
        links := ls
        table :=
          { (redivide d).table with critical := decide (freeBands (redivide d) ≤ (redivide d).startup.image.criticalMark) } } :=
      ⟨_, hw⟩
    subst hw
    have hup : (v.link p).up = true := by
      rw [hframe.links p, hnotices p]
      exact ht.1
    have hcustody : v.custody = s.custody := by rw [hframe.eq]; rfl
    refine ⟨v, ?_, hcrossed.eq, hband, fun q => ?_, hcrossed.streams⟩
    · rw [exec_loadDefaults_of_takes ht, htake, answerHead_eq _ _ _ _ _ _ hup, reply, hcustody]
      rfl
    · rw [hcrossed.links q, hnotices q]
      rfl
  · have hquiet := Bool.eq_false_iff.mpr (mt (slotQuiescent_iff s).mp hno)
    rw [exec_loadDefaults_of_takes ht, loadDefaultsTake, hquiet, if_neg (by decide), refuseHead, answerHead_eq _ _ _ _ _ _ ht.1]

end Sys2Proof.Machine
end

section
/-! PROOFS. A band's reset and retirement, a stream's part in the end of a run, gains of exposure, and the final completion of a SUMMARY run
(R25, R26, R30 to R39, R97, R100, R121 to R127). -/

namespace Sys2Proof.Machine
open Sys2Proof.Safety

/-! ### Reset and retirement -/

/-- What the reset or retirement of band b, of record r, leaves of s in u (R31 to R33, R39). -/
structure ResetOrRetired (s : State) (b : Nat) (r : Band) (u : State) : Prop where
  only : OnlyBands s u
  same : band? u b = some (if r.causes.retire then r.retireRecord else r.resetRecord)
  other : ∀ n, n ≠ b → band? u n = band? s n
  due : u.table.due = s.table.due.erase b
  free : freeBands u = if r.causes.retire then freeBands s else freeBands s + 1
  notices : r.causes.retire = true → ∀ p, (u.link p).notices = takeNotice .retired (some b) (s.link p).notices

theorem due_resetBand (b : Nat) (s : State) : (resetBand b s).table.due = s.table.due.erase b := by
  rw [resetBand, due_freeChanged]
  rfl

theorem resetOrRetire_retire {s : State} {b : Nat} {r : Band} (h : band? s b = some r) (hret : r.causes.retire = true) :
    resetOrRetire b s = retireBand b s := by
  rw [resetOrRetire, h]
  exact if_pos hret

theorem resetOrRetire_reset {s : State} {b : Nat} {r : Band} (h : band? s b = some r) (hret : r.causes.retire = false) :
    resetOrRetire b s = resetBand b s := by
  rw [resetOrRetire, h]
  exact if_neg (by rw [hret]; decide)

theorem resetOrRetired {s : State} {b : Nat} {r : Band} (h : band? s b = some r) (hne : r.state ≠ .empty) :
    ResetOrRetired s b r (resetOrRetire b s) := by
  cases hret : r.causes.retire with
  | true =>
    rw [resetOrRetire_retire h hret]
    refine ⟨onlyBands_retireBand s b, ?_, fun n hn => ?_, rfl, ?_, fun _ p => ?_⟩
    · rw [band?_retireBand, if_pos rfl, h, hret, if_pos rfl, Option.map_some]
    · rw [band?_retireBand, if_neg hn]
    · have := freeBands_updBand s b r Band.retireRecord h
      rw [if_neg hne, if_neg (show r.retireRecord.state ≠ .empty from BandState.noConfusion)] at this
      rw [hret, if_pos rfl]
      exact this
    · rw [retireBand, link_placeNotice]
      rfl
  | false =>
    rw [resetOrRetire_reset h hret]
    refine ⟨onlyBands_resetBand s b, ?_, fun n hn => ?_, due_resetBand b s, ?_, fun h => absurd h (by rw [hret]; decide)⟩
    · rw [band?_resetBand, if_pos rfl, h, hret, Option.map_some]
      rfl
    · rw [band?_resetBand, if_neg hn]
    · have := freeBands_updBand s b r Band.resetRecord h
      rw [if_neg hne, if_pos (show r.resetRecord.state = .empty from rfl)] at this
      rw [hret, resetBand, freeBands_freeChanged]
      exact this

/-- A band keeps what its pins hold back: it has pins, or neither leaves DRAINING nor FILLED (R30, R31, R36). -/
theorem heldReset_of_not {s : State} {b : Nat}
    (h : ∀ r, band? s b = some r → r.pins ≠ 0 ∨
      ¬(r.state = .draining ∧ s.engine.victim ≠ some b) ∧ ¬(r.state = .filled ∧ r.live = 0 ∧ r.notes = 0)) : heldReset b s = s := by
  rw [heldReset]
  cases hb : band? s b with
  | none => rfl
  | some r =>
    dsimp only
    rcases h r hb with hpins | ⟨hdrain, hfilled⟩
    · rw [if_neg hpins]
    · have htest : emptiedTest b s = s := by
        rw [emptiedTest, hb]
        exact if_neg fun hall => hfilled ⟨hall.1, hall.2.1, hall.2.2.1⟩
      rw [if_neg hdrain, htest, ite_self]

theorem heldReset_of {s : State} {b : Nat} {r : Band} (hb : band? s b = some r) (hpins : r.pins = 0)
    (h : r.state = .draining ∧ s.engine.victim ≠ some b ∨ r.state = .filled ∧ r.live = 0 ∧ r.notes = 0) :
    heldReset b s = resetOrRetire b s := by
  rw [heldReset, hb]
  dsimp only
  rw [if_pos hpins]
  rcases h with hdrain | ⟨hstate, hlive, hnotes⟩
  · rw [if_pos hdrain]
  · rw [if_neg fun hd => by rw [hstate] at hd; exact BandState.noConfusion hd.1, emptiedTest, hb]
    exact if_pos ⟨hstate, hlive, hnotes, hpins⟩

/-- Settles O42: the held reset is `resetOrRetire` where its conditions hold, and nothing elsewhere. -/
theorem lastPinCompletesHeldReset : Obligations.LastPinCompletesHeldReset := by
  have hexec : ∀ b s, exec (.heldResetLastPin b) s =
      .next (settle (if s.startup.engine = .starting then s else heldReset b s)) := fun _ _ => rfl
  refine ⟨fun s b hno => ?_, fun s b r hstart hb hpins hcase => ?_, fun s b r hb => ⟨⟨rfl, ?_⟩, ⟨due_resetBand b s, ?_⟩, ⟨rfl, ?_⟩⟩⟩
  · rw [hexec]
    by_cases hstart : s.startup.engine = .starting
    · rw [if_pos hstart]
    · rw [if_neg hstart, heldReset_of_not fun r hr => ?_]
      rcases hno with h | h | ⟨x, hx, h⟩
      · exact absurd h hstart
      · rw [h] at hr; cases hr
      · rw [hx] at hr; cases hr; exact h
  · rw [hexec, if_neg hstart, heldReset_of hb hpins hcase]
    have hne : r.state ≠ .empty := by
      rcases hcase with h | h <;> rw [h.1] <;> exact BandState.noConfusion
    have h := resetOrRetired hb hne
    refine ⟨_, rfl, ?_, h.other, h.due, h.free, h.notices, h.only.custody, h.only.map, h.only.staging, h.only.sched, h.only.alloc,
      h.only.engine, h.only.startup⟩
    rw [h.same]
    cases r.causes.retire <;> rfl
  · rw [drainBand, band?_leaveDue, band?_updBand, if_pos rfl, hb]
    rfl
  · rw [band?_resetBand, if_pos rfl, hb]
    rfl
  · rw [band?_retireBand, if_pos rfl, hb]
    rfl

/-! ### Gains of exposure -/

theorem exposable_iff (x : BandState) : exposable x = true ↔ x = .opened ∨ x = .closing ∨ x = .filled ∨ x = .draining := by
  cases x <;> simp [exposable]

/-- The state with a new exposure in the record r of band n. -/
def exposureSet (n e : Nat) (r : Band) (s : State) : State :=
  { s with table := { s.table with bands := s.table.bands.set n { r with exposure := e } } }

theorem gainExposure_of_not {s : State} {n z g : Nat} {r : Band} (h : band? s n = some r)
    (hno : ¬(r.zone = z ∧ exposable r.state = true)) : gainExposure n z g s = s := by
  rw [gainExposure, h]
  exact if_neg hno

theorem gainExposure_of {s : State} {n z g : Nat} {r : Band} (h : band? s n = some r) (hgain : r.zone = z ∧ exposable r.state = true) :
    gainExposure n z g s =
      if r.exposure < s.startup.image.threshold ∧ s.startup.image.threshold ≤ min (r.exposure + g) 65535 then
        crossThreshold n (exposureSet n (min (r.exposure + g) 65535) r s)
      else exposureSet n (min (r.exposure + g) 65535) r s := by
  rw [gainExposure, h]
  dsimp only
  rw [if_pos hgain, updBand_eq_set s h]
  rfl

theorem band?_exposureSet {s : State} {n : Nat} {r : Band} (h : band? s n = some r) (e : Nat) :
    band? (exposureSet n e r s) n = some { r with exposure := e } := by
  have hlt := (List.getElem?_eq_some_iff.mp h).1
  simp [band?, exposureSet, hlt]

section
variable (s : State) (n : Nat) (r : Band) (e : Nat)

/-- The tests of a crossing look at neither the exposure nor the other bands. -/
theorem crossing_exposureSet :
    joinsDue (exposureSet n e r s) n { r with exposure := e } = joinsDue s n r ∧
    closesAtOnce (exposureSet n e r s) n { r with exposure := e } = closesAtOnce s n r ∧
    finishesLater (exposureSet n e r s) n { r with exposure := e } = finishesLater s n r ∧
    crossedRecord (exposureSet n e r s) n { r with exposure := e } = crossedRecord s n { r with exposure := e } ∧
    crossedNotices (exposureSet n e r s) n { r with exposure := e } = crossedNotices s n r := by
  have hmask : coldMasked (exposureSet n e r s) n = coldMasked s n := by simp [coldMasked, exposureSet, bandCount]
  have hraise : ∀ x, raisesExposure (exposureSet n e r s) n x = raisesExposure s n x := fun x => by
    rw [raisesExposure, hmask]; rfl
  have hjoin : joinsDue (exposureSet n e r s) n { r with exposure := e } = joinsDue s n r := by
    rw [joinsDue, hraise]; rfl
  have hclose : ∀ x, closesAtOnce (exposureSet n e r s) n x = closesAtOnce s n x := fun x => by
    rw [closesAtOnce, hraise]; rfl
  refine ⟨hjoin, hclose _, ?_, ?_, ?_⟩
  · rw [finishesLater, hraise]; rfl
  · rw [crossedRecord, hmask, hclose]; rfl
  · funext l
    rw [crossedNotices, hmask, hjoin]
    rfl

end

/-- Settles O50: a gain sets the exposure, and a crossing acts on the record so set. -/
theorem gainSaturatesAndCrosses : Obligations.GainSaturatesAndCrosses := by
  refine ⟨fun s n z g h => by rw [gainExposure, h], fun s n z g r h => ?_⟩
  intro e x gains crosses
  have hgains : gains ↔ r.zone = z ∧ exposable r.state = true := and_congr_right fun _ => (exposable_iff _).symm
  refine ⟨fun hno => gainExposure_of_not h (mt hgains.mpr hno), fun hg hno => ?_, fun hg hcross => ?_⟩
  · rw [gainExposure_of h (hgains.mp hg), if_neg hno]
    rfl
  · rw [gainExposure_of h (hgains.mp hg), if_pos hcross]
    obtain ⟨u, hu, heq, hlinks, hstreams⟩ := crossThreshold_eq (exposureSet n e r s) (band?_exposureSet h e) (hgains.mp hg).2
    obtain ⟨hjoin, hclose, hlater, hrecord, hnotices⟩ := crossing_exposureSet s n r e
    rw [hjoin, hclose, hrecord] at heq
    rw [hnotices] at hlinks
    rw [hlater] at hstreams
    refine ⟨u, hu, ?_, hlinks, fun i => ?_⟩
    · rw [heq]
      simp only [exposureSet, List.set_set]
      rfl
    · rw [hstreams i]
      cases i <;> rfl

/-! ### Edge tracks -/

theorem touchesFirst_iff {z : ZoneRecord} {first k : Nat} (hspt : 1 ≤ z.spt) :
    touchesFirst z first k = true ↔ ∃ o, first ≤ o ∧ o < first + k ∧ o / z.spt = 0 := by
  simp only [touchesFirst, Bool.and_eq_true, decide_eq_true_iff]
  constructor
  · rintro ⟨hk, hlt⟩
    exact ⟨first, Nat.le_refl _, by omega, Nat.div_eq_of_lt hlt⟩
  · rintro ⟨o, hle, hlt, hzero⟩
    have := (Nat.div_eq_zero_iff_lt (by omega)).mp hzero
    omega

theorem touchesLast_iff {z : ZoneRecord} {first k : Nat} (hspt : 1 ≤ z.spt) (htpb : 1 ≤ z.tpb) (hend : first + k ≤ z.tpb * z.spt) :
    touchesLast z first k = true ↔ ∃ o, first ≤ o ∧ o < first + k ∧ o / z.spt = z.tpb - 1 := by
  simp only [touchesLast, Bool.and_eq_true, decide_eq_true_iff]
  have htrack : ∀ o, o < first + k → (o / z.spt = z.tpb - 1 ↔ (z.tpb - 1) * z.spt ≤ o) := fun o ho => by
    have hlt : o / z.spt < z.tpb := Nat.div_lt_of_lt_mul (by rw [Nat.mul_comm]; omega)
    rw [← Nat.le_div_iff_mul_le (by omega)]
    omega
  constructor
  · rintro ⟨hk, hle⟩
    exact ⟨first + k - 1, by omega, by omega, (htrack _ (by omega)).mpr hle⟩
  · rintro ⟨o, hle, hlt, heq⟩
    have := (htrack o hlt).mp heq
    omega

theorem multiplier_eq (c : Fin 4) : multiplier c = ([4, 5, 6, 8] : List Nat)[c.toNat]?.getD 0 := by
  match c with
  | 0 | 1 | 2 | 3 => rfl

theorem accountExposure_eq {s : State} {b : Nat} {r : Band} (h : band? s b = some r) (first k : Nat) :
    accountExposure b first k s =
      (if touchesLast (bandZone s r) first k then
        gainExposure (b + 1) r.zone (s.startup.image.forwardWeight * multiplier (classInForce s)) else id)
        ((if touchesFirst (bandZone s r) first k && decide (0 < b) then
          gainExposure (b - 1) r.zone (s.startup.image.backwardWeight * multiplier (classInForce s)) else id) s) := by
  rw [accountExposure, h]
  dsimp only
  split <;> split <;> rfl

/-! ### The final completion of a write operation -/

/-- The outcome with which a final completion is taken, for its success or failure (R103, R107; assumption 10). -/
def endsWith (op : Operation) (limit : Nat) (ok : Bool) (o : MediaOutcome) : Prop :=
  if ok then o = .complete else o = .writeFault ∨ o = .offTrack ∧ limit ≤ op.retries

theorem takenAs_endsWrite {op : Operation} {limit : Nat} {c : Completion} {k : Nat} {ok : Bool}
    (hk : op.kind = .writeRun ∨ op.kind = .summary) (h : EndsWrite op limit c k ok) :
    ∃ o, takenAs op limit c.outcome (reportedCount op c) = (o, k) ∧ endsWith op limit ok o := by
  have hread : op.kind ≠ .readRun := by rcases hk with hk | hk <;> rw [hk] <;> decide
  have hrun : op.kind.isRun = true := by rcases hk with hk | hk <;> rw [hk] <;> rfl
  have hwrite : op.kind.isWrite = true := by rcases hk with hk | hk <;> rw [hk] <;> rfl
  rw [takenAs, if_pos hrun, reportedCount_eq hread, issueCount]
  cases ok with
  | true =>
    obtain ⟨rfl, hck, hout⟩ := h
    refine ⟨.complete, ?_, rfl⟩
    rw [hck]
    rcases hout with ho | ho | ⟨ho, hleft⟩
    · simp [ho, takenRun]
    · simp [ho, takenRun]
    · simp [ho, takenRun, hleft]
  | false =>
    rcases h with ⟨rfl, hle, hout⟩ | ⟨rfl, hmore, hspent⟩
    · have hle' := Nat.not_lt.mpr hle
      rcases hout with ho | ho | ⟨hspent, ho | ⟨ho, hfew⟩⟩
      · exact ⟨.writeFault, by simp [ho, takenRun, hle', hwrite], .inl rfl⟩
      · exact ⟨.writeFault, by simp [ho, takenRun, hle', hwrite], .inl rfl⟩
      · exact ⟨.offTrack, by simp [ho, takenRun, hle', hwrite, hspent], .inr ⟨rfl, hspent⟩⟩
      · exact ⟨.offTrack, by simp [ho, takenRun, hle', hfew], .inr ⟨rfl, hspent⟩⟩
    · exact ⟨.offTrack, by cases c.outcome <;> simp [takenRun, hmore], .inr ⟨rfl, hspent⟩⟩

/-- A final completion of a write run or a SUMMARY run ends the operation (R107, R109). -/
theorem takeOutcome_ends {s : State} {op : Operation} {o : MediaOutcome} {ok : Bool} (hk : op.kind = .writeRun ∨ op.kind = .summary)
    (h : endsWith op s.startup.image.retryLimit ok o) (k : Nat) (d : Delivery) :
    takeOutcome op (o, k) d s =
      finishOperation (completedBy op k) (op.issuedFrom + k) ok .nothing (outcomeTaken op k s) := by
  have hread : op.kind ≠ .readRun := by rcases hk with hk | hk <;> rw [hk] <;> decide
  have hdelivery : ∀ d' u, finishOperation (completedBy op k) (op.issuedFrom + k) ok d' u =
      finishOperation (completedBy op k) (op.issuedFrom + k) ok .nothing u := fun d' u => by
    rcases hk with hk | hk <;> simp only [finishOperation, completedBy, hk]
  have hlimit : (outcomeTaken op k s).startup.image.retryLimit = s.startup.image.retryLimit := by
    rcases hk with hk | hk
    · rw [outcomeTaken, addProgress, hk]
      exact congrArg (fun x => x.image.retryLimit) (onlyBands_writeProgress _ _ _ _).startup
    · rw [outcomeTaken_other (by rw [hk]; decide)]
  rw [takeOutcome_eq hread]
  cases ok with
  | true =>
    obtain rfl : o = .complete := h
    exact hdelivery d _
  | false =>
    rcases h with rfl | ⟨rfl, hspent⟩
    · rfl
    · dsimp only
      rw [retryOperation_spent _ _ _ (by rw [hlimit]; exact hspent), spentOperation]
      rcases hk with hk | hk <;> simp only [completedBy, hk]

/-- A completion and an expiry that end the operation end it alike (R105, R106). -/
theorem ended_of_endsWrite {s : State} {op : Operation} (ha : Awaits s op) (hk : op.kind = .writeRun ∨ op.kind = .summary)
    {ended : State → Nat → Bool → State}
    (hended : ∀ s k ok, finishOperation (completedBy op k) (op.issuedFrom + k) ok .nothing (outcomeTaken op k s) = ended s k ok) :
    (∀ c k ok, op.issue = c.issue → EndsWrite op s.startup.image.retryLimit c k ok →
      exec (.channelCompletion c) s = .next (settle (ended s k ok))) ∧
    (∀ d, s.sched.channelTimer = some d → s.startup.image.retryLimit ≤ op.retries →
      exec .channelTimerExpiry s = .next (settle (ended { s with now := max s.now d } 0 false))) := by
  refine ⟨fun c k ok hc hends => ?_, fun d hd hspent => ?_⟩
  · obtain ⟨o, htaken, hwith⟩ := takenAs_endsWrite hk hends
    have hexec : exec (.channelCompletion c) s = .next (settle (takeCompletion c s)) := rfl
    rw [hexec, takeCompletion_awaits ha hc, htaken, takeOutcome_ends hk hwith, hended]
  · have hexec : exec .channelTimerExpiry s = .next (settle (timerExpires s)) := rfl
    have hwith : endsWith op ({ s with now := max s.now d } : State).startup.image.retryLimit false .offTrack := .inr ⟨rfl, hspent⟩
    rw [hexec, timerExpires_awaits ha hd, takeOutcome_ends hk hwith, hended]

/-- Settles O51: the tracks touched, and the accounting at the end of a SUMMARY run. -/
theorem edgeTracksGiveNeighboursGains : Obligations.EdgeTracksGiveNeighboursGains := by
  refine ⟨fun s b first k r hb => ?_, fun s op ha hk => ?_⟩
  · intro z touched M back forward
    have hM : M = multiplier (classInForce s) := by
      rw [multiplier_eq, classInForce_eq]
      cases hs : s.sched.stale <;> simp [M, hs]
    have heq := accountExposure_eq hb first
    rw [← hM] at heq
    refine ⟨?_, fun hk hspt htpb hend => ?_⟩
    · rw [heq]
      simp [touchesFirst, touchesLast]
    · have hfirst : touchesFirst z first k = true ↔ touched 0 := touchesFirst_iff hspt
      have hlast : touchesLast z first k = true ↔ touched (z.tpb - 1) := touchesLast_iff hspt htpb hend
      have hback : (touchesFirst z first k && decide (0 < b)) = true ↔ touched 0 ∧ 1 ≤ b := by
        rw [Bool.and_eq_true, decide_eq_true_iff, hfirst]
        rfl
      rw [heq]
      refine ⟨fun h1 h2 => ?_, fun h1 h2 => ?_, fun h1 hb1 h2 => ?_, fun h1 hb1 h2 => ?_⟩
      · rw [if_neg (mt hlast.mp h2), if_neg (mt hback.mp (by rintro ⟨h, h'⟩; rcases h1 with h1 | h1; exacts [h1 h, by omega]))]
        rfl
      · rw [if_pos (hlast.mpr h2), if_neg (mt hback.mp (by rintro ⟨h, h'⟩; rcases h1 with h1 | h1; exacts [h1 h, by omega]))]
        rfl
      · rw [if_neg (mt hlast.mp h2), if_pos (hback.mpr ⟨h1, hb1⟩)]
        rfl
      · rw [if_pos (hlast.mpr h2), if_pos (hback.mpr ⟨h1, hb1⟩)]
  · intro ended
    refine ended_of_endsWrite (ended := ended) ha (.inr hk) fun s k ok => ?_
    rw [outcomeTaken_other (by rw [hk]; decide)]
    simp only [finishOperation, completedBy, hk]
    rfl

end Sys2Proof.Machine
end

section
/-! PROOFS. A stream's part in the end of its run and of a SUMMARY run (R24 to R26, R31 to R33, R37, R97, R100). -/

namespace Sys2Proof.Machine
open Sys2Proof.Safety

/-! ### A stream's record -/

theorem builderTake_frame (e : SummaryEntry) (x : Stream) :
    builderTake e x = { x with entries := (builderTake e x).entries, overflow := (builderTake e x).overflow } := by
  rw [builderTake]
  split
  · rfl
  · split
    · split
      · rfl
      · split <;> rfl
    · rfl

/-- The builder changes its entries and its overflow mark alone (R98, R99). -/
theorem builderRun_frame : ∀ (items : List RunItem) (o : Nat) (x : Stream),
    builderRun o items x = { x with entries := (builderRun o items x).entries, overflow := (builderRun o items x).overflow }
  | [], _, _ => rfl
  | i :: is, o, x => by
    rw [builderRun]
    cases hi : itemEntry o i with
    | none => exact builderRun_frame is (o + 1) x
    | some e =>
      have h := builderRun_frame is (o + 1) (builderTake e x)
      dsimp only
      generalize builderRun (o + 1) is (builderTake e x) = y at h ⊢
      rw [h, builderTake_frame e x]

/-- The streams with the record of one replaced. -/
def putStream (i : StreamId) (x : Stream) (s : State) : Allocator := (updStream i (fun _ => x) s).alloc

theorem updStream_eq (i : StreamId) (f : Stream → Stream) (s : State) :
    updStream i f s = { s with alloc := putStream i (f (stream s i)) s } := by
  cases i <;> rfl

theorem stream_putStream (i : StreamId) (x : Stream) (s : State) : stream { s with alloc := putStream i x s } i = x := by
  cases i with
  | relocation => rfl
  | host t => simp [stream, putStream, updStream, updHost]

/-- Of two replacements of one stream's record, the second stands, whatever else changes between them. -/
theorem putStream_putStream (i : StreamId) (x y : Stream) {s t : State} (h : t.alloc = putStream i x s) :
    putStream i y t = putStream i y s := by
  cases i with
  | relocation => simp [putStream, updStream, updReloc, h]
  | host t => simp [putStream, updStream, updHost, h]

theorem putStream_congr (i : StreamId) (x : Stream) {s t : State} (h : t.alloc = s.alloc) : putStream i x t = putStream i x s := by
  cases i <;> simp only [putStream, updStream, updReloc, updHost, h]

/-! ### RETIRE of a FILLED band, and the test of R31 -/

/-- The due list once band b has joined it (R37). -/
def joinedDue (b : Nat) (due : List Nat) : List Nat := if b ∈ due then due else due ++ [b]

theorem joinedDue_erase (b : Nat) (due : List Nat) : (joinedDue b due).erase b = due.erase b := by
  rw [joinedDue]
  split
  · rfl
  · next h => rw [List.erase_append_right _ h, List.erase_of_not_mem h]; simp

/-- No live blocks, notes and pins (R31). -/
abbrev Band.bare (r : Band) : Prop := r.live = 0 ∧ r.notes = 0 ∧ r.pins = 0

theorem emptiedTest_bare {s : State} {b : Nat} {r : Band} (h : band? s b = some r) (hf : r.state = .filled) (hbare : r.bare) :
    emptiedTest b s = resetOrRetire b s := by
  rw [emptiedTest, h]
  exact if_pos ⟨hf, hbare⟩

theorem emptiedTest_of_not_bare {s : State} {b : Nat} {r : Band} (h : band? s b = some r) (hbare : ¬r.bare) : emptiedTest b s = s := by
  rw [emptiedTest, h]
  exact if_neg fun hall => hbare hall.2

/-- The notices of the RETIRE of band b: BAND_DUE when it joins the due list, RETIRED when it is bare (R33, R37). -/
def retireNotices (b : Nat) (due : List Nat) (bare : Bool) (l : List Notice) : List Notice :=
  let l := if b ∈ due then l else takeNotice .bandDue (some b) l
  if bare then takeNotice .retired (some b) l else l

/-- The record with RETIRE among its causes. -/
def Band.failed (r : Band) : Band := { r with causes := { r.causes with retire := true } }

/-- RETIRE is raised for a FILLED band, which is then retired when it is bare (R31, R33, R37, R38). -/
theorem retire_filled {s : State} {b : Nat} {r : Band} (h : band? s b = some r) (hf : r.state = .filled) :
    emptiedTest b (raiseCause b .retire s) =
      { s with
        links := (emptiedTest b (raiseCause b .retire s)).links
        table :=
          { s.table with
            bands := s.table.bands.set b (if r.live = 0 ∧ r.notes = 0 ∧ r.pins = 0 then r.failed.retireRecord else r.failed)
            due := if r.live = 0 ∧ r.notes = 0 ∧ r.pins = 0 then s.table.due.erase b else joinedDue b s.table.due }
        agenda := { s.agenda with choice := s.agenda.choice || !decide (b ∈ s.table.due) } } ∧
    ∀ p, (emptiedTest b (raiseCause b .retire s)).link p =
      { s.link p with
        notices := retireNotices b s.table.due (decide (r.live = 0 ∧ r.notes = 0 ∧ r.pins = 0)) (s.link p).notices } := by
  have hraise : raiseCause b .retire s = joinDue b (updBand b (fun x => { x with causes := x.causes.add .retire }) s) := by
    simp only [raiseCause, h, hf]
  have hadded : updBand b (fun x => { x with causes := x.causes.add .retire }) s =
      { s with table := { s.table with bands := s.table.bands.set b r.failed } } := updBand_eq_set s h _
  obtain ⟨hjoin, hlinks⟩ := joinDue_eq (updBand b (fun x => { x with causes := x.causes.add .retire }) s) b
  rw [hraise]
  rw [hadded] at hjoin hlinks ⊢
  have hband : band? (joinDue b { s with table := { s.table with bands := s.table.bands.set b r.failed } }) b = some r.failed := by
    rw [hjoin]
    have hlt := (List.getElem?_eq_some_iff.mp h).1
    simp [band?, hlt]
  generalize joinDue b { s with table := { s.table with bands := s.table.bands.set b r.failed } } = j at hjoin hlinks hband ⊢
  by_cases hbare : r.bare
  · rw [emptiedTest_bare hband hf hbare, resetOrRetire_retire hband rfl, retireBand, updBand_eq_set _ hband, if_pos hbare, if_pos hbare]
    refine ⟨?_, fun p => ?_⟩
    · rw [hjoin, ← joinedDue_erase]
      simp only [leaveDue, placeNotice, List.set_set]
      rfl
    · rw [link_placeNotice, retireNotices, decide_eq_true hbare]
      change { j.link p with notices := takeNotice .retired (some b) (j.link p).notices } = _
      rw [hlinks p]
      rfl
  · rw [emptiedTest_of_not_bare hband hbare, if_neg hbare, if_neg hbare]
    refine ⟨?_, fun p => ?_⟩
    · rw [hjoin]
      rfl
    · rw [hlinks p, retireNotices, decide_eq_false hbare]
      rfl

/-! ### The end of a stream's run -/

theorem fillBand_eq {s : State} {b : Nat} {r : Band} (h : band? s b = some r) :
    fillBand b s =
      { s with
        table := { s.table with bands := s.table.bands.set b { r with state := .filled, owner := none } }
        agenda := { s.agenda with choice := true } } := by
  rw [fillBand, updBand_eq_set s h]
  rfl

theorem band?_fillBand {s : State} {b : Nat} {r : Band} (h : band? s b = some r) :
    band? (fillBand b s) b = some { r with state := .filled, owner := none } := by
  rw [fillBand]
  change band? (updBand b _ s) b = _
  rw [band?_updBand, if_pos rfl, h]
  rfl

theorem stream_of_alloc {i : StreamId} {s t : State} (h : t.alloc = s.alloc) : stream t i = stream s i := by
  cases i <;> simp only [stream, h]

theorem withoutBand_builderRun (first : Nat) (items : List RunItem) (x : Stream) :
    (builderRun first items x).withoutBand = x.withoutBand := by
  rw [builderRun_frame]
  rfl

theorem updStream_withoutBand {i : StreamId} {s t : State} {x : Stream} (h : t.alloc = putStream i x s)
    (hx : x.withoutBand = (stream s i).withoutBand) :
    updStream i Stream.withoutBand t = { t with alloc := putStream i (stream s i).withoutBand s } := by
  have hstream : stream t i = x := by rw [← stream_putStream i x s]; exact stream_of_alloc h
  rw [updStream_eq, hstream, hx, putStream_putStream i x _ h]

/-- The record of a band whose run failed (R25). -/
def Band.failedRun (r : Band) : Band :=
  { r with state := .filled, owner := none, causes := { r.causes with retire := true } }

/-- A failed band: FILLED with RETIRE, and retired at once when it is bare (R25, R31, R33). -/
theorem failBand_eq {s : State} {b : Nat} {r : Band} (h : band? s b = some r) :
    failBand b s =
      { s with
        links := (failBand b s).links
        table :=
          { s.table with
            bands := s.table.bands.set b (if r.live = 0 ∧ r.notes = 0 ∧ r.pins = 0 then r.failedRun.retireRecord else r.failedRun)
            due := if r.live = 0 ∧ r.notes = 0 ∧ r.pins = 0 then s.table.due.erase b else joinedDue b s.table.due }
        agenda := { s.agenda with choice := true } } ∧
    ∀ p, (failBand b s).link p =
      { s.link p with
        notices := retireNotices b s.table.due (decide (r.live = 0 ∧ r.notes = 0 ∧ r.pins = 0)) (s.link p).notices } := by
  obtain ⟨heq, hlinks⟩ := retire_filled (band?_fillBand h) rfl
  rw [failBand]
  rw [fillBand_eq h] at heq hlinks ⊢
  refine ⟨?_, hlinks⟩
  rw [heq]
  simp only [List.set_set, Bool.true_or]
  rfl

section
variable {s : State} {i : StreamId} {b first : Nat} {items : List RunItem} {r : Band} (h : band? s b = some r)
include h

theorem streamCompletion_success :
    streamCompletion i b first items true s =
      if r.wp = bandC s r - 4 ∨ (stream s i).finish = true then
        closeBand b { s with alloc := putStream i { builderRun first items (stream s i) with finish := false } s }
      else { s with alloc := putStream i (builderRun first items (stream s i)) s } := by
  have hbuilt : updStream i (builderRun first items) s = { s with alloc := putStream i (builderRun first items (stream s i)) s } :=
    updStream_eq i _ s
  have hband : band? { s with alloc := putStream i (builderRun first items (stream s i)) s } b = some r := h
  have hfinish : (stream { s with alloc := putStream i (builderRun first items (stream s i)) s } i).finish = (stream s i).finish := by
    rw [stream_putStream, builderRun_frame]
  rw [streamCompletion, hbuilt]
  simp only [if_true, hband, hfinish]
  rw [updStream_eq, stream_putStream, putStream_putStream (s := s) (t := { s with alloc := putStream i (builderRun first items (stream s i)) s }) i
    (builderRun first items (stream s i)) _ rfl]
  rfl

theorem streamCompletion_failure :
    ∃ u, streamCompletion i b first items false s = u ∧
      u =
        { s with
          links := u.links
          alloc := putStream i (stream s i).withoutBand s
          table :=
            { s.table with
              bands := s.table.bands.set b (if r.live = 0 ∧ r.notes = 0 ∧ r.pins = 0 then r.failedRun.retireRecord else r.failedRun)
              due := if r.live = 0 ∧ r.notes = 0 ∧ r.pins = 0 then s.table.due.erase b else joinedDue b s.table.due }
          agenda := { s.agenda with choice := true } } ∧
      ∀ p, u.link p =
        { s.link p with
          notices := retireNotices b s.table.due (decide (r.live = 0 ∧ r.notes = 0 ∧ r.pins = 0)) (s.link p).notices } := by
  have hbuilt : updStream i (builderRun first items) s = { s with alloc := putStream i (builderRun first items (stream s i)) s } :=
    updStream_eq i _ s
  have hband : band? { s with alloc := putStream i (builderRun first items (stream s i)) s } b = some r := h
  obtain ⟨heq, hlinks⟩ := failBand_eq hband
  refine ⟨_, rfl, ?_⟩
  rw [streamCompletion, if_neg (by decide), hbuilt]
  generalize failBand b _ = t at heq hlinks ⊢
  rw [updStream_withoutBand (by rw [heq]) (withoutBand_builderRun first items (stream s i))]
  refine ⟨?_, hlinks⟩
  rw [heq]

end

/-! ### The end of a SUMMARY run -/

/-- The record of a band whose SUMMARY run has ended with the parts given completed (R26). -/
def Band.summaryEnded (parts : List Sector) (r : Band) : Band :=
  { r with state := .filled, owner := none, chain := (parts.getLast?.map fun x => x.trailer.chain).or r.chain }

/-- The state in which the end of a SUMMARY run is tested: band b is FILLED with record x (R26). -/
def summaryTaken (b : Nat) (x : Band) (s : State) : State :=
  { s with table := { s.table with bands := s.table.bands.set b x }, agenda := { s.agenda with choice := true } }

theorem band?_summaryTaken {s : State} {b : Nat} {r : Band} (h : band? s b = some r) (x : Band) :
    band? (summaryTaken b x s) b = some x := by
  have hlt := (List.getElem?_eq_some_iff.mp h).1
  simp [band?, summaryTaken, hlt]

theorem band?_summaryTaken_other {s : State} {b n : Nat} (x : Band) (hn : n ≠ b) : band? (summaryTaken b x s) n = band? s n :=
  List.getElem?_set_ne (Ne.symm hn)

theorem freeBands_summaryTaken {s : State} {b : Nat} {r : Band} (h : band? s b = some r) (hr : r.state ≠ .empty) {x : Band}
    (hx : x.state ≠ .empty) : freeBands (summaryTaken b x s) = freeBands s := by
  have hcount := freeBands_updBand s b r (fun _ => x) h
  rw [if_neg hr, if_neg hx, updBand_eq_set s h] at hcount
  exact hcount

theorem endSummary_eq {s : State} {b : Nat} {r : Band} (h : band? s b = some r) (ok : Bool) (parts : List Sector) :
    endSummary b ok parts s =
      if ok then emptiedTest b (summaryTaken b { r.summaryEnded parts with summaryPresent := true } s)
      else emptiedTest b (raiseCause b .retire (summaryTaken b (r.summaryEnded parts) s)) := by
  have hfilled : updBand b (fun x => { x with chain := (parts.getLast?.map (·.trailer.chain)).or x.chain }) (fillBand b s) =
      summaryTaken b (r.summaryEnded parts) s := by
    rw [updBand_eq_set _ (band?_fillBand h), fillBand_eq h]
    simp only [List.set_set]
    rfl
  rw [endSummary, hfilled]
  cases ok with
  | true =>
    simp only [if_true]
    rw [updBand_eq_set _ (band?_summaryTaken h _)]
    simp only [summaryTaken, List.set_set]
  | false => rfl

theorem finishSummary_eq {s : State} {b : Nat} {r : Band} {i : StreamId} (h : band? s b = some r) (howner : r.owner = some i) (ok : Bool)
    (parts : List Sector) (halloc : (endSummary b ok parts s).alloc = s.alloc) :
    finishSummary b ok parts s =
      { endSummary b ok parts s with alloc := putStream i (stream s i).withoutBand s } := by
  have hown : ownerOf s b = some i := by rw [ownerOf, h, Option.bind_some, howner]
  rw [finishSummary, hown]
  dsimp only
  rw [updStream_eq, stream_of_alloc halloc, putStream_congr i _ halloc]

/-- Settles O19: the stream's part after success and after failure, then that of a SUMMARY run. -/
theorem endedRunMovesStreamOn : Obligations.EndedRunMovesStreamOn := by
  refine ⟨fun s i b first items r hb => ?_, fun s i b parts r hb hclosing howner => ?_⟩
  · intro built put failed bare
    refine ⟨fun hends => ?_, fun hwp hfinish => ?_, ?_⟩
    · rw [streamCompletion_success hb, if_pos hends, closeBand]
      have hband : band? { s with alloc := putStream i { builderRun first items (stream s i) with finish := false } s } b = some r := hb
      rw [updBand_eq_set _ hband]
      rfl
    · rw [streamCompletion_success hb, if_neg (by rintro (h | h); exacts [hwp h, by rw [hfinish] at h; cases h])]
      rfl
    · obtain ⟨u, hu, heq, hlinks⟩ := streamCompletion_failure (i := i) (first := first) (items := items) hb
      refine ⟨u, hu, heq, fun p => ?_⟩
      rw [hlinks p]
      simp only [retireNotices, decide_eq_true_iff]
      rfl
  · intro cleared chain filled bare retired
    have hcleared : cleared = putStream i (stream s i).withoutBand s := by
      change (updStream i Stream.withoutBand s).alloc = _
      rw [updStream_eq]
    have hchain : chain = (parts.getLast?.map fun x => x.trailer.chain).or r.chain := by
      simp only [chain]
      cases parts.getLast? <;> rfl
    have hfilled : filled = r.summaryEnded parts := by rw [Band.summaryEnded, ← hchain]
    have hne : r.state ≠ .empty := by rw [hclosing]; exact BandState.noConfusion
    refine ⟨fun hbare => ?_, fun hbare => ?_, ?_⟩
    · have hend : endSummary b true parts s = summaryTaken b { filled with summaryPresent := true } s := by
        rw [endSummary_eq hb, if_pos rfl, ← hfilled]
        exact emptiedTest_of_not_bare (band?_summaryTaken hb _) hbare
      rw [finishSummary_eq hb howner true parts (by rw [hend]; rfl), hend, hcleared]
      rfl
    · have hend : endSummary b true parts s = resetOrRetire b (summaryTaken b { filled with summaryPresent := true } s) := by
        rw [endSummary_eq hb, if_pos rfl, ← hfilled]
        exact emptiedTest_bare (band?_summaryTaken hb _) rfl hbare
      have hreset := resetOrRetired (band?_summaryTaken hb { filled with summaryPresent := true }) BandState.noConfusion
      rw [← hend] at hreset
      have halloc : (endSummary b true parts s).alloc = s.alloc := hreset.only.alloc
      refine ⟨_, rfl, ?_⟩
      rw [finishSummary_eq hb howner true parts halloc, hcleared]
      refine ⟨rfl, hreset.due, ?_, fun n hn => (hreset.other n hn).trans (band?_summaryTaken_other _ hn), ?_, hreset.only.map,
        hreset.only.staging, hreset.only.sched, hreset.only.engine, hreset.only.startup, hreset.only.custody⟩
      · refine hreset.same.trans ?_
        change some (if r.causes.retire = true then _ else _) = _
        cases r.causes.retire <;> rfl
      · refine hreset.free.trans ?_
        rw [freeBands_summaryTaken hb hne BandState.noConfusion]
    · obtain ⟨heq, hlinks⟩ := retire_filled (band?_summaryTaken hb (r.summaryEnded parts)) rfl
      have hend : endSummary b false parts s = emptiedTest b (raiseCause b .retire (summaryTaken b (r.summaryEnded parts) s)) := by
        rw [endSummary_eq hb, if_neg (by decide)]
      rw [← hend] at heq hlinks
      have halloc : (endSummary b false parts s).alloc = s.alloc := by rw [heq]; rfl
      refine ⟨_, rfl, ?_⟩
      rw [finishSummary_eq hb howner false parts halloc, hcleared]
      generalize endSummary b false parts s = u at heq hlinks ⊢
      refine ⟨?_, fun p => ?_⟩
      · rw [heq]
        simp only [summaryTaken, List.set_set, Bool.true_or]
        rw [hfilled]
        rfl
      · refine (hlinks p).trans ?_
        simp only [retireNotices, decide_eq_true_iff]
        rfl

end Sys2Proof.Machine
end

section
/-! PROOFS. The final completion of a WRITE_RUN: commits, and the carried parcels (R51, R56, R57, R77 to R79, R109). -/

namespace Sys2Proof.Machine
open Sys2Proof.Safety

/-! ### Commits -/

/-- The map, the band and the parcel after the commit of block L of parcel p at offset o of band b (R56). -/
def blockCommitted (b o p L : Nat) (s : State) : State :=
  updParcel p (fun x => { x with live := x.live - 1 })
    (raiseLive b 1 { s with map := { s.map with records := commitBlock L b o s.map.records } })

section
variable (s : State) (b o p j L q : Nat) (is : List RunItem)

theorem commitItems_data :
    commitItems b o (.data p j L q :: is) s =
      if resolve s.map.records L = some (.staged p j) then commitItems b (o + 1) is (blockCommitted b o p L s)
      else commitItems b (o + 1) is s := rfl

theorem commitItems_other {i : RunItem} (h : ∀ p j L q, i ≠ .data p j L q) : commitItems b o (i :: is) s = commitItems b (o + 1) is s := by
  cases i with
  | data p j L q => exact absurd rfl (h p j L q)
  | _ => rfl

theorem resolve_blockCommitted (M : Nat) :
    resolve (blockCommitted b o p L s).map.records M = if M = L then some (.media b o) else resolve s.map.records M := by
  change resolve (commitBlock L b o s.map.records) M = _
  rw [commitBlock, resolve_changeRange_one]
  by_cases hM : M = L
  · subst hM
    rw [if_pos ⟨Nat.le_refl M, Nat.lt_succ_self M⟩, if_pos rfl, Nat.sub_self, Location.shift_zero]
  · rw [if_neg (by omega), if_neg hM]

theorem band?_blockCommitted (n : Nat) :
    band? (blockCommitted b o p L s) n = (band? s n).map fun r => if n = b then { r with live := r.live + 1 } else r := by
  change band? (updBand b _ s) n = _
  rw [band?_updBand]
  by_cases hn : n = b
  · simp only [if_pos hn]
  · simp only [if_neg hn, Option.map_id']

theorem parcel?_blockCommitted (id : Nat) :
    parcel? (blockCommitted b o p L s) id = (parcel? s id).map fun x => if id = p then { x with live := x.live - 1 } else x := by
  refine (parcel?_updParcel _ p id (fun x => { x with live := x.live - 1 }) fun _ => rfl).trans ?_
  change (if id = p then (parcel? s id).map _ else parcel? s id) = _
  by_cases hid : id = p
  · simp only [if_pos hid]
  · simp only [if_neg hid, Option.map_id']

end

/-- What a change of the map makes due (R51, R144). -/
theorem mapChanged_due (s : State) :
    mapChanged s =
      { s with
        engine :=
          if s.engine.recoveryWait = true ∧ 64 ≤ freeRecords s then { s.engine with recoveryWait := false } else s.engine
        agenda :=
          { s.agenda with
            offered := s.agenda.offered || decide (0 < freeRecords s)
            choice := s.agenda.choice || decide (s.engine.recoveryWait = true ∧ 64 ≤ freeRecords s) } } := by
  have hclears : (s.engine.recoveryWait && decide (Config.mapReserve ≤ freeRecords s)) =
      decide (s.engine.recoveryWait = true ∧ 64 ≤ freeRecords s) := by simp [Config.mapReserve]
  have hchanged : mapChanged s =
      if decide (s.engine.recoveryWait = true ∧ 64 ≤ freeRecords s) = true then
        choiceDue
          { (if 0 < freeRecords s then offer s else s) with engine := { s.engine with recoveryWait := false } }
      else if 0 < freeRecords s then offer s else s := by
    rw [← hclears, mapChanged]
    split <;> rfl
  rw [hchanged]
  by_cases hclear : s.engine.recoveryWait = true ∧ 64 ≤ freeRecords s <;> by_cases hsome : 0 < freeRecords s
  · simp [hclear, hsome, offer, choiceDue]
  · simp [hclear, hsome, choiceDue]
  · simp [hclear, hsome, offer]
  · simp [hclear, hsome]

/-! ### The carried parcels -/

theorem settleParcels_one (p : Nat) (items : List RunItem) (s : State) :
    settleParcels [p] items s = settleParcel p (items.countP fun i => itemParcel i == some p) s := rfl

theorem updParcel_updParcel (id : Nat) (f g : Parcel → Parcel) (hf : ∀ x, (f x).id = x.id) (s : State) :
    updParcel id g (updParcel id f s) = updParcel id (fun x => g (f x)) s := by
  simp only [updParcel, List.map_map]
  congr 3
  funext x
  by_cases hx : x.id = id
  · simp [hx, hf]
  · simp [hx]

/-- The parcels but for number id, after a change of that number's. -/
theorem filter_updParcel (id : Nat) (f : Parcel → Parcel) (hf : ∀ x, (f x).id = x.id) (s : State) :
    (updParcel id f s).staging.parcels.filter (fun y => y.id ≠ id) = s.staging.parcels.filter fun y => y.id ≠ id := by
  simp only [updParcel]
  induction s.staging.parcels with
  | nil => rfl
  | cons x l ih =>
    by_cases hx : x.id = id
    · simpa [hx, hf] using ih
    · simpa [hx] using ih

/-- The state without parcel x, its slot or note entry free again (R79 steps 1 to 3). -/
def parcelGone (x : Parcel) (s : State) : State :=
  { s with
    alloc :=
      { s.alloc with
        hosts :=
          s.alloc.hosts.set x.stream { s.alloc.hosts[x.stream] with queue := s.alloc.hosts[x.stream].queue.erase x.id } }
    staging :=
      { s.staging with
        parcels := s.staging.parcels.filter fun y => y.id ≠ x.id
        freeSlots := if x.kind = .data then insertSorted x.id s.staging.freeSlots else s.staging.freeSlots
        freeNotes := if x.kind = .note then insertSorted (x.id - slotCount s) s.staging.freeNotes else s.staging.freeNotes } }

/-- The removal of a parcel with nothing waiting for its resource (R79). -/
theorem removeParcel_eq {s : State} {id : Nat} {x : Parcel} (hx : parcel? s id = some x) (hfreed : s.agenda.freed = [])
    (hslot : s.staging.slotWait = []) (hnote : s.staging.noteWait = []) :
    removeParcel id s =
      answerDrains
        { s with
          alloc :=
            { s.alloc with
              hosts :=
                s.alloc.hosts.set x.stream
                  { s.alloc.hosts[x.stream] with queue := s.alloc.hosts[x.stream].queue.erase x.id } }
          staging :=
            { s.staging with
              parcels := s.staging.parcels.filter fun y => y.id ≠ x.id
              freeSlots := if x.kind = .data then insertSorted x.id s.staging.freeSlots else s.staging.freeSlots
              freeNotes := if x.kind = .note then insertSorted (x.id - slotCount s) s.staging.freeNotes else s.staging.freeNotes
              drains := s.staging.drains.map fun d => if drainCounts d x then { d with count := d.count - 1 } else d } } := by
  have htaken : ∃ k, handAll (takeOut x s) = handOut (k + 2) (takeOut x s) := by
    refine ⟨(s.staging.parcels.filter fun y => y.id ≠ x.id).length + 2, ?_⟩
    have hlen : (takeOut x s).agenda.freed.length = 1 := by simp [takeOut, pushFreed, hfreed]
    rw [handAll, hlen]
    congr 1
    change 1 + (s.staging.parcels.filter fun y => y.id ≠ x.id).length + 3 = _
    omega
  obtain ⟨k, hall⟩ := htaken
  have hfreed' : (takeOut x s).agenda.freed = [parcelResource s x] :=
    (congrArg (· ++ [parcelResource s x]) hfreed).trans (List.nil_append _)
  rw [removeParcel, hx]
  dsimp only
  rw [hall, handOut, hfreed']
  dsimp only
  have handed : handResource (parcelResource s x) { takeOut x s with agenda := { (takeOut x s).agenda with freed := [] } } =
      parcelGone x s := by
    have hagenda : { s.agenda with freed := [] } = s.agenda := by rw [← hfreed]
    have hgone : { parcelGone x s with agenda := { s.agenda with freed := [] } } = parcelGone x s :=
      congrArg (fun a => { parcelGone x s with agenda := a }) hagenda
    rw [← hgone, parcelGone, parcelResource]
    cases hk : x.kind with
    | data =>
      have hwait : (takeOut x s).staging.slotWait = [] := hslot
      simp only [handResource, hwait, handSlot, if_true, reduceCtorEq, if_false]
      rfl
    | note =>
      have hwait : (takeOut x s).staging.noteWait = [] := hnote
      simp only [handResource, hwait, handNote, if_true, reduceCtorEq, if_false]
      rfl
  have hdone : (parcelGone x s).agenda.freed = [] := hfreed
  rw [handed, handOut, hdone]
  rfl

/-- A parcel written whole by its written count n (R78). -/
def writtenWhole (x : Parcel) (n : Nat) : Prop := x.kind = .data ∧ n = x.length ∨ x.kind = .note ∧ n = 1

/-- A DATA parcel of which nothing is written and nothing live (R77). -/
def nothingWanted (x : Parcel) (n : Nat) : Prop := x.kind = .data ∧ n = 0 ∧ x.live = 0

/-- A removal does not look at the written count, the state or the live blocks of the parcel removed. -/
theorem removeParcel_updParcel {s : State} {x : Parcel} (h : parcel? s x.id = some x) (g : Parcel → Parcel)
    (hg : ∀ y, (g y).id = y.id ∧ (g y).kind = y.kind ∧ (g y).port = y.port ∧ (g y).stream = y.stream ∧ (g y).seq = y.seq)
    (hfreed : s.agenda.freed = []) (hslot : s.staging.slotWait = []) (hnote : s.staging.noteWait = []) :
    removeParcel x.id (updParcel x.id g s) = removeParcel x.id s := by
  obtain ⟨hid, hkind, hport, hstream, hseq⟩ := hg x
  have hx : parcel? (updParcel x.id g s) x.id = some (g x) := by
    rw [parcel?_updParcel _ _ _ g fun y => (hg y).1, if_pos rfl, h, Option.map_some]
  have hfilter := filter_updParcel x.id g (fun y => (hg y).1) s
  have hcounts : ∀ d, drainCounts d (g x) = drainCounts d x := fun d => by rw [drainCounts, hport, hstream, hseq, drainCounts]
  rw [removeParcel_eq hx hfreed hslot hnote, removeParcel_eq h hfreed hslot hnote]
  simp only [hid, hkind, hstream, hcounts, hfilter]
  rfl

theorem fullyWritten_iff (x : Parcel) (n : Nat) : fullyWritten { x with written := n } = true ↔ writtenWhole x n := by
  rw [fullyWritten, writtenWhole]
  cases hk : x.kind <;> simp

theorem unwanted_iff (x : Parcel) (n : Nat) : unwanted { x with written := n, state := .queued } = true ↔ nothingWanted x n := by
  simp [unwanted, nothingWanted, and_assoc]

section
variable {s : State} {x : Parcel} (h : parcel? s x.id = some x) (k : Nat)
include h

theorem settleParcel_eq :
    settleParcel x.id k s =
      if fullyWritten { x with written := x.written + k } then
        removeParcel x.id (updParcel x.id (fun y => { y with written := y.written + k }) s)
      else if unwanted { x with written := x.written + k, state := .queued } then
        removeParcel x.id (updParcel x.id (fun y => { y with written := y.written + k, state := .queued }) s)
      else updParcel x.id (fun y => { y with written := y.written + k, state := .queued }) s := by
  have hwritten : parcel? (updParcel x.id (fun y => { y with written := y.written + k }) s) x.id =
      some { x with written := x.written + k } := by
    rw [parcel?_updParcel s x.id x.id (fun y => { y with written := y.written + k }) fun y => rfl, if_pos rfl, h, Option.map_some]
  have hqueued : parcel? (updParcel x.id (fun y => { y with written := y.written + k, state := .queued }) s) x.id =
      some { x with written := x.written + k, state := .queued } := by
    rw [parcel?_updParcel s x.id x.id (fun y => { y with written := y.written + k, state := .queued }) fun y => rfl, if_pos rfl, h,
      Option.map_some]
  have hboth := updParcel_updParcel x.id (fun y => { y with written := y.written + k }) (fun y => { y with state := .queued })
    (fun _ => rfl) s
  rw [settleParcel]
  simp only [hwritten, Option.any_some, hboth, hqueued]

theorem settleParcel_kept (hwhole : ¬writtenWhole x (x.written + k)) (hdead : ¬nothingWanted x (x.written + k)) :
    settleParcel x.id k s = updParcel x.id (fun y => { y with written := y.written + k, state := .queued }) s := by
  rw [settleParcel_eq h, if_neg (mt (fullyWritten_iff x _).mp hwhole), if_neg (mt (unwanted_iff x _).mp hdead)]

theorem settleParcel_removed (hgone : writtenWhole x (x.written + k) ∨ nothingWanted x (x.written + k)) (hfreed : s.agenda.freed = [])
    (hslot : s.staging.slotWait = []) (hnote : s.staging.noteWait = []) :
    settleParcel x.id k s = removeParcel x.id s := by
  rw [settleParcel_eq h]
  by_cases hwhole : writtenWhole x (x.written + k)
  · rw [if_pos ((fullyWritten_iff x _).mpr hwhole)]
    exact removeParcel_updParcel h _ (fun _ => ⟨rfl, rfl, rfl, rfl, rfl⟩) hfreed hslot hnote
  · rw [if_neg (mt (fullyWritten_iff x _).mp hwhole), if_pos ((unwanted_iff x _).mpr (hgone.resolve_left hwhole))]
    exact removeParcel_updParcel h _ (fun _ => ⟨rfl, rfl, rfl, rfl, rfl⟩) hfreed hslot hnote

end

/-! ### The final completion -/

theorem outcomeTaken_writeRun {op : Operation} (hk : op.kind = .writeRun) (k : Nat) (s : State) :
    offer { outcomeTaken op k s with sched := { (outcomeTaken op k s).sched with current := none } } =
      offer
        (writeProgress op.band ((op.items.drop op.issuedFrom).take k) ((op.sectors.drop op.issuedFrom).take k)
          { s with sched := { s.sched with current := none, channelTimer := none } }) := by
  have htaken : outcomeTaken op k s =
      writeProgress op.band ((op.items.drop op.issuedFrom).take k) ((op.sectors.drop op.issuedFrom).take k)
        { s with sched := { s.sched with current := some (completedBy op k), channelTimer := none } } := by
    rw [outcomeTaken, addProgress, hk]
  rw [htaken]
  cases hx : ((op.sectors.drop op.issuedFrom).take k).getLast? with
  | none => rw [List.getLast?_eq_none_iff.mp hx]; rfl
  | some last => rw [writeProgress_some hx, writeProgress_some hx]; rfl

/-- Settles O32: the order of R109, then each part of it. -/
theorem writeCompletionFollowsOrder : Obligations.WriteCompletionFollowsOrder := by
  refine ⟨fun s op ha hk => ?_, fun s b o i is => ⟨rfl, fun hi => commitItems_other s b o is hi, ?_⟩, fun s b first items => ?_,
    fun s p ps items => ⟨rfl, rfl⟩, fun s x items hx => ?_⟩
  · intro ended
    refine ended_of_endsWrite (ended := ended) ha (.inl hk) fun s k ok => ?_
    have hkind : (completedBy op k).kind = .writeRun := hk
    rw [finishOperation, hkind]
    dsimp only
    rw [outcomeTaken_writeRun hk]
    have howner : (completedBy op k).owner = op.owner := rfl
    rw [howner]
    simp only [ended]
    cases op.owner <;> rfl
  · rintro p j L q rfl
    refine ⟨fun hno => ?_, fun hyes => ⟨blockCommitted b o p L s, ?_, resolve_blockCommitted s b o p L, band?_blockCommitted s b o p L,
      parcel?_blockCommitted s b o p L, rfl⟩⟩
    · rw [commitItems_data, if_neg hno]
    · rw [commitItems_data, if_pos hyes]
  · exact mapChanged_due { commitItems b first items s with map := { (commitItems b first items s).map with held := false } }
  · intro n whole dead
    rw [settleParcels_one]
    refine ⟨fun hwhole hdead => settleParcel_kept hx _ hwhole hdead, fun hgone hfreed hslot hnote => ?_⟩
    rw [settleParcel_removed hx _ hgone hfreed hslot hnote, removeParcel_eq hx hfreed hslot hnote]
    have hcounts : (fun d : DrainRecord => if drainCounts d x then { d with count := d.count - 1 } else d) = fun d =>
        if d.requester.port = x.port ∧ (d.stream = none ∨ d.stream = some x.stream) ∧ x.seq < d.mark then
          { d with count := d.count - 1 }
        else d := by
      funext d
      refine if_congr ?_ rfl rfl
      rw [drainCounts_iff]
      exact and_congr_left fun _ => eq_comm
    rw [hcounts]
    rfl

end Sys2Proof.Machine
end

section
/-! PROOFS. HALT, RUN and RESTART: quiescence, the requests answered late, and the discards (R104, R116, R133, R146, R168, R169). -/

namespace Sys2Proof.Machine
open Sys2Proof.Safety

/-! ### HALT -/

theorem scanReading_iff (s : State) :
    scanReading s = true ↔
      (∃ op, s.sched.current = some op ∧ op.owner = .relocRead) ∨ ∃ c, s.engine.scan = some c ∧ 0 < c.readDone := by
  rw [scanReading, Bool.or_eq_true, Option.any_eq_true, Option.any_eq_true]
  simp only [beq_iff_eq, decide_eq_true_eq]

theorem haltEngine_reading {s : State} (h : scanReading s = true) : haltEngine s = s := if_pos h

theorem haltEngine_free {s : State} (h : scanReading s = false) : haltEngine s = stopScan s :=
  if_neg (by rw [h]; exact Bool.false_ne_true)

theorem stopScan_other {s : State} (hp : s.engine.activity ≠ .patrol) (hv : s.engine.activity ≠ .verify) : stopScan s = s := by
  rw [stopScan]
  cases h : s.engine.activity with
  | idle => rfl
  | drain => rfl
  | patrol => exact absurd h hp
  | verify => exact absurd h hv

theorem stopScan_verify {s : State} (h : s.engine.activity = .verify) : stopScan s = updEngine (fun x => { x with scan := none }) s := by
  rw [stopScan, h]

theorem stopScan_patrol {s : State} {c : Scan} (h : s.engine.activity = .patrol) (hc : s.engine.scan = some c) (hb : c.firstBreak = none) :
    stopScan s = engineIdle s := by
  rw [stopScan, h]
  dsimp only
  rw [endScan, hc]
  dsimp only
  rw [hb, handBreak, h]
  rfl

/-- Every waiting HALT is answered in the order of the list (R168). -/
theorem answerHalts_eq (st : Status) (s : State) :
    answerHalts st s = { s with links := (answerHalts st s).links, startup := { s.startup with haltWaiters := [] } } ∧
    ∀ p, (answerHalts st s).link p =
      (s.startup.haltWaiters.filter fun r => r.port = p ∧ r.orphaned = false).foldl
        (fun l r => if l.up then answeredLate l (lateReply s r st .none []) else l) (s.link p) :=
  respond_foldl st .none s.startup.haltWaiters (updStart (fun y => { y with haltWaiters := [] }) s)

/-- Without a chunk the part is quiescent when nothing is staged, queued or current, and no scan read has still to end (R168). -/
theorem quiescent_iff {s : State} (hc : s.engine.chunk = none) :
    quiescent s = true ↔
      s.staging.parcels = [] ∧ s.sched.summaries = [] ∧ s.sched.current = none ∧ ∀ c, s.engine.scan = some c → c.readDone = 0 := by
  have hrest : chunkAtRest s = true := by rw [chunkAtRest, hc]
  have hread (h : s.sched.current = none) : scanReading s = false ↔ ∀ c, s.engine.scan = some c → c.readDone = 0 := by
    rw [← Bool.not_eq_true, scanReading_iff, h]
    constructor
    · exact fun hn c hs => Nat.eq_zero_of_not_pos fun hpos => hn (.inr ⟨c, hs, hpos⟩)
    · rintro hz (⟨op, hop, -⟩ | ⟨c, hs, hpos⟩)
      · cases hop
      · exact absurd (hz c hs) (Nat.ne_of_gt hpos)
  rw [quiescent, hrest]
  simp only [stagingEmpty, Bool.and_eq_true, List.isEmpty_iff, Option.isNone_iff_eq_none, Bool.not_eq_true', and_true]
  constructor
  · rintro ⟨⟨⟨hp, hs⟩, hcur⟩, hr⟩
    exact ⟨hp, hs, hcur, (hread hcur).mp hr⟩
  · rintro ⟨hp, hs, hcur, hz⟩
    exact ⟨⟨⟨hp, hs⟩, hcur⟩, (hread hcur).mpr hz⟩

/-- The state after a HALT in RUNNING, before the relocation engine and the link (R168). -/
def haltBegun (p : Port) (f : RequestFrame) (s : State) : State :=
  updStart (fun y => { y with engine := .halting, haltWaiters := y.haltWaiters ++ [requesterOf p f] }) s

theorem haltTake_running {s : State} (h : s.startup.engine = .running) (p : Port) (f : RequestFrame) :
    haltTake p f s = offer (popRequest p (haltEngine (haltBegun p f s))) := by
  rw [haltTake, h]
  rfl

theorem haltTake_halting {s : State} (h : s.startup.engine = .halting) (p : Port) (f : RequestFrame) :
    haltTake p f s = popRequest p (haltBegun p f s) := by
  rw [haltTake, h]
  dsimp only
  rw [haltBegun, ← h]
  rfl

/-- Settles O21: the engine's part in a HALT by what it holds, and the HALTED test. -/
theorem haltEndsInHalted : Obligations.HaltEndsInHalted := by
  refine ⟨fun s p f ht => ?_, fun s hc => ?_⟩
  · have hexec := exec_halt_of_takes ht
    intro u reading
    have hreading : scanReading (haltBegun p f s) = true ↔ reading := scanReading_iff (haltBegun p f s)
    have hfree (hn : ¬reading) : haltEngine (haltBegun p f s) = stopScan (haltBegun p f s) :=
      haltEngine_free (Bool.eq_false_iff.mpr fun h => hn (hreading.mp h))
    have hgoesOn (h : haltEngine (haltBegun p f s) = haltBegun p f s) (hrun : s.startup.engine = .running) :
        exec (.halt p) s = .next (settle (offer u)) := by
      rw [hexec, haltTake_running hrun, h]
      rfl
    refine ⟨fun h => ?_, fun h => ?_, fun h hact => hgoesOn ?_ h, fun h hn hact => ?_, fun c h hn hact hscan hbreak => ?_⟩
    · rw [hexec, haltTake, h]
      dsimp only
      rw [answerHead_eq _ _ _ _ _ _ ht.1]
    · rw [hexec, haltTake_halting h]
      rfl
    · by_cases hr : reading
      · exact haltEngine_reading (hreading.mpr hr)
      · have hact : s.engine.activity ≠ .patrol ∧ s.engine.activity ≠ .verify := by
          rcases hact with hact | hact | hact
          · rw [hact]; exact ⟨nofun, nofun⟩
          · rw [hact]; exact ⟨nofun, nofun⟩
          · exact absurd hact hr
        rw [hfree hr]
        exact stopScan_other hact.1 hact.2
    · rw [hexec, haltTake_running h, hfree hn, stopScan_verify (s := haltBegun p f s) hact]
      rfl
    · rw [hexec, haltTake_running h, hfree hn, stopScan_patrol (s := haltBegun p f s) hact hscan hbreak]
      rfl
  · refine ⟨haltedTest s, rfl, fun h => haltedTest_of_not s ?_, fun h => ?_⟩
    · rintro ⟨hh, hq⟩
      exact h ⟨hh, (quiescent_iff hc).mp hq⟩
    · have : haltedTest s = answerHalts .done (updStart (fun y => { y with engine := .halted }) s) :=
        if_pos ⟨h.1, (quiescent_iff hc).mpr h.2⟩
      rw [this]
      exact answerHalts_eq .done (updStart (fun y => { y with engine := .halted }) s)

/-! ### RUN -/

/-- Late responses leave a link UP as it was. -/
theorem up_foldl_answeredLate {α : Type} (r : α → Response) (l : List α) (x : Link) :
    (l.foldl (fun y a => if y.up then answeredLate y (r a) else y) x).up = x.up := by
  induction l generalizing x with
  | nil => rfl
  | cons a l ih =>
    rw [List.foldl_cons, ih]
    split <;> rfl

/-- The state after a RUN in HALTING or HALTED, before the relocation engine goes on (R168). -/
def runTaken (p : Port) (f : RequestFrame) (s : State) : State :=
  answerHead p f .done .none [] (answerHalts .notQuiesced (updStart (fun y => { y with engine := .running }) s))

theorem runTaken_eq {s : State} {p : Port} (f : RequestFrame) (hup : (s.link p).up = true) :
    runTaken p f s =
      { s with links := (runTaken p f s).links, startup := { s.startup with engine := .running, haltWaiters := [] } } ∧
    ∀ q, (runTaken p f s).link q =
      (let l := (s.startup.haltWaiters.filter fun r => r.port = q ∧ r.orphaned = false).foldl
        (fun l r => if l.up then answeredLate l (lateReply s r .notQuiesced .none []) else l) (s.link q)
      if q = p then answered l (reply s f .done .none []) else l) := by
  obtain ⟨hs, hl⟩ := answerHalts_eq .notQuiesced (updStart (fun y => { y with engine := .running }) s)
  rw [runTaken]
  generalize answerHalts .notQuiesced (updStart (fun y => { y with engine := .running }) s) = v at hs hl
  have hv : (v.link p).up = true := by
    rw [hl p, up_foldl_answeredLate]
    exact hup
  have hr : reply v f .done .none [] = reply s f .done .none [] := by rw [reply, hs]; rfl
  rw [answerHead_eq _ _ _ _ _ _ hv, hr]
  refine ⟨by rw [hs]; rfl, fun q => ?_⟩
  by_cases hq : q = p
  · subst hq
    rw [link_setLink_same, hl, if_pos rfl]
    rfl
  · rw [link_setLink, if_neg hq, hl]
    exact (if_neg hq).symm

/-- A victim without a chunk goes on: its drain ends, or its next chunk is made (R137, R145). -/
theorem advanceDrain_eq {s : State} {b : Nat} {c : Scan} {r : Band} (hv : s.engine.victim = some b) (hc : s.engine.scan = some c)
    (hb : band? s b = some r) (hrun : s.startup.engine = .running) :
    advanceDrain s = if r.wp ≤ c.next then finishDrain b c s else makeChunk c.next r.wp s := by
  have : running s = true := by rw [running, hrun]; rfl
  rw [advanceDrain, hv, hc]
  dsimp only
  rw [hb]
  dsimp only
  rw [this]
  rfl

/-- Outside RUNNING a RUN is taken in HALTING or HALTED, since STARTING refuses it (R146, R155, R168). -/
theorem runTake_not_running {s : State} {p : Port} {f : RequestFrame} (ht : Takes s p .run f) (hne : s.startup.engine ≠ .running) :
    runTake p f s = offer (resumeEngine (runTaken p f s)) := by
  rw [runTake]
  cases h : s.startup.engine with
  | running => exact absurd h hne
  | starting =>
    have hcheck : engineCheck s .run = none := (checks_of_takeCheck ht.2.2.2).1
    rw [engineCheck, h] at hcheck
    cases hcheck
  | halting => rfl
  | halted => rfl

/-- Settles O22: by the engine state, and by what the relocation engine holds. -/
theorem runReturnsToRunning : Obligations.RunReturnsToRunning := by
  intro s p f ht
  refine ⟨fun h => ?_, fun hne => ?_⟩
  · rw [exec_run_of_takes ht, runTake, h]
    dsimp only
    rw [answerHead_eq _ _ _ _ _ _ ht.1]
  · have hexec : exec (.run p) s = .next (settle (offer (resumeEngine (runTaken p f s)))) := by
      rw [exec_run_of_takes ht, runTake_not_running ht hne]
    obtain ⟨hu, hlinks⟩ := runTaken_eq f ht.1
    rw [hexec]
    generalize runTaken p f s = u at hu hlinks
    have hengine : u.engine = s.engine := by rw [hu]
    have hrun : u.startup.engine = .running := by rw [hu]
    have hband (b : Nat) : band? u b = band? s b := by rw [hu]; rfl
    refine ⟨u, fun h => ?_, fun h => ?_, fun h hk => ?_, fun b c r h hk hv hc hb => ?_, fun h => ?_, hu, hlinks⟩ <;>
      rw [resumeEngine, hengine, h] <;> dsimp only
    · rfl
    · cases hchunk : s.engine.chunk with
      | none => exact absurd hchunk hk
      | some k => rfl
    · rw [hk, advanceDrain_eq (by rw [hengine, hv]) (by rw [hengine, hc]) (by rw [hband, hb]) hrun, ← hengine]
      by_cases hwp : r.wp ≤ c.next
      · rw [if_pos hwp, if_neg (Nat.not_lt.mpr hwp)]
        rfl
      · rw [if_neg hwp, if_pos (Nat.lt_of_not_le hwp)]
        rfl
    · cases hscan : s.engine.scan with
      | none => rfl
      | some c => rfl

/-! ### RESTART -/

theorem restartAdmitted_iff (s : State) :
    restartAdmitted s = true ↔
      s.startup.engine = .halted ∧ s.startup.savesQueued = [] ∧ s.startup.savesInFlight = [] ∧ ∀ r ∈ s.table.bands, r.state ≠ .closing := by
  simp only [restartAdmitted, noSaveWaits, Bool.and_eq_true, beq_iff_eq, List.isEmpty_iff, List.all_eq_true, bne_iff_ne]
  exact ⟨fun ⟨⟨h, hq, hf⟩, hb⟩ => ⟨h, hq, hf, hb⟩, fun ⟨h, hq, hf, hb⟩ => ⟨⟨h, hq, hf⟩, hb⟩⟩

/-- A port's link after the request held at its head is refused; one of a DOWN link gets no response (R116, R149, R163). -/
def refusedHeld (s : State) (l : Link) : Link :=
  match l.queue.head? with
  | none => l
  | some g => if l.up then answered l (reply s g .notRunning .none []) else taken l

theorem refuseHeld_eq (p : Port) (s : State) : refuseHeld p s = s.setLink p (refusedHeld s (s.link p)) := by
  rw [refuseHeld, refusedHeld]
  cases (s.link p).queue.head? with
  | none => cases p <;> rfl
  | some g =>
    dsimp only
    rw [refuseHead]
    split
    · next hup => exact answerHead_eq _ _ _ _ _ _ hup
    · next hup =>
      have hdown : ((popRequest p s).link (requesterOf p g).port).up = false := by
        rw [popRequest_eq, requesterOf, link_setLink_same]
        exact Bool.eq_false_iff.mpr hup
      exact if_pos (by rw [hdown]; rfl)

/-- Refusing held requests changes the links alone, each by its own refusals. -/
theorem refuseHeld_foldl : ∀ (ps : List Port) (s : State),
    ps.foldl (fun s q => refuseHeld q s) s = { s with links := (ps.foldl (fun s q => refuseHeld q s) s).links } ∧
    ∀ q, (ps.foldl (fun s q => refuseHeld q s) s).link q = (ps.filter fun h => h = q).foldl (fun l _ => refusedHeld s l) (s.link q)
  | [], _ => ⟨rfl, fun _ => rfl⟩
  | p :: ps, s => by
    obtain ⟨heq, hlink⟩ := refuseHeld_foldl ps (refuseHeld p s)
    rw [List.foldl_cons]
    have hrefused (l : Link) : refusedHeld (refuseHeld p s) l = refusedHeld s l := by rw [refuseHeld_eq]; rfl
    refine ⟨?_, fun q => ?_⟩
    · generalize ps.foldl (fun s q => refuseHeld q s) (refuseHeld p s) = t at heq
      rw [heq, refuseHeld_eq]
      rfl
    · rw [hlink, refuseHeld_eq, link_setLink]
      simp only [← refuseHeld_eq, hrefused]
      by_cases hq : q = p
      · subst hq
        rw [if_pos rfl, List.filter_cons_of_pos (by simp), List.foldl_cons]
      · rw [if_neg hq, List.filter_cons_of_neg (by simpa using Ne.symm hq)]

/-- The state of a RESTART as its own request is answered and STARTING is entered (R169). -/
def restartBegun (p : Port) (f : RequestFrame) (s : State) : State :=
  enterStarting (s.setLink p (answered (s.link p) (reply s f .done .none [])))

/-- Settles O23: the RESTART is answered first, then the VERIFY_BANDs of the queue, then what is held. -/
theorem restartEntersStarting : Obligations.RestartEntersStarting := by
  intro s p f ht
  rw [exec_restart_of_takes ht, restartTake]
  refine ⟨fun h => ?_, fun h => ?_⟩
  · obtain ⟨-, hqueued, hflight, -⟩ := id h
    rw [if_pos ((restartAdmitted_iff s).mpr h), answerHead_eq _ _ _ _ _ _ ht.1]
    have hanswered := respond_foldl .notRunning .none (s.engine.verifyQueue.map VerifyEntry.requester) (restartBegun p f s)
    simp only [List.foldl_map, List.filter_map] at hanswered
    change ∃ u, Host.Outcome.next (settle (offer (List.foldl (fun s q => refuseHeld q s)
      (List.foldl (fun s e => respond e.requester .notRunning .none [] s) (restartBegun p f s) s.engine.verifyQueue)
      (s.sched.readWait ++ s.engine.verifyHeld)))) = _ ∧ _
    generalize List.foldl (fun s e => respond e.requester .notRunning .none [] s) (restartBegun p f s) s.engine.verifyQueue = v at hanswered ⊢
    obtain ⟨hv, hlinks⟩ := hanswered
    obtain ⟨hw, hlinks'⟩ := refuseHeld_foldl (s.sched.readWait ++ s.engine.verifyHeld) v
    generalize List.foldl (fun s q => refuseHeld q s) v (s.sched.readWait ++ s.engine.verifyHeld) = w at hw hlinks' ⊢
    refine ⟨w, rfl, ?_⟩
    refine ⟨?_, fun q => ?_⟩
    · have hstart : (restartBegun p f s).startup =
          { State.reset.startup with haltWaiters := s.startup.haltWaiters, savesQueued := [], savesInFlight := [] } := by
        simp only [restartBegun, enterStarting, setLink_startup, hqueued, hflight]
        rfl
      rw [hw, hv, hstart]
      rfl
    · have hrefused : refusedHeld v = refusedHeld s := by
        funext l
        rw [hv]
        rfl
      have hlink : (restartBegun p f s).link q = if q = p then answered (s.link p) (reply s f .done .none []) else s.link q :=
        link_setLink s p q _
      rw [hlinks', hlinks, hlink, hrefused]
      rfl
  · rw [if_neg fun hr => h ((restartAdmitted_iff s).mp hr), refuseHead, answerHead_eq _ _ _ _ _ _ ht.1]

end Sys2Proof.Machine
end

section
/-! PROOFS. The sectors of a FETCH read run: their answers, the run's end, and a sector with its retries spent (R30, R107, R110, R117). -/

namespace Sys2Proof.Machine
open Sys2Proof.Safety

/-! ### Answers put in place -/

theorem length_setAnswers (p : Nat) (as l : List Answer) : (setAnswers p as l).length = l.length := by
  induction as generalizing p l with
  | nil => rfl
  | cons a as ih => rw [setAnswers, ih, List.length_set]

theorem getElem?_setAnswers (p : Nat) (as l : List Answer) {i : Nat} (hi : i < l.length) :
    (setAnswers p as l)[i]? = if p ≤ i ∧ i < p + as.length then as[i - p]? else l[i]? := by
  induction as generalizing p l with
  | nil => rw [setAnswers, if_neg (by rw [List.length_nil]; omega)]
  | cons a as ih =>
    rw [setAnswers, ih _ _ (by rwa [List.length_set]), List.length_cons]
    by_cases hp : i = p
    · subst hp
      rw [if_neg (by omega), if_pos (by omega), Nat.sub_self, List.getElem?_cons_zero, List.getElem?_set_self hi]
    · by_cases hin : p + 1 ≤ i ∧ i < p + 1 + as.length
      · rw [if_pos hin, if_pos (by omega), show i - p = i - (p + 1) + 1 by omega, List.getElem?_cons_succ]
      · rw [if_neg hin, if_neg (by omega), List.getElem?_set_ne (Ne.symm hp)]

theorem getElem?_fetchedAnswers (r : ReadRun) (i : Nat) (l : List Sector) (j : Nat) :
    (fetchedAnswers r i l)[j]? = l[j]?.map (checkFetched r (i + j)) := by
  induction l generalizing i j with
  | nil => rfl
  | cons x l ih =>
    cases j with
    | zero => rfl
    | succ j =>
      rw [fetchedAnswers, List.getElem?_cons_succ, List.getElem?_cons_succ, ih]
      congr 2
      omega

theorem length_fetchedAnswers (r : ReadRun) (i : Nat) (l : List Sector) : (fetchedAnswers r i l).length = l.length := by
  induction l generalizing i with
  | nil => rfl
  | cons x l ih => rw [fetchedAnswers, List.length_cons, ih, List.length_cons]

theorem checkFetched_eq (r : ReadRun) (i : Nat) (x : Sector) :
    checkFetched r i x =
      if x.trailer.kind = 2 ∧ x.trailer.band.toNat = r.band ∧ x.trailer.logical.toNat = r.lbn + i ∧ x.trailer.stamp.toNat = r.stamp then
        .data x.payload
      else .excepted .mismatch := by
  have hkind : codeData = (2 : BitVec 8) := rfl
  rw [checkFetched, trailerValidFor, hkind]
  by_cases hk : x.trailer.kind = 2
  · simp [hk, and_assoc]
  · have hno : (x.trailer.kind == 2) = false := beq_eq_false_iff_ne.mpr hk
    rw [hno]
    refine Eq.trans ?_ (if_neg fun h => hk h.1).symm
    simp only [Bool.and_false, Bool.false_and, Bool.false_eq_true, if_false]

/-! ### The delivery to the FETCH -/

section
variable {s : State}

theorem updFetch_updFetch (id : Nat) (f g : FetchRecord → FetchRecord) (hf : ∀ x, (f x).id = x.id) :
    updFetch id g (updFetch id f s) = updFetch id (fun x => g (f x)) s := by
  have : (s.sched.fetches.map fun x => if x.id = id then f x else x).map (fun x => if x.id = id then g x else x) =
      s.sched.fetches.map fun x => if x.id = id then g (f x) else x := by
    rw [List.map_map]
    refine List.map_congr_left fun x _ => ?_
    rw [Function.comp_apply]
    by_cases hx : x.id = id
    · rw [if_pos hx, if_pos ((hf x).trans hx), if_pos hx]
    · rw [if_neg hx, if_neg hx, if_neg hx]
  simp only [updFetch, this]

theorem updFetch_id (id : Nat) : updFetch id (fun x => x) s = s := by
  simp only [updFetch, ite_self, List.map_id']

/-- A FETCH with the answers of delivered sectors put in place from position p on (R117). -/
def FetchRecord.answered (p : Nat) (as : List Answer) (x : FetchRecord) : FetchRecord :=
  { x with answers := setAnswers p as x.answers }

theorem deliverFetch_foldl {r : ReadRun} (l : List Sector) (start k : Nat) (h : readRun? s r.fetch r.pos = some r) :
    ((l.map some).zipIdx k).foldl
        (fun s x =>
          match x.1 with
          | some sec => deliverFetch r.fetch r.pos (start + x.2) [sec] s
          | none => exceptFetch r.fetch r.pos (start + x.2) s) s =
      updFetch r.fetch (FetchRecord.answered (r.pos + (start + k)) (fetchedAnswers r (start + k) l)) s := by
  induction l generalizing k s with
  | nil => exact (updFetch_id r.fetch).symm
  | cons a l ih =>
    have hone : deliverFetch r.fetch r.pos (start + k) [a] s =
        updFetch r.fetch (FetchRecord.answered (r.pos + (start + k)) [checkFetched r (start + k) a]) s := by
      rw [deliverFetch, h]
      rfl
    rw [List.map_cons, List.zipIdx_cons, List.foldl_cons]
    dsimp only
    have hrun : readRun? (updFetch r.fetch (FetchRecord.answered (r.pos + (start + k)) [checkFetched r (start + k) a]) s) r.fetch r.pos = some r := h
    rw [hone]
    refine (ih (k + 1) hrun).trans ?_
    rw [updFetch_updFetch _ (FetchRecord.answered _ _) _ fun _ => rfl]
    rfl

theorem deliverRead_fetch {op : Operation} {r : ReadRun} (ho : op.owner = .fetch r.fetch r.pos)
    (h : readRun? s r.fetch r.pos = some r) (start : Nat) (l : List Sector) :
    deliverRead op start (l.map some) s = updFetch r.fetch (FetchRecord.answered (r.pos + start) (fetchedAnswers r start l)) s := by
  rw [deliverRead, ho]
  exact deliverFetch_foldl l start 0 h

/-! ### The end of the run -/

theorem band?_heldReset_other {b n : Nat} (hn : n ≠ b) : band? (heldReset b s) n = band? s n := by
  by_cases h : ∀ r, band? s b = some r → r.pins ≠ 0 ∨
      ¬(r.state = .draining ∧ s.engine.victim ≠ some b) ∧ ¬(r.state = .filled ∧ r.live = 0 ∧ r.notes = 0)
  · rw [heldReset_of_not h]
  · push Not at h
    obtain ⟨r, hb, hpins, hcase⟩ := h
    have hgone : r.state = .draining ∧ s.engine.victim ≠ some b ∨ r.state = .filled ∧ r.live = 0 ∧ r.notes = 0 := by
      by_cases hd : r.state = .draining ∧ s.engine.victim ≠ some b
      · exact .inl hd
      · exact .inr (hcase fun h1 => not_not.mp fun h2 => hd ⟨h1, h2⟩)
    rw [heldReset_of hb hpins hgone]
    have hne : r.state ≠ .empty := by
      rcases hgone with h | h <;> rw [h.1] <;> exact BandState.noConfusion
    exact (resetOrRetired hb hne).other n hn

theorem band?_removePin_other {b n : Nat} (hn : n ≠ b) : band? (removePin b s) n = band? s n := by
  rw [removePin, band?_heldReset_other hn, band?_updBand, if_neg hn]

theorem band?_removePin_pinned {b : Nat} {r : Band} (h : band? s b = some r) (hpins : 2 ≤ r.pins) :
    band? (removePin b s) b = some { r with pins := r.pins - 1 } := by
  have hb : band? (updBand b (fun x => { x with pins := x.pins - 1 }) s) b = some { r with pins := r.pins - 1 } := by
    rw [band?_updBand, if_pos rfl, h]
    rfl
  rw [removePin, heldReset_of_not fun x hx => .inl ?_, hb]
  rw [hb] at hx
  cases hx
  exact Nat.ne_of_gt (Nat.sub_pos_of_lt hpins)

/-- The state after a read run has left the queue (R117). -/
def readRunFreed (r : ReadRun) (s : State) : State :=
  { s with sched := { s.sched with readQueue := s.sched.readQueue.filter fun q => ¬(q.fetch = r.fetch ∧ q.pos = r.pos) } }

/-- The state after a read run has left the queue, and its pin its band (R30, R117). -/
def runUnpinned (r : ReadRun) (s : State) : State :=
  if r.pinned then removePin r.band (readRunFreed r s) else readRunFreed r s

theorem onlyBands_runUnpinned (r : ReadRun) : OnlyBands (readRunFreed r s) (runUnpinned r s) := by
  rw [runUnpinned]
  split
  · exact onlyBands_removePin _ _
  · exact .refl _

theorem band?_runUnpinned_other (r : ReadRun) {n : Nat} (hn : n ≠ r.band) : band? (runUnpinned r s) n = band? s n := by
  rw [runUnpinned]
  split
  · exact band?_removePin_other hn
  · rfl

/-- The end of a run of the one FETCH, which has another run left (R117). -/
theorem endReadRun_eq {r : ReadRun} {x : FetchRecord} (h : readRun? s r.fetch r.pos = some r) (hwait : s.sched.readWait = [])
    (hx : s.sched.fetches = [x]) (hid : x.id = r.fetch) (hleft : 2 ≤ x.runsLeft) :
    endReadRun r.fetch r.pos s =
      { runUnpinned r s with
        sched := { (runUnpinned r s).sched with fetches := [{ x with runsLeft := x.runsLeft - 1 }] } } := by
  have hfetches : (runUnpinned r s).sched.fetches = [x] := by
    rw [(onlyBands_runUnpinned r).sched]
    exact hx
  have hcount : updFetch r.fetch (fun x => { x with runsLeft := x.runsLeft - 1 }) (runUnpinned r s) =
      { runUnpinned r s with
        sched := { (runUnpinned r s).sched with fetches := [{ x with runsLeft := x.runsLeft - 1 }] } } := by
    rw [updFetch, hfetches, List.map_singleton, if_pos hid]
  rw [endReadRun, h]
  dsimp only
  have hroom : roomReturned (readRunFreed r s) = readRunFreed r s := roomReturned_nil hwait
  rw [readRunFreed] at hroom
  rw [hroom]
  change answerIfEnded r.fetch (updFetch r.fetch _ (runUnpinned r s)) = _
  rw [hcount, answerIfEnded]
  dsimp only
  rw [List.find?_singleton, if_pos (decide_eq_true hid)]
  exact if_neg (Nat.ne_of_gt (Nat.sub_pos_of_lt hleft))

end

/-! ### The completions of a read run -/

theorem finishOperation_readRun {op : Operation} (h : op.kind = .readRun) (k n : Nat) (ok : Bool) (d : Delivery) (s : State) :
    finishOperation (completedBy op n) k ok d s =
      endRead (completedBy op n) (offer { s with sched := { s.sched with current := none } }) := by
  have hkind : (completedBy op n).kind = .readRun := h
  rw [finishOperation, hkind]

/-- A COMPLETE that delivers the rest of a read run (R103, R110). -/
theorem takeCompletion_read {s : State} {op : Operation} {c : Completion} (ha : Awaits s op) (hk : op.kind = .readRun)
    (hc : op.issue = c.issue) (ho : c.outcome = .complete) (hcount : c.k = op.count - op.issuedFrom) {l : List Sector}
    (hd : c.delivery = .sectors l) (hl : l.length = c.k) :
    takeCompletion c s =
      endRead (completedBy op c.k)
        (offer
          (let t :=
            deliverRead op op.issuedFrom (l.map some)
              { s with sched := { s.sched with current := some (completedBy op c.k), channelTimer := none } }
          { t with sched := { t.sched with current := none } })) := by
  have hissued : issueCount op = c.k := hcount.symm
  have hreported : reportedCount op c = c.k := by
    rw [reportedCount, hissued, if_neg (Nat.lt_irrefl _), hd, deliveredCount.eq_1 _ _ _ hk, hl, Nat.min_self]
  have htaken : takenAs op s.startup.image.retryLimit c.outcome (reportedCount op c) = (.complete, c.k) := by
    rw [takenAs, if_pos (by rw [hk]; rfl), hreported, hissued, ho, takenRun, if_neg (Nat.lt_irrefl _), if_neg (Nat.lt_irrefl _)]
  have hprogress (u : State) : addProgress op c.k u = u := by rw [addProgress, hk]
  have hall : (deliveredSectors c.delivery).take c.k = l := by rw [hd, ← hl]; exact List.take_length
  rw [takeCompletion_awaits ha hc, htaken, takeOutcome]
  dsimp only
  rw [hprogress, if_pos hk, hall]
  exact finishOperation_readRun hk ..

/-- A sector of a FETCH's read run is excepted, and its rest offered (R110, R117). -/
theorem exceptSector_fetch {s : State} {op : Operation} {id pos : Nat} (howner : op.owner = .fetch id pos)
    (hlt : op.issuedFrom + 1 < op.count) :
    exceptSector (completedBy op 0) op.issuedFrom
        { s with sched := { s.sched with current := some (completedBy op 0), channelTimer := none } } =
      offer
        { s with
          sched :=
            { s.sched with
              current := none
              channelTimer := none
              readQueue := s.sched.readQueue.map fun r =>
                if r.fetch = id ∧ r.pos = pos then { r with completed := op.issuedFrom + 1 } else r
              fetches := s.sched.fetches.map fun x =>
                if x.id = id then { x with answers := x.answers.set (pos + op.issuedFrom) (.excepted .mediaError) } else x } } := by
  rw [exceptSector]
  dsimp only
  rw [if_pos (show op.issuedFrom + 1 < (completedBy op 0).count from hlt), continueRead, deliverRead,
    show (completedBy op 0).owner = _ from howner]
  rfl

/-- Settles O33: the check of a sector, the end of a run with another left, and the sector with its retries spent. -/
theorem fetchedSectorsAreChecked : Obligations.FetchedSectorsAreChecked := by
  refine ⟨checkFetched_eq, fun s op c r x l ha hk howner hc hout hle hcount hd hl hr hx hid hleft hwait => ?_, ?_⟩
  · have hrun : readRun? { s with sched := { s.sched with current := some (completedBy op c.k), channelTimer := none } } r.fetch r.pos =
        some r := hr
    have hexec : exec (.channelCompletion c) s = .next (settle (takeCompletion c s)) := rfl
    rw [hexec, takeCompletion_read ha hk hc hout hcount hd hl, deliverRead_fetch howner hrun, endRead, show (completedBy op c.k).owner = _ from howner]
    dsimp only
    generalize hw : offer _ = w
    have hwsched : w.sched =
        { s.sched with
          current := none, channelTimer := none
          fetches := [x.answered (r.pos + op.issuedFrom) (fetchedAnswers r op.issuedFrom l)] } := by
      rw [← hw]
      simp only [offer, updFetch, hx, List.map_singleton, if_pos hid]
    have hwrest : w = { s with sched := w.sched, agenda := w.agenda } := by rw [← hw]; rfl
    have hwrun : readRun? w r.fetch r.pos = some r := by rw [readRun?, hwsched]; exact hr
    have honly := onlyBands_runUnpinned (s := w) r
    have hlength : (setAnswers (r.pos + op.issuedFrom) (fetchedAnswers r op.issuedFrom l) x.answers).length = x.answers.length :=
      length_setAnswers ..
    refine ⟨_, _, congrArg (fun u => Host.Outcome.next (settle u))
      (endReadRun_eq (x := x.answered _ _) hwrun (by rw [hwsched]; exact hwait) (by rw [hwsched]) hid hleft), ?_, hlength, fun i hi => ?_, fun hp => ?_,
      fun b hp hb hpins => ?_, fun n hn => ?_, ?_, ?_, ?_, ?_, ?_, ?_, ?_, fun p => ?_⟩
    · dsimp only
      rw [honly.sched]
      simp only [readRunFreed, hwsched]
      rfl
    · rw [getElem?_setAnswers _ _ _ (hlength ▸ hi), length_fetchedAnswers]
      by_cases hin : r.pos + op.issuedFrom ≤ i ∧ i < r.pos + op.issuedFrom + l.length
      · rw [if_pos hin, if_pos hin, getElem?_fetchedAnswers, show op.issuedFrom + (i - (r.pos + op.issuedFrom)) = i - r.pos by omega]
      · rw [if_neg hin, if_neg hin]
    · have hfreed : runUnpinned r w = readRunFreed r w := if_neg (by rw [hp]; exact Bool.false_ne_true)
      rw [hfreed, hwrest]
      rfl
    · have hremoved : runUnpinned r w = removePin r.band (readRunFreed r w) := if_pos hp
      have hwband : band? (readRunFreed r w) r.band = some b := by rw [hwrest]; exact hb
      rw [hremoved]
      exact band?_removePin_pinned hwband hpins
    · exact (band?_runUnpinned_other r hn).trans (by rw [hwrest]; rfl)
    · exact honly.map.trans (by rw [hwrest]; rfl)
    · exact honly.staging.trans (by rw [hwrest]; rfl)
    · exact honly.custody.trans (by rw [hwrest]; rfl)
    · exact honly.alloc.trans (by rw [hwrest]; rfl)
    · exact honly.engine.trans (by rw [hwrest]; rfl)
    · exact honly.startup.trans (by rw [hwrest]; rfl)
    · exact honly.now.trans (by rw [hwrest]; rfl)
    · have hlink : (readRunFreed r w).link p = s.link p := by rw [hwrest]; rfl
      exact hlink ▸ honly.links p
  · intro s op c id pos ha hk howner hc hout hzero hspent hlt
    have hexec : exec (.channelCompletion c) s = .next (settle (takeCompletion c s)) := rfl
    have htaken : takenAs op s.startup.image.retryLimit c.outcome (reportedCount op c) = (.unreadable, 0) := by
      have hpos : 0 < issueCount op := issueCount_pos (by omega)
      rw [takenAs, if_pos (by rw [hk]; rfl), reportedCount_zero hzero, hout, takenRun]
      simp [hpos, hk, OpKind.isWrite]
    have hprogress (u : State) : addProgress op 0 u = u := by rw [addProgress, hk]
    rw [hexec, takeCompletion_awaits ha hc, htaken, takeOutcome]
    dsimp only
    rw [hprogress, if_pos hk, List.take_zero, List.map_nil, deliverRead_nil]
    refine congrArg (fun u => Host.Outcome.next (settle u)) ((retryOperation_spent (completedBy op 0) _
      { s with sched := { s.sched with current := some (completedBy op 0), channelTimer := none } } hspent).trans ?_)
    rw [spentOperation, show (completedBy op 0).kind = _ from hk]
    exact exceptSector_fetch howner hlt

end Sys2Proof.Machine
end

section
/-! PROOFS. The arbitration: what is pending, the ranks, the order of the host streams, and the relocation engine's offer (R86, R94, R112 to
R114). -/

namespace Sys2Proof.Machine
open Sys2Proof.Safety

section
variable {s : State}

/-! ### The ranks -/

theorem channelFree_of (h : s.sched.current = none) : channelFree s = true := by rw [channelFree, h]; rfl

theorem startPending_iff :
    startPending s = true ↔
      s.startup.stage = .geometry ∨ s.startup.stage = .settings ∨ (∃ r, s.startup.stage = .rebuild r) ∨
        s.startup.stage = .finished ∧ s.startup.savesQueued ≠ [] := by
  rw [startPending]
  cases s.startup.stage with
  | geometry => simp
  | geometryWait t => simp
  | settings => simp
  | rebuild r => simp
  | finished => simp

theorem urgent_iff :
    urgent s = true ↔
      s.startup.image.backlogLimit ≤ s.table.due.length ∨ freeBands s ≤ s.startup.image.criticalMark := by
  rw [urgent, Bool.or_eq_true, decide_eq_true_iff, decide_eq_true_iff]

theorem arbitrate_start (hfree : s.sched.current = none) (h : startPending s = true) : arbitrate s = issueStart s := by
  rw [arbitrate, channelFree_of hfree, h]
  rfl

/-- The relocation engine's operation, where it is urgent (R113). -/
def urgentReloc (s : State) : Option RelocOp := if urgent s then relocPending s else none

theorem arbitrate_urgent (hfree : s.sched.current = none) (h : startPending s = false) {op : RelocOp} (hop : urgentReloc s = some op) :
    arbitrate s = issueReloc op s := by
  rw [urgentReloc] at hop
  rw [arbitrate, channelFree_of hfree, h, hop]
  rfl

/-- Ranks 3 to 6 of the arbitration, and an idle channel (R112). -/
def arbitrateRest (s : State) : State :=
  match nextReadRun s with
  | some r => issueFetch r s
  | none =>
    match s.sched.summaries with
    | b :: _ => issueSummary b s
    | [] => arbitrateWrites s

theorem arbitrate_rest (hfree : s.sched.current = none) (h : startPending s = false) (hop : urgentReloc s = none) :
    arbitrate s = arbitrateRest s := by
  rw [urgentReloc] at hop
  rw [arbitrate, channelFree_of hfree, h, hop]
  rfl

theorem issueSummary_eq {b : Nat} {bs : List Nat} {r : Band} {i : StreamId} (hs : s.sched.summaries = b :: bs) (hb : band? s b = some r)
    (hi : r.owner = some i) :
    issueSummary b s =
      sendIssue
        (newOperation .summary .summaryRun b (bandZone s r) (bandC s r - 4) 4 0 []
          (summarySectors r (stream s i).entries (stream s i).overflow))
        { s with sched := { s.sched with summaries := bs } } := by
  have hband : band? { s with sched := { s.sched with summaries := bs } } b = some r := hb
  rw [issueSummary, hs, List.erase_cons_head]
  dsimp only
  rw [hband]
  dsimp only
  rw [hi]
  rfl

theorem tellIdle_eq (t : State) :
    tellIdle t =
      if t.engine.idleTimer = none ∧ t.engine.idleFlag = false then
        { t with engine := { t.engine with idleTimer := some (t.now + t.startup.image.idleDelay) } }
      else t := by
  rw [tellIdle]
  cases ht : t.engine.idleTimer with
  | some n => simp
  | none =>
    cases hf : t.engine.idleFlag with
    | true => simp
    | false => rfl

theorem selectHosts_ineligible {t : Fin 8} (ts : List (Fin 8)) (h : ¬(flushEligible s t = true ∧ 1 ≤ freeRecords s)) :
    selectHosts (t :: ts) s = selectHosts ts s := by
  rw [selectHosts]
  exact if_neg fun hb => h (by simpa [Nat.one_le_iff_ne_zero, Nat.pos_iff_ne_zero] using hb)

theorem selectHosts_eligible {t : Fin 8} (ts : List (Fin 8)) (h : flushEligible s t = true) (hfree : 1 ≤ freeRecords s) :
    selectHosts (t :: ts) s =
      if (selectHost t s).2 = true then
        ({ (selectHost t s).1 with sched := { (selectHost t s).1.sched with pointer := t } }, true)
      else selectHosts ts (selectHost t s).1 := by
  have hb : (flushEligible s t && decide (0 < freeRecords s)) = true := by
    rw [h]
    exact decide_eq_true hfree
  rw [selectHosts, if_pos hb]

/-! ### Flush eligibility -/

theorem openBand_opened {o : Option Nat} {p : Bool} :
    (match o with
      | none => p
      | some n => (band? s n).any fun b => b.state == .opened) = true ↔
      o = none ∧ p = true ∨ ∃ b r, o = some b ∧ band? s b = some r ∧ r.state = .opened := by
  cases o with
  | none => simp
  | some n => simp [Option.any_eq_true]

theorem flushEligible_iff (t : Fin 8) :
    flushEligible s t = true ↔
       queueParcels s t ≠ [] ∧
       (s.alloc.hosts[t].openBand = none ∧ 2 < freeBands s ∨
         ∃ b r, s.alloc.hosts[t].openBand = some b ∧ band? s b = some r ∧ r.state = .opened) ∧
       (s.startup.image.flushThreshold ≤
           ((queueParcels s t).map fun x => match x.kind with | .data => x.length - x.written | .note => 1 - x.written).sum ∨
         (∃ x, (queueParcels s t).head? = some x ∧ s.startup.image.ageLimit ≤ s.now - x.acceptedAt) ∨
         (∃ x ∈ queueParcels s t, ∃ d ∈ s.staging.drains,
           x.port = d.requester.port ∧ (d.stream = none ∨ d.stream = some x.stream) ∧ x.seq < d.mark) ∨
         s.startup.engine = .halting) := by
  have hmay : mayWrite s t = true ↔ s.alloc.hosts[t].openBand = none ∧ 2 < freeBands s ∨
      ∃ b r, s.alloc.hosts[t].openBand = some b ∧ band? s b = some r ∧ r.state = .opened := by
    rw [← decide_eq_true_iff (p := 2 < freeBands s)]
    exact openBand_opened
  have hage : ((oldestAge s t).any fun a => decide (s.startup.image.ageLimit ≤ a)) = true ↔
      ∃ x, (queueParcels s t).head? = some x ∧ s.startup.image.ageLimit ≤ s.now - x.acceptedAt := by
    rw [oldestAge]
    simp [Option.any_eq_true]
  have hdrain : drainInterest s t = true ↔ ∃ x ∈ queueParcels s t, ∃ d ∈ s.staging.drains,
      x.port = d.requester.port ∧ (d.stream = none ∨ d.stream = some x.stream) ∧ x.seq < d.mark := by
    simp only [drainInterest, List.any_eq_true, drainCounts_iff]
  rw [flushEligible, Bool.and_eq_true, Bool.and_eq_true, Bool.or_eq_true, Bool.or_eq_true, Bool.or_eq_true, hmay, hage, hdrain,
    decide_eq_true_iff, beq_iff_eq, or_assoc, or_assoc, and_assoc]
  simp only [Bool.not_eq_true', List.isEmpty_eq_false_iff]
  rfl

/-! ### The relocation engine's offer -/

theorem relocPending_scan (hne : s.startup.engine ≠ .halted) (hact : s.engine.activity = .patrol ∨ s.engine.activity = .verify) :
    relocPending s = scanPending s := by
  rw [relocPending, if_neg hne]
  rcases hact with h | h <;> rw [h]

/-- What the engine offers for chunk k of victim v (R137, R140). -/
def chunkPending (v : Nat) (k : Chunk) (s : State) : Option RelocOp :=
  match k.stage with
  | .reading => some (.read v k.first (k.last + 1 - k.first) k.buffer.length)
  | .writing => if (unwrittenCopies s).isEmpty then none else if relocMayWrite s then some .write else none
  | .settled => none

theorem relocPending_drain (hne : s.startup.engine ≠ .halted) (hact : s.engine.activity = .drain) {v : Nat} {k : Chunk}
    (hv : s.engine.victim = some v) (hk : s.engine.chunk = some k) :
    relocPending s = chunkPending v k s := by
  rw [relocPending, if_neg hne, hact, hv, hk]
  rfl

theorem relocMayWrite_iff :
    relocMayWrite s = true ↔
      s.alloc.reloc.openBand = none ∧ 1 ≤ freeBands s ∨
        ∃ b r, s.alloc.reloc.openBand = some b ∧ band? s b = some r ∧ r.state = .opened := by
  rw [← decide_eq_true_iff (p := 1 ≤ freeBands s)]
  exact openBand_opened

theorem unwrittenCopies_ne_nil {k : Chunk} (hk : s.engine.chunk = some k) :
    (unwrittenCopies s).isEmpty = false ↔ ∃ c ∈ k.copies, c.state = .unwritten := by
  rw [unwrittenCopies, hk]
  simp

end

theorem arbitrateWrites_issued {s : State} (h : (selectHosts (streamOrder s.sched.pointer) s).2 = true) :
    arbitrateWrites s = (selectHosts (streamOrder s.sched.pointer) s).1 := if_pos h

theorem arbitrateWrites_passed {s : State} (h : (selectHosts (streamOrder s.sched.pointer) s).2 = false) :
    arbitrateWrites s =
      match relocPending (selectHosts (streamOrder s.sched.pointer) s).1 with
      | some op => issueReloc op (selectHosts (streamOrder s.sched.pointer) s).1
      | none => tellIdle (selectHosts (streamOrder s.sched.pointer) s).1 :=
  if_neg (by rw [h]; exact Bool.false_ne_true)

/-- Settles O36: rank by rank, and what is offered at each. -/
theorem arbitrationIssuesFirstByRank : Obligations.ArbitrationIssuesFirstByRank := by
  refine ⟨fun s h => ?_, fun s hfree => ?_, fun s t ts => ?_, fun s t => flushEligible_iff t, fun s => ?_, fun s b first count completed r hb => ?_⟩
  · have hbusy : channelFree s = false := by
      rw [channelFree, Option.isNone_eq_false_iff, Option.isSome_iff_ne_none]
      exact h
    rw [arbitrate, hbusy]
    rfl
  · intro pending sends system read urgency waiting hosts
    refine ⟨fun h => ?_, fun h => ?_, fun r x h hx => ?_, fun h => arbitrate_start hfree (startPending_iff.mpr h), fun h => ?_⟩
    · rw [arbitrate_start hfree (startPending_iff.mpr (.inl h)), issueStart, h]
      rfl
    · rw [arbitrate_start hfree (startPending_iff.mpr (.inr (.inl h))), issueStart, h]
      rfl
    · rw [arbitrate_start hfree (startPending_iff.mpr (.inr (.inr (.inl ⟨r, h⟩)))), issueStart, h]
      dsimp only
      rw [hx]
      rfl
    have hstart : startPending s = false := Bool.eq_false_iff.mpr fun hp => h (startPending_iff.mp hp)
    refine ⟨fun op hu hop => arbitrate_urgent hfree hstart ((if_pos (urgent_iff.mpr hu)).trans hop), fun hno => ?_⟩
    have hrest : arbitrate s = arbitrateRest s := by
      refine arbitrate_rest hfree hstart ?_
      rw [urgentReloc]
      rcases hno with hu | hop
      · exact if_neg fun hu' => hu (urgent_iff.mp hu')
      · rw [hop, ite_self]
    rw [hrest, arbitrateRest]
    refine ⟨fun r hr => ?_, fun hnone => ⟨fun b bs r i hs hb hi => ?_, fun hs => ?_⟩⟩
    · rw [show nextReadRun s = some r from hr]
      rfl
    · rw [show nextReadRun s = none from hnone]
      dsimp only
      rw [hs]
      exact issueSummary_eq hs hb hi
    · rw [show nextReadRun s = none from hnone]
      dsimp only
      rw [hs]
      refine ⟨fun hissued => arbitrateWrites_issued hissued, fun op hpassed hop => ?_, fun hpassed hop => ?_⟩
      · refine (arbitrateWrites_passed hpassed).trans ?_
        rw [show relocPending (selectHosts (streamOrder s.sched.pointer) s).1 = _ from hop]
        rfl
      · refine (arbitrateWrites_passed hpassed).trans ?_
        rw [show relocPending (selectHosts (streamOrder s.sched.pointer) s).1 = _ from hop]
        exact tellIdle_eq hosts.1
  · exact ⟨rfl, selectHosts_ineligible ts, selectHosts_eligible ts⟩
  · intro stream mayWrite
    refine ⟨fun h => ?_, fun c first count reads hne hact hc hreads => ?_, fun v k hne hact hv hk => ?_⟩
    · rw [relocPending]
      split
      · rfl
      · next hne =>
        rcases h with h | h
        · exact absurd h hne
        · rw [h]
    · rw [relocPending_scan hne hact, scanPending, hc]
      dsimp only
      rw [hreads]
      refine if_congr ?_ rfl rfl
      rw [running, Bool.or_eq_true, beq_iff_eq, decide_eq_true_iff]
      rfl
    · rw [relocPending_drain hne hact hv hk, chunkPending]
      refine ⟨fun hstage => ?_, fun hstage hcopy hmay => ?_, fun hstage hno => ?_⟩ <;> rw [hstage] <;> dsimp only
      · rw [(unwrittenCopies_ne_nil hk).mpr hcopy, relocMayWrite_iff.mpr hmay]
        rfl
      · by_cases hcopy : ∃ c ∈ k.copies, c.state = .unwritten
        · have hmay : relocMayWrite s = false := Bool.eq_false_iff.mpr fun h => hno ⟨hcopy, relocMayWrite_iff.mp h⟩
          rw [hmay]
          simp
        · have hnone : (unwrittenCopies s).isEmpty = true := by
            rw [← Bool.not_eq_false]
            exact fun h => hcopy ((unwrittenCopies_ne_nil hk).mp h)
          rw [hnone]
          rfl
  · rw [issueReloc, hb]
    rfl

end Sys2Proof.Machine
end

section
/-! PROOFS. The findings of a scan, and the victim that is abandoned (R35, R37, R38, R40, R143, R144). -/

namespace Sys2Proof.Machine
open Sys2Proof.Safety

section
variable {s : State} {b : Nat} {r : Band}

/-! ### A band's record put in place -/

/-- Band b's record becomes x. -/
def putBand (b : Nat) (x : Band) (s : State) : State :=
  { s with table := { s.table with bands := s.table.bands.set b x } }

theorem updBand_eq_putBand (h : band? s b = some r) (f : Band → Band) : updBand b f s = putBand b (f r) s := updBand_eq_set s h f

theorem band?_putBand (h : band? s b = some r) (x : Band) : band? (putBand b x s) b = some x := by
  rw [← updBand_eq_putBand h fun _ => x, band?_updBand, if_pos rfl, h]
  rfl

theorem band?_putBand_other (x : Band) {n : Nat} (hn : n ≠ b) : band? (putBand b x s) n = band? s n :=
  List.getElem?_set_ne (Ne.symm hn)

theorem putBand_putBand (x y : Band) : putBand b y (putBand b x s) = putBand b y s := by
  simp only [putBand, List.set_set]

theorem putBand_self (h : band? s b = some r) : putBand b r s = s := by rw [putBand, set_self s h]

/-! ### Causes and findings by the band's state -/

/-- Band b of record r joins the due list with a cause added (R37, R38). -/
def dueWith (b : Nat) (r : Band) (s : State) : State :=
  choiceDue (placeNotice .bandDue (some b)
    { s with table := { s.table with bands := s.table.bands.set b r, due := s.table.due ++ [b] } })

theorem raiseCause_draining (h : band? s b = some r) (hd : r.state = .draining) (c : Cause) :
    raiseCause b c s = putBand b { r with causes := r.causes.add c } s := by
  rw [raiseCause, h]
  dsimp only
  rw [hd]
  dsimp only
  rw [updBand_eq_putBand h, ← hd]

theorem raiseCause_filled (h : band? s b = some r) (hf : r.state = .filled) (hnot : b ∉ s.table.due) (c : Cause) :
    raiseCause b c s = dueWith b { r with causes := r.causes.add c } s := by
  rw [raiseCause, h]
  dsimp only
  rw [hf]
  dsimp only
  rw [updBand_eq_putBand h, ← hf]
  exact if_neg hnot

theorem withFinding_of (h : band? s b = some r) (hne : r.state ≠ .empty) (hnr : r.state ≠ .retired) (f : State → State) :
    withFinding b r.stamp f s = f s := by
  rw [withFinding, h]
  exact if_pos ⟨hne, hnr, rfl⟩

theorem withFinding_discarded (h : band? s b = some r) {stamp : Nat} (hno : r.state = .empty ∨ r.state = .retired ∨ r.stamp ≠ stamp)
    (f : State → State) : withFinding b stamp f s = s := by
  rw [withFinding, h]
  refine if_neg ?_
  rintro ⟨hne, hnr, hst⟩
  rcases hno with h | h | h
  · exact hne h
  · exact hnr h
  · exact h hst

/-- A notice placed where a condition holds. -/
def noticeIf (c : Bool) (k : NoticeKind) (b : Nat) (s : State) : State := if c then placeNotice k (some b) s else s

theorem handMedia_nil (stamp : Nat) : handMedia b stamp [] s = s := rfl

theorem handMedia_eq (stamp : Nat) {l : List Nat} (hl : l ≠ []) : handMedia b stamp l s = withFinding b stamp (raiseCause b .media) s :=
  if_neg (by simpa using hl)

theorem handMedia_draining (h : band? s b = some r) (hd : r.state = .draining) (l : List Nat) :
    handMedia b r.stamp l s = putBand b { r with causes := { r.causes with media := r.causes.media || !l.isEmpty } } s := by
  cases l with
  | nil =>
    rw [handMedia_nil]
    simp only [List.isEmpty_nil, Bool.not_true, Bool.or_false]
    exact (putBand_self h).symm
  | cons o l =>
    rw [handMedia_eq _ (List.cons_ne_nil o l), withFinding_of h (by rw [hd]; nofun) (by rw [hd]; nofun), raiseCause_draining h hd]
    simp only [List.isEmpty_cons, Bool.not_false, Bool.or_true]
    rfl

theorem handBreak_draining (h : band? s b = some r) (hd : r.state = .draining) (o : Option Nat) :
    handBreak b r.stamp o s =
      noticeIf o.isSome .breakFound b
        (putBand b { r with causes := { r.causes with brk := r.causes.brk || o.isSome }, breakOffset := r.breakOffset.or o } s) := by
  cases o with
  | none =>
    simp only [Option.isSome_none, Bool.or_false, Option.or_none]
    exact (putBand_self h).symm
  | some o =>
    have hadd : raiseCause b .brk s = putBand b { r with causes := r.causes.add .brk } s := raiseCause_draining h hd .brk
    have hrecorded : (r.breakOffset.or (some o)) = some (r.breakOffset.getD o) := by cases r.breakOffset <;> rfl
    rw [handBreak]
    dsimp only
    rw [withFinding_of h (by rw [hd]; nofun) (by rw [hd]; nofun), hadd, recordBreak, updBand_eq_putBand (band?_putBand h _), putBand_putBand,
      hrecorded]
    simp only [Option.isSome_some, Bool.or_true]
    rfl

/-! ### The abandoned victim -/

/-- The victim's record as an abandonment leaves it, with the scan's findings (R35, R143, R144). -/
def Band.abandoned (c : Scan) (r : Band) : Band :=
  { r with
    state := .filled
    causes := { r.causes with brk := r.causes.brk || c.firstBreak.isSome, media := r.causes.media || !c.runUnreadable.isEmpty }
    breakOffset := r.breakOffset.or c.firstBreak }

theorem band?_noticeIf (c : Bool) (k : NoticeKind) (n m : Nat) : band? (noticeIf c k n s) m = band? s m := by
  rw [noticeIf]
  split <;> rfl

/-- The findings handed to the victim at its abandonment. -/
theorem handed_draining (h : band? s b = some r) (hd : r.state = .draining) (c : Scan) :
    handBreak b r.stamp c.firstBreak (handMedia b r.stamp c.runUnreadable s) =
      noticeIf c.firstBreak.isSome .breakFound b (putBand b { r.abandoned c with state := .draining } s) := by
  have hmedia := handMedia_draining h hd c.runUnreadable
  have hband := band?_putBand h { r with causes := { r.causes with media := r.causes.media || !c.runUnreadable.isEmpty } }
  rw [hmedia, ← hd]
  exact (handBreak_draining hband hd c.firstBreak).trans (by rw [putBand_putBand]; rfl)

theorem abandonBand_eq (h : band? s b = some r) (hnot : b ∉ s.table.due) :
    abandonBand b s =
      if r.causes.any then dueWith b { r with state := .filled } s else choiceDue (putBand b { r with state := .filled } s) := by
  have hband : band? (choiceDue (putBand b { r with state := .filled } s)) b = some { r with state := .filled } :=
    band?_putBand h { r with state := .filled }
  rw [abandonBand, updBand_eq_putBand h, hband]
  dsimp only
  refine if_congr Iff.rfl ?_ rfl
  exact if_neg hnot

/-- The notice list of a port after the abandonment (R143, R144). -/
def abandonNotices (b : Nat) (brk due : Bool) (l : List Notice) : List Notice :=
  let l := if brk then takeNotice .breakFound (some b) l else l
  let l := if due then takeNotice .bandDue (some b) l else l
  takeNotice .mapFull none l

theorem abandonVictim_eq {c : Scan} (hv : s.engine.victim = some b) (hc : s.engine.scan = some c) (h : band? s b = some r)
    (hd : r.state = .draining) (hst : r.stamp = c.stamp) (hnot : b ∉ s.table.due) :
    abandonVictim s =
      { s with
        links := (abandonVictim s).links
        table :=
          { s.table with
            bands := s.table.bands.set b (r.abandoned c)
            due := if (r.abandoned c).causes.any then s.table.due ++ [b] else s.table.due }
        engine :=
          { s.engine with
            activity := .idle, victim := none, reason := none, scan := none, chunk := none, recoveryWait := true }
        agenda := { s.agenda with choice := true } } ∧
    ∀ p, (abandonVictim s).link p =
      { s.link p with notices := abandonNotices b c.firstBreak.isSome (r.abandoned c).causes.any (s.link p).notices } := by
  have hhanded := handed_draining h hd c
  have hband : band? (noticeIf c.firstBreak.isSome .breakFound b (putBand b { r.abandoned c with state := .draining } s)) b =
      some { r.abandoned c with state := .draining } := by
    rw [band?_noticeIf, band?_putBand h]
  have hnot' : b ∉ (noticeIf c.firstBreak.isSome .breakFound b (putBand b { r.abandoned c with state := .draining } s)).table.due := by
    rw [noticeIf]
    split <;> exact hnot
  have hback := abandonBand_eq hband hnot'
  have habandon : abandonVictim s =
      updEngine (fun x => { x with recoveryWait := true }) (engineIdle (placeNotice .mapFull none
        (abandonBand b (noticeIf c.firstBreak.isSome .breakFound b (putBand b { r.abandoned c with state := .draining } s))))) := by
    rw [abandonVictim, hv, hc]
    dsimp only
    rw [← hst, hhanded]
  have hany : ({ r.abandoned c with state := .draining } : Band).causes.any = (r.abandoned c).causes.any := rfl
  rw [habandon, hback, hany, noticeIf]
  cases c.firstBreak.isSome <;> cases (r.abandoned c).causes.any <;>
    refine ⟨by simp [putBand, dueWith, choiceDue, placeNotice, updEngine, engineIdle]; rfl, fun p => by cases p <;> rfl⟩

/-! ### What handing a finding leaves unchanged -/

theorem causeFrame_handMedia (stamp : Nat) (l : List Nat) (s : State) : CauseFrame s (handMedia b stamp l s) := by
  rw [handMedia]
  split
  · exact .refl s
  · rw [withFinding]
    split
    · exact .refl s
    · split
      · exact causeFrame_raiseCause s b .media
      · exact .refl s

theorem causeFrame_handBreak (stamp : Nat) (o : Option Nat) (s : State) : CauseFrame s (handBreak b stamp o s) := by
  cases o with
  | none => exact .refl s
  | some o =>
    rw [handBreak, withFinding]
    split
    · exact .refl s
    · split
      · exact (causeFrame_raiseCause s b .brk).trans
          ((onlyBands_recordBreak _ b _).trans (onlyBands_placeNotice _ .breakFound (some b))).causeFrame
      · exact .refl s

theorem CauseFrame.engine {t : State} (h : CauseFrame s t) : t.engine = s.engine := by rw [h.eq]

theorem CauseFrame.startup {t : State} (h : CauseFrame s t) : t.startup = s.startup := by rw [h.eq]

theorem engine_handBreak (stamp : Nat) (o : Option Nat) (s : State) : (handBreak b stamp o s).engine = s.engine :=
  (causeFrame_handBreak stamp o s).engine

theorem engine_handMedia (stamp : Nat) (l : List Nat) (s : State) : (handMedia b stamp l s).engine = s.engine :=
  (causeFrame_handMedia stamp l s).engine

/-! ### The activity after a choice that takes no victim -/

theorem activity_retakeVerify (s : State) : (retakeVerify s).engine.activity = s.engine.activity := by
  rw [retakeVerify]
  split
  · rfl
  · split
    · split <;> rfl
    · rfl

theorem engine_respond (q : Requester) (st : Status) (x : Body) (d : List Block) (s : State) : (respond q st x d s).engine = s.engine := by
  rw [respond_eq]

theorem activity_answerVerify (x : VerifyOutcome) (st : Nat) (brk : Option Nat) (n : Nat) (s : State) :
    (answerVerify x st brk n s).engine.activity = .idle := by
  rw [answerVerify]
  split
  · rfl
  · dsimp only
    rw [activity_retakeVerify, engine_respond]
    rfl

theorem activity_endScan {c : Scan} (hc : s.engine.scan = some c) (whole : Bool) : (endScan whole s).engine.activity = .idle := by
  rw [endScan, hc]
  dsimp only
  split
  · exact activity_answerVerify ..
  · rfl

theorem activity_beginScan (n : Nat) {a : Activity} (ha : a ≠ .drain) (hs : s.engine.activity ≠ .drain) :
    (beginScan n a s).engine.activity ≠ .drain := by
  rw [beginScan]
  split
  · exact hs
  · dsimp only
    split
    · rw [activity_endScan (c := newScan _ none _) (by rfl)]
      exact Activity.noConfusion
    · exact ha

theorem activity_beginVerify (hs : s.engine.activity ≠ .drain) : (beginVerify s).engine.activity ≠ .drain := by
  rw [beginVerify]
  split
  · exact Activity.noConfusion
  · split
    · rw [activity_answerVerify]; exact Activity.noConfusion
    · split
      · rw [activity_answerVerify]; exact Activity.noConfusion
      · exact activity_beginScan _ Activity.noConfusion hs

theorem dueVictim_waiting (h : s.engine.recoveryWait = true) : dueVictim s = none := if_pos h

theorem cleaningVictim_waiting (h : s.engine.recoveryWait = true) : cleaningVictim s = none := if_pos (by rw [h]; rfl)

/-- While the recovery wait is set the choice takes no victim (R134, R144). -/
theorem activity_chooseWork_waiting (h : s.engine.recoveryWait = true) (hs : s.engine.activity ≠ .drain) :
    (chooseWork s).engine.activity ≠ .drain := by
  rw [chooseWork, dueVictim_waiting h, cleaningVictim_waiting h, if_pos h]
  dsimp only
  split
  · split
    · exact activity_beginVerify hs
    · split
      · split
        · exact activity_beginScan _ Activity.noConfusion hs
        · exact hs
      · exact hs
  · exact hs

end

/-- Settles O46: the record of the abandoned victim, and the bar of the recovery wait. -/
theorem abandonedVictimGoesBack : Obligations.AbandonedVictimGoesBack := by
  refine ⟨fun s b c r hv hc h hd hst hnot => ?_, fun s h => ⟨dueVictim_waiting h, cleaningVictim_waiting h, activity_chooseWork_waiting h, fun m => ?_⟩⟩
  · exact ⟨_, rfl, abandonVictim_eq hv hc h hd hst hnot⟩
  · rw [setRecords, mapChanged_due]
    have hfree : freeRecords { s with map := { s.map with records := m } } = 1048576 - (m.length + if s.map.held then 1 else 0) := rfl
    rw [hfree]
    by_cases hlow : 64 ≤ 1048576 - (m.length + if s.map.held then 1 else 0)
    · rw [if_pos ⟨h, hlow⟩]
      exact ⟨fun hf => absurd hf Bool.false_ne_true, fun hl => absurd hlow (Nat.not_le.mpr hl)⟩
    · rw [if_neg fun hb => hlow hb.2]
      exact ⟨fun _ => Nat.lt_of_not_le hlow, fun _ => h⟩

end Sys2Proof.Machine
end

section
/-! PROOFS. The choice of R134, the victim's first chunk, and the patrol: reads, findings and the pointer (R17, R34, R37, R38, R40, R132, R134,
R137, R147, R148). -/

namespace Sys2Proof.Machine
open Sys2Proof.Safety

/-! ### The reads of a scan -/

theorem splitReads_eq (first count : Nat) :
    splitReads first count =
      (List.range ((count + 1023) / 1024)).map fun i => (first + 1024 * i, min 1024 (count - 1024 * i)) := rfl

theorem splitReads_bounds {first count : Nat} {x : Nat × Nat} (h : x ∈ splitReads first count) : 1 ≤ x.2 ∧ x.2 ≤ 1024 := by
  rw [splitReads_eq] at h
  obtain ⟨i, hi, rfl⟩ := List.mem_map.mp h
  rw [List.mem_range] at hi
  dsimp only
  omega

/-- The runs of n whole parts of 1,024 sectors cover their offsets. -/
theorem flatMap_range'_whole (first n : Nat) :
    ((List.range n).map fun i => (first + 1024 * i, 1024)).flatMap (fun x => List.range' x.1 x.2) = List.range' first (1024 * n) := by
  induction n with
  | zero => rfl
  | succ n ih =>
    rw [List.range_succ, List.map_append, List.flatMap_append, ih, Nat.mul_succ, ← List.range'_append_1]
    simp

/-- The reads are whole parts of 1,024 sectors, and a rest. -/
theorem splitReads_parts (first count : Nat) :
    splitReads first count =
      ((List.range (count / 1024)).map fun i => (first + 1024 * i, 1024)) ++
        if count % 1024 = 0 then [] else [(first + 1024 * (count / 1024), count % 1024)] := by
  have hwhole : ∀ i ∈ List.range (count / 1024), (first + 1024 * i, min 1024 (count - 1024 * i)) = (first + 1024 * i, 1024) := by
    intro i hi
    rw [List.mem_range] at hi
    rw [min_eq_left (by omega)]
  rw [splitReads_eq]
  by_cases hm : count % 1024 = 0
  · rw [if_pos hm, List.append_nil, show (count + 1023) / 1024 = count / 1024 by omega]
    exact List.map_congr_left hwhole
  · rw [if_neg hm, show (count + 1023) / 1024 = count / 1024 + 1 by omega, List.range_succ, List.map_append,
      List.map_congr_left hwhole, List.map_singleton, show min 1024 (count - 1024 * (count / 1024)) = count % 1024 by omega]

theorem flatMap_splitReads (first count : Nat) :
    (splitReads first count).flatMap (fun x => List.range' x.1 x.2) = List.range' first count := by
  have hcount : count = 1024 * (count / 1024) + count % 1024 := (Nat.div_add_mod count 1024).symm
  rw [splitReads_parts, List.flatMap_append, flatMap_range'_whole]
  split
  · next hm =>
    rw [List.flatMap_nil, List.append_nil]
    congr 1
    omega
  · rw [List.flatMap_singleton]
    conv => rhs; rw [hcount, ← List.range'_append_1]

theorem patrolReads_bounds {s : State} {r : Band} {x : Nat × Nat} (h : x ∈ patrolReads s r) : 1 ≤ x.2 ∧ x.2 ≤ 1024 := by
  rw [patrolReads, List.mem_append] at h
  rcases h with h | h
  · exact splitReads_bounds h
  · split at h
    · exact splitReads_bounds h
    · cases h

theorem flatMap_patrolReads (s : State) (r : Band) :
    (patrolReads s r).flatMap (fun x => List.range' x.1 x.2) =
      List.range r.wp ++ if r.summaryPresent then List.range' (bandC s r - 4) 4 else [] := by
  rw [patrolReads, List.flatMap_append, flatMap_splitReads, List.range_eq_range']
  split
  · rw [flatMap_splitReads]
  · rfl

theorem patrolReads_ne_nil {s : State} {r : Band} (h : 1 ≤ r.wp) : patrolReads s r ≠ [] := by
  intro hnil
  have hall := flatMap_patrolReads s r
  rw [hnil, List.flatMap_nil] at hall
  have hlength := congrArg List.length hall
  rw [List.length_append, List.length_range] at hlength
  exact absurd hlength (by rw [List.length_nil]; omega)

/-! ### Findings, the engine's record and the number of bands -/

section
variable {s : State} {b : Nat}

theorem joinDue_engine (e : Engine) : joinDue b { s with engine := e } = { joinDue b s with engine := e } := by
  rw [joinDue, joinDue]
  by_cases h : b ∈ s.table.due
  · rw [if_pos h, if_pos h]
  · rw [if_neg h, if_neg h]
    rfl

theorem finishBand_engine (e : Engine) : finishBand b { s with engine := e } = { finishBand b s with engine := e } := by
  rw [finishBand, finishBand]
  have hflight : writeInFlight b { s with engine := e } = writeInFlight b s := rfl
  rw [hflight]
  split
  · have hband : (band? { s with engine := e } b).bind (·.owner) = (band? s b).bind (·.owner) := rfl
    rw [hband]
    split
    · rfl
    · next i _ => cases i <;> rfl
  · rfl

theorem raiseCause_engine (c : Cause) (e : Engine) :
    raiseCause b c { s with engine := e } = { raiseCause b c s with engine := e } := by
  have hadd : updBand b (fun x => { x with causes := x.causes.add c }) { s with engine := e } =
      { updBand b (fun x => { x with causes := x.causes.add c }) s with engine := e } := rfl
  have hband : band? { s with engine := e } b = band? s b := rfl
  rw [raiseCause, raiseCause, hband]
  cases band? s b with
  | none => rfl
  | some r =>
    dsimp only
    cases r.state with
    | empty => rfl
    | retired => rfl
    | opened =>
      dsimp only
      rw [hadd, joinDue_engine, finishBand_engine]
    | closing => exact (congrArg (joinDue b) hadd).trans (joinDue_engine e)
    | filled => exact (congrArg (joinDue b) hadd).trans (joinDue_engine e)
    | draining => exact hadd

theorem handBreak_engine (stamp : Nat) (o : Option Nat) (e : Engine) :
    handBreak b stamp o { s with engine := e } = { handBreak b stamp o s with engine := e } := by
  cases o with
  | none => rfl
  | some o =>
    have hband : band? { s with engine := e } b = band? s b := rfl
    rw [handBreak, handBreak, withFinding, withFinding, hband]
    cases band? s b with
    | none => rfl
    | some r =>
      dsimp only
      split
      · rw [raiseCause_engine]
        rfl
      · rfl

theorem bandCount_updBand (f : Band → Band) (s : State) : bandCount (updBand b f s) = bandCount s := List.length_modify ..

theorem bandCount_joinDue (s : State) : bandCount (joinDue b s) = bandCount s := by
  rw [joinDue]
  split <;> rfl

theorem bandCount_finishBand (s : State) : bandCount (finishBand b s) = bandCount s := by
  rw [finishBand]
  split
  · split
    · rfl
    · next i _ => cases i <;> rfl
  · exact bandCount_updBand ..

theorem bandCount_raiseCause (c : Cause) (s : State) : bandCount (raiseCause b c s) = bandCount s := by
  rw [raiseCause]
  split
  · rfl
  · next r _ =>
    dsimp only
    cases r.state with
    | empty => rfl
    | retired => rfl
    | opened => rw [bandCount_finishBand, bandCount_joinDue, bandCount_updBand]
    | closing => rw [bandCount_joinDue, bandCount_updBand]
    | filled => rw [bandCount_joinDue, bandCount_updBand]
    | draining => exact bandCount_updBand ..

theorem bandCount_handMedia (stamp : Nat) (l : List Nat) (s : State) : bandCount (handMedia b stamp l s) = bandCount s := by
  rw [handMedia]
  split
  · rfl
  · rw [withFinding]
    split
    · rfl
    · split
      · exact bandCount_raiseCause ..
      · rfl

theorem bandCount_handBreak (stamp : Nat) (o : Option Nat) (s : State) : bandCount (handBreak b stamp o s) = bandCount s := by
  cases o with
  | none => rfl
  | some o =>
    rw [handBreak, withFinding]
    split
    · rfl
    · split
      · exact (bandCount_updBand ..).trans (bandCount_raiseCause ..)
      · rfl

/-! ### The end of a scan's read run -/

variable {c : Scan}

/-- A scan after one of its read runs has ended (R147). -/
def Scan.readEnded (c : Scan) : Scan := { c with reads := c.reads.tail, readDone := 0, runUnreadable := [] }

/-- The state after a read run of a scan has ended and its unreadable offsets have been handed (R148). -/
def scanReadEnded (c : Scan) (s : State) : State :=
  let t := handMedia c.band c.stamp c.runUnreadable s
  { t with engine := { t.engine with scan := some c.readEnded } }

theorem endScanRead_running (hc : s.engine.scan = some c) (hrun : s.startup.engine = .running) :
    endScanRead s =
      if c.reads.tail.isEmpty then endScan true (scanReadEnded c s) else offer (scanReadEnded c s) := by
  have hstate : updScan (fun y => { y with reads := y.reads.tail, readDone := 0, runUnreadable := [] })
      (handMedia c.band c.stamp c.runUnreadable s) = scanReadEnded c s := by
    rw [updScan, updEngine, engine_handMedia, hc, scanReadEnded, engine_handMedia]
    rfl
  have hrunning : running (scanReadEnded c s) = true := by
    have : (scanReadEnded c s).startup = s.startup := (causeFrame_handMedia ..).startup
    rw [running, this, hrun]
    rfl
  rw [endScanRead, hc]
  dsimp only
  rw [hstate, hrunning]
  rfl

/-- The patrol pointer after a patrol of band b (R147). -/
def pointerAfter (b : Nat) (s : State) : Nat := if b + 1 = s.table.bands.length then 0 else b + 1

theorem endScan_patrol (hc : s.engine.scan = some c) (hact : s.engine.activity = .patrol) :
    endScan true s =
      choiceDue
        { handBreak c.band c.stamp c.firstBreak s with
          engine :=
            { s.engine with
              activity := .idle, victim := none, reason := none, scan := none, chunk := none
              patrolPointer := pointerAfter c.band s } } := by
  have hpointer : (if c.band + 1 = bandCount (handBreak c.band c.stamp c.firstBreak s) then 0 else c.band + 1) = pointerAfter c.band s := by
    rw [bandCount_handBreak]
    rfl
  rw [endScan, hc]
  dsimp only
  rw [engine_handBreak, hact]
  dsimp only
  rw [if_pos rfl, hpointer, engineIdle, updEngine, updEngine, engine_handBreak]

/-- The last read run of a patrol has ended: the first break is handed and the pointer moves on (R147, R148). -/
theorem endScan_scanReadEnded (hact : s.engine.activity = .patrol) :
    endScan true (scanReadEnded c s) =
      (let u := handBreak c.band c.stamp c.firstBreak (handMedia c.band c.stamp c.runUnreadable s)
      choiceDue
        { u with
          engine :=
            { s.engine with
              activity := .idle, victim := none, reason := none, scan := none, chunk := none
              patrolPointer := pointerAfter c.band s } }) := by
  have hengine : (scanReadEnded c s).engine = { s.engine with scan := some c.readEnded } := by
    rw [scanReadEnded]
    dsimp only
    rw [engine_handMedia]
  have hpointer : pointerAfter c.band (scanReadEnded c s) = pointerAfter c.band s :=
    if_congr (by rw [show (scanReadEnded c s).table.bands.length = _ from bandCount_handMedia ..]; rfl) rfl rfl
  have hend := endScan_patrol (s := scanReadEnded c s) (c := c.readEnded) rfl (by rw [hengine]; exact hact)
  refine hend.trans ?_
  rw [hengine, show c.readEnded.band = c.band from rfl, hpointer]
  have hbreak : handBreak c.band c.stamp c.firstBreak (scanReadEnded c s) =
      { handBreak c.band c.stamp c.firstBreak (handMedia c.band c.stamp c.runUnreadable s) with engine := (scanReadEnded c s).engine } :=
    handBreak_engine ..
  rw [show handBreak c.band c.readEnded.stamp c.readEnded.firstBreak (scanReadEnded c s) = _ from hbreak]

/-! ### Findings of a FILLED band -/

variable {r : Band}

theorem band?_dueWith (h : band? s b = some r) (x : Band) : band? (dueWith b x s) b = some x := band?_putBand h x

theorem handMedia_filled (h : band? s b = some r) (hf : r.state = .filled) (hnot : b ∉ s.table.due) {l : List Nat} (hl : l ≠ []) :
    handMedia b r.stamp l s = dueWith b { r with causes := { r.causes with media := true } } s := by
  rw [handMedia_eq _ hl, withFinding_of h (by rw [hf]; nofun) (by rw [hf]; nofun), raiseCause_filled h hf hnot]
  rfl

theorem handBreak_filled (h : band? s b = some r) (hf : r.state = .filled) (hnot : b ∉ s.table.due) (o : Nat) :
    handBreak b r.stamp (some o) s =
      placeNotice .breakFound (some b)
        (putBand b { r with causes := { r.causes with brk := true }, breakOffset := some (r.breakOffset.getD o) }
          (dueWith b { r with causes := { r.causes with brk := true } } s)) := by
  have hraise : raiseCause b .brk s = dueWith b { r with causes := { r.causes with brk := true } } s := raiseCause_filled h hf hnot .brk
  rw [handBreak, withFinding_of h (by rw [hf]; nofun) (by rw [hf]; nofun), hraise, recordBreak, updBand_eq_putBand (band?_dueWith h _)]

theorem link_dueWith (x : Band) (p : Port) :
    (dueWith b x s).link p = { s.link p with notices := takeNotice .bandDue (some b) (s.link p).notices } :=
  link_placeNotice ..

/-! ### The choice -/

theorem dueVictim_nil (h : s.table.due = []) : dueVictim s = none := by
  rw [dueVictim, h]
  exact ite_self _

/-- The choice is made: RUNNING, and the engine IDLE (R134). -/
theorem choosing_of (hact : s.engine.activity = .idle) (hrun : s.startup.engine = .running) :
    (s.engine.activity == .idle && running s) = true := by
  rw [hact, running, hrun]
  rfl

theorem chooseWork_due (hch : (s.engine.activity == .idle && running s) = true) (hd : dueVictim s = some b) :
    chooseWork s = beginVictim b .due s := by
  rw [chooseWork, if_pos hch, hd]

theorem chooseWork_cleaning (hch : (s.engine.activity == .idle && running s) = true) (hd : dueVictim s = none)
    (hc : cleaningVictim s = some b) : chooseWork s = beginVictim b .cleaning s := by
  rw [chooseWork, if_pos hch, hd, hc]

section
variable (hch : (s.engine.activity == .idle && running s) = true) (hd : dueVictim s = none) (hc : cleaningVictim s = none)
include hch hd hc

theorem chooseWork_verify (hq : s.engine.verifyQueue ≠ []) : chooseWork s = beginVerify s := by
  rw [chooseWork, if_pos hch, hd, hc]
  exact if_pos (by simpa using hq)

theorem chooseWork_none (hq : s.engine.verifyQueue = []) (hno : s.engine.idleFlag = false ∨ s.table.due ≠ []) : chooseWork s = s := by
  have hidle : (s.engine.idleFlag && s.table.due.isEmpty) = false := by
    rcases hno with h | h
    · rw [h]; rfl
    · rw [List.isEmpty_eq_false_iff.mpr h, Bool.and_false]
  rw [chooseWork, if_pos hch, hd, hc, hq, hidle]
  rfl

variable (hq : s.engine.verifyQueue = []) (hidle : s.engine.idleFlag = true) (hdue : s.table.due = [])
include hq hidle hdue

theorem chooseWork_pullIn (hwait : s.engine.recoveryWait = false) (hp : pullInTest s = some b) : chooseWork s = beginVictim b .pullIn s := by
  rw [chooseWork, if_pos hch, hd, hc, hq, hidle, hdue, hwait]
  simp only [List.isEmpty_nil, Bool.not_true, Bool.and_self, Bool.false_eq_true, if_false, if_true, hp]

variable (hpull : (if s.engine.recoveryWait then none else pullInTest s) = none)
include hpull

theorem chooseWork_patrol (hp : patrolBand s = some b) : chooseWork s = beginScan b .patrol s := by
  rw [chooseWork, if_pos hch, hd, hc, hq, hidle, hdue]
  simp only [List.isEmpty_nil, Bool.not_true, Bool.and_self, Bool.false_eq_true, if_false, if_true, hpull, hp]

theorem chooseWork_no_patrol (hp : patrolBand s = none) : chooseWork s = s := by
  rw [chooseWork, if_pos hch, hd, hc, hq, hidle, hdue]
  simp only [List.isEmpty_nil, Bool.not_true, Bool.and_self, Bool.false_eq_true, if_false, if_true, hpull, hp]

end

theorem pullIn_none (h : s.engine.recoveryWait = true ∨ pullInTest s = none) :
    (if s.engine.recoveryWait then none else pullInTest s) = none := by
  rcases h with h | h
  · rw [h]; rfl
  · rw [h, ite_self]

/-! ### The band of a patrol -/

/-- A patrol scans bands of state OPEN, CLOSING and FILLED (R147). -/
theorem scanned_eq (n : Nat) :
    ((band? s n).any fun r => r.state == .opened || r.state == .closing || r.state == .filled) =
      (band? s n).any fun r => r.state = .opened ∨ r.state = .closing ∨ r.state = .filled := by
  congr 1
  funext r
  cases r.state <;> rfl

theorem patrolBand_eq (hlt : s.engine.patrolPointer < s.table.bands.length) :
    patrolBand s =
      ((List.range s.table.bands.length).find? fun i =>
        (band? s ((s.engine.patrolPointer + i) % s.table.bands.length)).any fun r =>
          r.state = .opened ∨ r.state = .closing ∨ r.state = .filled).map
        fun i => (s.engine.patrolPointer + i) % s.table.bands.length := by
  have hstart : (if bandCount s ≤ s.engine.patrolPointer then 0 else s.engine.patrolPointer) = s.engine.patrolPointer :=
    if_neg (Nat.not_le.mpr hlt)
  rw [patrolBand, hstart, List.find?_map]
  congr 2
  funext i
  exact scanned_eq _

theorem beginScan_patrol (h : band? s b = some r) (hwp : 1 ≤ r.wp) :
    beginScan b .patrol s =
      offer { s with engine := { s.engine with activity := .patrol, scan := some (newScan r none (patrolReads s r)) } } := by
  have hreads : (patrolReads s r).isEmpty = false := by simpa using patrolReads_ne_nil hwp
  rw [beginScan, h]
  dsimp only
  rw [hreads]
  rfl

end

/-- Settles O48: the choice of a band, the end of a read run, and the findings by the band's state. -/
theorem patrolScanHandsFindings : Obligations.PatrolScanHandsFindings := by
  refine ⟨fun s hact hrun hidle hdue hclean hq hpull hlt => ?_, fun s c hc hrun hact => ?_, fun s b stamp r h => ?_⟩
  · intro scanned
    have hexec : exec .chooseNextWork s = .next (settle (chooseWork s)) := rfl
    have hch := choosing_of hact hrun
    have hband := patrolBand_eq hlt
    rw [hexec]
    refine ⟨fun hnone => ?_, fun i b r hi hscan hfirst hb h hwp => ⟨patrolReads s r, ?_, fun x => patrolReads_bounds, flatMap_patrolReads s r⟩⟩
    · rw [chooseWork_no_patrol hch (dueVictim_nil hdue) hclean hq hidle hdue (pullIn_none hpull)]
      rw [hband, Option.map_eq_none_iff, List.find?_eq_none]
      intro i hi hscan
      exact absurd (hnone i (List.mem_range.mp hi)) (by rw [show scanned i = true from hscan]; decide)
    · rw [chooseWork_patrol hch (dueVictim_nil hdue) hclean hq hidle hdue (pullIn_none hpull) (b := b), beginScan_patrol h hwp]
      · rfl
      · rw [hband, hb, List.find?_range_eq_some.mpr ⟨hscan, List.mem_range.mpr hi, fun j hj => ?_⟩]
        · rfl
        · exact (congrArg (!·) (hfirst j hj)).trans rfl
  · intro t
    refine ⟨fun hmore => ?_, fun hlast => ?_⟩
    · rw [endScanRead_running hc hrun, if_neg (by simpa using hmore)]
      rfl
    · rw [endScanRead_running hc hrun, if_pos (by simpa using hlast)]
      exact endScan_scanReadEnded hact
  · refine ⟨fun hno => ⟨fun l => ?_, fun o => ?_⟩, rfl, rfl, fun hf hst hnot => ?_⟩
    · cases l with
      | nil => rfl
      | cons o l => rw [handMedia_eq _ (List.cons_ne_nil o l), withFinding_discarded h hno]
    · cases o with
      | none => rfl
      | some o => rw [handBreak, withFinding_discarded h hno]
    · subst hst
      refine ⟨fun l hl => ?_, fun o => ?_⟩
      · rw [handMedia_filled h hf hnot hl]
        exact ⟨rfl, link_dueWith _⟩
      · rw [handBreak_filled h hf hnot]
        refine ⟨?_, fun p => ?_⟩
        · simp only [placeNotice, putBand, dueWith, choiceDue, List.set_set]
        · rw [link_placeNotice]
          exact congrArg (fun l : Link => { l with notices := takeNotice .breakFound (some b) l.notices }) (link_dueWith _ p)

end Sys2Proof.Machine
end

section
/-! PROOFS. The victims that the choice of R134 takes (R28, R34, R132, R134, R137, R145). -/

namespace Sys2Proof.Machine
open Sys2Proof.Safety

/-! ### The least and the most of a list -/

theorem mem_of_leastLive {l : List Band} {x : Band} (h : leastLive l = some x) : x ∈ l := by
  induction l generalizing x with
  | nil => cases h
  | cons a l ih =>
    rw [leastLive] at h
    cases hl : leastLive l with
    | none =>
      rw [hl] at h
      cases h
      exact List.mem_cons_self
    | some y =>
      rw [hl] at h
      dsimp only at h
      split at h
      · cases h
        exact List.mem_cons_of_mem _ (ih hl)
      · cases h
        exact List.mem_cons_self

theorem leastLive_append {pre post : List Band} {r : Band} (hpre : ∀ x ∈ pre, r.live + r.notes < x.live + x.notes)
    (hpost : ∀ x ∈ post, r.live + r.notes ≤ x.live + x.notes) : leastLive (pre ++ r :: post) = some r := by
  induction pre with
  | nil =>
    rw [List.nil_append, leastLive]
    cases hl : leastLive post with
    | none => rfl
    | some x => exact if_neg (Nat.not_lt.mpr (hpost x (mem_of_leastLive hl)))
  | cons a pre ih =>
    rw [List.cons_append, leastLive, ih fun x hx => hpre x (List.mem_cons_of_mem _ hx)]
    exact if_pos (hpre a List.mem_cons_self)

theorem mem_of_mostExposed {l : List Band} {x : Band} (h : mostExposed l = some x) : x ∈ l := by
  induction l generalizing x with
  | nil => cases h
  | cons a l ih =>
    rw [mostExposed] at h
    cases hl : mostExposed l with
    | none =>
      rw [hl] at h
      cases h
      exact List.mem_cons_self
    | some y =>
      rw [hl] at h
      dsimp only at h
      split at h
      · cases h
        exact List.mem_cons_of_mem _ (ih hl)
      · cases h
        exact List.mem_cons_self

theorem mostExposed_append {pre post : List Band} {r : Band} (hpre : ∀ x ∈ pre, x.exposure < r.exposure)
    (hpost : ∀ x ∈ post, x.exposure ≤ r.exposure) : mostExposed (pre ++ r :: post) = some r := by
  induction pre with
  | nil =>
    rw [List.nil_append, mostExposed]
    cases hl : mostExposed post with
    | none => rfl
    | some x => exact if_neg (Nat.not_lt.mpr (hpost x (mem_of_mostExposed hl)))
  | cons a pre ih =>
    rw [List.cons_append, mostExposed, ih fun x hx => hpre x (List.mem_cons_of_mem _ hx)]
    exact if_pos (hpre a List.mem_cons_self)

/-- A filter over a list around an element that it keeps. -/
theorem filter_around {p : Band → Bool} {r : Band} (hr : p r = true) (pre post : List Band) :
    (pre ++ r :: post).filter p = pre.filter p ++ r :: post.filter p := by
  rw [List.filter_append, List.filter_cons_of_pos hr]

/-! ### A band becomes the victim -/

section
variable {s : State} {b : Nat} {r : Band}

/-- The state in which a band has become the victim, its first chunk not yet made (R34, R134, R137). -/
def victimTaken (b : Nat) (r : Band) (why : VictimReason) (s : State) : State :=
  { s with
    table := { s.table with bands := s.table.bands.set b { r with state := .draining }, due := s.table.due.erase b }
    engine :=
      { s.engine with
        activity := .drain, victim := some b, reason := some why, chunk := none
        scan := some (newScan { r with state := .draining } (some (bandSeed r.number r.stamp)) []) } }

theorem band?_of_append {pre post : List Band} (h : s.table.bands = pre ++ r :: post) (hn : r.number = pre.length) :
    band? s r.number = some r := by
  rw [band?, h, hn]
  simp

theorem beginVictim_eq (h : band? s b = some r) (hrun : s.startup.engine = .running) (why : VictimReason) :
    beginVictim b why s =
      if r.wp ≤ 1 then endDrain b (engineIdle (victimTaken b r why s)) else makeChunk 1 r.wp (victimTaken b r why s) := by
  have htaken : beginVictim b why s = advanceDrain (victimTaken b r why s) := by
    have hdrain : drainBand b s =
        { s with table := { s.table with bands := s.table.bands.set b { r with state := .draining }, due := s.table.due.erase b } } := by
      rw [drainBand, updBand_eq_set s h]
      rfl
    rw [beginVictim, h]
    dsimp only
    rw [hdrain]
    rfl
  have hband : band? (victimTaken b r why s) b = some { r with state := .draining } := band?_putBand h _
  rw [htaken, advanceDrain_eq (b := b) (c := newScan { r with state := .draining } _ []) rfl rfl hband hrun]
  rfl

theorem dueVictim_of (hwait : s.engine.recoveryWait = false) :
    dueVictim s = s.table.due.find? fun n => (s.table.bands[n]?.any fun x => x.state = .filled) := by
  rw [dueVictim, hwait]
  rfl

theorem dueVictim_none
    (h : s.engine.recoveryWait = true ∨ (s.table.due.find? fun n => (s.table.bands[n]?.any fun x => x.state = .filled)) = none) :
    dueVictim s = none := by
  cases hwait : s.engine.recoveryWait with
  | true => exact dueVictim_waiting hwait
  | false =>
    rcases h with h | h
    · rw [hwait] at h; cases h
    · rw [dueVictim_of hwait, h]

/-- A band that the cleaning choice may take (R28, R134). -/
abbrev Band.cleanable (r : Band) : Prop := r.state = .filled ∧ (1 ≤ r.wp - 1 - r.live - r.notes ∨ r.live = 0)

theorem cleanable_iff (r : Band) : (r.state == .filled && (decide (0 < r.dead) || r.live == 0)) = true ↔ r.cleanable := by
  rw [Bool.and_eq_true, Bool.or_eq_true, beq_iff_eq, beq_iff_eq, decide_eq_true_iff]
  rfl

theorem cleaningVictim_some {pre post : List Band} (hwait : s.engine.recoveryWait = false) (hlow : freeBands s ≤ s.startup.image.lowMark)
    (hbands : s.table.bands = pre ++ r :: post) (hr : r.cleanable)
    (hpre : ∀ x ∈ pre, x.cleanable → r.live + r.notes < x.live + x.notes)
    (hpost : ∀ x ∈ post, x.cleanable → r.live + r.notes ≤ x.live + x.notes) : cleaningVictim s = some r.number := by
  have hchoice : (s.engine.recoveryWait || decide (s.startup.image.lowMark < freeBands s)) = false := by
    rw [hwait, decide_eq_false (Nat.not_lt.mpr hlow)]
    rfl
  rw [cleaningVictim, hchoice, hbands, filter_around ((cleanable_iff r).mpr hr), leastLive_append]
  · rfl
  · intro x hx
    obtain ⟨hmem, hp⟩ := List.mem_filter.mp hx
    exact hpre x hmem ((cleanable_iff x).mp hp)
  · intro x hx
    obtain ⟨hmem, hp⟩ := List.mem_filter.mp hx
    exact hpost x hmem ((cleanable_iff x).mp hp)

theorem cleaningVictim_none
    (h : s.engine.recoveryWait = true ∨ s.startup.image.lowMark < freeBands s ∨ ∀ r ∈ s.table.bands, ¬r.cleanable) :
    cleaningVictim s = none := by
  rw [cleaningVictim]
  split
  · rfl
  · next hchoice =>
    rw [Bool.or_eq_true, decide_eq_true_iff, not_or] at hchoice
    obtain ⟨hwait, hlow⟩ := hchoice
    have hno : s.table.bands.filter (fun r => r.state == .filled && (decide (0 < r.dead) || r.live == 0)) = [] := by
      rcases h with h | h | h
      · exact absurd h hwait
      · exact absurd h hlow
      · exact List.filter_eq_nil_iff.mpr fun r hr hp => h r hr ((cleanable_iff r).mp hp)
    rw [hno]
    rfl

/-- A band that the pull-in test may name (R132). -/
abbrev pullable (s : State) (r : Band) : Prop :=
  r.state = .filled ∧ coldMasked s r.number = false ∧ 3 * s.startup.image.threshold / 4 ≤ r.exposure ∧
    r.causes = { exposure := false, brk := false, media := false, retire := false }

theorem causes_any_eq_false (x : Causes) :
    x.any = false ↔ x = { exposure := false, brk := false, media := false, retire := false } := by
  obtain ⟨e, b, m, r⟩ := x
  simp [Causes.any, and_assoc]

theorem pullInCandidate_iff (r : Band) : pullInCandidate s r = true ↔ pullable s r := by
  rw [pullInCandidate, Bool.and_eq_true, Bool.and_eq_true, Bool.and_eq_true, beq_iff_eq, decide_eq_true_iff, Bool.not_eq_true',
    Bool.not_eq_true', causes_any_eq_false, and_assoc, and_assoc]
  rfl

theorem pullInTest_some {pre post : List Band} (hbands : s.table.bands = pre ++ r :: post) (hr : pullable s r)
    (hpre : ∀ x ∈ pre, pullable s x → x.exposure < r.exposure) (hpost : ∀ x ∈ post, pullable s x → x.exposure ≤ r.exposure) :
    pullInTest s = some r.number := by
  rw [pullInTest, hbands, filter_around ((pullInCandidate_iff r).mpr hr), mostExposed_append]
  · rfl
  · intro x hx
    obtain ⟨hmem, hp⟩ := List.mem_filter.mp hx
    exact hpre x hmem ((pullInCandidate_iff x).mp hp)
  · intro x hx
    obtain ⟨hmem, hp⟩ := List.mem_filter.mp hx
    exact hpost x hmem ((pullInCandidate_iff x).mp hp)

end

/-- Settles O43: the choices in their order, each with the victim it takes. -/
theorem choiceTakesFirstAvailable : Obligations.ChoiceTakesFirstAvailable := by
  intro s hact hrun
  have hexec : exec .chooseNextWork s = .next (settle (chooseWork s)) := rfl
  have hch := choosing_of hact hrun
  intro chosen drained due cleanable pullable noDue noCleaning
  have hdrained {b : Nat} {r : Band} (h : band? s b = some r) (why : VictimReason) : beginVictim b why s = drained b r why := by
    rw [beginVictim_eq h hrun]
    dsimp only [drained]
    by_cases hwp : r.wp ≤ 1
    · rw [if_pos hwp, if_neg (by omega)]
      rfl
    · rw [if_neg hwp, if_pos (by omega)]
      rfl
  refine ⟨fun b r hwait hdue h => ?_, fun pre r post hwait hdue hlow hbands hn hr hpre hpost => ?_, fun hdue hclean hq => ?_,
    fun pre r post hwait hclean hq hidle hdue hbands hn hr hpre hpost => ?_, fun hdue hclean hq hno => ?_⟩
  · rw [← hdrained h, ← chooseWork_due hch ((dueVictim_of hwait).trans hdue)]
    rfl
  · rw [← hdrained (band?_of_append hbands hn), ← chooseWork_cleaning hch (dueVictim_none (.inr hdue)) (cleaningVictim_some hwait hlow hbands hr hpre hpost)]
    rfl
  · rw [← chooseWork_verify hch (dueVictim_none hdue) (cleaningVictim_none hclean) hq]
    rfl
  · rw [← hdrained (band?_of_append hbands hn), ← chooseWork_pullIn hch (dueVictim_nil hdue) (cleaningVictim_none hclean) hq hidle hdue hwait
      (pullInTest_some hbands hr hpre hpost)]
    rfl
  · exact congrArg (fun u => Host.Outcome.next (settle u))
      (chooseWork_none hch (dueVictim_none hdue) (cleaningVictim_none hclean) hq hno)

end Sys2Proof.Machine
end

section
/-! PROOFS. VERIFY_BAND: the queue, the scan and its answer (R17, R147 to R149, R163). -/

namespace Sys2Proof.Machine
open Sys2Proof.Safety

section
variable {s : State}

theorem retakeVerify_nil (h : s.engine.verifyHeld = []) : retakeVerify s = s := by rw [retakeVerify, h]

theorem retakeVerify_cons {p : Port} {ps : List Port} {f : RequestFrame} (h : s.engine.verifyHeld = p :: ps)
    (hq : (s.link p).queue.head? = some f) :
    retakeVerify s =
      if s.engine.verifyQueue.length < 4 then
        choiceDue
          { s with
            links := s.links.set p (taken (s.link p))
            engine :=
              { s.engine with
                verifyQueue := s.engine.verifyQueue ++ [{ requester := requesterOf p f, band := f.band.toNat }]
                verifyHeld := ps } }
      else s := by
  rw [retakeVerify, h]
  dsimp only
  rw [hq]
  rfl

/-- The state after the entry of requester q has been answered and has left the queue, which then holds es (R149, R163). -/
def verifyAnswered (q : Requester) (es : List VerifyEntry) (t : State) (x : VerifyOutcome) (stamp : Nat) (brk : Option Nat) (n : Nat) :
    State :=
  choiceDue
    { t with
      links :=
        if q.orphaned = true ∨ (t.link q.port).up = false then t.links
        else t.links.set q.port (answeredLate (t.link q.port) (lateReply t q .done (.verify x stamp brk n) []))
      engine :=
        { t.engine with
          activity := .idle, victim := none, reason := none, scan := none, chunk := none, verifyQueue := es } }

theorem verifyAnswered_engine (q : Requester) (es : List VerifyEntry) (t : State) (g : Engine) (x : VerifyOutcome) (stamp : Nat) (brk : Option Nat) (n : Nat)
    (hg : { g with activity := .idle, victim := none, reason := none, scan := none, chunk := none, verifyQueue := es } =
      { t.engine with activity := .idle, victim := none, reason := none, scan := none, chunk := none, verifyQueue := es }) :
    verifyAnswered q es { t with engine := g } x stamp brk n = verifyAnswered q es t x stamp brk n := by
  rw [verifyAnswered, verifyAnswered, ← hg]
  rfl

/-- The tests before a VERIFY_BAND's next read (R149; assumption 38). -/
theorem testBeforeRead_verify {c : Scan} (hc : s.engine.scan = some c) (hrun : s.startup.engine = .running)
    (hact : s.engine.activity = .verify) (hbegun : c.begun = true) (hdone : c.readDone = 0) (hfree : s.sched.current = none) :
    testBeforeRead s =
      if (band? s c.band).any fun r => r.state != .empty && r.state != .retired && r.stamp == c.stamp then s else endScan false s := by
  have htest : (c.begun && c.readDone == 0 && channelFree s && running s) = true := by
    rw [hbegun, hdone, channelFree_of hfree, running, hrun]
    rfl
  rw [testBeforeRead, hc]
  dsimp only
  rw [if_pos htest, hact]

/-- A first break of a life that has ended is discarded (R40). -/
theorem handBreak_ended {b stamp : Nat} (h : ¬∃ r, band? s b = some r ∧ r.state ≠ .empty ∧ r.state ≠ .retired ∧ r.stamp = stamp)
    (o : Option Nat) : handBreak b stamp o s = s := by
  cases o with
  | none => rfl
  | some o =>
    rw [handBreak]
    cases hb : band? s b with
    | none => rw [withFinding, hb]
    | some r =>
      refine withFinding_discarded hb ?_ _
      by_contra hno
      rw [not_or, not_or, not_not] at hno
      exact h ⟨r, hb, hno⟩

variable {e : VerifyEntry} {es : List VerifyEntry} (hq : s.engine.verifyQueue = e :: es) (hheld : s.engine.verifyHeld = [])
include hq hheld

theorem answerVerify_eq (x : VerifyOutcome) (stamp : Nat) (brk : Option Nat) (n : Nat) :
    answerVerify x stamp brk n s = verifyAnswered e.requester es s x stamp brk n := by
  have hlinks : (if e.requester.orphaned || !(s.link e.requester.port).up then s.links
      else s.links.set e.requester.port
        (answeredLate (s.link e.requester.port) (lateReply s e.requester .done (.verify x stamp brk n) []))) =
      if e.requester.orphaned = true ∨ (s.link e.requester.port).up = false then s.links
      else s.links.set e.requester.port
        (answeredLate (s.link e.requester.port) (lateReply s e.requester .done (.verify x stamp brk n) [])) :=
    if_congr (by rw [Bool.or_eq_true, Bool.not_eq_true']) rfl rfl
  rw [answerVerify, hq]
  dsimp only
  rw [respond_eq, retakeVerify_nil (by exact hheld), verifyAnswered, ← hlinks]
  rfl

theorem beginVerify_unscanned {r : Band} (h : band? s e.band = some r) (hno : r.state = .empty ∨ r.state = .retired) :
    beginVerify s = verifyAnswered e.requester es s .notScanned r.stamp none 0 := by
  rw [beginVerify, hq]
  dsimp only
  rw [h]
  exact (if_pos hno).trans (answerVerify_eq hq hheld ..)

theorem beginVerify_scanned {r : Band} (h : band? s e.band = some r) (hne : r.state ≠ .empty) (hnr : r.state ≠ .retired) :
    beginVerify s =
      if patrolReads s r = [] then verifyAnswered e.requester es s .scanned r.stamp none 0
      else offer { s with engine := { s.engine with activity := .verify, scan := some (newScan r none (patrolReads s r)) } } := by
  rw [beginVerify, hq]
  dsimp only
  rw [h]
  dsimp only
  rw [if_neg fun hor => hor.elim hne hnr, beginScan, h]
  refine if_congr List.isEmpty_iff ?_ rfl
  exact answerVerify_eq (s := { s with engine := { s.engine with activity := .verify, scan := some (newScan r none (patrolReads s r)) } })
    hq hheld ..

theorem endScan_verify (whole : Bool) {c : Scan} (hc : s.engine.scan = some c) (hact : s.engine.activity = .verify) :
    endScan whole s =
      verifyAnswered e.requester es (handBreak c.band c.stamp c.firstBreak s) (if whole then .scanned else .cutShort) c.stamp c.firstBreak
        c.unreadable.length := by
  have hengine := engine_handBreak (b := c.band) c.stamp c.firstBreak s
  rw [endScan, hc]
  dsimp only
  rw [hengine, hact]
  dsimp only
  rw [answerVerify_eq (by rw [hengine, hq]) (by rw [hengine, hheld])]

/-- The last read run of a VERIFY_BAND has ended (R148, R149). -/
theorem endScan_verifyRead {c : Scan} (hact : s.engine.activity = .verify) :
    endScan true (scanReadEnded c s) =
      verifyAnswered e.requester es (handBreak c.band c.stamp c.firstBreak (handMedia c.band c.stamp c.runUnreadable s)) .scanned c.stamp
        c.firstBreak c.unreadable.length := by
  have hengine : (scanReadEnded c s).engine = { s.engine with scan := some c.readEnded } := by
    rw [scanReadEnded]
    dsimp only
    rw [engine_handMedia]
  have hbreak : handBreak c.band c.stamp c.firstBreak (scanReadEnded c s) =
      { handBreak c.band c.stamp c.firstBreak (handMedia c.band c.stamp c.runUnreadable s) with engine := (scanReadEnded c s).engine } :=
    handBreak_engine ..
  refine (endScan_verify (s := scanReadEnded c s) (c := c.readEnded) (by rw [hengine]; exact hq) (by rw [hengine]; exact hheld) true rfl
    (by rw [hengine]; exact hact)).trans ?_
  rw [show handBreak c.readEnded.band c.readEnded.stamp c.readEnded.firstBreak (scanReadEnded c s) = _ from hbreak]
  refine verifyAnswered_engine _ _ _ _ _ _ _ _ ?_
  rw [hengine, engine_handBreak, engine_handMedia]

end

/-- Settles O28: the queue, the examination of its head, the end of a read run, and the tests before the next. -/
theorem verifyBandIsQueuedScannedAndAnswered : Obligations.VerifyBandIsQueuedScannedAndAnswered := by
  refine ⟨fun s p f ht => ?_, fun s p ps f h hq => ?_, fun s e es hq hheld => ?_⟩
  · rw [exec_verifyBand_of_takes ht, verifyTake]
    rfl
  · have hexec : exec .verifyBandRetake s = .next (settle (retakeVerify s)) := rfl
    rw [hexec, retakeVerify_cons h hq]
  · intro q answered
    refine ⟨fun r h => ⟨beginVerify_unscanned hq hheld h, fun hne hnr => ⟨patrolReads s r, fun x => patrolReads_bounds, flatMap_patrolReads s r,
      beginVerify_scanned hq hheld h hne hnr⟩⟩, fun c hc hrun hact => ⟨⟨fun hmore => ?_, fun hlast => ?_⟩, ?_⟩⟩
    · rw [endScanRead_running hc hrun, if_neg (by simpa using hmore)]
      rfl
    · rw [endScanRead_running hc hrun, if_pos (by simpa using hlast)]
      exact endScan_verifyRead hq hheld hact
    · intro lives hbegun hdone hfree
      have hlives : ((band? s c.band).any fun r => r.state != .empty && r.state != .retired && r.stamp == c.stamp) = true ↔ lives := by
        rw [Option.any_eq_true]
        simp only [Bool.and_eq_true, bne_iff_ne, beq_iff_eq, and_assoc]
        rfl
      rw [testBeforeRead_verify hc hrun hact hbegun hdone hfree]
      refine ⟨fun h => if_pos (hlives.mpr h), fun h => ?_⟩
      rw [if_neg fun hb => h (hlives.mp hb), endScan_verify hq hheld false hc hact, handBreak_ended h]
      rfl

end Sys2Proof.Machine
end

section
/-! PROOFS. A chunk's decisions, and the commits of the relocation engine's copies (R48, R59 to R61, R136 to R144). -/

namespace Sys2Proof.Machine
open Sys2Proof.Safety

/-! ### The search by location -/

/-- The block that a record places at (b, o) (R48). -/
def blockAt (b o : Nat) (r : Extent) : Option Nat :=
  match r.loc with
  | .media b' o' => if b' = b ∧ o' ≤ o ∧ o < o' + r.len then some (r.start + (o - o')) else none
  | _ => none

theorem searchLocation_cons (r : Extent) (m : List Extent) (b o : Nat) :
    searchLocation (r :: m) b o = (blockAt b o r).or (searchLocation m b o) := by
  have hsearch (l : List Extent) : searchLocation l b o = l.findSome? (blockAt b o) := rfl
  rw [hsearch, hsearch, List.findSome?_cons]
  cases blockAt b o r <;> rfl

/-- A record places L at (b, o) exactly when it covers L with a MEDIA location that comes to (b, o) there. -/
theorem blockAt_iff {r : Extent} {L b o : Nat} :
    blockAt b o r = some L ↔ (r.start ≤ L ∧ L < r.start + r.len) ∧ r.loc.shift (L - r.start) = .media b o := by
  rw [blockAt]
  cases r.loc with
  | media b' o' =>
    dsimp only
    rw [Location.shift, Location.media.injEq]
    split
    · rw [Option.some.injEq]
      omega
    · next hno =>
      refine ⟨nofun, fun hat => absurd ?_ hno⟩
      omega
  | staged p i => exact ⟨nofun, fun h => nomatch h.2⟩
  | lost => exact ⟨nofun, fun h => nomatch h.2⟩

theorem resolve_ne_of_searchLocation_none {b o : Nat} : ∀ {m : List Extent}, searchLocation m b o = none →
    ∀ L, resolve m L ≠ some (.media b o)
  | [], _, _ => nofun
  | r :: m, h, L => by
    rw [searchLocation_cons, Option.or_eq_none_iff] at h
    rw [resolve_cons]
    split
    · next hL =>
      intro hres
      rw [blockAt_iff.mpr ⟨hL, Option.some.inj hres⟩] at h
      cases h.1
    · exact resolve_ne_of_searchLocation_none h.2 L

/-- In a map in order the block that the search finds resolves to the location searched (R46, R48). -/
theorem resolve_of_searchLocation {b o L : Nat} : ∀ {m : List Extent}, MapOk m → searchLocation m b o = some L →
    resolve m L = some (.media b o) ∧ ∃ r ∈ m, r.start ≤ L
  | r :: m, hok, h => by
    rw [searchLocation_cons] at h
    rw [resolve_cons]
    cases hat : blockAt b o r with
    | some K =>
      rw [hat] at h
      cases h
      obtain ⟨hL, hloc⟩ := blockAt_iff.mp hat
      exact ⟨by rw [if_pos hL, hloc], r, List.mem_cons_self, hL.1⟩
    | none =>
      rw [hat] at h
      obtain ⟨hres, x, hx, hle⟩ := resolve_of_searchLocation hok.tail h
      have hstart := hok.starts x hx
      exact ⟨by rw [if_neg (by omega), hres], x, List.mem_cons_of_mem _ hx, hle⟩

theorem resolve_lostBlock (L K : Nat) (m : List Extent) :
    resolve (lostBlock L m) K = if K = L then some .lost else resolve m K := by
  rw [lostBlock, resolve_changeRange_one]
  exact if_congr (by omega) rfl rfl

theorem resolve_commitBlock (L b o K : Nat) (m : List Extent) :
    resolve (commitBlock L b o m) K = if K = L then some (.media b o) else resolve m K := by
  rw [commitBlock, resolve_changeRange_one]
  by_cases h : K = L
  · subst h
    rw [if_pos (by omega), if_pos rfl, Nat.sub_self, Location.shift_zero]
  · rw [if_neg (by omega), if_neg h]

/-! ### Changes of the map, and a live count that falls -/

section
variable {s : State} {v : Nat} {r : Band}

theorem setRecords_eq (m : List Extent) (s : State) :
    setRecords m s =
      { s with
        map := { s.map with records := m }
        engine := { s.engine with recoveryWait := (setRecords m s).engine.recoveryWait }
        agenda := (setRecords m s).agenda } := by
  rw [setRecords, mapChanged_due]
  split <;> rfl

theorem lowerLive_draining (h : band? s v = some r) (hd : r.state = .draining) (n : Nat) :
    lowerLive v n s = putBand v { r with live := r.live - n } s := by
  have hband := band?_putBand h { r with live := r.live - n }
  rw [lowerLive, updBand_eq_putBand h, emptiedTest, hband]
  exact if_neg fun hall => by rw [show ({ r with live := r.live - n } : Band).state = _ from hd] at hall; exact BandState.noConfusion hall.1

/-! ### The decisions of a chunk -/

variable {stamp lw o : Nat} {xs : List (Option Sector)} {copies : List Copy}

theorem dataCopyable_iff (L : Nat) (x : Sector) :
    dataCopyable v stamp L x = true ↔
      x.trailer.kind = 2 ∧ x.trailer.band.toNat = v ∧ x.trailer.stamp.toNat = stamp ∧ x.trailer.logical.toNat = L := by
  have hkind : codeData = (2 : BitVec 8) := rfl
  rw [dataCopyable, trailerValidFor]
  constructor
  · intro h
    simp only [Bool.and_eq_true, beq_iff_eq] at h
    obtain ⟨⟨⟨⟨-, hband⟩, hk⟩, hst⟩, hL⟩ := h
    exact ⟨hk, hband, hst, hL⟩
  · rintro ⟨hk, hband, hst, hL⟩
    simp [hk, hband, hst, hL, hkind]

theorem noteValid_iff (x : Sector) :
    (trailerValidFor x.trailer v && x.trailer.kind == codeNote && x.trailer.stamp.toNat == stamp) = true ↔
      x.trailer.kind = 3 ∧ x.trailer.band.toNat = v ∧ x.trailer.stamp.toNat = stamp := by
  have hkind : codeNote = (3 : BitVec 8) := rfl
  rw [trailerValidFor]
  constructor
  · intro h
    simp only [Bool.and_eq_true, beq_iff_eq] at h
    obtain ⟨⟨⟨-, hband⟩, hk⟩, hst⟩ := h
    exact ⟨hk, hband, hst⟩
  · rintro ⟨hk, hband, hst⟩
    simp [hk, hband, hst, hkind]

theorem noteCopyable_iff (x : Sector) :
    noteCopyable v stamp lw x = true ↔
      x.trailer.kind = 3 ∧ x.trailer.band.toNat = v ∧ x.trailer.stamp.toNat = stamp ∧ lw ≤ x.trailer.sequence.toNat := by
  rw [noteCopyable, Bool.and_eq_true, noteValid_iff, decide_eq_true_iff, and_assoc, and_assoc]

theorem noteFails_iff (x : Sector) :
    noteFails v stamp x = true ↔ x.trailer.kind = 3 ∧ ¬(x.trailer.band.toNat = v ∧ x.trailer.stamp.toNat = stamp) := by
  have hkind : codeNote = (3 : BitVec 8) := rfl
  rw [noteFails, Bool.and_eq_true, beq_iff_eq, hkind]
  refine and_congr_right fun hk => ?_
  simp [trailerValidFor, hk, hkind, imp_iff_not_or]

/-- What a filter over a sector that may be absent finds, and what it does not. -/
theorem filter_sector_none {p : Sector → Bool} {P : Sector → Prop} (hp : ∀ x, p x = true ↔ P x) {x : Option Sector}
    (h : ∀ sec, x = some sec → ¬P sec) : x.filter p = none := by
  cases x with
  | none => rfl
  | some sec => exact Option.filter_some_neg (Bool.eq_false_iff.mpr fun hsec => h sec rfl ((hp sec).mp hsec))

section
variable {L : Nat} (hL : searchLocation s.map.records v o = some L)
include hL

theorem decideChunk_data {sec : Sector} (hgood : dataCopyable v stamp L sec = true) :
    decideChunk v stamp lw o (some sec :: xs) copies s = decideChunk v stamp lw (o + 1) xs (copies ++ [dataCopy o L sec]) s := by
  rw [decideChunk, hL]
  dsimp only
  rw [Option.filter_some_pos hgood]

theorem decideChunk_lost {x : Option Sector} (hbad : x.filter (dataCopyable v stamp L) = none) {t : State} (ht : markLost v L s = some t) :
    decideChunk v stamp lw o (x :: xs) copies s = decideChunk v stamp lw (o + 1) xs copies t := by
  rw [decideChunk, hL]
  dsimp only
  rw [hbad]
  dsimp only
  rw [ht]

theorem decideChunk_full {x : Option Sector} (hbad : x.filter (dataCopyable v stamp L) = none) (ht : markLost v L s = none) :
    decideChunk v stamp lw o (x :: xs) copies s = (copies, true, s) := by
  rw [decideChunk, hL]
  dsimp only
  rw [hbad]
  dsimp only
  rw [ht]

end

section
variable (hno : searchLocation s.map.records v o = none)
include hno

theorem decideChunk_note {sec : Sector} (hgood : noteCopyable v stamp lw sec = true) :
    decideChunk v stamp lw o (some sec :: xs) copies s = decideChunk v stamp lw (o + 1) xs (copies ++ [noteCopyOf o sec]) s := by
  rw [decideChunk, hno]
  dsimp only
  rw [Option.filter_some_pos hgood]

theorem decideChunk_nothing {x : Option Sector} (hbad : x.filter (noteCopyable v stamp lw) = none) :
    decideChunk v stamp lw o (x :: xs) copies s =
      decideChunk v stamp lw (o + 1) xs copies (if x.any (noteFails v stamp) then listUnreadable o s else s) := by
  rw [decideChunk, hno]
  dsimp only
  rw [hbad]

end

/-- A LOST marking with records free for it: the map, the victim's live count and the notice (R61, R143). -/
theorem markLost_eq {L : Nat} (h : band? s v = some r) (hd : r.state = .draining)
    (hfree : (lostBlock L s.map.records).length ≤ s.map.records.length + freeRecords s) :
    markLost v L s =
      some (placeNotice .blocksLost (some v)
        (putBand v { r with live := r.live - 1 } (setRecords (lostBlock L s.map.records) s))) := by
  have hband : band? (setRecords (lostBlock L s.map.records) s) v = some r := by
    rw [setRecords_eq]
    exact h
  rw [markLost, if_pos (show _ ≤ recordsInUse s + freeRecords s from hfree), lowerLive_draining hband hd]

theorem markLost_full {L : Nat} (hfull : ¬(lostBlock L s.map.records).length ≤ s.map.records.length + freeRecords s) :
    markLost v L s = none := by
  rw [markLost]
  exact if_neg hfull

/-! ### The decisions leave the chunk in hand -/

theorem chunk_setRecords (m : List Extent) (s : State) : (setRecords m s).engine.chunk = s.engine.chunk := by rw [setRecords_eq]

theorem chunk_markLost {L : Nat} {t : State} (h : markLost v L s = some t) : t.engine.chunk = s.engine.chunk := by
  rw [markLost] at h
  split at h
  · cases h
    have hengine := (onlyBands_lowerLive (setRecords (lostBlock L s.map.records) s) v 1).engine
    exact (congrArg Engine.chunk hengine).trans (chunk_setRecords ..)
  · cases h

theorem chunk_decideChunk : ∀ (xs : List (Option Sector)) (o : Nat) (copies : List Copy) (s : State),
    (decideChunk v stamp lw o xs copies s).2.2.engine.chunk = s.engine.chunk
  | [], _, _, _ => rfl
  | x :: xs, o, copies, s => by
    rw [decideChunk]
    cases searchLocation s.map.records v o with
    | some L =>
      dsimp only
      cases x.filter (dataCopyable v stamp L) with
      | some sec => exact chunk_decideChunk xs ..
      | none =>
        dsimp only
        cases ht : markLost v L s with
        | some t => exact (chunk_decideChunk xs ..).trans (chunk_markLost ht)
        | none => rfl
    | none =>
      dsimp only
      cases x.filter (noteCopyable v stamp lw) with
      | some sec => exact chunk_decideChunk xs ..
      | none =>
        refine (chunk_decideChunk xs ..).trans ?_
        split <;> rfl

/-! ### The low-water -/

/-- A sequence of another band's data, or of a parcel (R139). -/
def presentSeq (s : State) (v q : Nat) : Prop :=
  (∃ r ∈ s.table.bands, r.state ≠ .empty ∧ r.number ≠ v ∧ r.minSeq = some q) ∨ ∃ x ∈ s.staging.parcels, x.seq = q

/-- The values whose least is the low-water (R139). -/
def lowWaterValues (s : State) (v : Nat) : List (Option Nat) :=
  (s.table.bands.map fun r => if r.state ≠ .empty ∧ r.number ≠ v then r.minSeq else none) ++ [stagingMinimum s]

theorem lowWaterOf_eq (v : Nat) (s : State) : lowWaterOf v s = (leastOf (lowWaterValues s v)).getD s.staging.seqCounter := rfl

theorem present_of_lowWaterValues {q : Nat} (h : some q ∈ lowWaterValues s v) : presentSeq s v q := by
  rw [lowWaterValues, List.mem_append, List.mem_singleton] at h
  rcases h with h | h
  · obtain ⟨r, hr, hq⟩ := List.mem_map.mp h
    split at hq
    · next hcond => exact .inl ⟨r, hr, hcond.1, hcond.2, hq⟩
    · cases hq
  · obtain ⟨x, hx, hq⟩ := List.mem_map.mp (leastOf_mem h.symm)
    exact .inr ⟨x, hx, Option.some.inj hq⟩

theorem least_le_present {q : Nat} (h : presentSeq s v q) : ∃ m, leastOf (lowWaterValues s v) = some m ∧ m ≤ q := by
  rcases h with ⟨r, hr, hne, hv, hq⟩ | ⟨x, hx, rfl⟩
  · exact leastOf_le (List.mem_append_left _ (List.mem_map.mpr ⟨r, hr, (if_pos ⟨hne, hv⟩).trans hq⟩))
  · obtain ⟨m, hm, hle⟩ := leastOf_le (l := s.staging.parcels.map fun x => some x.seq) (List.mem_map.mpr ⟨x, hx, rfl⟩)
    obtain ⟨n, hn, hle'⟩ := leastOf_le (q := m) (l := lowWaterValues s v) (List.mem_append_right _ (List.mem_singleton.mpr hm.symm))
    exact ⟨n, hn, Nat.le_trans hle' hle⟩

end

/-- Settles O44: the decision at one offset by what the map places there, the low-water, and the chunk that goes to WRITING. -/
theorem chunkDecisionsFollowMap : Obligations.ChunkDecisionsFollowMap := by
  refine ⟨fun _ _ _ _ _ _ => rfl, fun s v stamp lw o L x xs copies r hmap h hd hL => ?_, fun s v stamp lw o x xs copies hno => ?_, fun s v => ?_,
    fun s w v c d k copies r hv hc hk hne hdec hscan h hd hst => ?_⟩
  · intro good
    have hnone (hbad : ∀ sec, x = some sec → ¬good sec) : x.filter (dataCopyable v stamp L) = none :=
      filter_sector_none (dataCopyable_iff L) hbad
    refine ⟨(resolve_of_searchLocation ((mapOrdered_iff _).mp hmap) hL).1, fun sec hx hgood => ?_, fun hbad hfree => ?_, fun hbad hfull => ?_⟩
    · subst hx
      exact decideChunk_data hL ((dataCopyable_iff L sec).mpr hgood)
    · refine ⟨_, decideChunk_lost hL (hnone hbad) (markLost_eq h hd hfree), fun K => ?_, ?_, fun n hn => ?_, fun p => ?_, ?_, ?_, ?_, ?_, ?_, ?_⟩ <;>
        rw [setRecords_eq]
      · exact resolve_lostBlock ..
      · exact band?_putBand (s := s) h _
      · exact band?_putBand_other (s := s) _ hn
      · exact link_placeNotice ..
      all_goals rfl
    · exact decideChunk_full hL (hnone hbad) (markLost_full hfull)
  · intro good fails
    have hnone (hbad : ∀ sec, x = some sec → ¬good sec) : x.filter (noteCopyable v stamp lw) = none :=
      filter_sector_none noteCopyable_iff hbad
    refine ⟨resolve_ne_of_searchLocation_none hno, fun sec hx hgood => ?_, fun sec hx hfails => ?_, fun hbad => ?_⟩
    · subst hx
      exact decideChunk_note hno ((noteCopyable_iff sec).mpr hgood)
    · subst hx
      have hbad : ∀ y, some sec = some y → ¬good y := fun y hy hgood => by
        cases hy
        exact hfails.2 ⟨hgood.2.1, hgood.2.2.1⟩
      rw [decideChunk_nothing hno (hnone hbad), if_pos (show (some sec).any (noteFails v stamp) = true from (noteFails_iff sec).mpr hfails)]
      rfl
    · have hfails : x.any (noteFails v stamp) = false := by
        cases x with
        | none => rfl
        | some sec => exact Bool.eq_false_iff.mpr fun hf => (hbad sec rfl).2 ((noteFails_iff sec).mp hf)
      rw [decideChunk_nothing hno (hnone fun sec hx => (hbad sec hx).1), hfails]
      rfl
  · intro present
    refine ⟨fun ⟨q, hq⟩ => ?_, fun hnone => ?_⟩
    · obtain ⟨m, hm, -⟩ := least_le_present hq
      rw [lowWaterOf_eq, hm]
      refine ⟨present_of_lowWaterValues (leastOf_mem hm), fun p hp => ?_⟩
      obtain ⟨n, hn, hle⟩ := least_le_present hp
      rw [hm] at hn
      cases hn
      exact hle
    · rw [lowWaterOf_eq]
      cases hl : leastOf (lowWaterValues s v) with
      | none => rfl
      | some m => exact absurd (present_of_lowWaterValues (leastOf_mem hl)) (hnone m)
  · have hchunk : w.engine.chunk = some k := by
      have := chunk_decideChunk (v := v) (stamp := c.stamp) (lw := lowWaterOf v s) k.buffer k.first []
        { s with engine := { s.engine with lowWater := some (lowWaterOf v s) } }
      rw [hdec] at this
      exact this.trans hk
    have hempty : copies.isEmpty = false := by simpa using hne
    rw [endChunkRead, hv, hc, hk]
    dsimp only
    rw [show decideChunk v c.stamp (lowWaterOf v s) k.first k.buffer [] 
      (updEngine (fun x => { x with lowWater := some (lowWaterOf v s) }) s) = _ from hdec]
    dsimp only
    rw [hscan, ← hst, show ((some d).map (·.runUnreadable)).getD [] = d.runUnreadable from rfl, handMedia_draining h hd, hempty]
    simp only [updScan, updChunk, updEngine, putBand, hscan, hchunk]
    rfl

end Sys2Proof.Machine
end

section
/-! PROOFS. The end of a relocation run: the copies committed or settled dead, and what is left of the chunk (R59, R60, R140, R141, R144). -/

namespace Sys2Proof.Machine
open Sys2Proof.Safety

section
variable {s : State} {v d o : Nat} {is : List RunItem}

/-- The chunk with the copy at victim offset vo settled as st (R141). -/
def copySettled (vo : Nat) (st : CopyState) (s : State) : Option Chunk :=
  s.engine.chunk.map fun k => { k with copies := k.copies.map fun c => if c.victimOffset = vo then { c with state := st } else c }

theorem setCopies_one (vo : Nat) (st : CopyState) (s : State) :
    setCopies [vo] st s = { s with engine := { s.engine with chunk := copySettled vo st s } } := by
  simp only [setCopies, updChunk, updEngine, List.mem_singleton, copySettled]

theorem commitCopies_moved {vo L q : Nat} (hres : resolve s.map.records L = some (.media v vo))
    (hfree : (commitBlock L d o s.map.records).length ≤ s.map.records.length + freeRecords s) :
    commitCopies v d o (.copy vo L q :: is) s =
      commitCopies v d (o + 1) is
        (setCopies [vo] .committed (setRecords (commitBlock L d o s.map.records) (lowerLive v 1 (raiseLive d 1 s)))) := by
  rw [commitCopies, if_pos hres]
  exact if_pos hfree

theorem commitCopies_full {vo L q : Nat} (hres : resolve s.map.records L = some (.media v vo))
    (hfull : ¬(commitBlock L d o s.map.records).length ≤ s.map.records.length + freeRecords s) :
    commitCopies v d o (.copy vo L q :: is) s = (true, s) := by
  rw [commitCopies, if_pos hres]
  exact if_neg hfull

theorem commitCopies_dead {vo L q : Nat} (hres : resolve s.map.records L ≠ some (.media v vo)) :
    commitCopies v d o (.copy vo L q :: is) s = commitCopies v d (o + 1) is (setCopies [vo] .dead s) := by
  rw [commitCopies, if_neg hres]

/-- A block moved from band v to band d: v, which is DRAINING, loses a live block and d gains one (R59). -/
theorem movedLive_eq {r x : Band} (hne : v ≠ d) (hv : band? s v = some r) (hdrain : r.state = .draining) (hd : band? s d = some x) :
    lowerLive v 1 (raiseLive d 1 s) = putBand v { r with live := r.live - 1 } (putBand d { x with live := x.live + 1 } s) := by
  have hvband : band? (putBand d { x with live := x.live + 1 } s) v = some r := by rw [band?_putBand_other _ hne, hv]
  rw [raiseLive, updBand_eq_putBand hd]
  exact lowerLive_draining hvband hdrain 1

theorem relocCompletion_abandons {first n : Nat} {items : List RunItem} {t : State} (hv : s.engine.victim = some v)
    (h : commitCopies v d first (items.take n) s = (true, t)) : relocCompletion d first items n s = abandonVictim t := by
  rw [relocCompletion, hv]
  dsimp only
  rw [h]
  rfl

theorem relocCompletion_goesOn {first n : Nat} {items : List RunItem} {t : State} (hv : s.engine.victim = some v)
    (h : commitCopies v d first (items.take n) s = (false, t))
    (hleft : chunkUnsettled (setCopies ((items.drop n).filterMap itemCopy) .unwritten t) = true) :
    relocCompletion d first items n s = offer (setCopies ((items.drop n).filterMap itemCopy) .unwritten t) := by
  rw [relocCompletion, hv]
  dsimp only
  rw [h]
  exact if_pos hleft

end

/-- Settles O45: item by item, and then the chunk that is left. -/
theorem relocationCommitMovesBlock : Obligations.RelocationCommitMovesBlock := by
  refine ⟨fun s v d o is => ?_, fun s t v d first n items hv => ⟨relocCompletion_abandons hv, fun k h hk => ?_⟩⟩
  · intro settled
    refine ⟨rfl, rfl, fun vo first n q => ?_, fun vo L q hres => ?_, fun vo L q r x hres hne hv hdrain hd hfree => ?_, fun vo L q => commitCopies_full⟩
    · exact congrArg (commitCopies v d (o + 1) is) (setCopies_one vo .committed s)
    · rw [commitCopies_dead hres, setCopies_one]
      rfl
    · refine ⟨_, commitCopies_moved hres hfree, fun K => ?_, ?_, ?_, fun n hnv hnd => ?_, ?_, ?_, ?_, ?_, ?_, ?_, ?_⟩ <;>
        rw [movedLive_eq hne hv hdrain hd, setCopies_one, setRecords_eq]
      · exact resolve_commitBlock ..
      · exact band?_putBand (s := putBand d { x with live := x.live + 1 } s) (by rw [band?_putBand_other _ hne, hv]) _
      · refine (band?_putBand_other (s := putBand d { x with live := x.live + 1 } s) _ hne.symm).trans (band?_putBand hd _)
      · exact (band?_putBand_other (s := putBand d { x with live := x.live + 1 } s) _ hnv).trans (band?_putBand_other _ hnd)
      all_goals rfl
  · intro left copies hleft
    have hset : setCopies left .unwritten t = { t with engine := { t.engine with chunk := some { k with copies := copies } } } := by
      rw [setCopies, updChunk, updEngine, hk]
      rfl
    have hunsettled : chunkUnsettled (setCopies left .unwritten t) = true := by
      rw [hset, chunkUnsettled, List.any_eq_true]
      obtain ⟨c, hc, hstate⟩ := hleft
      refine ⟨c, hc, ?_⟩
      rw [Bool.or_eq_true, beq_iff_eq, beq_iff_eq]
      exact hstate
    rw [relocCompletion_goesOn hv h hunsettled, hset]

end Sys2Proof.Machine
end

section
/-! PROOFS. Write runs: the parcels dropped and carried, the band chosen, and the sectors built (R7, R10 to R16, R42, R51, R78, R88, R91 to R93,
R95, R96, R102, R140). -/

namespace Sys2Proof.Machine
open Sys2Proof.Safety

section
variable {s : State} {t : Fin 8}

/-! ### Dead parcels at the head -/

theorem composerDrops_iff (x : Parcel) : composerDrops x = true ↔ x.kind = .data ∧ x.live = 0 := by
  rw [composerDrops, Bool.and_eq_true, beq_iff_eq, beq_iff_eq]

theorem dropAtHead_nil (h : s.alloc.hosts[t].queue = []) (n : Nat) : dropAtHead t n s = s := by
  cases n with
  | zero => rfl
  | succ n => rw [dropAtHead, h]; rfl

theorem dropAtHead_succ {id : Nat} {x : Parcel} (hq : s.alloc.hosts[t].queue.head? = some id) (hx : parcel? s id = some x) (n : Nat) :
    dropAtHead t (n + 1) s = if x.kind = .data ∧ x.live = 0 then dropAtHead t n (removeParcel id s) else s := by
  rw [dropAtHead, hq]
  dsimp only
  rw [hx]
  exact if_congr (composerDrops_iff x) rfl rfl

/-- A living parcel at the head is not dropped. -/
theorem dropAtHead_living {id : Nat} {x : Parcel} (hq : s.alloc.hosts[t].queue.head? = some id) (hx : parcel? s id = some x)
    (hlive : ¬(x.kind = .data ∧ x.live = 0)) (n : Nat) : dropAtHead t n s = s := by
  cases n with
  | zero => rfl
  | succ n => rw [dropAtHead_succ hq hx, if_neg hlive]

theorem selectHost_nil (h : s.alloc.hosts[t].queue = []) : selectHost t s = (s, false) := by
  rw [selectHost, dropAtHead_nil h]
  exact if_pos (by rw [h]; rfl)

/-- What a selected stream does with a living parcel at its head (R91, R95). -/
def hostServed (t : Fin 8) (s : State) : State × Bool :=
  match openBandOf s (.host t) with
  | some b => (issueHostRun t b s, true)
  | none =>
    match takeHostBand t s with
    | none => (s, false)
    | some s' =>
      match openBandOf s' (.host t) with
      | none => (s', false)
      | some b => (issueHostRun t b s', true)

theorem selectHost_living {id : Nat} {x : Parcel} (hq : s.alloc.hosts[t].queue.head? = some id) (hx : parcel? s id = some x)
    (hlive : ¬(x.kind = .data ∧ x.live = 0)) : selectHost t s = hostServed t s := by
  have hne : s.alloc.hosts[t].queue.isEmpty = false := by
    rw [List.isEmpty_eq_false_iff]
    exact fun hnil => by rw [hnil] at hq; cases hq
  rw [selectHost, dropAtHead_living hq hx hlive, hne]
  rfl

theorem openBandOf_eq {i : StreamId} {b : Nat} {r : Band} (ho : (stream s i).openBand = some b) (hb : band? s b = some r)
    (hopen : r.state = .opened) : openBandOf s i = some r := by
  rw [openBandOf, ho]
  dsimp only
  rw [hb]
  exact Option.filter_some_pos (decide_eq_true hopen)

theorem openBandOf_none {i : StreamId} (ho : (stream s i).openBand = none) : openBandOf s i = none := by rw [openBandOf, ho]

/-! ### The choice of a band -/

/-- The EMPTY bands whose cold group agrees with the cold placement (R92). -/
def agreeingBands (s : State) (x : StreamSetting) : List Band := (emptyBands s).filter fun b => coldMasked s b.number == x.cold

theorem bandCandidates_eq (s : State) (x : StreamSetting) :
    bandCandidates s x = if agreeingBands s x = [] then emptyBands s else agreeingBands s x := by
  rw [bandCandidates]
  change (match agreeingBands s x with | [] => emptyBands s | b :: bs => b :: bs) = _
  cases agreeingBands s x with
  | nil => rfl
  | cons b bs => rfl

theorem mem_emptyBands {r : Band} : r ∈ emptyBands s ↔ r ∈ s.table.bands ∧ r.state = .empty := by
  rw [emptyBands, List.mem_filter, decide_eq_true_iff]

theorem mem_agreeingBands {x : StreamSetting} {r : Band} :
    r ∈ agreeingBands s x ↔ (r ∈ s.table.bands ∧ r.state = .empty) ∧ coldMasked s r.number = x.cold := by
  rw [agreeingBands, List.mem_filter, mem_emptyBands, beq_iff_eq]

theorem bandCandidates_sublist (x : StreamSetting) : (bandCandidates s x).Sublist s.table.bands := by
  rw [bandCandidates_eq]
  split
  · exact List.filter_sublist
  · exact List.filter_sublist.trans List.filter_sublist

theorem mem_bandCandidates {x : StreamSetting} {r : Band} :
    r ∈ bandCandidates s x ↔
      r ∈ s.table.bands ∧ r.state = .empty ∧
        (coldMasked s r.number = x.cold ∨ ∀ y ∈ s.table.bands, y.state = .empty → coldMasked s y.number ≠ x.cold) := by
  rw [bandCandidates_eq]
  split
  · next hnone =>
    have hno : ∀ y ∈ s.table.bands, y.state = .empty → coldMasked s y.number ≠ x.cold := fun y hy he hc => by
      have := mem_agreeingBands.mpr ⟨⟨hy, he⟩, hc⟩
      rw [hnone] at this
      cases this
    rw [mem_emptyBands]
    exact ⟨fun h => ⟨h.1, h.2, .inr hno⟩, fun h => ⟨h.1, h.2.1⟩⟩
  · next hsome =>
    obtain ⟨y, hy⟩ := List.exists_mem_of_ne_nil _ hsome
    obtain ⟨⟨hmem, he⟩, hc⟩ := mem_agreeingBands.mp hy
    rw [mem_agreeingBands, and_assoc]
    exact ⟨fun h => ⟨h.1, h.2.1, .inl h.2.2⟩, fun h => ⟨h.1, h.2.1, h.2.2.resolve_right fun hno => hno y hmem he hc⟩⟩

theorem bandCandidates_eq_nil {x : StreamSetting} : bandCandidates s x = [] ↔ freeBands s = 0 := by
  have hempty : emptyBands s = [] ↔ freeBands s = 0 := by
    rw [emptyBands, freeBands, List.countP_eq_length_filter, List.length_eq_zero_iff]
  rw [bandCandidates_eq, ← hempty]
  split
  · rfl
  · next hsome =>
    refine ⟨fun h => absurd h hsome, fun h => ?_⟩
    rw [agreeingBands, h]
    rfl

/-- One zone is preferred to another, or equal to it, under a zone order (R88). -/
def zonePreferred (order : ZoneOrder) (all : List Band) (z y : Nat) : Prop :=
  match order with
  | .outer => z ≤ y
  | .inner => y ≤ z
  | .spread => zoneCandidates all y < zoneCandidates all z ∨ zoneCandidates all y = zoneCandidates all z ∧ z ≤ y

/-- The zone of two that an order prefers (R88, R92). -/
def betterZone (order : ZoneOrder) (all : List Band) (y z : Nat) : Nat :=
  match order with
  | .outer => min y z
  | .inner => max y z
  | .spread =>
    if zoneCandidates all z < zoneCandidates all y then y
    else if zoneCandidates all z = zoneCandidates all y then min y z
    else z

theorem betterZone_spec (order : ZoneOrder) (all : List Band) (y z : Nat) :
    (betterZone order all y z = y ∨ betterZone order all y z = z) ∧ zonePreferred order all (betterZone order all y z) y ∧
      ∀ w, zonePreferred order all z w → zonePreferred order all (betterZone order all y z) w := by
  have least : min y z = y ∨ min y z = z := by omega
  cases order with
  | outer => exact ⟨least, Nat.min_le_left .., fun w h => Nat.le_trans (Nat.min_le_right ..) h⟩
  | inner => exact ⟨by rw [betterZone]; omega, Nat.le_max_left .., fun w h => Nat.le_trans h (Nat.le_max_right ..)⟩
  | spread =>
    simp only [betterZone, zonePreferred]
    by_cases hlt : zoneCandidates all z < zoneCandidates all y
    · rw [if_pos hlt]
      exact ⟨.inl rfl, .inr ⟨rfl, Nat.le_refl y⟩, fun w h => by omega⟩
    · rw [if_neg hlt]
      by_cases heq : zoneCandidates all z = zoneCandidates all y
      · rw [if_pos heq]
        have hcount : zoneCandidates all (min y z) = zoneCandidates all y := by
          rcases least with h | h
          · rw [h]
          · rw [h, heq]
        rw [hcount]
        exact ⟨least, .inr ⟨rfl, Nat.min_le_left ..⟩, fun w h => by omega⟩
      · rw [if_neg heq]
        exact ⟨.inr rfl, .inl (by omega), fun w h => h⟩

theorem chosenZone_cons_none {order : ZoneOrder} {all bs : List Band} (h : chosenZone order all bs = none) (b : Band) :
    chosenZone order all (b :: bs) = some b.zone := by
  rw [chosenZone, h]

theorem chosenZone_cons_some {order : ZoneOrder} {all bs : List Band} {z : Nat} (h : chosenZone order all bs = some z) (b : Band) :
    chosenZone order all (b :: bs) = some (betterZone order all b.zone z) := by
  rw [chosenZone, h]
  cases order with
  | outer => rfl
  | inner => rfl
  | spread =>
    dsimp only [betterZone]
    split
    · rfl
    · split <;> rfl

theorem chosenZone_eq_none {order : ZoneOrder} {all l : List Band} : chosenZone order all l = none ↔ l = [] := by
  cases l with
  | nil => exact ⟨fun _ => rfl, fun _ => rfl⟩
  | cons b bs =>
    refine ⟨fun h => ?_, nofun⟩
    cases hz : chosenZone order all bs with
    | none => rw [chosenZone_cons_none hz] at h; cases h
    | some z => rw [chosenZone_cons_some hz] at h; cases h

theorem zonePreferred_refl (order : ZoneOrder) (all : List Band) (z : Nat) : zonePreferred order all z z := by
  cases order with
  | outer => exact Nat.le_refl z
  | inner => exact Nat.le_refl z
  | spread => exact .inr ⟨rfl, Nat.le_refl z⟩

theorem chosenZone_spec (order : ZoneOrder) (all : List Band) : ∀ {l : List Band} {z : Nat}, chosenZone order all l = some z →
    (∃ b ∈ l, b.zone = z) ∧ ∀ y ∈ l, zonePreferred order all z y.zone
  | b :: bs, z, h => by
    cases hz : chosenZone order all bs with
    | none =>
      rw [chosenZone_cons_none hz] at h
      cases h
      rw [chosenZone_eq_none.mp hz]
      refine ⟨⟨b, List.mem_cons_self, rfl⟩, fun y hy => ?_⟩
      cases List.mem_singleton.mp hy
      exact zonePreferred_refl ..
    | some w =>
      rw [chosenZone_cons_some hz] at h
      cases h
      obtain ⟨⟨x, hx, hxw⟩, hall⟩ := chosenZone_spec order all hz
      obtain ⟨hor, hb, htrans⟩ := betterZone_spec order all b.zone w
      refine ⟨?_, fun y hy => ?_⟩
      · rcases hor with h | h
        · exact ⟨b, List.mem_cons_self, h.symm⟩
        · exact ⟨x, List.mem_cons_of_mem _ hx, hxw.trans h.symm⟩
      · rcases List.mem_cons.mp hy with rfl | hy
        · exact hb
        · exact htrans _ (hall y hy)

theorem chooseHostBand_eq_none {x : StreamSetting} : chooseHostBand s x = none ↔ freeBands s = 0 := by
  rw [← bandCandidates_eq_nil (x := x), ← chosenZone_eq_none (order := x.order) (all := bandCandidates s x), chooseHostBand]
  cases hz : chosenZone x.order (bandCandidates s x) (bandCandidates s x) with
  | none => exact ⟨fun _ => rfl, fun _ => rfl⟩
  | some z =>
    obtain ⟨⟨b, hb, hbz⟩, -⟩ := chosenZone_spec _ _ hz
    refine ⟨fun h => ?_, nofun⟩
    rw [Option.map_eq_none_iff, List.find?_eq_none] at h
    exact absurd (decide_eq_true hbz) (h b hb)

theorem chooseHostBand_spec {x : StreamSetting} {b : Nat} (h : chooseHostBand s x = some b) :
    ∃ pre r post, bandCandidates s x = pre ++ r :: post ∧ r.number = b ∧ (∀ y ∈ pre, y.zone ≠ r.zone) ∧
      ∀ y ∈ bandCandidates s x, zonePreferred x.order (bandCandidates s x) r.zone y.zone := by
  rw [chooseHostBand] at h
  cases hz : chosenZone x.order (bandCandidates s x) (bandCandidates s x) with
  | none => rw [hz] at h; cases h
  | some z =>
    rw [hz] at h
    obtain ⟨r, hfind, hnumber⟩ := Option.map_eq_some_iff.mp h
    obtain ⟨hzone, pre, post, hsplit, hpre⟩ := List.find?_eq_some_iff_append.mp hfind
    have hrz : r.zone = z := of_decide_eq_true hzone
    refine ⟨pre, r, post, hsplit, hnumber, fun y hy hyz => ?_, fun y hy => ?_⟩
    · have := hpre y hy
      rw [hyz, hrz] at this
      simp at this
    · rw [hrz]
      exact (chosenZone_spec _ _ hz).2 y hy

theorem chooseRelocBand_eq (s : State) : chooseRelocBand s = (s.table.bands.find? fun r => r.state = .empty).map fun r => r.number := by
  rw [chooseRelocBand, emptyBands, List.head?_filter]

/-! ### A stream's take of a band -/

theorem takeBand_frame (b : Nat) (i : StreamId) (s : State) :
    (takeBand b i s).alloc = s.alloc ∧ (takeBand b i s).staging = s.staging :=
  ⟨(onlyBands_takeBand s b i).alloc, (onlyBands_takeBand s b i).staging⟩

/-- The stream's record after it has taken band b under a setting (R91). -/
def hostTaken (b : Nat) (x : Stream) : Stream :=
  { x with
    openBand := some b, entries := [], overflow := false, finish := false, setting := x.pendingSetting.getD x.setting
    pendingSetting := none }

theorem takeHostBand_reserve (h : freeBands s ≤ 2) : takeHostBand t s = none := if_neg (Nat.not_lt.mpr h)

theorem takeHostBand_taken {b : Nat} (hfree : 2 < freeBands s)
    (hb : chooseHostBand s (s.alloc.hosts[t].pendingSetting.getD s.alloc.hosts[t].setting) = some b) :
    takeHostBand t s =
      some { takeBand b (.host t) s with alloc := { s.alloc with hosts := s.alloc.hosts.set t (hostTaken b s.alloc.hosts[t]) } } := by
  have halloc := (takeBand_frame b (.host t) s).1
  rw [takeHostBand, if_pos hfree]
  dsimp only
  rw [hb]
  dsimp only
  rw [updHost, halloc]
  rfl

/-- A band given to a host stream leaves the queues and the parcels as they were. -/
theorem takeHostBand_frame {u : State} (h : takeHostBand t s = some u) :
    u.alloc.hosts[t].queue = s.alloc.hosts[t].queue ∧ u.staging = s.staging := by
  rw [takeHostBand] at h
  split at h
  · dsimp only at h
    split at h
    · cases h
    · next b _ =>
      cases h
      obtain ⟨halloc, hstaging⟩ := takeBand_frame b (.host t) s
      refine ⟨?_, hstaging⟩
      rw [updHost, halloc]
      simp [Stream.withBand]
  · cases h

/-! ### Parcels in flight -/

/-- The parcels with the ids given are FLUSHING (R78). -/
def flushed (ids : List Nat) (s : State) : State :=
  { s with
    staging := { s.staging with parcels := s.staging.parcels.map fun x => if x.id ∈ ids then { x with state := .flushing } else x } }

theorem flushed_nil (s : State) : flushed [] s = s := by
  simp only [flushed, List.not_mem_nil, if_false, List.map_id']

theorem carryParcel_flushed (ids : List Nat) (id : Nat) (s : State) : carryParcel id (flushed ids s) = flushed (ids ++ [id]) s := by
  have hmap : (s.staging.parcels.map fun x => if x.id ∈ ids then { x with state := .flushing } else x).map
        (fun p => if p.id = id then { p with state := .flushing } else p) =
      s.staging.parcels.map fun x => if x.id ∈ ids ++ [id] then { x with state := .flushing } else x := by
    rw [List.map_map]
    refine List.map_congr_left fun x _ => ?_
    rw [Function.comp_apply]
    by_cases hin : x.id ∈ ids
    · rw [if_pos hin, if_pos (List.mem_append_left _ hin)]
      split <;> rfl
    · have hmem : x.id ∈ ids ++ [id] ↔ x.id = id := by simp [hin]
      rw [if_neg hin]
      exact if_congr hmem.symm rfl rfl
  rw [carryParcel, updParcel, flushed, flushed]
  dsimp only
  rw [hmap]

theorem parcel?_flushed {ids : List Nat} {id : Nat} (h : id ∉ ids) : parcel? (flushed ids s) id = parcel? s id := by
  have hfind (l : List Parcel) :
      (l.map fun x => if x.id ∈ ids then { x with state := .flushing } else x).find? (fun p => p.id = id) =
        l.find? fun p => p.id = id := by
    induction l with
    | nil => rfl
    | cons x l ih =>
      by_cases hx : x.id = id
      · simp [hx, h]
      · have hkeep : (if x.id ∈ ids then { x with state := .flushing } else x).id = x.id := by split <;> rfl
        rw [List.map_cons, List.find?_cons_of_neg (by simpa [hkeep] using hx), List.find?_cons_of_neg (by simpa using hx), ih]
  exact hfind _

theorem hostPayload_flushed (ids : List Nat) (s : State) : hostPayload (flushed ids s) = hostPayload s := by
  funext i
  cases i <;> rfl

/-! ### The composition of a run -/

variable {k : Nat}

theorem composeParcels_carry {id : Nat} {x : Parcel} (hq : s.alloc.hosts[t].queue[k]? = some id) (hx : parcel? s id = some x)
    (hlive : ¬(x.kind = .data ∧ x.live = 0)) {limit : Nat} (hfit : x.remaining ≤ limit) (n : Nat) (items : List RunItem) :
    composeParcels t (n + 1) k limit items s =
      composeParcels t n (k + 1) (limit - x.remaining) (items ++ parcelItems x) (carryParcel x.id s) := by
  rw [composeParcels, hq, Option.bind_some, hx]
  dsimp only
  rw [if_neg fun h => hlive ((composerDrops_iff x).mp h), if_pos hfit]

theorem composeParcels_drop {id : Nat} {x : Parcel} (hq : s.alloc.hosts[t].queue[k]? = some id) (hx : parcel? s id = some x)
    (hdead : x.kind = .data ∧ x.live = 0) (n limit : Nat) (items : List RunItem) :
    composeParcels t (n + 1) k limit items s = composeParcels t n k limit items (removeParcel id s) := by
  have hfound : decide (x.id = id) = true := List.find?_some (p := fun y : Parcel => decide (y.id = id)) hx
  have hid : x.id = id := of_decide_eq_true hfound
  rw [composeParcels, hq, Option.bind_some, hx]
  dsimp only
  rw [if_pos ((composerDrops_iff x).mpr hdead), hid]

theorem composeParcels_end (hq : s.alloc.hosts[t].queue[k]? = none) (n limit : Nat) (items : List RunItem) :
    composeParcels t n k limit items s = (items, s) := by
  cases n with
  | zero => rfl
  | succ n => rw [composeParcels, hq]; rfl

theorem composeParcels_split {id : Nat} {x : Parcel} (hq : s.alloc.hosts[t].queue[k]? = some id) (hx : parcel? s id = some x)
    (hlive : ¬(x.kind = .data ∧ x.live = 0)) {limit : Nat} (hfit : limit < x.remaining) (n : Nat) (items : List RunItem) :
    composeParcels t (n + 1) k limit items s =
      if x.kind = .data ∧ 1 ≤ limit then (items ++ (parcelItems x).take limit, carryParcel x.id s) else (items, s) := by
  rw [composeParcels, hq, Option.bind_some, hx]
  dsimp only
  rw [if_neg fun h => hlive ((composerDrops_iff x).mp h), if_neg (Nat.not_le.mpr hfit)]
  cases hk : x.kind with
  | note => exact (if_neg fun h => ParcelKind.noConfusion h.1).symm
  | data =>
    dsimp only
    by_cases hzero : limit = 0
    · subst hzero
      rw [if_pos rfl, if_neg fun h => absurd h.2 (by decide), List.take_zero, List.append_nil]
    · rw [if_neg hzero, if_pos ⟨rfl, Nat.pos_of_ne_zero hzero⟩]

/-- Parcels that fit are carried one after the other (R95 step 4). -/
theorem composeParcels_placed : ∀ (placed : List Parcel) (tail ids : List Nat) (k n limit : Nat) (items : List RunItem),
    s.alloc.hosts[t].queue.drop k = placed.map (·.id) ++ tail → (ids ++ placed.map (·.id)).Nodup →
    (∀ x ∈ placed, parcel? s x.id = some x ∧ ¬(x.kind = .data ∧ x.live = 0)) → (placed.map Parcel.remaining).sum ≤ limit →
    composeParcels t (placed.length + n) k limit items (flushed ids s) =
      composeParcels t n (k + placed.length) (limit - (placed.map Parcel.remaining).sum) (items ++ placed.flatMap parcelItems)
        (flushed (ids ++ placed.map (·.id)) s)
  | [], _, _, _, _, _, _, _, _, _, _ => by simp
  | x :: placed, tail, ids, k, n, limit, items, hqueue, hnodup, hall, hsum => by
    obtain ⟨hx, hlive⟩ := hall x List.mem_cons_self
    have hq : s.alloc.hosts[t].queue[k]? = some x.id := by
      rw [← List.head?_drop, hqueue]
      rfl
    have hnext : s.alloc.hosts[t].queue.drop (k + 1) = placed.map (·.id) ++ tail := by
      rw [← List.tail_drop, hqueue]
      rfl
    have hnot : x.id ∉ ids := fun hin => (List.nodup_append.mp hnodup).2.2 _ hin _ List.mem_cons_self rfl
    have hids : ids ++ (x :: placed).map (·.id) = ids ++ [x.id] ++ placed.map (·.id) := by simp
    rw [List.map_cons, List.sum_cons] at hsum
    have hcarry := composeParcels_carry (s := flushed ids s) (t := t) hq ((parcel?_flushed hnot).trans hx) hlive (limit := limit) (by omega)
      (placed.length + n) items
    rw [List.length_cons, show placed.length + 1 + n = placed.length + n + 1 by omega, hcarry, carryParcel_flushed,
      composeParcels_placed placed tail _ _ _ _ _ hnext (by rwa [hids] at hnodup) (fun y hy => hall y (List.mem_cons_of_mem _ hy)) (by omega),
      hids, List.map_cons, List.sum_cons, List.flatMap_cons, List.append_assoc, Nat.sub_sub,
      show k + 1 + placed.length = k + (placed.length + 1) by omega]

/-- The items that the first parcel which does not fit adds (R95 step 5). -/
def splitItems (room : Nat) (x : Parcel) : List RunItem :=
  if x.kind = .data ∧ 1 ≤ room then (parcelItems x).take room else []

/-- The composition of a run: the parcels that fit, then as much of the next as the room lets in (R95). -/
theorem composeParcels_run {placed rest : List Parcel} {limit n : Nat}
    (hqueue : s.alloc.hosts[t].queue = (placed ++ rest).map (·.id)) (hnodup : ((placed ++ rest).map (·.id)).Nodup)
    (hall : ∀ x ∈ placed ++ rest, parcel? s x.id = some x ∧ ¬(x.kind = .data ∧ x.live = 0))
    (hsum : (placed.map Parcel.remaining).sum ≤ limit)
    (hrest : ∀ x, rest.head? = some x → limit - (placed.map Parcel.remaining).sum < x.remaining) :
    composeParcels t (placed.length + (n + 1)) 0 limit [] s =
      (placed.flatMap parcelItems ++ (rest.take 1).flatMap (splitItems (limit - (placed.map Parcel.remaining).sum)),
        flushed ((placed ++ (rest.take 1).filter fun x => x.kind = .data ∧ 1 ≤ limit - (placed.map Parcel.remaining).sum).map (·.id)) s) := by
  have hsplit : s.alloc.hosts[t].queue.drop 0 = placed.map (·.id) ++ rest.map (·.id) := by rw [List.drop_zero, hqueue, List.map_append]
  rw [List.map_append] at hnodup
  have hplaced := composeParcels_placed (s := s) (t := t) placed (rest.map (·.id)) [] 0 (n + 1) limit [] hsplit
    (List.nodup_append.mp hnodup).1 (fun x hx => hall x (List.mem_append_left _ hx)) hsum
  rw [flushed_nil, Nat.zero_add, List.nil_append, List.nil_append] at hplaced
  rw [hplaced]
  generalize limit - (placed.map Parcel.remaining).sum = room at hrest
  cases rest with
  | nil =>
    have hq : (flushed (placed.map (·.id)) s).alloc.hosts[t].queue[placed.length]? = none := by
      rw [show (flushed (placed.map (·.id)) s).alloc = s.alloc from rfl, hqueue]
      simp
    rw [composeParcels_end hq]
    simp
  | cons x rest =>
    obtain ⟨hx, hlive⟩ := hall x (List.mem_append_right _ List.mem_cons_self)
    have hq : (flushed (placed.map (·.id)) s).alloc.hosts[t].queue[placed.length]? = some x.id := by
      rw [show (flushed (placed.map (·.id)) s).alloc = s.alloc from rfl, hqueue]
      simp
    have hnot : x.id ∉ placed.map (·.id) := fun hin => (List.nodup_append.mp hnodup).2.2 _ hin _ List.mem_cons_self rfl
    rw [composeParcels_split hq ((parcel?_flushed hnot).trans hx) hlive (hrest x rfl), carryParcel_flushed, List.take_succ_cons,
      List.take_zero, List.flatMap_singleton, splitItems]
    by_cases hs : x.kind = .data ∧ 1 ≤ room
    · rw [if_pos hs, if_pos hs, List.filter_cons_of_pos (by simpa using hs)]
      simp
    · rw [if_neg hs, if_neg hs, List.filter_cons_of_neg (by simpa using hs)]
      simp

/-- The most sectors of a run into a band, the header left out (R95 step 3). -/
def runLimit (s : State) (r : Band) : Nat := if r.wp = 0 then min (bandC s r - 5) 1023 else min (bandC s r - 4 - r.wp) 1024

theorem runRoom_eq (s : State) (r : Band) : runRoom s r = runLimit s r := by
  rw [runRoom, bandRoom, runLimit]
  split <;> rfl

theorem withHeader_eq (r : Band) (items : List RunItem) : withHeader r items = (if r.wp = 0 then [RunItem.header] else []) ++ items := by
  rw [withHeader]
  split <;> rfl

/-- The WRITE_RUN of an owner into band r, of the items and payloads given (R7, R10, R96). -/
def writeOperation (owner : Owner) (s : State) (r : Band) (items : List RunItem) (payload : RunItem → Block) : Operation :=
  newOperation .writeRun owner r.number (bandZone s r) r.wp items.length 0 items (buildSectors r payload (r.chain.getD 0) items)

theorem issueWrite_eq (owner : Owner) (r : Band) (items : List RunItem) (payload : RunItem → Block) (s : State) :
    issueWrite owner r items payload s =
      { s with sched := issued s (writeOperation owner s r items payload), engine := busyEngine s } := rfl

theorem issueHostRun_eq {r : Band} {items : List RunItem} {ids : List Nat}
    (h : composeParcels t (composerFuel t s) 0 (runRoom s r) [] s = (items, flushed ids s)) :
    issueHostRun t r s =
      { flushed ids s with
        sched := issued s (writeOperation (.hostWrite t) s r (withHeader r items) (hostPayload s))
        map := { s.map with held := true }
        engine := busyEngine s } := by
  rw [issueHostRun, h]
  dsimp only
  rw [hostPayload_flushed, issueWrite_eq]
  rfl

/-- A stream with an OPEN band issues the run that its queue composes (R95, R96). -/
theorem selectHost_run {b : Nat} {r : Band} {placed rest : List Parcel}
    (hqueue : s.alloc.hosts[t].queue = (placed ++ rest).map (·.id)) (hnodup : ((placed ++ rest).map (·.id)).Nodup)
    (hall : ∀ x ∈ placed ++ rest, parcel? s x.id = some x ∧ ¬(x.kind = .data ∧ x.live = 0)) (hne : placed ++ rest ≠ [])
    (hsum : (placed.map Parcel.remaining).sum ≤ runLimit s r)
    (hrest : ∀ x, rest.head? = some x → runLimit s r - (placed.map Parcel.remaining).sum < x.remaining)
    (ho : s.alloc.hosts[t].openBand = some b) (hb : band? s b = some r) (hopen : r.state = .opened) :
    selectHost t s =
      (let room := runLimit s r - (placed.map Parcel.remaining).sum
      ({ flushed ((placed ++ (rest.take 1).filter fun x => x.kind = .data ∧ 1 ≤ room).map (·.id)) s with
         sched :=
           issued s
             (writeOperation (.hostWrite t) s r
               (withHeader r (placed.flatMap parcelItems ++ (rest.take 1).flatMap (splitItems room))) (hostPayload s))
         map := { s.map with held := true }
         engine := busyEngine s }, true)) := by
  obtain ⟨x, l, hx⟩ := List.exists_cons_of_ne_nil hne
  have hhead : s.alloc.hosts[t].queue.head? = some x.id := by rw [hqueue, hx]; rfl
  obtain ⟨hxs, hlive⟩ := hall x (by rw [hx]; exact List.mem_cons_self)
  have hfuel : composerFuel t s = placed.length + (rest.length + 2 + 1) := by
    rw [composerFuel, hqueue, List.length_map, List.length_append]
    omega
  rw [← runRoom_eq] at hsum hrest
  have hrun := composeParcels_run (n := rest.length + 2) hqueue hnodup hall hsum hrest
  rw [← hfuel] at hrun
  rw [selectHost_living hhead hxs hlive, hostServed, openBandOf_eq (i := .host t) ho hb hopen]
  dsimp only
  rw [issueHostRun_eq hrun, ← runRoom_eq]

/-- A stream that is given a band goes on as one that has it (R91). -/
theorem selectHost_taken {id b : Nat} {x : Parcel} {u : State} {r : Band} (hq : s.alloc.hosts[t].queue.head? = some id)
    (hx : parcel? s id = some x) (hlive : ¬(x.kind = .data ∧ x.live = 0)) (ho : s.alloc.hosts[t].openBand = none)
    (hu : takeHostBand t s = some u) (hub : u.alloc.hosts[t].openBand = some b) (hband : band? u b = some r) (hopen : r.state = .opened) :
    selectHost t s = selectHost t u := by
  obtain ⟨hqueue, hstaging⟩ := takeHostBand_frame hu
  have hux : parcel? u id = some x := by rw [parcel?, hstaging]; exact hx
  have hopenu : openBandOf u (.host t) = some r := openBandOf_eq hub hband hopen
  rw [selectHost_living hq hx hlive, selectHost_living (by rw [hqueue, hq]) hux hlive, hostServed, hostServed,
    openBandOf_none (i := .host t) ho, hopenu]
  dsimp only
  rw [hu]
  dsimp only
  rw [hopenu]

/-! ### The relocation engine's run -/

/-- The state after the relocation stream has taken band b (R91, R93). -/
def relocTaken (b : Nat) (s : State) : State :=
  { takeBand b .relocation s with
    alloc :=
      { s.alloc with
        reloc := { s.alloc.reloc with openBand := some b, entries := [], overflow := false, finish := false } } }

theorem takeRelocBand_eq {b : Nat} (h : chooseRelocBand s = some b) : takeRelocBand s = some (relocTaken b s) := by
  rw [takeRelocBand, h]
  dsimp only
  rw [updReloc, (takeBand_frame b .relocation s).1]
  rfl

theorem band?_takeBand {b : Nat} {i : StreamId} {r : Band} (h : band? s b = some r) :
    ∃ x, band? (takeBand b i s) b = some x ∧ x.state = .opened := by
  refine ⟨{ r with
      state := .opened, stamp := nextStamp r.stamp, openSeq := some s.staging.seqCounter, wp := 0
      chain := some (bandSeed r.number (nextStamp r.stamp)), owner := some i, summaryPresent := false }, ?_, rfl⟩
  rw [takeBand, band?_freeChanged, band?_updBand, if_pos rfl, h]
  rfl

theorem issueReloc_write {r : Band} (h : openBandOf s .relocation = some r) : issueReloc .write s = issueRelocWrite r s := by
  rw [issueReloc, h]

theorem issueReloc_write_taken {b : Nat} {r : Band} (ho : s.alloc.reloc.openBand = none) (hc : chooseRelocBand s = some b)
    (hb : band? s b = some r) : issueReloc .write s = issueReloc .write (relocTaken b s) := by
  obtain ⟨x, hx, hopen⟩ := band?_takeBand (i := .relocation) hb
  have htaken : openBandOf (relocTaken b s) .relocation = some x := openBandOf_eq (i := .relocation) rfl hx hopen
  rw [issueReloc_write htaken, issueReloc, openBandOf_none (i := .relocation) ho]
  dsimp only
  rw [takeRelocBand_eq hc]
  dsimp only
  rw [htaken]

theorem issueRelocWrite_eq {r : Band} {k : Chunk} (hk : s.engine.chunk = some k) :
    issueRelocWrite r s =
      (let copies := (k.copies.filter fun c => c.state = .unwritten).take (runLimit s r)
      { s with
        sched := issued s (writeOperation .relocWrite s r (withHeader r (copies.map copyItem)) (copyPayload copies))
        engine :=
          { busyEngine s with
            chunk :=
              some
                { k with
                  copies := k.copies.map fun c =>
                    if c.victimOffset ∈ copies.map (fun y => y.victimOffset) then { c with state := .inFlight } else c } } }) := by
  have hcopies : unwrittenCopies s = k.copies.filter fun c => c.state = .unwritten := by
    rw [unwrittenCopies, hk]
    rfl
  rw [issueRelocWrite, hcopies, runRoom_eq, issueWrite_eq]
  simp only [setCopies, updChunk, updEngine, hk, Option.map_some]
  rfl

/-! ### The sectors of a run -/

theorem itemSector_trailer (r : Band) (payload : RunItem → Block) (c : Chain) (i : RunItem) :
    (i = .header →
      (itemSector r c (payload i) i).payload = headerPayload r.number r.stamp (r.openSeq.getD 0) ∧
      (itemSector r c (payload i) i).trailer = bandTrailer r 1 0 (r.openSeq.getD 0) (bandSeed r.number r.stamp)) ∧
    (∀ p j L q, i = .data p j L q ∨ i = .copy p L q →
      (itemSector r c (payload i) i).payload = payload i ∧
      (itemSector r c (payload i) i).trailer = bandTrailer r 2 L q (chainNext c (payload i))) ∧
    ∀ p L m q, i = .note p L m q ∨ i = .noteCopy p L m q →
      (itemSector r c (payload i) i).payload = payload i ∧
      (itemSector r c (payload i) i).trailer = bandTrailer r 3 L q (chainNext c (payload i)) := by
  refine ⟨?_, ?_, ?_⟩
  · rintro rfl
    exact ⟨rfl, rfl⟩
  · rintro p j L q (rfl | rfl)
    · exact ⟨rfl, rfl⟩
    · exact ⟨rfl, rfl⟩
  · rintro p L m q (rfl | rfl)
    · exact ⟨rfl, rfl⟩
    · exact ⟨rfl, rfl⟩

end

/-- Settles O37: the drops at the head, the band chosen and taken, the composition, and the sectors. -/
theorem writeRunIsComposedAndIssued : Obligations.WriteRunIsComposedAndIssued := by
  refine ⟨fun s t n => ⟨fun id x hq hx => dropAtHead_succ hq hx n, fun h => ⟨dropAtHead_nil h n, selectHost_nil h⟩⟩,
    fun s x => ⟨bandCandidates_sublist x, fun r => mem_bandCandidates, chooseHostBand_eq_none, fun b hb => ?_, chooseRelocBand_eq s⟩,
    fun s t => ⟨takeHostBand_reserve, fun b hfree hb => takeHostBand_taken hfree hb⟩, ?_, ?_,
    fun s t n k limit id items x hq hx hkind hlive => composeParcels_drop hq hx ⟨hkind, hlive⟩ n limit items,
    fun s b r ho hc hb _ => issueReloc_write_taken ho hc hb, ?_, fun r payload c i is => ⟨rfl, _, rfl, itemSector_trailer r payload c i⟩⟩
  · obtain ⟨pre, r, post, hsplit, hnumber, hpre, hall⟩ := chooseHostBand_spec hb
    exact ⟨pre, r, post, hsplit, hnumber, hpre, hall⟩
  · intro s t b r placed rest queue left sectors limit room split carried items hqueue hnodup hall hne hsum hrest ho hb hopen hnumber
    subst hnumber
    have hitems : withHeader r (placed.flatMap parcelItems ++ (rest.take 1).flatMap (splitItems room)) = items := by
      rw [withHeader_eq, ← List.append_assoc]
      rfl
    have hrun := selectHost_run hqueue hnodup hall hne hsum hrest ho hb hopen
    refine hrun.trans ?_
    change (_, true) = _
    rw [show withHeader r (placed.flatMap parcelItems ++ (rest.take 1).flatMap (splitItems
      (runLimit s r - (placed.map Parcel.remaining).sum))) = items from hitems]
    rfl
  · intro s t id x hq hx hlive ho
    refine ⟨fun hu => ?_, fun u b r hu hub hband hopen => selectHost_taken hq hx hlive ho hu hub hband hopen⟩
    rw [selectHost_living hq hx hlive, hostServed, openBandOf_none (i := .host t) ho]
    dsimp only
    rw [hu]
  · intro s b r k ho hb hopen hnumber hk limit copies items
    subst hnumber
    rw [issueReloc_write (openBandOf_eq (i := .relocation) ho hb hopen), issueRelocWrite_eq hk]
    have hitems : withHeader r (copies.map copyItem) = items := withHeader_eq ..
    change ({ s with sched := issued s (writeOperation .relocWrite s r (withHeader r (copies.map copyItem)) _), engine := _ } : State) = _
    rw [hitems]
    rfl

end Sys2Proof.Machine
end

section
/-! PROOFS. Layouts: the header and trailer fields at their bytes, and the settings record (R171, R176 to R178). -/

namespace Sys2Proof.Machine
open Sys2Proof.Safety

/-! ### Fields of a layout -/

/-- The lowest field of a layout. -/
theorem extractLsb'_low {v w : Nat} (x : BitVec v) (y : BitVec w) : (x ++ y).extractLsb' 0 w = y := by
  rw [BitVec.extractLsb'_append_eq_of_add_le (Nat.le_of_eq (Nat.zero_add w)), BitVec.extractLsb'_eq_self]

theorem encodeHeader_value (f : RequestFrame) : (encodeHeader f).extractLsb' 256 64 = f.value := by
  rw [encodeHeader]
  repeat rw [BitVec.extractLsb'_append_eq_of_le (by decide)]
  exact BitVec.extractLsb'_eq_self

theorem decodeHeader_encodeHeader (f : RequestFrame) : decodeHeader (encodeHeader f) f.data = f := by
  have hvalue := encodeHeader_value f
  obtain ⟨tag, kind, custody, dataCount, stream, zoneOrder, coldPlacement, apply, band, lbn, length, param, value, data⟩ := f
  rw [decodeHeader, hvalue]
  simp only [RequestFrame.mk.injEq, and_true]
  rw [encodeHeader]
  refine ⟨?_, ?_, ?_, ?_, ?_, ?_, ?_, ?_, ?_, ?_, ?_, ?_⟩ <;>
    · repeat rw [BitVec.extractLsb'_append_eq_of_le (by decide)]
      exact extractLsb'_low ..

theorem decodeTrailer_encodeTrailer (t : Trailer) : decodeTrailer (encodeTrailer t) = t := by
  obtain ⟨kind, stamp, band, logical, sequence, chain⟩ := t
  simp only [decodeTrailer, Trailer.mk.injEq]
  rw [encodeTrailer]
  refine ⟨?_, ?_, ?_, ?_, ?_, ?_⟩ <;>
    · repeat rw [BitVec.extractLsb'_append_eq_of_le (by decide)]
      exact extractLsb'_low ..

/-! ### The settings record -/

/-- The value of field i of packed words. -/
theorem packWords_field (vs : List Nat) (i : Nat) : packWords vs / 2 ^ (64 * i) % 2 ^ 64 = vs.getD i 0 % 2 ^ 64 := by
  induction vs generalizing i with
  | nil => simp [packWords]
  | cons v vs ih =>
    cases i with
    | zero =>
      rw [packWords, Nat.mul_zero, Nat.pow_zero, Nat.div_one, List.getD_cons_zero]
      omega
    | succ i =>
      have hnext : (v % 2 ^ 64 + packWords vs * 2 ^ 64) / 2 ^ 64 = packWords vs := by omega
      rw [packWords, List.getD_cons_succ, ← ih, Nat.mul_succ, Nat.add_comm (64 * i), Nat.pow_add, ← Nat.div_div_eq_div_mul, hnext]

theorem packWords_lt (vs : List Nat) : packWords vs < 2 ^ (64 * vs.length) := by
  induction vs with
  | nil => exact Nat.one_pos
  | cons v vs ih =>
    have hword : v % 2 ^ 64 < 2 ^ 64 := Nat.mod_lt _ (Nat.two_pow_pos 64)
    rw [packWords, List.length_cons, Nat.mul_succ, Nat.pow_add]
    calc v % 2 ^ 64 + packWords vs * 2 ^ 64
        < (packWords vs + 1) * 2 ^ 64 := by omega
      _ ≤ 2 ^ (64 * vs.length) * 2 ^ 64 := Nat.mul_le_mul_right _ ih

/-- The check field of an image's record (R178). -/
def imageCheck (x : Settings) : Nat := (payloadCheck (BitVec.ofNat 32768 (recordBody x))).toNat

theorem imageCheck_lt (x : Settings) : imageCheck x < 2 ^ 32 := (payloadCheck _).isLt

theorem packedValues_lt (x : Settings) : packWords (settingValues x) < 2 ^ 896 := packWords_lt (settingValues x)

/-- A number below 2^1024 is the block that it makes. -/
theorem toNat_block {n : Nat} (h : n < 2 ^ 1024) : (BitVec.ofNat 32768 n).toNat = n := by
  rw [BitVec.toNat_ofNat]
  exact Nat.mod_eq_of_lt (Nat.lt_of_lt_of_le h (Nat.pow_le_pow_right Nat.two_pos (by decide)))

theorem recordBody_lt (x : Settings) : recordBody x + imageCheck x * 2 ^ 64 < 2 ^ 1024 := by
  have hcheck := imageCheck_lt x
  have hpacked := packedValues_lt x
  rw [recordBody]
  omega

theorem settingsRecord_toNat (x : Settings) : (settingsRecord x).toNat = recordBody x + imageCheck x * 2 ^ 64 :=
  toNat_block (recordBody_lt x)

theorem recordCheck_settingsRecord (x : Settings) : recordCheck (settingsRecord x) = imageCheck x := by
  have hcheck := imageCheck_lt x
  rw [recordCheck, settingsRecord_toNat, recordBody]
  omega

theorem recordUnchecked_settingsRecord (x : Settings) : recordUnchecked (settingsRecord x) = BitVec.ofNat 32768 (recordBody x) := by
  rw [recordUnchecked, recordCheck_settingsRecord, settingsRecord_toNat, Nat.add_sub_cancel]

/-- Setting i + 1 stands at byte 10h + 8 i of the record (R178). -/
theorem recordValue_settingsRecord (x : Settings) (i : Nat) (hi : i < 14) (hlt : settingOf x (i + 1) < 2 ^ 64) :
    recordValue (settingsRecord x) (i + 1) = settingOf x (i + 1) := by
  have hcheck := imageCheck_lt x
  have hpacked : (settingsRecord x).toNat / 2 ^ 128 = packWords (settingValues x) := by
    rw [settingsRecord_toNat, recordBody]
    omega
  have hvalue : (settingValues x).getD i 0 = settingOf x (i + 1) := by
    rw [settingValues, List.getD_eq_getElem?_getD, List.getElem?_map, List.getElem?_range hi]
    rfl
  rw [recordValue, Nat.add_sub_cancel, Nat.pow_add, ← Nat.div_div_eq_div_mul, hpacked, packWords_field, hvalue, Nat.mod_eq_of_lt hlt]

theorem settingOf_lt {x : Settings} (h : InRange x) (id : Nat) : settingOf x id < 2 ^ 64 := by
  obtain ⟨h1, ⟨-, h2⟩, ⟨-, h3⟩, ⟨-, h4⟩, ⟨-, h5⟩, ⟨-, h6⟩, h7, ⟨-, h8⟩, ⟨-, h9⟩, ⟨-, h10⟩, h11, ⟨-, h12⟩⟩ := h
  have hmask := x.coldMask.isLt
  rw [settingOf.eq_def]
  split <;> first | omega | (split <;> omega)

/-- The record of an image in range gives the image back (R171, R178). -/
theorem recordImage_settingsRecord {x : Settings} (h : InRange x) : recordImage (settingsRecord x) = x := by
  have hvalue (i : Nat) (hi : i < 14) : recordValue (settingsRecord x) (i + 1) = settingOf x (i + 1) :=
    recordValue_settingsRecord x i hi (settingOf_lt h _)
  rw [recordImage, hvalue 0 (by decide), hvalue 1 (by decide), hvalue 2 (by decide), hvalue 3 (by decide), hvalue 4 (by decide),
    hvalue 5 (by decide), hvalue 6 (by decide), hvalue 7 (by decide), hvalue 8 (by decide), hvalue 9 (by decide), hvalue 10 (by decide),
    hvalue 11 (by decide), hvalue 12 (by decide), hvalue 13 (by decide)]
  have hmask : BitVec.ofNat 64 x.coldMask.toNat = x.coldMask := by simp
  have hrefusal : ((if x.collisionRefusal then 1 else 0) != 0) = x.collisionRefusal := by cases x.collisionRefusal <;> rfl
  simp only [settingOf, hmask, hrefusal]

theorem recordValid_settingsRecord {x : Settings} (h : x.inRange = true) : recordValid (settingsRecord x) = true := by
  have hin := (inRange_iff x).mp h
  have hrange : recordInRange (settingsRecord x) = true := by
    have hall : ∀ i ∈ List.range 14, recordValue (settingsRecord x) (i + 1) = settingOf x (i + 1) := fun i hi =>
      recordValue_settingsRecord x i (List.mem_range.mp hi) (settingOf_lt hin _)
    rw [Settings.inRange, List.all_eq_true] at h
    rw [recordInRange, List.all_eq_true]
    intro i hi
    rw [hall 8 (by decide), hall i hi]
    exact h i hi
  have hmarker : (settingsRecord x).toNat % 2 ^ 32 = 42592 := by
    rw [settingsRecord_toNat, recordBody]
    omega
  have hformat : (settingsRecord x).toNat / 2 ^ 32 % 2 ^ 16 = 1 := by
    rw [settingsRecord_toNat, recordBody]
    omega
  rw [recordValid, hmarker, hformat, hrange, recordUnchecked_settingsRecord, recordCheck_settingsRecord, imageCheck]
  simp

/-- Settles O56: field by field, and value by value. -/
theorem layoutsAndSettingsRecordRoundTrip : Obligations.LayoutsAndSettingsRecordRoundTrip := by
  refine ⟨⟨decodeHeader_encodeHeader, decodeTrailer_encodeTrailer, fun f => ?_, fun t => ?_⟩, fun x hx =>
    ⟨recordValid_settingsRecord hx, recordImage_settingsRecord ((inRange_iff x).mp hx)⟩⟩
  · have hfields := decodeHeader_encodeHeader f
    refine ⟨congrArg RequestFrame.kind hfields, ?_, congrArg RequestFrame.lbn hfields, congrArg RequestFrame.value hfields⟩
    rw [encodeHeader]
    repeat rw [BitVec.extractLsb'_append_eq_of_le (by decide)]
    exact extractLsb'_low ..
  · have hfields := decodeTrailer_encodeTrailer t
    refine ⟨congrArg Trailer.sequence hfields, congrArg Trailer.chain hfields, ?_⟩
    rw [encodeTrailer]
    repeat rw [BitVec.extractLsb'_append_eq_of_le (by decide)]
    exact extractLsb'_low ..

end Sys2Proof.Machine
end

section
/-! PROOFS. The map build: winning copies, the MEDIA records made of them, and the LOST rest (R46, R174). -/

namespace Sys2Proof.Machine
open Sys2Proof.Safety

/-! ### Winners -/

theorem copyWins_iff (x y : FoundCopy) :
    copyWins x y = true ↔
      y.seq < x.seq ∨
        (x.seq = y.seq ∧
          (y.openSeq < x.openSeq ∨
            (x.openSeq = y.openSeq ∧ (y.band < x.band ∨ (x.band = y.band ∧ y.offset < x.offset))))) := by
  simp only [copyWins, Bool.or_eq_true, Bool.and_eq_true, decide_eq_true_iff, beq_iff_eq]

/-- The first copy of an LBN, after the head of the list. -/
theorem find?_lbn_cons (y : FoundCopy) (l : List FoundCopy) (L : Nat) :
    (y :: l).find? (fun c => c.lbn = L) = if y.lbn = L then some y else l.find? fun c => c.lbn = L := by
  by_cases h : y.lbn = L
  · rw [List.find?_cons_of_pos (p := fun c : FoundCopy => decide (c.lbn = L)) (decide_eq_true h), if_pos h]
  · rw [List.find?_cons_of_neg (by simpa using h), if_neg h]

theorem find?_lbn_none {l : List FoundCopy} {L : Nat} (h : ∀ y ∈ l, y.lbn ≠ L) : l.find? (fun c => c.lbn = L) = none :=
  List.find?_eq_none.mpr fun y hy => by simpa using h y hy

theorem find?_addCopy_other (x : FoundCopy) {L : Nat} (hL : L ≠ x.lbn) : ∀ l : List FoundCopy,
    (addCopy x l).find? (fun c => c.lbn = L) = l.find? fun c => c.lbn = L
  | [] => by rw [addCopy, find?_lbn_cons, if_neg hL.symm]
  | y :: ys => by
    rw [addCopy]
    split
    · rw [find?_lbn_cons, if_neg hL.symm]
    · split
      · next heq =>
        have hboth : ∀ z, z = x ∨ z = y → z.lbn ≠ L := fun z hz => by
          rcases hz with rfl | rfl
          · exact hL.symm
          · exact heq ▸ hL.symm
        rw [find?_lbn_cons, find?_lbn_cons y, if_neg (hboth y (.inr rfl)), if_neg]
        split
        · exact hboth x (.inl rfl)
        · exact hboth y (.inr rfl)
      · rw [find?_lbn_cons, find?_lbn_cons y, find?_addCopy_other x hL ys]

theorem find?_addCopy_new (x : FoundCopy) : ∀ {l : List FoundCopy}, l.find? (fun c => c.lbn = x.lbn) = none →
    (addCopy x l).find? (fun c => c.lbn = x.lbn) = some x
  | [], _ => by rw [addCopy, find?_lbn_cons, if_pos rfl]
  | y :: ys, h => by
    rw [find?_lbn_cons] at h
    split at h
    · cases h
    · next hy =>
      rw [addCopy]
      split
      · rw [find?_lbn_cons, if_pos rfl]
      · rw [if_neg (Ne.symm hy), find?_lbn_cons, if_neg hy, find?_addCopy_new x h]

theorem find?_addCopy_known (x : FoundCopy) {y : FoundCopy} : ∀ {l : List FoundCopy}, Ascending l → l.find? (fun c => c.lbn = x.lbn) = some y →
    (addCopy x l).find? (fun c => c.lbn = x.lbn) = some (if copyWins x y then x else y)
  | z :: zs, hl, h => by
    obtain ⟨hz, hzs⟩ := List.pairwise_cons.mp hl
    rw [find?_lbn_cons] at h
    split at h
    · next heq =>
      cases h
      rw [addCopy, if_neg (by omega), if_pos heq.symm, find?_lbn_cons, if_pos]
      split
      · rfl
      · exact heq
    · next hne =>
      obtain ⟨hmem, hlbn⟩ : y ∈ zs ∧ y.lbn = x.lbn := ⟨List.mem_of_find?_eq_some h, by simpa using List.find?_some h⟩
      have hlt := hz y hmem
      rw [addCopy, if_neg (by omega), if_neg (Ne.symm hne), find?_lbn_cons, if_neg hne, find?_addCopy_known x hzs h]

/-! ### The record that a copy gives -/

/-- The record of a winner that no note hides (R174). -/
def copyRecord (x : FoundCopy) : Extent := { start := x.lbn, len := 1, loc := .media x.band x.offset }

/-- Where the map build places block L (R174). -/
def placedCopy (notes : List FoundNote) (ws : List FoundCopy) (L : Nat) : Option Location :=
  (ws.find? fun c => c.lbn = L).bind fun x => if noteHides notes x then none else some (.media x.band x.offset)

theorem placedCopy_none {notes : List FoundNote} {ws : List FoundCopy} {L : Nat} (h : ∀ y ∈ ws, y.lbn ≠ L) : placedCopy notes ws L = none := by
  rw [placedCopy, find?_lbn_none h]
  rfl

theorem placedCopy_cons {notes : List FoundNote} {x : FoundCopy} {xs : List FoundCopy} (h : Ascending (x :: xs)) (L : Nat) :
    placedCopy notes (x :: xs) L =
      if noteHides notes x then placedCopy notes xs L else (resolve [copyRecord x] L).or (placedCopy notes xs L) := by
  have hlater (hL : x.lbn = L) : placedCopy notes xs L = none :=
    placedCopy_none fun y hy hyL => absurd ((List.pairwise_cons.mp h).1 y hy) (by omega)
  by_cases hL : x.lbn = L
  · have hat : resolve [copyRecord x] L = some (.media x.band x.offset) := by
      rw [resolve_cons, copyRecord, if_pos (by simp only; omega), hL, Nat.sub_self, Location.shift_zero]
    rw [placedCopy, find?_lbn_cons, if_pos hL, Option.bind_some, hlater hL, hat]
    split <;> rfl
  · have hat : resolve [copyRecord x] L = none := by
      rw [resolve_cons, copyRecord, if_neg (by simp only; omega), resolve_nil]
    rw [placedCopy, find?_lbn_cons, if_neg hL, hat, Option.none_or, ite_self]
    rfl

/-! ### The records made, copy by copy -/

/-- What the build does with the next winner: nothing where a note hides it, else it lengthens the last record, makes one, or finds the
records spent. -/
theorem mediaRecords_cases (notes : List FoundNote) (x : FoundCopy) (xs : List FoundCopy) (done : List Extent) (n : Nat) :
    (noteHides notes x = true ∧ mediaRecords notes (x :: xs) done n = mediaRecords notes xs done n) ∨
    noteHides notes x = false ∧
      ((∃ last rest, done = last :: rest ∧ mergeable last (copyRecord x) = true ∧
          mediaRecords notes (x :: xs) done n = mediaRecords notes xs ({ last with len := last.len + 1 } :: rest) n) ∨
        ((n < 1044480 ∨ done = []) ∧ mediaRecords notes (x :: xs) done n = mediaRecords notes xs (copyRecord x :: done) (n + 1)) ∨
        (1044480 ≤ n ∧ mediaRecords notes (x :: xs) done n = (done, some x.lbn))) := by
  cases hides : noteHides notes x with
  | true =>
    refine .inl ⟨rfl, ?_⟩
    rw [mediaRecords, if_pos hides]
  | false =>
    refine .inr ⟨rfl, ?_⟩
    rw [mediaRecords, if_neg (by rw [hides]; exact Bool.false_ne_true)]
    cases done with
    | nil => exact .inr (.inl ⟨.inr rfl, rfl⟩)
    | cons last rest =>
      dsimp only
      by_cases hm : mergeable last (copyRecord x) = true
      · exact .inl ⟨last, rest, rfl, hm, if_pos hm⟩
      · rw [if_neg (show ¬mergeable last { start := x.lbn, len := 1, loc := .media x.band x.offset } = true from hm)]
        by_cases hn : n < Config.mapCapacity - Config.rebuildReserve
        · exact .inr (.inl ⟨.inl hn, if_pos hn⟩)
        · exact .inr (.inr ⟨Nat.le_of_not_lt hn, if_neg hn⟩)

/-- The last record with one more sector places what it placed, and the copy (R174). -/
theorem resolve_merged {last : Extent} {x : FoundCopy} (h : mergeable last (copyRecord x) = true) (L : Nat) :
    resolve [{ last with len := last.len + 1 }] L = (resolve [last] L).or (resolve [copyRecord x] L) := by
  obtain ⟨hend, hloc⟩ := mergeable_spec h
  have hend : last.start + last.len = x.lbn := hend
  have hloc : Location.media x.band x.offset = last.loc.shift last.len := hloc
  rw [resolve_cons, resolve_cons, resolve_cons, resolve_nil, copyRecord]
  dsimp only
  by_cases hin : last.start ≤ L ∧ L < last.start + last.len
  · rw [if_pos (by omega), if_pos hin, Option.some_or]
  · rw [if_neg hin, Option.none_or]
    by_cases hat : L = x.lbn
    · rw [if_pos (by omega), if_pos (by omega), hloc, show L - x.lbn = 0 by omega, Location.shift_zero, show L - last.start = last.len by omega]
    · rw [if_neg (by omega), if_neg (by omega)]

theorem resolve_mediaRecords (notes : List FoundNote) : ∀ (ws : List FoundCopy) (done : List Extent) (n : Nat), Ascending ws →
    ∀ d o, mediaRecords notes ws done n = (d, o) → ∀ L, (∀ a, o = some a → L < a) →
      resolve d.reverse L = (resolve done.reverse L).or (placedCopy notes ws L)
  | [], done, n, _, d, o, h, L, _ => by
    cases h
    exact (Option.or_none).symm
  | x :: xs, done, n, hw, d, o, h, L, hL => by
    obtain ⟨hx, hxs⟩ := List.pairwise_cons.mp hw
    rw [placedCopy_cons hw]
    rcases mediaRecords_cases notes x xs done n with ⟨hides, hrec⟩ | ⟨hshown, ⟨last, rest, rfl, hm, hrec⟩ | ⟨-, hrec⟩ | ⟨-, hrec⟩⟩
    · rw [hrec] at h
      rw [if_pos hides, resolve_mediaRecords notes xs done n hxs d o h L hL]
    · rw [hrec] at h
      rw [hshown, resolve_mediaRecords notes xs _ n hxs d o h L hL, List.reverse_cons, List.reverse_cons, resolve_append, resolve_append,
        resolve_merged hm, if_neg Bool.false_ne_true]
      simp only [Option.or_assoc]
    · rw [hrec] at h
      rw [hshown, resolve_mediaRecords notes xs _ (n + 1) hxs d o h L hL, List.reverse_cons, resolve_append, Option.or_assoc,
        if_neg Bool.false_ne_true]
    · rw [hrec] at h
      cases h
      have hlt := hL x.lbn rfl
      have hat : resolve [copyRecord x] L = none := by
        rw [resolve_cons, copyRecord, if_neg (by simp only; omega), resolve_nil]
      rw [hshown, hat, Option.none_or, placedCopy_none fun y hy => ne_of_gt (Nat.lt_trans hlt (hx y hy)), if_neg Bool.false_ne_true, Option.or_none]

/-- How many records the build makes, and when it finds them spent (R174; assumption 35). -/
theorem length_mediaRecords (notes : List FoundNote) : ∀ (ws : List FoundCopy) (done : List Extent) (n : Nat), done.length = n → n ≤ 1044480 →
    ∀ d o, mediaRecords notes ws done n = (d, o) →
      d.length ≤ 1044480 ∧ (∀ a, o = some a → d.length = 1044480 ∧ ∃ x ∈ ws, x.lbn = a) ∧ (n + ws.length ≤ 1044480 → o = none)
  | [], done, n, hlen, hn, d, o, h => by
    cases h
    exact ⟨hlen ▸ hn, nofun, fun _ => rfl⟩
  | x :: xs, done, n, hlen, hn, d, o, h => by
    have hwider {b : Nat} (hex : ∃ y ∈ xs, y.lbn = b) : ∃ y ∈ x :: xs, y.lbn = b := by
      obtain ⟨y, hy, hyb⟩ := hex
      exact ⟨y, List.mem_cons_of_mem _ hy, hyb⟩
    rw [List.length_cons]
    rcases mediaRecords_cases notes x xs done n with ⟨-, hrec⟩ | ⟨-, ⟨last, rest, rfl, -, hrec⟩ | ⟨hroom, hrec⟩ | ⟨hfull, hrec⟩⟩
    · rw [hrec] at h
      obtain ⟨hmax, hspent, hall⟩ := length_mediaRecords notes xs done n hlen hn d o h
      exact ⟨hmax, fun a ha => ⟨(hspent a ha).1, hwider (hspent a ha).2⟩, fun hsum => hall (by omega)⟩
    · rw [hrec] at h
      obtain ⟨hmax, hspent, hall⟩ := length_mediaRecords notes xs ({ last with len := last.len + 1 } :: rest) n hlen hn d o h
      exact ⟨hmax, fun a ha => ⟨(hspent a ha).1, hwider (hspent a ha).2⟩, fun hsum => hall (by omega)⟩
    · rw [hrec] at h
      have hlt : n < 1044480 := by
        rcases hroom with hlt | rfl
        · exact hlt
        · rw [← hlen, List.length_nil]
          decide
      obtain ⟨hmax, hspent, hall⟩ := length_mediaRecords notes xs _ (n + 1) (by rw [List.length_cons, hlen]) hlt d o h
      exact ⟨hmax, fun a ha => ⟨(hspent a ha).1, hwider (hspent a ha).2⟩, fun hsum => hall (by omega)⟩
    · rw [hrec] at h
      cases h
      refine ⟨hlen ▸ hn, fun a ha => ⟨by omega, x, List.mem_cons_self, Option.some.inj ha⟩, fun hsum => ?_⟩
      omega

/-! ### The map -/

/-- Of a list of LOST records a block is LOST exactly when one of them covers it. -/
theorem resolve_of_lost {m : List Extent} (L : Nat) (h : ∀ r ∈ m, r.loc = .lost) :
    resolve m L = if ∃ r ∈ m, r.start ≤ L ∧ L < r.start + r.len then some .lost else none := by
  induction m with
  | nil => rw [if_neg (fun hex => by obtain ⟨r, hr, -⟩ := hex; exact absurd hr List.not_mem_nil), resolve_nil]
  | cons r m ih =>
    rw [resolve_cons, ih fun x hx => h x (List.mem_cons_of_mem _ hx)]
    by_cases hin : r.start ≤ L ∧ L < r.start + r.len
    · rw [if_pos hin, if_pos ⟨r, List.mem_cons_self, hin⟩, h r List.mem_cons_self]
      rfl
    · rw [if_neg hin]
      refine ite_cond_congr (propext ⟨fun hex => ?_, fun hex => ?_⟩)
      · obtain ⟨x, hx, hxL⟩ := hex
        exact ⟨x, List.mem_cons_of_mem _ hx, hxL⟩
      · obtain ⟨x, hx, hxL⟩ := hex
        rcases List.mem_cons.mp hx with rfl | hx
        · exact absurd hxL hin
        · exact ⟨x, hx, hxL⟩

/-- The LOST records over a range resolve it, and nothing else, to LOST (R174). -/
theorem resolve_lostRecords (a e L : Nat) : resolve (lostRecords a e) L = if a ≤ L ∧ L < e then some .lost else none := by
  rw [resolve_of_lost L fun r hr => (lostRecords_start a e r hr).2]
  refine ite_cond_congr (propext ⟨fun hex => ?_, fun hin => ?_⟩)
  · obtain ⟨r, hr, hrL⟩ := hex
    simp only [lostRecords, List.mem_map, List.mem_range] at hr
    obtain ⟨i, hi, rfl⟩ := hr
    simp only [Config.lostLimit] at hi hrL
    omega
  · refine ⟨_, List.mem_map.mpr ⟨(L - a) / 2 ^ 24, List.mem_range.mpr ?_, rfl⟩, ?_⟩
    · simp only [Config.lostLimit]
      omega
    · simp only [Config.lostLimit]
      omega

theorem length_lostRecords (a e : Nat) : (lostRecords a e).length = (e - a + (2 ^ 24 - 1)) / 2 ^ 24 := by
  rw [lostRecords, List.length_map, List.length_range]

/-- Records that end at or before L place nothing there. -/
theorem resolve_of_ended {m : List Extent} {L : Nat} (h : ∀ r ∈ m, r.start + r.len ≤ L) : resolve m L = none := by
  induction m with
  | nil => rfl
  | cons r m ih =>
    have hr := h r List.mem_cons_self
    rw [resolve_cons, if_neg (by omega), ih fun x hx => h x (List.mem_cons_of_mem _ hx)]

theorem placedCopy_eq (notes : List FoundNote) (ws : List FoundCopy) (L : Nat) :
    ((ws.find? fun c => c.lbn = L).bind fun x =>
      if notes.any fun n => n.first ≤ x.lbn ∧ x.lbn < n.first + n.length ∧ x.seq < n.seq then none
      else some (Location.media x.band x.offset)) = placedCopy notes ws L := by
  refine congrArg (Option.bind _) (funext fun x => ?_)
  have hides : (notes.any fun n => n.first ≤ x.lbn ∧ x.lbn < n.first + n.length ∧ x.seq < n.seq) = noteHides notes x :=
    congrArg (fun p => notes.any p) (funext fun n => by rw [Bool.decide_and, Bool.decide_and, Bool.and_assoc])
  rw [hides]

/-- No record made reaches past the LBN whose record was wanted and not made. -/
theorem ends_mediaRecords {notes : List FoundNote} {ws : List FoundCopy} (hw : Ascending ws) {d : List Extent} {a : Nat}
    (h : mediaRecords notes ws [] 0 = (d, some a)) : ∀ r ∈ d.reverse, r.start + r.len ≤ a := by
  obtain ⟨hmade, hends⟩ := made_mediaRecords notes ws [] 0 hw made_nil (by simp)
  rw [h] at hmade hends
  cases d with
  | nil => exact fun r hr => absurd hr List.not_mem_nil
  | cons last rest =>
    have hlast := hends a rfl last rfl
    have hok := made_reverse hmade
    rw [List.reverse_cons] at hok ⊢
    intro r hr
    rcases List.mem_append.mp hr with hr | hr
    · exact Nat.le_trans (hok.ends_le r hr) (Nat.le_trans (Nat.le_add_right _ _) hlast)
    · exact List.mem_singleton.mp hr ▸ hlast

theorem buildMap_whole {s : State} {d : List Extent} (h : mediaRecords s.startup.found.notes s.startup.found.winners [] 0 = (d, none)) :
    buildMap s = { s with map := { s.map with records := d.reverse } } := by
  rw [buildMap, h]

theorem buildMap_spent {s : State} {d : List Extent} {a : Nat}
    (h : mediaRecords s.startup.found.notes s.startup.found.winners [] 0 = (d, some a)) :
    buildMap s =
      placeNotice .rebuildAnomaly none { s with map := { s.map with records := d.reverse ++ lostRecords a s.startup.nLog } } := by
  rw [buildMap, h]

/-- Where the map of a build that ran out of records places a block (R174). -/
theorem resolve_spent {notes : List FoundNote} {ws : List FoundCopy} (hw : Ascending ws) {d : List Extent} {a : Nat}
    (h : mediaRecords notes ws [] 0 = (d, some a)) (e L : Nat) :
    resolve (d.reverse ++ lostRecords a e) L = if L < a then placedCopy notes ws L else if L < e then some .lost else none := by
  rw [resolve_append, resolve_lostRecords]
  by_cases hL : L < a
  · rw [if_pos hL, if_neg (by omega), Option.or_none,
      resolve_mediaRecords notes ws [] 0 hw d (some a) h L fun b hb => Option.some.inj hb ▸ hL]
    rfl
  · have hended : resolve d.reverse L = none :=
      resolve_of_ended fun r hr => Nat.le_trans (ends_mediaRecords hw h r hr) (Nat.le_of_not_lt hL)
    rw [if_neg hL, hended, Option.none_or]
    exact ite_cond_congr (propext ⟨fun hin => hin.2, fun hlt => ⟨Nat.le_of_not_lt hL, hlt⟩⟩)

/-- Settles O54: the winners, and the records made of them, with the rest LOST where they run out. -/
theorem mapBuildTakesWinningCopies : Obligations.MapBuildTakesWinningCopies := by
  refine ⟨copyWins_iff, fun x l hl => ⟨ascending_addCopy x l hl, fun L => ?_⟩, fun s hw hlt hlog => ?_⟩
  · by_cases hL : L = x.lbn
    · subst hL
      rw [if_pos rfl]
      cases hf : l.find? fun c => c.lbn = x.lbn with
      | none => exact find?_addCopy_new x hf
      | some y => exact find?_addCopy_known x hl hf
    · rw [if_neg hL, find?_addCopy_other x hL]
  · simp only [placedCopy_eq]
    have hlaw : MapLaw (buildMap s) := (mapOrdered_iff _).mpr (mapOk_buildMap s hw)
    obtain ⟨⟨d, o⟩, hrec⟩ : ∃ out, mediaRecords s.startup.found.notes s.startup.found.winners [] 0 = out := ⟨_, rfl⟩
    obtain ⟨hmax, hspent, hall⟩ := length_mediaRecords _ _ [] 0 rfl (Nat.zero_le _) d o hrec
    cases o with
    | none =>
      have hplaced (L : Nat) := resolve_mediaRecords _ _ [] 0 hw d none hrec L nofun
      rw [buildMap_whole hrec] at hlaw ⊢
      have hlen : d.reverse.length ≤ 1048576 := by
        rw [List.length_reverse]
        omega
      exact ⟨hlaw, rfl, hlen, .inl ⟨hplaced, rfl⟩, fun _ => hplaced⟩
    | some a =>
      obtain ⟨hfull, x, hx, rfl⟩ := hspent a rfl
      have hlen := length_lostRecords x.lbn s.startup.nLog
      have hsum : (d.reverse ++ lostRecords x.lbn s.startup.nLog).length = 1044480 + (lostRecords x.lbn s.startup.nLog).length := by
        rw [List.length_append, List.length_reverse, hfull]
      rw [buildMap_spent hrec] at hlaw ⊢
      refine ⟨hlaw, rfl, ?_, .inr ⟨x.lbn, hlt x hx, ?_, resolve_spent hw hrec _, rfl, fun p => by rw [link_placeNotice]; rfl⟩,
        fun hfew => ?_⟩
      · rw [placeNotice_map, hsum]
        omega
      · rw [placeNotice_map, hsum]
        omega
      · cases hall (by omega)

end Sys2Proof.Machine
end

section
/-! PROOFS. The rebuild scan of a band: where it stops, what it lists and hands on, and how it ends (R17 to R19, R173). -/

namespace Sys2Proof.Machine
open Sys2Proof.Safety

variable {s : State} {r : BandRebuild} {o : Nat}

/-! ### What a sector hands on -/

/-- The values that DATA and NOTE sectors have found, with the band's record (R173, R175). -/
def withFound (b : Nat) (x : Band) (f : Found) (s : State) : State :=
  updFound (fun _ => f) (putBand b x s)

theorem foundData_eq {b q : Nat} {x : Band} (h : band? s b = some x) (openSeq offset lbn : Nat) :
    foundData b openSeq offset lbn q s =
      withFound b { x with minSeq := leastOf [x.minSeq, some q] }
        { s.startup.found with
          winners :=
            if lbn < s.startup.nLog then addCopy { lbn := lbn, seq := q, band := b, offset := offset, openSeq := openSeq } s.startup.found.winners
            else s.startup.found.winners }
        s := by
  rw [foundData, updBand_eq_putBand h]
  refine congrArg (fun f => withFound b _ f s) (?_ : (if lbn < s.startup.nLog then _ else _) = _)
  split <;> rfl

theorem foundNote_eq {b q : Nat} {x : Band} (h : band? s b = some x) (first length : Nat) :
    foundNote b first length q s =
      withFound b { x with notes := x.notes + 1, minSeq := leastOf [x.minSeq, some q] }
        { s.startup.found with notes := s.startup.found.notes ++ [{ first := first, length := length, seq := q }] } s := by
  rw [foundNote, updBand_eq_putBand h]
  rfl

/-! ### One sector of the scan -/

/-- A sector stops the scan: invalid for the band, of another stamp, or of a kind other than DATA or NOTE; an unwritten trailer is one of
these (R9, R173 step 5). -/
theorem stopsScan_iff (r : BandRebuild) (y : Sector) :
    stopsScan r y = true ↔
      y.trailer.band.toNat ≠ r.band ∨ y.trailer.stamp.toNat ≠ r.stamp ∨ (y.trailer.kind ≠ 2 ∧ y.trailer.kind ≠ 3) := by
  have hdata : codeData = 2 := rfl
  have hnote : codeNote = 3 := rfl
  by_cases hkind : y.trailer.kind = 2 ∨ y.trailer.kind = 3
  · have hvalid : trailerValidFor y.trailer r.band = (y.trailer.band.toNat == r.band) := by
      rcases hkind with hk | hk <;> rw [trailerValidFor, hk] <;> rfl
    have hscanned : (y.trailer.kind == codeData || y.trailer.kind == codeNote) = true := by
      rw [hdata, hnote, Bool.or_eq_true, beq_iff_eq, beq_iff_eq]
      exact hkind
    have hwritten : trailerUnwritten y.trailer = false := by
      rcases hkind with hk | hk <;> rw [trailerUnwritten, hk] <;> rfl
    rw [stopsScan, hvalid, hscanned, hwritten, Bool.false_or, Bool.not_true, Bool.or_false, Bool.or_eq_true, Bool.not_eq_true', bne_iff_ne,
      beq_eq_false_iff_ne]
    exact ⟨fun h => h.imp id .inl, fun h => h.imp id fun h => h.resolve_right fun hne => hkind.elim hne.1 hne.2⟩
  · have hscanned : (y.trailer.kind == codeData || y.trailer.kind == codeNote) = false := by
      rw [hdata, hnote, Bool.or_eq_false_iff, beq_eq_false_iff_ne, beq_eq_false_iff_ne]
      exact not_or.mp hkind
    rw [stopsScan, hscanned]
    exact ⟨fun _ => .inr (.inr (not_or.mp hkind)), fun _ => Bool.or_true _⟩

/-- The scan goes on behind a sector that does not stop it, with the chain checked (R18, R19, R173). -/
theorem scanSectors_passed {y : Sector} (h : ¬stopsScan r y = true) (xs : List (Option Sector)) (s : State) :
    scanSectors o (some y :: xs) r s =
      scanSectors (o + 1) xs
        (let c := checkSector (bandSeed r.band r.stamp) o (some y) r.pred r.firstBreak
        { r with pred := c.1, firstBreak := c.2, lastChain := some y.trailer.chain })
        (foundSector r.band r.openSeq o y s) := by
  rw [scanSectors, if_neg (by simpa using h)]
  simp only [unreadableOffsets, List.append_nil]
  rfl

theorem scanSectors_unreadable (xs : List (Option Sector)) (s : State) :
    scanSectors o (none :: xs) r s =
      scanSectors (o + 1) xs { r with pred := none, lastChain := none, unreadable := r.unreadable ++ [o] } s := by
  rw [scanSectors, if_neg (by simp)]
  rfl

theorem scanSectors_stopped {y : Sector} (h : stopsScan r y = true) (xs : List (Option Sector)) (s : State) :
    scanSectors o (some y :: xs) r s = ((r, some o), s) := by
  rw [scanSectors, if_pos (by simpa using h)]

/-! ### The end of the scan -/

/-- The finding that a band's scan leaves (R175). -/
def findingOf (r : BandRebuild) : Finding :=
  { band := r.band, firstBreak := r.firstBreak, unreadable := r.unreadable }

/-- A band's record after its rebuild, with the finding of its scan, if any (R173). -/
def rebuilt (b : Nat) (x : Band) (f : Option Finding) (s : State) : State :=
  updStart
    (fun y => { y with bandsRebuilt := y.bandsRebuilt + 1, found := { y.found with findings := y.found.findings ++ f.toList } })
    (putBand b x s)

theorem closeRebuild_eq {b : Nat} {x : Band} (h : band? s b = some x) (wp : Nat) (chain : Option Chain) (f : Option Finding) :
    closeRebuild b wp chain f s = rebuilt b { x with wp := wp, chain := chain } f s := by
  rw [closeRebuild, updBand_eq_putBand h]
  rfl

/-- The end of a scan, with the chain of the sector before, or a free value (R173 step 5; assumption 7). -/
theorem endBandScan_chain {c : Chain} (h : r.lastChain = some c) (wp : Nat) (s : State) :
    endBandScan r wp s = closeRebuild r.band wp (some c) (some (findingOf r)) s := by
  rw [endBandScan, h]
  rfl

theorem endBandScan_unread (h : r.lastChain = none) (wp : Nat) (s : State) :
    endBandScan r wp s =
      closeRebuild r.band wp (some (Config.unreadChain s.freeCount)) (some (findingOf r)) { s with freeCount := s.freeCount + 1 } := by
  rw [endBandScan, h]
  rfl

variable {x : Band}

theorem endRebuildRead_stopped (h : band? s r.band = some x) (hp : r.phase = .scan) {r' : BandRebuild} {t : State}
    (hout : scanSectors r.first r.buffer r s = ((r', some o), t)) : endRebuildRead r s = nextBand r.band (endBandScan r' o t) := by
  rw [endRebuildRead, h]
  dsimp only
  rw [hp]
  dsimp only
  rw [hout]

theorem endRebuildRead_unstopped (h : band? s r.band = some x) (hp : r.phase = .scan) {r' : BandRebuild} {t : State}
    (hout : scanSectors r.first r.buffer r s = ((r', none), t)) :
    endRebuildRead r s =
      if bandC s x - 4 ≤ r.first + r.count then nextBand r.band (endBandScan r' (r.first + r.count) t)
      else setStage (.rebuild (nextScan (r.first + r.count) (bandC s x) r')) t := by
  rw [endRebuildRead, h]
  dsimp only
  rw [hp]
  dsimp only
  rw [hout]

/-- Settles O53: sector by sector, then the end of the scan or its next run. -/
theorem rebuildScanStopsAndLists : Obligations.RebuildScanStopsAndLists := by
  refine ⟨fun s r o x xs => ⟨rfl, ?_, ?_, ?_, ?_⟩, fun s r x h hp => ⟨fun t y r' o hout hband hy => ?_, fun t r' hout hmore => ?_⟩⟩
  · rintro y rfl hstops
    exact scanSectors_stopped ((stopsScan_iff r y).mpr hstops) xs s
  · rintro rfl
    exact scanSectors_unreadable xs s
  · rintro y b rfl hpass hk hb
    refine (scanSectors_passed (mt (stopsScan_iff r y).mp hpass) xs s).trans (congrArg _ ?_)
    rw [foundSector, if_pos (show _ = codeData from hk), foundData_eq hb]
    rfl
  · rintro y b rfl hpass hk hb
    refine (scanSectors_passed (mt (stopsScan_iff r y).mp hpass) xs s).trans (congrArg _ ?_)
    rw [foundSector, if_neg (by rw [hk]; decide), foundNote_eq hb]
    rfl
  · have hend : endRebuildRead r s = nextBand r.band (endBandScan r' o t) := by
      rcases hout with hout | ⟨hout, hlast, rfl⟩
      · exact endRebuildRead_stopped h hp hout
      · rw [endRebuildRead_unstopped h hp hout, if_pos hlast]
    refine ⟨endBandScan r' o t, hend, ?_⟩
    cases hc : r'.lastChain with
    | some c =>
      rw [endBandScan_chain hc, hband, closeRebuild_eq hy]
      refine ⟨fun n hn => band?_putBand_other _ hn, fun c' hcc => Option.some.inj hcc ▸ band?_putBand hy _, nofun, ?_, rfl, rfl⟩
      rw [findingOf, hband]
      rfl
    | none =>
      rw [endBandScan_unread hc, hband, closeRebuild_eq (s := { t with freeCount := t.freeCount + 1 }) hy]
      refine ⟨fun n hn => band?_putBand_other _ hn, nofun, fun _ => ⟨_, band?_putBand hy _, rfl⟩, ?_, rfl, rfl⟩
      rw [findingOf, hband]
      rfl
  · rw [endRebuildRead_unstopped h hp hout, if_neg (Nat.not_le_of_lt hmore)]
    rfl

end Sys2Proof.Machine
end

section
/-! PROOFS. The rebuild of a band by its header and its summary (R173, R175). -/

namespace Sys2Proof.Machine
open Sys2Proof.Safety

variable {s : State} {r : BandRebuild} {x : Band} {b : Nat}

/-! ### The least of several sequences -/

theorem leastOf_single : ∀ a : Option Nat, leastOf [a] = a
  | none => rfl
  | some _ => rfl

/-- The least so far, and the rest. -/
theorem leastOf_append : ∀ (l m : List (Option Nat)), leastOf (l ++ m) = leastOf (leastOf l :: m)
  | [], _ => rfl
  | none :: l, m => leastOf_append l m
  | some a :: l, m => by
    rw [List.cons_append, leastOf, leastOf_append l m]
    cases hl : leastOf l with
    | none =>
      rw [leastOf.eq_2, leastOf.eq_3 a l, hl]
      exact (leastOf.eq_3 a m).symm
    | some c =>
      rw [leastOf.eq_3 c, leastOf.eq_3 a l, hl]
      dsimp only
      rw [leastOf.eq_3]
      cases leastOf m with
      | none => rfl
      | some d => exact congrArg some (Nat.min_assoc a c d).symm

theorem leastOf_swap (a c : Option Nat) (l : List (Option Nat)) : leastOf (a :: c :: l) = leastOf (c :: a :: l) := by
  have hpair : leastOf [a, c] = leastOf [c, a] := by
    cases a <;> cases c <;> simp [leastOf, Nat.min_comm]
  rw [show a :: c :: l = [a, c] ++ l from rfl, leastOf_append, hpair, ← leastOf_append]
  rfl

theorem leastOf_cons : ∀ (a : Option Nat) (l : List (Option Nat)), leastOf (a :: l) = leastOf [a, leastOf l]
  | none, l => (leastOf_single (leastOf l)).symm
  | some a, l => by rw [leastOf.eq_3, leastOf.eq_3, leastOf_single]

/-- The least does not depend on the order. -/
theorem leastOf_perm {l m : List (Option Nat)} (h : l.Perm m) : leastOf l = leastOf m := by
  induction h with
  | nil => rfl
  | cons a _ ih => rw [leastOf_cons, ih, ← leastOf_cons]
  | swap a c l => exact leastOf_swap c a l
  | trans _ _ ih₁ ih₂ => exact ih₁.trans ih₂

/-! ### The band record and the found values that a read leaves -/

theorem withFound_self (h : band? s b = some x) : withFound b x s.startup.found s = s := by
  rw [withFound, putBand_self h]
  rfl

theorem band?_withFound (h : band? s b = some x) (y : Band) (f : Found) : band? (withFound b y f s) b = some y :=
  band?_putBand h y

theorem withFound_withFound (y z : Band) (f g : Found) : withFound b z g (withFound b y f s) = withFound b z g s := by
  simp only [withFound, updFound, updStart, putBand, List.set_set]

/-- The copies among a list, below N_log, join the winners (R170, R174). -/
def addCopies (nLog : Nat) (l : List FoundCopy) (winners : List FoundCopy) : List FoundCopy :=
  (l.filter fun c => c.lbn < nLog).foldl (fun l c => addCopy c l) winners

theorem addCopies_cons (nLog : Nat) (c : FoundCopy) (l winners : List FoundCopy) :
    addCopies nLog (c :: l) winners = addCopies nLog l (if c.lbn < nLog then addCopy c winners else winners) := by
  rw [addCopies]
  by_cases h : c.lbn < nLog
  · rw [List.filter_cons_of_pos (by simpa using h), if_pos h]
    rfl
  · rw [List.filter_cons_of_neg (by simpa using h), if_neg h]
    rfl

theorem addCopies_append (nLog : Nat) (l m winners : List FoundCopy) :
    addCopies nLog (l ++ m) winners = addCopies nLog m (addCopies nLog l winners) := by
  rw [addCopies, List.filter_append, List.foldl_append]
  rfl

/-! ### The entries of a usable summary -/

/-- The copy that sector i of a DATA entry gives (R173 step 4). -/
def entryCopy (b openSeq : Nat) (e : SummaryEntry) (i : Nat) : FoundCopy :=
  { lbn := e.start + i, seq := e.seq, band := b, offset := e.offset + i, openSeq := openSeq }

/-- What a DATA entry's sectors give, those of a list of positions. -/
theorem foundData_foldl (openSeq : Nat) (e : SummaryEntry) : ∀ (l : List Nat) {s : State} {x : Band}, band? s b = some x →
    l.foldl (fun s i => foundData b openSeq (e.offset + i) (e.start + i) e.seq s) s =
      withFound b { x with minSeq := leastOf (x.minSeq :: l.map fun _ => some e.seq) }
        { s.startup.found with winners := addCopies s.startup.nLog (l.map (entryCopy b openSeq e)) s.startup.found.winners } s
  | [], s, x, h => by
    rw [List.map_nil, leastOf_single]
    exact (withFound_self h).symm
  | i :: l, s, x, h => by
    rw [List.foldl_cons, foundData_eq h, foundData_foldl openSeq e l (band?_withFound h _ _), withFound_withFound, List.map_cons, List.map_cons,
      addCopies_cons, show x.minSeq :: some e.seq :: l.map _ = [x.minSeq, some e.seq] ++ l.map _ from rfl, leastOf_append]
    rfl

/-- The copies that an entry gives. -/
def entryCopies (b openSeq : Nat) (e : SummaryEntry) : List FoundCopy :=
  if e.kind = .data then (List.range e.length).map (entryCopy b openSeq e) else []

/-- The notes that an entry gives. -/
def entryNotes (e : SummaryEntry) : List FoundNote :=
  if e.kind = .data then [] else [{ first := e.start, length := e.length, seq := e.seq }]

/-- What a summary's entries give to the band's record. -/
def entriesBand (b openSeq : Nat) (es : List SummaryEntry) (x : Band) : Band :=
  { x with
    notes := x.notes + (es.flatMap entryNotes).length
    minSeq := leastOf (x.minSeq :: es.flatMap fun e => (entryCopies b openSeq e).map (fun c => some c.seq) ++ (entryNotes e).map fun n => some n.seq) }

/-- What a summary's entries give to the map build. -/
def entriesFound (b openSeq nLog : Nat) (es : List SummaryEntry) (f : Found) : Found :=
  { f with
    winners := addCopies nLog (es.flatMap (entryCopies b openSeq)) f.winners
    notes := f.notes ++ es.flatMap entryNotes
    highest := es.foldl (fun q e => some (max e.seq (q.getD 0))) f.highest }

theorem foundEntry_eq (openSeq : Nat) (e : SummaryEntry) (h : band? s b = some x) :
    foundEntry b openSeq e s = withFound b (entriesBand b openSeq [e] x) (entriesFound b openSeq s.startup.nLog [e] s.startup.found) s := by
  rw [foundEntry]
  cases hk : e.kind with
  | data =>
    have hnotes : [e].flatMap entryNotes = [] := by rw [List.flatMap_singleton, entryNotes, if_pos hk]
    have hcopies : entryCopies b openSeq e = (List.range e.length).map (entryCopy b openSeq e) := if_pos hk
    have hseqs : ([e].flatMap fun e => (entryCopies b openSeq e).map (fun c => some c.seq) ++ (entryNotes e).map fun n => some n.seq) =
        (List.range e.length).map fun _ => some e.seq := by
      rw [List.flatMap_singleton, entryNotes, if_pos hk, hcopies, List.map_nil, List.append_nil, List.map_map]
      rfl
    dsimp only
    rw [foundData_foldl openSeq e _ h, entriesBand, entriesFound, hnotes, hseqs, List.flatMap_singleton, hcopies, List.append_nil]
    rfl
  | note =>
    have hne : ¬e.kind = .data := by rw [hk]; nofun
    have hnotes : [e].flatMap entryNotes = [{ first := e.start, length := e.length, seq := e.seq }] := by
      rw [List.flatMap_singleton, entryNotes, if_neg hne]
    have hcopies : entryCopies b openSeq e = [] := if_neg hne
    have hseqs : ([e].flatMap fun e => (entryCopies b openSeq e).map (fun c => some c.seq) ++ (entryNotes e).map fun n => some n.seq) =
        [some e.seq] := by
      rw [List.flatMap_singleton, entryNotes, if_neg hne, hcopies]
      rfl
    dsimp only
    rw [foundNote_eq h, entriesBand, entriesFound, hnotes, hseqs, List.flatMap_singleton, hcopies]
    rfl

theorem foundEntry_foldl (openSeq : Nat) : ∀ (es : List SummaryEntry) {s : State} {x : Band}, band? s b = some x →
    es.foldl (fun s e => foundEntry b openSeq e s) s =
      withFound b (entriesBand b openSeq es x) (entriesFound b openSeq s.startup.nLog es s.startup.found) s
  | [], s, x, h => by
    rw [entriesBand, entriesFound, List.flatMap_nil, List.flatMap_nil, leastOf_single, List.append_nil]
    exact (withFound_self h).symm
  | e :: es, s, x, h => by
    rw [List.foldl_cons, foundEntry_eq openSeq e h, foundEntry_foldl openSeq es (band?_withFound h _ _), withFound_withFound]
    have hband : entriesBand b openSeq es (entriesBand b openSeq [e] x) = entriesBand b openSeq (e :: es) x := by
      simp only [entriesBand, List.flatMap_cons, List.flatMap_nil, List.append_nil, List.length_append, ← leastOf_append, List.cons_append,
        Nat.add_assoc]
    have hfound : entriesFound b openSeq s.startup.nLog es (entriesFound b openSeq s.startup.nLog [e] s.startup.found) =
        entriesFound b openSeq s.startup.nLog (e :: es) s.startup.found := by
      rw [show e :: es = [e] ++ es from rfl]
      simp only [entriesFound, List.flatMap_append, addCopies_append, List.append_assoc, List.foldl_append]
    rw [hband]
    exact congrArg (fun f => withFound b _ f s) hfound

/-! ### The header, the anomaly read, and the summary -/

/-- A trailer is valid for a band: one of the four kinds, and the band's number (R9). -/
theorem trailerValidFor_iff (t : Trailer) (b : Nat) :
    trailerValidFor t b = true ↔ t.band.toNat = b ∧ 1 ≤ t.kind.toNat ∧ t.kind.toNat ≤ 4 := by
  have hkinds : ((t.kind = 1 ∨ t.kind = 2) ∨ t.kind = 3) ∨ t.kind = 4 ↔ 1 ≤ t.kind.toNat ∧ t.kind.toNat ≤ 4 := by
    simp only [BitVec.toNat_eq, BitVec.reduceToNat]
    omega
  simp only [trailerValidFor, Bool.and_eq_true, Bool.or_eq_true, beq_iff_eq]
  exact (and_congr_left' hkinds).trans and_comm

theorem headerValid_iff (b : Nat) (h : Sector) :
    headerValid b h = true ↔ h.trailer.kind = 1 ∧ h.trailer.band.toNat = b ∧ 1 ≤ h.trailer.stamp.toNat := by
  have hkind : codeHeader = 1 := rfl
  rw [headerValid, trailerValidFor, hkind]
  by_cases hk : h.trailer.kind = 1
  · simp only [hk, beq_self_eq_true, Bool.true_or, Bool.true_and, Bool.and_true, Bool.and_eq_true, beq_iff_eq, decide_eq_true_iff, true_and]
  · simp only [hk, beq_eq_false_iff_ne.mpr hk, Bool.and_false, Bool.false_and, Bool.false_eq_true, false_and]

theorem endRebuildRead_header {h : Sector} (hb : band? s r.band = some x) (hp : r.phase = .header) (hbuf : r.buffer = [some h])
    (hgood : headerValid r.band h = true) :
    endRebuildRead r s =
      setStage
        (.rebuild
          { r with
            phase := .summary, first := bandC s x - 4, count := 4, buffer := [], stamp := h.trailer.stamp.toNat
            openSeq := h.trailer.sequence.toNat, lastChain := some h.trailer.chain })
        (withFound r.band { x with state := .filled, stamp := h.trailer.stamp.toNat, openSeq := some h.trailer.sequence.toNat }
          (seenSeq h.trailer.sequence.toNat s.startup.found) s) := by
  have hhead : r.buffer.head?.join.filter (headerValid r.band) = some h := by
    rw [hbuf]
    exact if_pos hgood
  rw [endRebuildRead, hb]
  dsimp only
  rw [hp]
  dsimp only
  rw [hhead]
  dsimp only
  rw [updBand_eq_putBand hb]
  rfl

theorem endRebuildRead_noHeader {y : Option Sector} (hb : band? s r.band = some x) (hp : r.phase = .header) (hbuf : r.buffer = [y])
    (hbad : ∀ h, y = some h → ¬headerValid r.band h = true) :
    endRebuildRead r s =
      setStage (.rebuild { r with phase := .anomaly, first := 1, count := min 1023 (bandC s x - 5), buffer := [] }) s := by
  have hhead : r.buffer.head?.join.filter (headerValid r.band) = none := by
    rw [hbuf]
    cases y with
    | none => rfl
    | some h => exact if_neg (hbad h rfl)
  rw [endRebuildRead, hb]
  dsimp only
  rw [hp]
  dsimp only
  rw [hhead]

/-- The DATA and NOTE trailers valid for a band count for the sequence counter (R175; assumption 12). -/
theorem seenAnomaly_foldl (b : Nat) : ∀ (l : List (Option Sector)) (f : Found),
    l.foldl (fun f x => seenAnomaly b x f) f =
      { f with
        highest :=
          ((l.filterMap id).filter fun h => h.trailer.band.toNat = b ∧ (h.trailer.kind = 2 ∨ h.trailer.kind = 3)).foldl
            (fun q h => some (max h.trailer.sequence.toNat (q.getD 0))) f.highest }
  | [], f => rfl
  | none :: l, f => seenAnomaly_foldl b l f
  | some h :: l, f => by
    have hcounts : (trailerValidFor h.trailer b && (h.trailer.kind == codeData || h.trailer.kind == codeNote)) = true ↔
        h.trailer.band.toNat = b ∧ (h.trailer.kind = 2 ∨ h.trailer.kind = 3) := by
      rw [Bool.and_eq_true, trailerValidFor_iff, Bool.or_eq_true, beq_iff_eq, beq_iff_eq]
      constructor
      · rintro ⟨⟨hband, -⟩, hkind⟩
        exact ⟨hband, hkind⟩
      · rintro ⟨hband, hk | hk⟩
        · exact ⟨⟨hband, by rw [hk]; decide⟩, .inl hk⟩
        · exact ⟨⟨hband, by rw [hk]; decide⟩, .inr hk⟩
    rw [List.foldl_cons, seenAnomaly_foldl b l, seenAnomaly, show (some h :: l).filterMap id = h :: l.filterMap id from rfl]
    by_cases hc : h.trailer.band.toNat = b ∧ (h.trailer.kind = 2 ∨ h.trailer.kind = 3)
    · rw [if_pos (hcounts.mpr hc), List.filter_cons_of_pos (by simpa using hc)]
      rfl
    · rw [if_neg (mt hcounts.mp hc), List.filter_cons_of_neg (by simpa using hc)]

theorem anomaly_iff (b : Nat) (l : List (Option Sector)) :
    (l.any fun x => x.any fun sec => trailerValidFor sec.trailer b) = true ↔
      ∃ h, some h ∈ l ∧ h.trailer.band.toNat = b ∧ 1 ≤ h.trailer.kind.toNat ∧ h.trailer.kind.toNat ≤ 4 := by
  rw [List.any_eq_true]
  constructor
  · rintro ⟨y, hy, hvalid⟩
    cases y with
    | none => cases hvalid
    | some h => exact ⟨h, hy, (trailerValidFor_iff _ b).mp hvalid⟩
  · rintro ⟨h, hmem, hvalid⟩
    exact ⟨some h, hmem, (trailerValidFor_iff _ b).mpr hvalid⟩

/-- The state in which a band without a valid header goes on (R173 step 2). -/
theorem endRebuildRead_anomaly (hb : band? s r.band = some x) (hp : r.phase = .anomaly) :
    endRebuildRead r s =
      nextBand r.band
        (closeRebuild r.band 0 none none
          (let t := updFound (fun f => r.buffer.foldl (fun f x => seenAnomaly r.band x f) f) s
          if r.buffer.any (fun x => x.any fun sec => trailerValidFor sec.trailer r.band) then placeNotice .rebuildAnomaly (some r.band) t
          else t)) := by
  rw [endRebuildRead, hb]
  dsimp only
  rw [hp]

theorem endRebuildRead_usable {es : List SummaryEntry} {chain : Chain} (hb : band? s r.band = some x) (hp : r.phase = .summary)
    (hu : usableSummary r = some (es, chain)) :
    endRebuildRead r s =
      nextBand r.band
        (closeRebuild r.band (1 + (es.map entrySectors).sum) (some chain) none
          (updBand r.band (fun y => { y with summaryPresent := true }) (es.foldl (fun s e => foundEntry r.band r.openSeq e s) s))) := by
  rw [endRebuildRead, hb]
  dsimp only
  rw [hp]
  dsimp only
  rw [hu]

theorem endRebuildRead_unusable (hb : band? s r.band = some x) (hp : r.phase = .summary) (hu : usableSummary r = none) :
    endRebuildRead r s = setStage (.rebuild (nextScan 1 (bandC s x) { r with pred := some (bandSeed r.band r.stamp) })) s := by
  rw [endRebuildRead, hb]
  dsimp only
  rw [hp]
  dsimp only
  rw [hu]

/-! ### What the entries give, kind by kind -/

theorem flatMap_entryCopies (b openSeq : Nat) : ∀ es : List SummaryEntry,
    es.flatMap (entryCopies b openSeq) =
      (es.filter fun e => e.kind = .data).flatMap fun e => (List.range e.length).map (entryCopy b openSeq e)
  | [] => rfl
  | e :: es => by
    rw [List.flatMap_cons, flatMap_entryCopies b openSeq es, entryCopies]
    by_cases hk : e.kind = .data
    · rw [if_pos hk, List.filter_cons_of_pos (by simpa using hk), List.flatMap_cons]
    · rw [if_neg hk, List.filter_cons_of_neg (by simpa using hk), List.nil_append]

theorem flatMap_entryNotes : ∀ es : List SummaryEntry,
    es.flatMap entryNotes = (es.filter fun e => e.kind = .note).map fun e => { first := e.start, length := e.length, seq := e.seq }
  | [] => rfl
  | e :: es => by
    rw [List.flatMap_cons, flatMap_entryNotes es, entryNotes]
    cases hk : e.kind with
    | data => rw [if_pos rfl, List.filter_cons_of_neg (by rw [hk]; decide), List.nil_append]
    | note =>
      rw [if_neg nofun, List.filter_cons_of_pos (by rw [hk]; decide)]
      rfl

/-- The sectors of the entries, kind by kind (R173 step 4). -/
theorem sum_entrySectors : ∀ es : List SummaryEntry,
    (es.map entrySectors).sum = ((es.filter fun e => e.kind = .data).map fun e => e.length).sum + (es.filter fun e => e.kind = .note).length
  | [] => rfl
  | e :: es => by
    rw [List.map_cons, List.sum_cons, sum_entrySectors es]
    cases hk : e.kind with
    | data =>
      have hsectors : entrySectors e = e.length := by rw [entrySectors, hk]
      rw [hsectors, List.filter_cons_of_pos (by rw [hk]; decide), List.filter_cons_of_neg (by rw [hk]; decide), List.map_cons, List.sum_cons]
      omega
    | note =>
      have hsectors : entrySectors e = 1 := by rw [entrySectors, hk]
      rw [hsectors, List.filter_cons_of_neg (by rw [hk]; decide), List.filter_cons_of_pos (by rw [hk]; decide), List.length_cons]
      omega

/-- The sequences that the entries give the band, in any order (R175). -/
theorem perm_entrySeqs (b openSeq : Nat) (es : List SummaryEntry) :
    (es.flatMap fun e => (entryCopies b openSeq e).map (fun c => some c.seq) ++ (entryNotes e).map fun n => some n.seq).Perm
      ((es.flatMap (entryCopies b openSeq)).map (fun c => some c.seq) ++ (es.flatMap entryNotes).map fun n => some n.seq) := by
  rw [List.map_flatMap, List.map_flatMap]
  exact (List.flatMap_append_perm es _ _).symm

/-! ### The usable summary -/

/-- A part is of the life of the header, with its own number and without the overflow mark (R173 step 3). -/
theorem partValid_iff (r : BandRebuild) (n : Nat) (p : Sector) :
    partValid r n p = true ↔
      p.trailer.kind = 4 ∧ p.trailer.band.toNat = r.band ∧ p.trailer.stamp.toNat = r.stamp ∧ p.trailer.sequence.toNat = r.openSeq ∧
        p.trailer.logical.toNat % 2 ^ 8 = n ∧ p.trailer.logical.toNat / 2 ^ 8 % 2 ^ 8 = 0 := by
  have hkind : codeSummary = 4 := rfl
  simp only [partValid, hkind, summaryPart, summaryOverflow, Bool.and_eq_true, trailerValidFor_iff, beq_iff_eq, Bool.not_eq_true', bne_eq_false_iff_eq]
  constructor
  · rintro ⟨⟨⟨⟨⟨⟨hband, -⟩, hk⟩, hstamp⟩, hseq⟩, hpart⟩, hover⟩
    exact ⟨hk, hband, hstamp, hseq, hpart, hover⟩
  · rintro ⟨hk, hband, hstamp, hseq, hpart, hover⟩
    exact ⟨⟨⟨⟨⟨⟨hband, by rw [hk]; decide⟩, hk⟩, hstamp⟩, hseq⟩, hpart⟩, hover⟩

/-- A usable summary's four parts could be read. -/
theorem usableSummary_unreadable {n : Nat} (hn : r.buffer[n]? = some none) : usableSummary r = none := by
  rw [usableSummary]
  split
  · next p0 p1 p2 p3 hbuf =>
    rw [hbuf] at hn
    have hmem := List.mem_of_getElem? hn
    simp at hmem
  · rfl

section
variable (p0 p1 p2 p3 : Sector)

theorem forall_parts (P : Nat → Sector → Prop) :
    (∀ n p, [p0, p1, p2, p3][n]? = some p → P n p) ↔ P 0 p0 ∧ P 1 p1 ∧ P 2 p2 ∧ P 3 p3 := by
  refine ⟨fun h => ⟨h 0 p0 rfl, h 1 p1 rfl, h 2 p2 rfl, h 3 p3 rfl⟩, fun ⟨h0, h1, h2, h3⟩ n p hp => ?_⟩
  match n, hp with
  | 0, rfl => exact h0
  | 1, rfl => exact h1
  | 2, rfl => exact h2
  | 3, rfl => exact h3

theorem forall_nextParts (Q : Sector → Sector → Prop) :
    (∀ n p q, [p0, p1, p2, p3][n]? = some p → [p0, p1, p2, p3][n + 1]? = some q → Q p q) ↔ Q p0 p1 ∧ Q p1 p2 ∧ Q p2 p3 := by
  refine ⟨fun h => ⟨h 0 p0 p1 rfl rfl, h 1 p1 p2 rfl rfl, h 2 p2 p3 rfl rfl⟩, fun ⟨h0, h1, h2⟩ n p q hp hq => ?_⟩
  match n, hp, hq with
  | 0, rfl, rfl => exact h0
  | 1, rfl, rfl => exact h1
  | 2, rfl, rfl => exact h2

/-- Four parts that could be read are usable when they are of one life, equal in entry count, and chained (R173 step 3). -/
def partsUsable (r : BandRebuild) : Prop :=
  (∀ n p, [p0, p1, p2, p3][n]? = some p → partValid r n p = true ∧ summaryCount p.trailer = summaryCount p0.trailer) ∧
  ∀ n p q, [p0, p1, p2, p3][n]? = some p → [p0, p1, p2, p3][n + 1]? = some q → q.trailer.chain = chainNext p.trailer.chain q.payload

theorem usableSummary_parts (hbuf : r.buffer = [some p0, some p1, some p2, some p3]) :
    (partsUsable p0 p1 p2 p3 r →
      usableSummary r =
        some (([p0, p1, p2, p3].flatMap fun p => unpackEntries 256 p.payload.toNat).take (summaryCount p0.trailer), p3.trailer.chain)) ∧
    (¬partsUsable p0 p1 p2 p3 r → usableSummary r = none) := by
  have htest : (partValid r 0 p0 && partValid r 1 p1 && partValid r 2 p2 && partValid r 3 p3 &&
      summaryCount p1.trailer == summaryCount p0.trailer && summaryCount p2.trailer == summaryCount p0.trailer &&
      summaryCount p3.trailer == summaryCount p0.trailer && p1.trailer.chain == chainNext p0.trailer.chain p1.payload &&
      p2.trailer.chain == chainNext p1.trailer.chain p2.payload && p3.trailer.chain == chainNext p2.trailer.chain p3.payload) = true ↔
      partsUsable p0 p1 p2 p3 r := by
    rw [partsUsable, forall_parts p0 p1 p2 p3 fun n p => partValid r n p = true ∧ summaryCount p.trailer = summaryCount p0.trailer,
      forall_nextParts p0 p1 p2 p3 fun p q => q.trailer.chain = chainNext p.trailer.chain q.payload]
    simp only [Bool.and_eq_true, beq_iff_eq]
    tauto
  rw [usableSummary, hbuf]
  exact ⟨fun h => if_pos (htest.mpr h), fun h => if_neg (mt htest.mp h)⟩

end

/-- Settles O52: the header, the anomaly read, the usable summary with its entries, the unusable one, and the delivery of the read. -/
theorem rebuildReadsHeaderAndSummary : Obligations.RebuildReadsHeaderAndSummary := by
  refine ⟨fun s r x y hb hp hbuf => ⟨?_, fun hbad => ?_⟩, fun s r x hb hp => ?_, fun r p0 p1 p2 p3 hbuf => ?_,
    fun r n _ hn => usableSummary_unreadable hn, fun s r x es chain hb hp hu => ?_, fun s r x hb hp hu => ?_, ?_⟩
  · rintro h rfl hgood
    exact endRebuildRead_header hb hp hbuf ((headerValid_iff r.band h).mpr hgood)
  · exact endRebuildRead_noHeader hb hp hbuf fun h hy hv => hbad h hy ((headerValid_iff r.band h).mp hv)
  · have hany := anomaly_iff r.band r.buffer
    have hread : band? (updFound (fun f => r.buffer.foldl (fun f x => seenAnomaly r.band x f) f) s) r.band = some x := hb
    refine ⟨_, endRebuildRead_anomaly hb hp, ?_⟩
    by_cases ha : (r.buffer.any fun x => x.any fun sec => trailerValidFor sec.trailer r.band) = true
    · rw [if_pos ha, closeRebuild_eq ((band?_placeNotice _ _ _ _).trans hread)]
      refine ⟨?_, fun _ p => (link_placeNotice _ _ _ p).trans rfl, fun hn => absurd (hany.mp ha) hn⟩
      simp only [rebuilt, updStart, updFound, putBand, placeNotice, seenAnomaly_foldl, Option.toList_none, List.append_nil]
    · rw [if_neg ha, closeRebuild_eq hread]
      refine ⟨?_, fun h => absurd (hany.mpr h) ha, fun _ => rfl⟩
      simp only [rebuilt, updStart, updFound, putBand, seenAnomaly_foldl, Option.toList_none, List.append_nil]
  · have hpart (n : Nat) (p : Sector) : (partValid r n p = true ∧ summaryCount p.trailer = summaryCount p0.trailer) ↔
        p.trailer.kind = 4 ∧ p.trailer.band.toNat = r.band ∧ p.trailer.stamp.toNat = r.stamp ∧ p.trailer.sequence.toNat = r.openSeq ∧
          p.trailer.logical.toNat % 2 ^ 8 = n ∧ p.trailer.logical.toNat / 2 ^ 8 % 2 ^ 8 = 0 ∧
          summaryCount p.trailer = summaryCount p0.trailer := by
      simp only [partValid_iff, and_assoc]
    have husable := usableSummary_parts p0 p1 p2 p3 hbuf
    simp only [partsUsable, hpart] at husable
    exact husable
  · have hnotes := flatMap_entryNotes es
    have hcopies := flatMap_entryCopies r.band r.openSeq es
    have hread := band?_withFound hb (entriesBand r.band r.openSeq es x) (entriesFound r.band r.openSeq s.startup.nLog es s.startup.found)
    refine ⟨_, endRebuildRead_usable hb hp hu, ?_⟩
    rw [foundEntry_foldl r.openSeq es hb, updBand_eq_putBand hread, closeRebuild_eq (band?_putBand hread _)]
    refine ⟨?_, rfl, fun n hn => ?_, ?_⟩
    · simp only [rebuilt, updStart, withFound, updFound, putBand, Option.toList_none, List.append_nil, entriesFound, hnotes, hcopies]
      rfl
    · exact (band?_putBand_other _ hn).trans ((band?_putBand_other _ hn).trans (band?_putBand_other _ hn))
    · refine (band?_putBand (band?_putBand hread _) _).trans ?_
      rw [entriesBand, leastOf_perm ((perm_entrySeqs r.band r.openSeq es).cons x.minSeq), hnotes, hcopies, sum_entrySectors, List.length_map,
        List.map_map]
      rfl
  · exact endRebuildRead_unusable hb hp hu
  · intro s op c r l ha hk howner hc hout hle hcount hd hl hstage
    have hexec : exec (.channelCompletion c) s = .next (settle (takeCompletion c s)) := rfl
    rw [hexec, takeCompletion_read ha hk hc hout hcount hd hl, deliverRead, howner, endRead, show (completedBy op c.k).owner = _ from howner]
    dsimp only
    rw [deliverStart, hstage, endStartRead]
    rfl

end Sys2Proof.Machine
end

section
/-! PROOFS. The end of the rebuild: counts, exposure, findings, the sequence counter, and RUNNING (R44, R167, R175). -/

namespace Sys2Proof.Machine
open Sys2Proof.Safety

variable {s : State} {r : Band} {f : Finding}

/-! ### One finding -/

/-- A finding is applied: its band is FILLED, and it has a break or an unreadable offset (R175). -/
def findingApplied (s : State) (f : Finding) : Bool :=
  (band? s f.band).any (fun r => r.state == .filled) && (f.firstBreak.isSome || !f.unreadable.isEmpty)

/-- A band record with a finding (R175). -/
def foundBand (f : Finding) (r : Band) : Band :=
  { r with
    causes := { r.causes with brk := r.causes.brk || f.firstBreak.isSome, media := r.causes.media || !f.unreadable.isEmpty }
    breakOffset := r.breakOffset.or f.firstBreak }

/-- A notice list after a finding that is applied: BAND_DUE, and BREAK_FOUND for a break (R175). -/
def findingNotices (l : List Notice) (f : Finding) : List Notice :=
  let l := takeNotice .bandDue (some f.band) l
  if f.firstBreak.isSome then takeNotice .breakFound (some f.band) l else l

/-- What a finding that is applied does. -/
structure FindingTaken (f : Finding) (r : Band) (s t : State) : Prop where
  frame : t =
    { s with
      links := t.links
      table := { s.table with bands := s.table.bands.set f.band (foundBand f r), due := s.table.due ++ [f.band] }
      agenda := { s.agenda with choice := true } }
  links : ∀ p, t.link p = { s.link p with notices := findingNotices (s.link p).notices f }

theorem applyFinding_skipped (h : findingApplied s f = false) : applyFinding f s = s := by
  rw [applyFinding]
  split
  · next hfilled =>
    rw [findingApplied, hfilled, Bool.true_and, Bool.or_eq_false_iff, Bool.not_eq_false'] at h
    rw [if_pos h.2]
    cases hb : f.firstBreak with
    | none => rfl
    | some o => rw [hb] at h; cases h.1
  · rfl

/-- A cause raised in a FILLED band that is due already is added only (R37). -/
theorem raiseCause_filled_due (h : band? s b = some r) (hf : r.state = .filled) (hdue : b ∈ s.table.due) (c : Cause) :
    raiseCause b c s = putBand b { r with causes := r.causes.add c } s := by
  rw [raiseCause, h]
  dsimp only
  rw [hf]
  dsimp only
  rw [updBand_eq_putBand h, ← hf]
  exact if_pos hdue

theorem applyFinding_unbroken (h : band? s f.band = some r) (hf : r.state = .filled) (hb : f.firstBreak = none) :
    applyFinding f s = if f.unreadable.isEmpty then s else raiseCause f.band .media s := by
  rw [applyFinding, if_pos (by rw [h]; exact beq_iff_eq.mpr hf), hb]

/-- A band with its break found: BREAK raised, its offset recorded, and the notice (R175). -/
def breakTaken (b o : Nat) (r : Band) (s : State) : State :=
  placeNotice .breakFound (some b)
    (putBand b { r with causes := { r.causes with brk := true }, breakOffset := some (r.breakOffset.getD o) }
      (dueWith b { r with causes := { r.causes with brk := true } } s))

theorem applyFinding_broken {o : Nat} (h : band? s f.band = some r) (hf : r.state = .filled) (hnot : f.band ∉ s.table.due)
    (hb : f.firstBreak = some o) :
    applyFinding f s =
      if f.unreadable.isEmpty then breakTaken f.band o r s else raiseCause f.band .media (breakTaken f.band o r s) := by
  have hraise : raiseCause f.band .brk s = dueWith f.band { r with causes := { r.causes with brk := true } } s := raiseCause_filled h hf hnot .brk
  rw [applyFinding, if_pos (by rw [h]; exact beq_iff_eq.mpr hf), hb]
  dsimp only
  rw [hraise, recordBreak, updBand_eq_putBand (band?_dueWith h _)]
  rfl

/-- The record of a band with its break found. -/
def brokenBand (o : Nat) (r : Band) : Band :=
  { r with causes := { r.causes with brk := true }, breakOffset := some (r.breakOffset.getD o) }

theorem breakTaken_eq (b o : Nat) (r : Band) (s : State) :
    breakTaken b o r s =
      { s with
        links := (breakTaken b o r s).links
        table := { s.table with bands := s.table.bands.set b (brokenBand o r), due := s.table.due ++ [b] }
        agenda := { s.agenda with choice := true } } := by
  simp only [breakTaken, dueWith, putBand, choiceDue, placeNotice, List.set_set]
  rfl

theorem link_breakTaken (b o : Nat) (r : Band) (s : State) (p : Port) :
    (breakTaken b o r s).link p =
      { s.link p with notices := takeNotice .breakFound (some b) (takeNotice .bandDue (some b) (s.link p).notices) } := by
  rw [breakTaken, link_placeNotice]
  exact congrArg (fun l : Link => { l with notices := takeNotice .breakFound (some b) l.notices }) (link_dueWith _ p)

theorem applyFinding_taken (h : band? s f.band = some r) (hf : r.state = .filled) (hnot : f.band ∉ s.table.due)
    (happ : findingApplied s f = true) : FindingTaken f r s (applyFinding f s) := by
  cases hb : f.firstBreak with
  | none =>
    have hu : f.unreadable.isEmpty = false := by simpa [findingApplied, hb] using And.right (Bool.and_eq_true_iff.mp happ)
    have hfound : foundBand f r = { r with causes := r.causes.add .media } := by
      rw [foundBand, hb, hu]
      simp only [Option.isSome_none, Bool.or_false, Bool.not_false, Bool.or_true, Option.or_none]
      rfl
    rw [applyFinding_unbroken h hf hb, if_neg (by rw [hu]; exact Bool.false_ne_true), raiseCause_filled h hf hnot]
    refine ⟨by rw [hfound]; rfl, fun p => ?_⟩
    rw [link_dueWith, findingNotices, hb]
    rfl
  | some o =>
    have hfound : foundBand f r =
        { brokenBand o r with causes := { (brokenBand o r).causes with media := r.causes.media || !f.unreadable.isEmpty } } := by
      rw [foundBand, hb]
      simp only [Option.isSome_some, Bool.or_true, Option.or_some]
      rfl
    have hlink (p : Port) : (breakTaken f.band o r s).link p = { s.link p with notices := findingNotices (s.link p).notices f } := by
      rw [link_breakTaken, findingNotices, hb]
      rfl
    rw [applyFinding_broken h hf hnot hb]
    cases hu : f.unreadable.isEmpty with
    | true =>
      have hbroken : foundBand f r = brokenBand o r := by
        rw [hfound, hu, Bool.not_true, Bool.or_false]
        rfl
      exact ⟨by rw [hbroken]; exact breakTaken_eq .., hlink⟩
    | false =>
      have hbroken : foundBand f r = { brokenBand o r with causes := (brokenBand o r).causes.add .media } := by
        rw [hfound, hu, Bool.not_false, Bool.or_true]
        rfl
      have hread : band? (breakTaken f.band o r s) f.band = some (brokenBand o r) := band?_putBand (band?_dueWith h _) _
      have hdue : f.band ∈ (breakTaken f.band o r s).table.due := by
        rw [breakTaken_eq]
        exact List.mem_append_right _ List.mem_cons_self
      rw [if_neg Bool.false_ne_true, raiseCause_filled_due hread hf hdue]
      refine ⟨?_, hlink⟩
      rw [hbroken]
      generalize hmedia : ({ brokenBand o r with causes := (brokenBand o r).causes.add .media } : Band) = y
      rw [breakTaken_eq]
      simp only [putBand, List.set_set]

/-! ### The findings, one by one -/

/-- What the findings do together. -/
structure FindingsTaken (applied : List Finding) (s t : State) : Prop where
  frame : t =
    { s with
      links := t.links
      table := { s.table with bands := t.table.bands, due := s.table.due ++ applied.map fun f => f.band }
      agenda := { s.agenda with choice := t.agenda.choice } }
  links : ∀ p, t.link p = { s.link p with notices := applied.foldl findingNotices (s.link p).notices }
  other : ∀ n, (∀ f ∈ applied, f.band ≠ n) → band? t n = band? s n
  found : ∀ f ∈ applied, ∀ r, band? s f.band = some r → band? t f.band = some (foundBand f r)

theorem findings_foldl : ∀ (l : List Finding) (s : State), (l.Pairwise fun f g => f.band < g.band) → (∀ f ∈ l, f.band ∉ s.table.due) →
    FindingsTaken (l.filter (findingApplied s)) s (l.foldl (fun s f => applyFinding f s) s)
  | [], s, _, _ => ⟨by simp, fun _ => rfl, fun _ _ => rfl, nofun⟩
  | f :: l, s, hp, hd => by
    obtain ⟨hf, hl⟩ := List.pairwise_cons.mp hp
    have hrest : ∀ g ∈ l, g.band ∉ s.table.due := fun g hg => hd g (List.mem_cons_of_mem _ hg)
    rw [List.foldl_cons]
    cases happ : findingApplied s f with
    | false =>
      rw [applyFinding_skipped happ, List.filter_cons_of_neg (by rw [happ]; exact Bool.false_ne_true)]
      exact findings_foldl l s hl hrest
    | true =>
      rw [List.filter_cons_of_pos happ]
      have hband : ∃ r, band? s f.band = some r ∧ r.state = .filled := by
        have hfilled := And.left (Bool.and_eq_true_iff.mp happ)
        cases hr : band? s f.band with
        | none => rw [hr] at hfilled; cases hfilled
        | some r =>
          rw [hr] at hfilled
          exact ⟨r, rfl, beq_iff_eq.mp hfilled⟩
      obtain ⟨r, hr, hfilled⟩ := hband
      have htaken := applyFinding_taken hr hfilled (hd f List.mem_cons_self) happ
      obtain ⟨hframe, hlinks⟩ := htaken
      have hother (n : Nat) (hn : n ≠ f.band) : band? (applyFinding f s) n = band? s n := by
        rw [hframe]
        exact List.getElem?_set_ne hn.symm
      have happlied : l.filter (findingApplied (applyFinding f s)) = l.filter (findingApplied s) :=
        List.filter_congr fun g hg => by rw [findingApplied, findingApplied, hother g.band (ne_of_gt (hf g hg))]
      have hdue : (applyFinding f s).table.due = s.table.due ++ [f.band] := by rw [hframe]
      have ih := findings_foldl l (applyFinding f s) hl fun g hg => by
        rw [hdue, List.mem_append, List.mem_singleton]
        exact not_or.mpr ⟨hrest g hg, ne_of_gt (hf g hg)⟩
      rw [happlied] at ih
      generalize l.foldl (fun s f => applyFinding f s) (applyFinding f s) = t at ih
      obtain ⟨ihframe, ihlinks, ihother, ihfound⟩ := ih
      refine ⟨?_, fun p => ?_, fun n hn => ?_, fun g hg x hx => ?_⟩
      · rw [ihframe, hframe]
        simp only [List.map_cons, List.append_assoc, List.singleton_append]
      · rw [ihlinks, hlinks]
        rfl
      · rw [ihother n fun g hg => hn g (List.mem_cons_of_mem _ hg), hother n (hn f List.mem_cons_self).symm]
      · rcases List.mem_cons.mp hg with rfl | hg
        · have hlast : ∀ k ∈ l.filter (findingApplied s), k.band ≠ g.band := fun k hk => ne_of_gt (hf k (List.mem_of_mem_filter hk))
          rw [ihother _ hlast, hframe, Option.some.inj (hx.symm.trans hr)]
          exact band?_putBand hr _
        · exact ihfound g hg x ((hother g.band (ne_of_gt (hf g (List.mem_of_mem_filter hg)))).trans hx)

/-! ### The records of the bands -/

theorem finishBandRecord_filled (m : List Extent) (T : Nat) (r : Band) :
    (finishBandRecord m T r).state = .filled ↔ r.state = .filled ∧ ¬(mediaBlocks m r.number = 0 ∧ r.notes = 0) := by
  rw [finishBandRecord]
  by_cases hf : r.state = .filled
  · rw [if_pos hf]
    dsimp only
    by_cases h0 : mediaBlocks m r.number = 0 ∧ r.notes = 0
    · rw [if_pos h0]
      exact ⟨nofun, fun h => absurd h0 h.2⟩
    · rw [if_neg h0]
      exact ⟨fun h => ⟨h, h0⟩, fun h => h.1⟩
  · rw [if_neg hf]
    exact ⟨fun h => absurd h hf, fun h => absurd h.1 hf⟩

/-- A band kept keeps its causes and its break offset (R175). -/
theorem finishBandRecord_kept {m : List Extent} {r : Band} (hf : r.state = .filled) (h : ¬(mediaBlocks m r.number = 0 ∧ r.notes = 0)) (T : Nat) :
    finishBandRecord m T r = { r with live := mediaBlocks m r.number, pins := 0, neglected := false, exposure := T / 2 } := by
  rw [finishBandRecord, if_pos hf]
  exact if_neg h

/-- The band table counted against the map built (R175). -/
def countBands (s : State) : State :=
  { s with
    table := { s.table with bands := s.table.bands.map (finishBandRecord s.map.records s.startup.image.threshold) } }

theorem band?_countBands (s : State) (n : Nat) :
    band? (countBands s) n = (band? s n).map (finishBandRecord s.map.records s.startup.image.threshold) :=
  List.getElem?_map ..

/-! ### The close -/

/-- The sequence counter and the engine state after the rebuild (R167, R175). -/
def rebuildClosed (s : State) : State :=
  offer (choiceDue (placeNotice .rebuildDone none
    (updStart (fun y => { y with engine := .running, stage := .finished, found := Found.nothing }) (resetCounter (freeLowTest s)))))

theorem finishRebuild_eq (s : State) :
    finishRebuild s =
      rebuildClosed
        ((countBands (buildMap s)).startup.found.findings.foldl (fun s f => applyFinding f s) (countBands (buildMap s))) := rfl

theorem resetCounter_eq (s : State) :
    resetCounter s =
      { s with staging := { s.staging with seqCounter := (resetCounter s).staging.seqCounter }, freeCount := (resetCounter s).freeCount } := by
  rw [resetCounter]
  split
  · rfl
  · split <;> rfl

theorem resetCounter_none (h : s.startup.found.highest = none) :
    (resetCounter s).staging.seqCounter = 1 ∧ (resetCounter s).freeCount = s.freeCount := by
  rw [resetCounter, h]
  exact ⟨rfl, rfl⟩

theorem resetCounter_some {q : Nat} (h : s.startup.found.highest = some q) (hq : q < 2 ^ 48 - 1) :
    (resetCounter s).staging.seqCounter = q + 1 ∧ (resetCounter s).freeCount = s.freeCount := by
  rw [resetCounter, h]
  dsimp only
  rw [if_pos hq]
  exact ⟨rfl, rfl⟩

/-- What the close does. -/
structure Closed (s t : State) : Prop where
  frame : t =
    { s with
      links := t.links
      table := { s.table with critical := decide (freeBands s ≤ s.startup.image.criticalMark) }
      staging := { s.staging with seqCounter := t.staging.seqCounter }
      startup := { s.startup with engine := .running, stage := .finished, found := Found.nothing }
      agenda := { s.agenda with offered := true, choice := true }
      freeCount := t.freeCount }
  links : ∀ p, t.link p =
    { s.link p with
      notices :=
        takeNotice .rebuildDone none
          (if freeBands s ≤ s.startup.image.criticalMark ∧ s.table.critical = false then takeNotice .freeLow none (s.link p).notices
          else (s.link p).notices) }
  unfound : s.startup.found.highest = none → t.staging.seqCounter = 1 ∧ t.freeCount = s.freeCount
  found : ∀ q, s.startup.found.highest = some q → q < 2 ^ 48 - 1 → t.staging.seqCounter = q + 1 ∧ t.freeCount = s.freeCount

theorem closed_rebuildClosed (s : State) : Closed s (rebuildClosed s) := by
  obtain ⟨hlow, hlink⟩ := freeLowTest_eq s
  rw [rebuildClosed]
  generalize freeLowTest s = v at hlow hlink ⊢
  have hfound : v.startup.found = s.startup.found := by rw [hlow]
  have hcount : v.freeCount = s.freeCount := by rw [hlow]
  have hreset := resetCounter_eq v
  have hresetLink (p : Port) : (resetCounter v).link p = v.link p := by rw [hreset]; rfl
  refine ⟨?_, fun p => ?_, fun h => ?_, fun q h hq => ?_⟩
  · rw [hreset, hlow]
    rfl
  · refine (link_placeNotice _ _ _ p).trans ?_
    rw [show (updStart _ (resetCounter v)).link p = _ from (hresetLink p).trans (hlink p)]
  · exact hcount ▸ resetCounter_none (s := v) (hfound ▸ h)
  · exact hcount ▸ resetCounter_some (s := v) (hfound ▸ h) hq

/-- The build changes the map, and the notice lists (R174). -/
theorem buildMap_eq (s : State) :
    buildMap s = { s with links := (buildMap s).links, map := (buildMap s).map } ∧
      ∀ p, (buildMap s).link p = { s.link p with notices := ((buildMap s).link p).notices } := by
  obtain ⟨⟨d, o⟩, hrec⟩ : ∃ out, mediaRecords s.startup.found.notes s.startup.found.winners [] 0 = out := ⟨_, rfl⟩
  cases o with
  | none =>
    rw [buildMap_whole hrec]
    exact ⟨rfl, fun _ => rfl⟩
  | some a =>
    rw [buildMap_spent hrec]
    refine ⟨rfl, fun p => ?_⟩
    rw [link_placeNotice]
    rfl

/-- Settles O55: the map, the bands counted, the findings, and the close. -/
theorem rebuildEndsInRunning : Obligations.RebuildEndsInRunning := by
  intro s hdue hpair m half kept counted applied t
  have ht : t = rebuildClosed
      ((countBands (buildMap s)).startup.found.findings.foldl (fun s f => applyFinding f s) (countBands (buildMap s))) := finishRebuild_eq s
  obtain ⟨hbuild, hbuildLink⟩ := buildMap_eq s
  have hstart : (countBands (buildMap s)).startup = s.startup := by rw [countBands, hbuild]
  have hcountedDue : (countBands (buildMap s)).table.due = [] := by rw [countBands, hbuild]; exact hdue
  have hcountedCount : (countBands (buildMap s)).freeCount = s.freeCount := by rw [countBands, hbuild]
  have hcountedCritical : (countBands (buildMap s)).table.critical = s.table.critical := by
    rw [countBands, hbuild]
  have htable : (buildMap s).table = s.table := by rw [hbuild]
  have hband (n : Nat) : band? (countBands (buildMap s)) n = (band? s n).map counted := by
    rw [band?_countBands, band?, htable, show (buildMap s).startup = s.startup from hstart]
    rfl
  have happlied : applied = s.startup.found.findings.filter (findingApplied (countBands (buildMap s))) := by
    refine List.filter_congr fun f _ => ?_
    have hkept (r : Band) : decide (kept r) = ((counted r).state == .filled) :=
      Bool.eq_iff_iff.mpr (decide_eq_true_iff.trans ((finishBandRecord_filled m s.startup.image.threshold r).symm.trans beq_iff_eq.symm))
    rw [findingApplied, hband, Option.any_map]
    exact congrArg (fun p => (band? s f.band).any p && _) (funext hkept)
  have hfindings := findings_foldl s.startup.found.findings (countBands (buildMap s)) hpair fun f _ => by
    rw [hcountedDue]
    exact List.not_mem_nil
  rw [← happlied] at hfindings
  rw [hstart] at ht
  generalize s.startup.found.findings.foldl _ _ = v at ht hfindings
  obtain ⟨hframe, hlinks, hother, hfound⟩ := hfindings
  have hclosed := closed_rebuildClosed v
  rw [← ht] at hclosed
  obtain ⟨hcframe, hclinks, hunfound, hcounter⟩ := hclosed
  have hbandClosed (n : Nat) : band? t n = band? v n := by rw [hcframe]; rfl
  have hfree : freeBands t = freeBands v := by rw [hcframe]; rfl
  have hvstart : v.startup = s.startup := by rw [hframe]; exact hstart
  have hvcount : v.freeCount = s.freeCount := by rw [hframe]; exact hcountedCount
  have hvcritical : v.table.critical = s.table.critical := by rw [hframe]; exact hcountedCritical
  refine ⟨fun n r hr => ⟨fun hnone => ?_, fun f hf hn => ?_⟩, ?_, ?_, fun p => ?_, ?_, fun h => ?_, fun q h hq => ?_⟩
  · rw [hbandClosed, hother n hnone, hband, hr]
    rfl
  · subst hn
    have happ := And.left (Bool.and_eq_true_iff.mp (List.mem_filter.mp hf).2)
    rw [hr] at happ
    obtain ⟨hfilled, hlives⟩ := of_decide_eq_true happ
    have hcounted : counted r = _ := finishBandRecord_kept hfilled hlives s.startup.image.threshold
    rw [hbandClosed, hfound f hf (counted r) (by rw [hband, hr]; rfl), hcounted]
    rfl
  · rw [hcframe, hframe]
    exact (congrArg (· ++ _) hcountedDue)
  · rw [hfree, ← hvstart]
    exact congrArg (fun x : State => x.table.critical) hcframe
  · rw [hclinks, hfree, hlinks, hvstart, hvcritical, show (countBands (buildMap s)).link p = _ from hbuildLink p]
    rfl
  · rw [hcframe, hframe, countBands, hbuild]
  · exact hvcount ▸ hunfound (hvstart ▸ h)
  · exact hvcount ▸ hcounter q (hvstart ▸ h) hq

end Sys2Proof.Machine
end
